-- ==== Sys2Proof/Word.lean ====
section
/-! DEFINITION. The word types of LYTF-Q8MM (10_state.md R31, R35, R40, R43; 00_scope.md R16). -/

namespace Sys2Proof

/-- One 8-bit byte of memory, or one int8 lane (R43, R51). -/
abbrev Byte := BitVec 8

/-- A 32-bit pattern: a command word, an int32 or a binary32 value (R16, R35). -/
abbrev Word32 := BitVec 32

/-- The contents of an argument register (R31). -/
abbrev Word64 := BitVec 64

/-- A 128-bit lane register: sixteen 8-bit lanes or four 32-bit lanes (R40). -/
abbrev Lanes := BitVec 128

end Sys2Proof
end

