-- ==== Sys2Proof/Config.lean ====
section
/-! DEFINITION. What is fixed for a launch (00_scope.md R6; 70_reset_and_hazards.md R252), and the free values:
the values that the spec calls draws (00_scope.md R20; 20_memory.md R65, R67). -/

namespace Sys2Proof

/-- `P_DOT_MODE` (R100, R102). -/
inductive DotMode where
  | exact
  | signTransfer
  deriving DecidableEq, Repr

/-- `P_INT_OVF` (R11). -/
inductive IntOvf where
  | fault
  | wrap
  deriving DecidableEq, Repr

/-- `P_ASYM_ORDER` (R144). -/
inductive AsymOrder where
  | leftToRight
  | scaleFirst
  deriving DecidableEq, Repr

/-- The kind of a memory access, `R` or `W` (R57). -/
inductive Kind where
  | read
  | write
  deriving DecidableEq, Repr

/-- A range of byte addresses that the caller has made available to the block, and for which kinds (R58).
The windows of a launch stand for `Admit`: see `Config.admitsByte`. -/
structure Window where
  base : Nat
  size : Nat
  read : Bool
  write : Bool
  deriving DecidableEq, Repr

/-- The launch parameters of R6. They are arguments of the model: the state carries them, no step changes them, and a
statement about every state holds for every value of them (assumption log 7). -/
structure Config where
  /-- `P_DOT_MODE`. -/
  dotMode : DotMode
  /-- `P_INT_OVF`. -/
  intOvf : IntOvf
  /-- `P_ASYM_ORDER`. -/
  asymOrder : AsymOrder
  /-- `P_DEBUG_CHECKS`. -/
  debugChecks : Bool
  /-- `ADDR_W`. -/
  addrW : Nat
  /-- `N_INST`. -/
  nInst : Nat
  /-- The launch memory `Admit`, as windows. -/
  windows : List Window
  deriving DecidableEq, Repr

/-- The defaults of R6. DESIGN CHOICE, unsafe (assumption log 7): R6 gives no default for `N_INST` and `Admit`; the
model takes one block and a launch memory that admits every address for both kinds. -/
def Config.default : Config where
  dotMode := .exact
  intOvf := .fault
  asymOrder := .leftToRight
  debugChecks := false
  addrW := 64
  nInst := 1
  windows := [⟨0, 2 ^ 64, true, true⟩]

/-- The sign of the NaN that draw number `n` of a command with operation code `opc` gives (R20, `P_NAN`): so the draws of
different commands are independent (R146, R180). No body: nothing is known of it. -/
opaque Config.freeNaNSign (opc : BitVec 8) (n : Nat) : Bool

/-- One less than the fraction of the NaN that draw number `n` of a command with operation code `opc` gives (R20,
`P_NAN`): a non-zero fraction is one of 2^23 - 1 values. No body: nothing is known of it. -/
opaque Config.freeNaNFraction (opc : BitVec 8) (n : Nat) : Fin (8388606 + 1)

/-- The ranges of bytes that a command with operation code `opc`, begun at draw number `n`, will write in accesses that
conflict with other agents' (R67): which they are can depend on what the command reads, and a read of such a byte returns
any value (assumption log 9). No body: nothing is known of it. -/
opaque Config.freeRanges (opc : BitVec 8) (n : Nat) : List (Nat × Nat)

/-- The byte that draw number `n` of a command with operation code `opc` gives for a racing byte (R65, R67). No body:
nothing is known of it. -/
opaque Config.freeByte (opc : BitVec 8) (n : Nat) : Byte

end Sys2Proof
end

