-- ==== Sys2Proof/Syntax.lean ====
section
/-! DEFINITION. The six commands (30_encoding.md R82), and the source lines of the assembler (R91). -/

namespace Sys2Proof

/-- A command: one constructor per row of spec/opcode_table.json. The command word carries no operand (R81): every
operand comes from an argument register (R87). -/
inductive Instr where
  /-- `dot16`, the lane dot-product primitive (R107). -/
  | dot16
  /-- `hred`, the horizontal reducer (R108). -/
  | hred
  /-- `dmma.s`, the dense symmetric kernel (R137). -/
  | dmmaS
  /-- `dmma.a`, the dense asymmetric, per-channel kernel (R142). -/
  | dmmaA
  /-- `smma`, the sparse block kernel (R176). -/
  | smma
  /-- `smma.b`, the sparse batch driver (R178). -/
  | smmaB
  deriving DecidableEq, Repr

/-- The operand views of R84 to R86: how a command reads an argument register. -/
inductive View where
  | addr
  | dim
  | int
  | f32
  deriving DecidableEq, Repr

/-- A numeric literal of a source line (R91): hexadecimal, signed decimal, or a decimal fraction
`± digits / 10 ^ places`. -/
inductive Literal where
  | hex (value : Nat)
  | dec (value : Int)
  | frac (negative : Bool) (digits places : Nat)
  deriving DecidableEq, Repr

/-- A source line: a mnemonic or a call name of R92, and its operands in order. -/
structure Line where
  name : List Char
  operands : List Literal
  deriving DecidableEq, Repr

end Sys2Proof
end

