-- ==== Sys2Proof/WellFormed.lean ====
section
/-! DEFINITION. The checks on what is written down: a command, a command word (30_encoding.md R83), the launch
parameters (00_scope.md R6), and the operand list of a source line (R93). -/

namespace Sys2Proof

/-- A command carries no operand, so there is nothing in it that could be ill-formed (R81). -/
def Instr.wellFormed : Instr → Bool
  | .dot16 => true
  | .hred => true
  | .dmmaS => true
  | .dmmaA => true
  | .smma => true
  | .smmaB => true

/-- A command word is legal when `RSV` is 0 and `OPC` is one of the six of R82; every other word is illegal (R83). -/
def legalWord (w : Word32) : Bool :=
  w.extractLsb' 8 24 == 0 &&
    [0x01, 0x02, 0x10, 0x11, 0x20, 0x21].contains (w.extractLsb' 0 8)

/-- The launch parameters are well-formed when there is at least one block (R6, `N_INST ≥ 1`). -/
def Config.wellFormed (c : Config) : Bool := decide (1 ≤ c.nInst)

/-- The number of operands a line spells is the number its command has, and they are few enough for the argument
registers (R87, R93). -/
def Line.arityOk (l : Line) (views : List View) : Bool :=
  l.operands.length == views.length && decide (views.length ≤ 10)

end Sys2Proof
end

