-- ==== Sys2Proof/Decode.lean ====
section
/-! DEFINITION. The decoder of command words, total on the 2^32 words (30_encoding.md R82, R83, R90), the encoder, and
the operand assignment (R87). -/

namespace Sys2Proof

/-- The one way a command word is refused (R83). -/
inductive DecodeError where
  /-- `IllegalCmd(w)` (R202). -/
  | illegalCmd (w : Word32)
  deriving DecidableEq, Repr

/-- `OPC`, bits 7:0 of a command word (R81). -/
def opcField (w : Word32) : BitVec 8 := w.extractLsb' 0 8

/-- `RSV`, bits 31:8 of a command word (R81). -/
def rsvField (w : Word32) : BitVec 24 := w.extractLsb' 8 24

/-- The opcode map of R82, read from the operation code. -/
def instrOfOpc (opc : BitVec 8) : Option Instr :=
  if opc = 0x01 then some .dot16
  else if opc = 0x02 then some .hred
  else if opc = 0x10 then some .dmmaS
  else if opc = 0x11 then some .dmmaA
  else if opc = 0x20 then some .smma
  else if opc = 0x21 then some .smmaB
  else none

/-- Decoding a command word: `RSV` must be 0 and `OPC` one of the six, else `IllegalCmd(w)` (R83, R90). -/
def decode (w : Word32) : Except DecodeError Instr :=
  if rsvField w = 0 then
    match instrOfOpc (opcField w) with
    | some i => .ok i
    | none => .error (.illegalCmd w)
  else .error (.illegalCmd w)

/-- The operation code of a command (R82). -/
def Instr.opc : Instr → BitVec 8
  | .dot16 => 0x01
  | .hred => 0x02
  | .dmmaS => 0x10
  | .dmmaA => 0x11
  | .smma => 0x20
  | .smmaB => 0x21

/-- The command word of a command: `RSV = 0` above `OPC` (R81). -/
def encode (i : Instr) : Word32 := (0 : BitVec 24) ++ i.opc

/-- The command read from a table word of `nbits` bits: its bits are the command word's, bits above `nbits` are 0. A
word longer than 32 bits is no command word (R80). -/
def decodeTableWord (nbits w : Nat) : Option Instr :=
  if nbits ≤ 32 then (decode (BitVec.ofNat 32 (w % 2 ^ nbits))).toOption else none

/-- The operand assignment of R87: `ARGi` is read through the i-th view. -/
def Instr.views : Instr → List View
  | .dot16 => [.addr, .addr, .addr]
  | .hred => [.addr, .addr]
  | .dmmaS => [.addr, .dim, .dim, .addr, .addr, .dim, .addr, .int]
  | .dmmaA => [.addr, .dim, .dim, .addr, .addr, .dim, .addr, .int, .addr, .addr]
  | .smma => [.addr, .addr, .dim, .dim, .addr, .f32, .addr, .int]
  | .smmaB => [.addr, .addr, .dim, .dim, .addr, .addr, .dim, .addr, .int]

end Sys2Proof
end

