-- ==== Sys2Proof/Machine/State.lean ====
section
/-! DEFINITION. The state of the machine (10_state.md R30 to R45), as plain data, and the state after reset. -/

namespace Sys2Proof.Machine

/-- The memory `Mem` (R43): the bytes that differ from `blankByte`, by address, addresses strictly rising. -/
abbrev Memory := List Host.Cell

/-- What an address reads as that the memory does not list. DESIGN CHOICE, unsafe (assumption log 6): the contents of
memory are the caller's, and the spec gives none (R45). -/
def blankByte : Byte := 0

/-- How an access of a command is tagged in the trace (R63). -/
inductive Tag where
  | input
  | result
  | written
  deriving DecidableEq, Repr

/-- One access of the running command: the bytes `addr .. addr + len - 1` under a tag (R63). -/
structure Touch where
  tag : Tag
  addr : Nat
  len : Nat
  deriving DecidableEq, Repr

/-- The working state `W` of a running command (R40). -/
structure Work where
  /-- Operand latch A, sixteen signed 8-bit lanes. -/
  latchA : Lanes
  /-- Operand latch B. -/
  latchB : Lanes
  /-- Partial register P, four int32 lanes. -/
  partials : Lanes
  /-- The running dot-product scalar of the current row. -/
  dot : Word32
  /-- The running raw-value row sum (DMMA.A). -/
  rowSum : Word32
  /-- Batch index. -/
  b : Nat
  /-- Row index. -/
  r : Nat
  /-- Block index (dense), or the position in the row's ledger segment (sparse). -/
  k : Nat
  /-- Column index of the remainder loop. -/
  c : Nat
  /-- Ledger cursor: the next ledger byte to consume. -/
  lc : Nat
  /-- Matrix cursor: the next packed matrix block. -/
  mc : Nat
  /-- The footprint so far (R63), the last access first. -/
  trace : List Touch
  /-- The ranges of bytes that the command will write in accesses that conflict with other agents', fixed as it starts. The
  model's own (assumption log 9): a read of such a byte returns any value, before the write as well as after it (R67). -/
  foreseen : List (Nat × Nat)
  deriving DecidableEq, Repr

/-- `W` as it is created at a command's start. DESIGN CHOICE, safe (assumption log 16): the spec gives its parts no
first value, and no command reads a part before it has written it. -/
def Work.fresh : Work where
  latchA := 0
  latchB := 0
  partials := 0
  dot := 0
  rowSum := 0
  b := 0
  r := 0
  k := 0
  c := 0
  lc := 0
  mc := 0
  trace := []
  foreseen := []

/-- The pseudocode step that an overflow names (R11, R135, R141, R143, R176). -/
inductive Site where
  /-- `(b, r, "blk", k)`. -/
  | blk (b r k : Nat)
  /-- `(b, r, "col", c)`. -/
  | col (b r c : Nat)
  /-- `(b, r, "rsblk", k)`. -/
  | rsblk (b r k : Nat)
  /-- `(b, r, "rscol", c)`. -/
  | rscol (b r c : Nat)
  /-- `(b, r, "prod")`. -/
  | prod (b r : Nat)
  /-- `(b, r, "adj")`. -/
  | adj (b r : Nat)
  /-- `(r, "sblk", i)`. -/
  | sblk (r i : Nat)
  deriving DecidableEq, Repr

/-- The fault causes of 60_exceptions.md R202 to R211, each with its info. -/
inductive Cause where
  /-- R202: a word that is no command word. -/
  | illegalCmd (w : Word32)
  /-- R203: a read of an argument register that holds no value. -/
  | unwrittenArg (i : Fin 10)
  /-- R204: a value that does not fit its operand view. -/
  | badArg (i : Fin 10) (v : Word64)
  /-- R205: `m_cols` is no multiple of 16, release build. -/
  | precondBlock (mCols : Nat)
  /-- R206: `m_cols` is no multiple of 16, debug build. -/
  | debugAssert (mCols : Nat)
  /-- R207: a block index outside the row. -/
  | ledgerRange (r i : Nat) (bi : Byte)
  /-- R208: an access out of range or not admitted. -/
  | memUnadmitted (a : Int) (n : Nat) (kind : Kind)
  /-- R209: a misaligned access. -/
  | misaligned (a : Int) (n : Nat)
  /-- R210: a running integer value left int32. -/
  | intOverflow (site : Site)
  /-- R211: a written byte is an input byte. -/
  | aliased (x : Nat)
  deriving DecidableEq, Repr

/-- A fault record (R212): its cause, which fixes the code and carries the info, and the `OPC` of the command. -/
structure FaultRecord where
  opc : BitVec 8
  cause : Cause
  deriving DecidableEq, Repr

/-- The state of one block: the tuple `(ARG[0..9], BUSY, FAULT, W)` of R30. -/
structure Instance where
  /-- The argument registers; `none` is the spec's own *no value* (R32). -/
  args : Vector (Option Word64) 10
  /-- Whether a command is running (R42). -/
  busy : Bool
  /-- The `OPC` of the running command, `0x00` while none runs. The model's own (assumption log 8): the free values that
  a command draws depend on it. -/
  running : BitVec 8
  /-- The model-only fault record, empty or one record (R41). -/
  fault : Option FaultRecord
  /-- The working state of the running command (R40). -/
  work : Option Work
  deriving DecidableEq, Repr

/-- A block after reset (R45): no argument register holds a value, no command runs, no fault is recorded. -/
def Instance.reset : Instance where
  args := Vector.replicate 10 none
  busy := false
  running := 0x00
  fault := none
  work := none

/-- What another agent does to memory in one access: reads `len` bytes, or writes `data` (R67). -/
inductive ForeignOp where
  | read (len : Nat)
  | write (data : List Byte)
  deriving DecidableEq, Repr

/-- An access that another agent makes while a command runs (R65, R67); the host itself is one, at the command of a block
that another caller uses (R252). Accesses of one agent do not conflict with one another. -/
structure ForeignAccess where
  agent : Nat
  addr : Nat
  op : ForeignOp
  deriving DecidableEq, Repr

/-- What a read that another agent made while a command ran gave back (R67, R252). -/
structure ForeignReply where
  agent : Nat
  addr : Nat
  data : List Byte
  deriving DecidableEq, Repr

/-- What the host can do to the machine (70_reset_and_hazards.md R252). -/
inductive HostAct where
  /-- ARG write. -/
  | argWrite (i : Fin 10) (v : Word64)
  /-- ARG read. -/
  | argRead (i : Fin 10)
  /-- CMD write: issues one command. -/
  | cmdWrite (w : Word32)
  /-- CMD read: the model gives it no meaning (R36). -/
  | cmdRead
  /-- The caller writes bytes of its own buffers. -/
  | memWrite (a : Nat) (data : List Byte)
  /-- The caller reads bytes of its own buffers. -/
  | memRead (a n : Nat)
  /-- The host, or another agent, will make this access while the next command runs (R252: "memory during another
  instance's command"). -/
  | during (f : ForeignAccess)
  /-- The interactions that follow are with block `n` of the other ones (R221). -/
  | select (n : Nat)
  /-- The platform's reset (R240). -/
  | reset
  deriving DecidableEq, Repr

/-- What a read of the caller gave back (R33, R252). -/
inductive Reply where
  | arg (v : Word64)
  | bytes (data : List Byte)
  deriving DecidableEq, Repr

/-- The state of the machine. `cfg`, `others`, `caller`, `foreign`, `foreignReplies`, `reply`, `pastFaults` and `draws`
are the model's own fields (INVENTORY.md, State); `inst` and `mem` are the spec's. -/
structure State where
  /-- The launch parameters (R6); no step changes them (R252). -/
  cfg : Config
  /-- The block the caller addresses (R30). -/
  inst : Instance
  /-- The other blocks of the launch (R221). -/
  others : List Instance
  /-- The memory, shared by all (R43). -/
  mem : Memory
  /-- The host's interactions still to come, the next one first (R252). -/
  caller : List HostAct
  /-- The accesses other agents make while the next command runs (R65, R67). -/
  foreign : List ForeignAccess
  /-- What the reads among those accesses gave back, oldest first (R252). -/
  foreignReplies : List ForeignReply
  /-- What the caller's last read gave back (R33). -/
  reply : Option Reply
  /-- The faults recorded in runs that a reset ended (R240). -/
  pastFaults : List FaultRecord
  /-- The number of free values taken so far (R20, R65, R67). -/
  draws : Nat
  deriving DecidableEq, Repr

/-- Why a step stops although the instruction set has a meaning for the interaction. -/
inductive Fault where
  /-- A CMD write to a block whose `FAULT` is not empty: it has no step (R41). Raised by every CMD write. Safe: the
  spec gives it no step either. -/
  | blockFaulted (record : FaultRecord)
  /-- An interaction with a machine whose addressed block is busy: the write is held, the caller takes no step (R42).
  Raised by every interaction. Safe; no run reaches it, since a command is one step (assumption log 5). -/
  | held
  /-- A caller's access to bytes that are not in the address space (R43). Raised by the caller's memory accesses.
  Safe: the spec has no such address. -/
  | noSuchAddress (a n : Nat)
  /-- An interaction that names a block the launch does not have (R221). Raised by `select`. Safe: the spec has no such
  block. -/
  | noSuchBlock (n : Nat)
  deriving DecidableEq, Repr

/-- Why the model gives an interaction no meaning. -/
inductive Refusal where
  /-- An instruction that has no meaning yet. Raised by no arm: every command is modelled. Safe. -/
  | notModelled (mnemonic : String)
  /-- A read of CMD (R36, R252): "The model refuses a caller program that reads CMD". Raised by `cmdRead`. Safe. -/
  | cmdRead
  deriving DecidableEq, Repr

/-- The state in which a run starts under the launch parameters `c` and memory `m` (R45, R240, R241): every block is in
its reset state. -/
def State.launch (c : Config) (m : Memory) : State where
  cfg := c
  inst := Instance.reset
  others := List.replicate (c.nInst - 1) Instance.reset
  mem := m
  caller := []
  foreign := []
  foreignReplies := []
  reply := none
  pastFaults := []
  draws := 0

/-- The machine right after reset (R45), under the default launch parameters and with nothing listed in memory. -/
def State.reset : State := State.launch Config.default []

end Sys2Proof.Machine
end

