-- ==== Sys2Proof/Machine/Flags.lean ====
section
/-! DEFINITION. The integer primitives of 00_scope.md R9 to R11 and R102. The block has no flags (10_state.md R39): what
stands here in their place is the one condition a command computes on an integer, whether it fits int32. -/

namespace Sys2Proof.Machine

/-- `s8(u)` (R9): a byte as an int8. -/
def s8 (u : Byte) : Int := u.toInt

/-- `in32(x)` (R10). -/
def in32 (x : Int) : Bool := decide (-2147483648 ≤ x) && decide (x ≤ 2147483647)

/-- `wrap32(x)` (R10): the int32 congruent to `x` modulo 2^32. -/
def wrap32 (x : Int) : Int := Int.bmod x 4294967296

/-- `bits_8(x)` (R9). -/
def bits8 (x : Int) : Byte := BitVec.ofInt 8 x

/-- `bits_32(x)` (R9). -/
def bits32 (x : Int) : Word32 := BitVec.ofInt 32 x

/-- `sat16(x)` clamps to [-32768, 32767] (R102). -/
def sat16 (x : Int) : Int := max (-32768) (min 32767 x)

end Sys2Proof.Machine
end

