-- ==== Sys2Proof/Machine/Float.lean ====
section
/-! DEFINITION. IEEE 754 binary32, round to nearest, ties to even (00_scope.md R16 to R21). A finite value is counted
in units of 2^-149, the smallest subnormal, so that every finite value is an integer and every operation is exact
integer arithmetic followed by one rounding. A result that is a NaN has no pattern here: the pattern is a draw, which
the machine takes (R20). -/

namespace Sys2Proof.Machine

/-- The sign bit, bit 31 (R16). -/
def fSign (x : Word32) : Bool := x.getLsbD 31

/-- The biased exponent, bits 30:23 (R16). -/
def fExp (x : Word32) : Nat := (x.extractLsb' 23 8).toNat

/-- The fraction, bits 22:0 (R16). -/
def fFrac (x : Word32) : Nat := (x.extractLsb' 0 23).toNat

/-- A NaN: exponent bits all ones and a non-zero fraction (R20). -/
def fIsNaN (x : Word32) : Bool := fExp x == 255 && fFrac x != 0

/-- An infinity. -/
def fIsInf (x : Word32) : Bool := fExp x == 255 && fFrac x == 0

/-- Neither an infinity nor a NaN. -/
def fIsFinite (x : Word32) : Bool := fExp x != 255

/-- The magnitude of a finite value in units of 2^-149; subnormals are values like any other (R16). -/
def fMag (x : Word32) : Nat :=
  if fExp x = 0 then fFrac x else (8388608 + fFrac x) * 2 ^ (fExp x - 1)

/-- A finite value in units of 2^-149. -/
def fUnits (x : Word32) : Int := if fSign x then -(fMag x : Int) else fMag x

/-- A zero of either sign. -/
def fIsZero (x : Word32) : Bool := fExp x == 0 && fFrac x == 0

/-- `m / 2^q` rounded to the nearest integer, ties to even. -/
def roundShift (m q : Nat) : Nat :=
  let d := m / 2 ^ q
  let rest := m % 2 ^ q
  if 2 ^ q < 2 * rest ∨ (2 ^ q = 2 * rest ∧ d % 2 = 1) then d + 1 else d

/-- The 31 magnitude bits of the binary32 value nearest to `m` units of `2^(-149 - t)`, ties to even; a magnitude past
the largest finite value becomes an infinity. -/
def roundMag (m t : Nat) : Nat :=
  let q := max (Nat.log2 m - 23) t
  min ((q - t) * 8388608 + roundShift m q) (255 * 8388608)

/-- A sign bit above 31 magnitude bits. -/
def withSign (negative : Bool) (mag : Nat) : Word32 :=
  BitVec.ofNat 32 (mag + if negative then 2147483648 else 0)

/-- An infinity with a sign. -/
def fInf (negative : Bool) : Word32 := withSign negative (255 * 8388608)

/-- A zero with a sign. -/
def fZero (negative : Bool) : Word32 := withSign negative 0

/-- `f32_of_i32(x)` (R17); 0 gives +0.0. -/
def fOfInt (x : Int) : Word32 := withSign (decide (x < 0)) (roundMag (x.natAbs * 2 ^ 149) 0)

/-- The value of `f32_mul(x, y)` (R18), or `none` where it is a NaN: any NaN operand, or an infinity times a zero. -/
def fMul? (x y : Word32) : Option Word32 :=
  if fIsNaN x || fIsNaN y then none
  else
    let negative := fSign x != fSign y
    if fIsInf x then (if fIsZero y then none else some (fInf negative))
    else if fIsInf y then (if fIsZero x then none else some (fInf negative))
    else some (withSign negative (roundMag (fMag x * fMag y) 149))

/-- The value of `f32_add(x, y)` (R19), or `none` where it is a NaN: any NaN operand, or infinities of opposite signs.
An exact zero sum is +0.0, but for (-0) + (-0). -/
def fAdd? (x y : Word32) : Option Word32 :=
  if fIsNaN x || fIsNaN y then none
  else if fIsInf x then (if fIsInf y && fSign x != fSign y then none else some x)
  else if fIsInf y then some y
  else
    let sum := fUnits x + fUnits y
    if sum = 0 then some (fZero (fSign x && fSign y))
    else some (withSign (decide (sum < 0)) (roundMag sum.natAbs 0))

/-- The NaN pattern that draw number `n` of a command with operation code `opc` gives (R20): any sign, exponent bits all ones, any non-zero fraction. -/
def nanPattern (opc : BitVec 8) (n : Nat) : Word32 :=
  withSign (Config.freeNaNSign opc n) (255 * 8388608 + 1 + (Config.freeNaNFraction opc n).val)

end Sys2Proof.Machine
end

