-- ==== Sys2Proof/Machine/Lanes.lean ====
section
/-! DEFINITION. The pure lane functions of 40_lane_primitives.md: `Dot16Lanes` (R100 to R103), `Reduce4` (R104) and
`RowSum16` (R106), on 128-bit lane registers. -/

namespace Sys2Proof.Machine

/-- Lane `i` of sixteen 8-bit lanes; lane 0 is the lowest. -/
def lane8 (v : Lanes) (i : Nat) : Byte := v.extractLsb' (8 * i) 8

/-- Lane `i` of four 32-bit lanes; lane 0 is the lowest (R52). -/
def lane32 (v : Lanes) (i : Nat) : Word32 := v.extractLsb' (32 * i) 32

/-- Four 32-bit lanes as one register, lane 0 lowest (R52). -/
def pack32 (l0 l1 l2 l3 : Word32) : Lanes :=
  BitVec.ofNat 128 (l0.toNat + 2 ^ 32 * l1.toNat + 2 ^ 64 * l2.toNat + 2 ^ 96 * l3.toNat)

/-- One product of `P_DOT_MODE = EXACT` (R100). -/
def exactProduct (a b : Byte) : Int := s8 a * s8 b

/-- One product of `P_DOT_MODE = SIGN_TRANSFER` (R102): the magnitude of the A lane times the B lane with the sign of A
moved into it in 8 bits. -/
def signTransferProduct (a b : Byte) : Int :=
  let ua : Int := (s8 a).natAbs
  let sb := if s8 a < 0 then s8 (bits8 (-(s8 b))) else if s8 a = 0 then 0 else s8 b
  ua * sb

/-- `pair[k]` of R101, exact. -/
def exactPair (A B : Lanes) (k : Nat) : Int :=
  exactProduct (lane8 A (2 * k)) (lane8 B (2 * k)) + exactProduct (lane8 A (2 * k + 1)) (lane8 B (2 * k + 1))

/-- `pair[k]` of R102, saturated to 16 bits. -/
def signTransferPair (A B : Lanes) (k : Nat) : Int :=
  sat16 (signTransferProduct (lane8 A (2 * k)) (lane8 B (2 * k)) +
    signTransferProduct (lane8 A (2 * k + 1)) (lane8 B (2 * k + 1)))

/-- `P[i]`: the sum of the pairs `2i` and `2i + 1` (R101, R102). -/
def partialSum (mode : DotMode) (A B : Lanes) (i : Nat) : Int :=
  match mode with
  | .exact => exactPair A B (2 * i) + exactPair A B (2 * i + 1)
  | .signTransfer => signTransferPair A B (2 * i) + signTransferPair A B (2 * i + 1)

/-- `Dot16Lanes(A, B)` (R100, R102): the four partial sums. -/
def dot16Lanes (mode : DotMode) (A B : Lanes) : Lanes :=
  pack32 (bits32 (partialSum mode A B 0)) (bits32 (partialSum mode A B 1))
    (bits32 (partialSum mode A B 2)) (bits32 (partialSum mode A B 3))

/-- Lane-wise addition with 32-bit wrap-around (R104). -/
def addLanes (x y : Lanes) : Lanes :=
  pack32 (lane32 x 0 + lane32 y 0) (lane32 x 1 + lane32 y 1)
    (lane32 x 2 + lane32 y 2) (lane32 x 3 + lane32 y 3)

/-- "swap halves", with the high half copied down (R104). -/
def swapHalves (x : Lanes) : Lanes := pack32 (lane32 x 2) (lane32 x 3) (lane32 x 2) (lane32 x 3)

/-- "swap pairs" (R104). -/
def swapPairs (x : Lanes) : Lanes := pack32 (lane32 x 1) (lane32 x 0) (lane32 x 3) (lane32 x 2)

/-- `Reduce4(L)` (R104): swap halves, add, swap pairs, add, lane 0. -/
def reduce4 (l : Lanes) : Word32 :=
  let y := addLanes l (swapHalves l)
  lane32 (addLanes y (swapPairs y)) 0

/-- The sum of the first `n` lanes as int8 values. -/
def laneSum (m : Lanes) : Nat → Int
  | 0 => 0
  | n + 1 => laneSum m n + s8 (lane8 m n)

/-- `RowSum16(M)` (R106). -/
def rowSum16 (m : Lanes) : Int := laneSum m 16

end Sys2Proof.Machine
end

