-- ==== Sys2Proof/Machine/Memory.lean ====
section
/-! DEFINITION. The memory as a list of bytes by address in canonical form (10_state.md R43), and the little-endian
assembly of elements (20_memory.md R50 to R52). -/

namespace Sys2Proof.Machine

/-- The byte at address `a`; an address that is not listed reads as `blankByte`. -/
def Memory.read : Memory → Nat → Byte
  | [], _ => blankByte
  | (k, v) :: m, a => if k = a then v else Memory.read m a

/-- Puts `v` at address `a`: the list stays sorted, and the byte `blankByte` is kept by listing nothing. -/
def Memory.write : Memory → Nat → Byte → Memory
  | [], a, v => if v = blankByte then [] else [(a, v)]
  | (k, w) :: m, a, v =>
    if a < k then (if v = blankByte then (k, w) :: m else (a, v) :: (k, w) :: m)
    else if a = k then (if v = blankByte then m else (a, v) :: m)
    else (k, w) :: Memory.write m a v

/-- Every listed address is above `lo`, addresses rise strictly, and no entry is `blankByte`. -/
def Memory.wfAbove : Nat → Memory → Bool
  | _, [] => true
  | lo, (k, v) :: m => decide (lo ≤ k) && v != blankByte && Memory.wfAbove (k + 1) m

/-- The canonical form of a memory: equal memories are equal lists. -/
def Memory.wf (m : Memory) : Bool := Memory.wfAbove 0 m

/-- No byte is listed at or above address `hi`. -/
def Memory.below (m : Memory) (hi : Nat) : Bool := m.all (fun cell => decide (cell.1 < hi))

/-- The `n` bytes from address `a`, lowest address first (R13). -/
def Memory.readList (m : Memory) (a : Nat) : Nat → List Byte
  | 0 => []
  | n + 1 => m.read a :: Memory.readList m (a + 1) n

/-- Writes the bytes from address `a` on, in order (R13). -/
def Memory.writeList (m : Memory) (a : Nat) : List Byte → Memory
  | [] => m
  | v :: vs => Memory.writeList (m.write a v) (a + 1) vs

/-- Little-endian assembly (R50): byte `j` has weight `2^(8j)`. -/
def leNat : List Byte → Nat
  | [] => 0
  | v :: vs => v.toNat + 256 * leNat vs

/-- `le32` (R50). -/
def le32 (bytes : List Byte) : Word32 := BitVec.ofNat 32 (leNat bytes)

/-- Sixteen bytes as a lane register: byte `j` is lane `j` of 8 bits, and bytes `4i .. 4i + 3` are lane `i` of 32 bits
(R51, R52). -/
def le128 (bytes : List Byte) : Lanes := BitVec.ofNat 128 (leNat bytes)

/-- `le_bytes32` (R50): byte `j` is bits `8j + 7 : 8j`. -/
def leBytes32 (v : Word32) : List Byte :=
  [v.extractLsb' 0 8, v.extractLsb' 8 8, v.extractLsb' 16 8, v.extractLsb' 24 8]

/-- The binary32 or int32 element at address `a` (R50). -/
def Memory.read32 (m : Memory) (a : Nat) : Word32 := le32 (m.readList a 4)

/-- The sixteen bytes at address `a` as a lane register (R51, R52). -/
def Memory.read128 (m : Memory) (a : Nat) : Lanes := le128 (m.readList a 16)

end Sys2Proof.Machine
end

