-- ==== Sys2Proof/Machine/Ops.lean ====
section
/-! DEFINITION. The shared operations of the commands: the working state, the free values, the checks on an access and
the accesses themselves (20_memory.md R56 to R58), the accesses of other agents (R65, R67), raising a fault
(60_exceptions.md R201), and running a command from its CMD write to its end (10_state.md R35, R38). -/

namespace Sys2Proof.Machine

/-- A piece of a running command: it ends with a value and the state reached, or it raises a fault, again with the state
reached, since what was done before the raise stays done (R201, R214). -/
abbrev Cmd (α : Type) := EStateM Cause State α

/-- `raise F(info)` (R14): no later step of the command runs. -/
def raise {α : Type} (cause : Cause) : Cmd α := fun s => .error cause s

/-- `for i in lo .. lo + n - 1`, in ascending order (R15). -/
def loop (lo : Nat) : Nat → (Nat → Cmd Unit) → Cmd Unit
  | 0, _ => pure ()
  | n + 1, body => do
    body lo
    loop (lo + 1) n body

/-! ### The launch parameters and the working state -/

/-- The launch parameters (R6). -/
def config : Cmd Config := fun s => .ok s.cfg s

/-- The working state of a state (R40). -/
def State.workNow (s : State) : Work := s.inst.work.getD Work.fresh

/-- The working state (R40). -/
def work : Cmd Work := fun s => .ok s.workNow s

/-- The state with a working state put in. -/
def State.withWork (s : State) (w : Work) : State := { s with inst := { s.inst with work := some w } }

/-- Changes the working state (R40). -/
def updateWork (f : Work → Work) : Cmd Unit := fun s => .ok () (s.withWork (f s.workNow))

/-! ### The accesses of other agents (R65, R67) -/

/-- How many bytes another agent's access touches. -/
def ForeignAccess.len (f : ForeignAccess) : Nat :=
  match f.op with
  | .read n => n
  | .write data => data.length

/-- Whether another agent's access is a write. -/
def ForeignAccess.isWrite (f : ForeignAccess) : Bool :=
  match f.op with
  | .read _ => false
  | .write _ => true

/-- Two ranges of addresses have a common byte. -/
def overlap (a n b m : Nat) : Bool := decide (0 < n) && decide (0 < m) && decide (a < b + m) && decide (b < a + n)

/-- The access touches a byte of the range. -/
def ForeignAccess.touches (f : ForeignAccess) (a n : Nat) : Bool := overlap f.addr f.len a n

/-- The byte is in one of the ranges. -/
def inRanges (ranges : List (Nat × Nat)) (x : Nat) : Bool :=
  ranges.any (fun r => decide (r.1 ≤ x) && decide (x < r.1 + r.2))

/-- Whether a read of byte `x` by the running command returns any value (R65, R67): another agent writes the byte while
the command runs, or the byte is one that the command itself writes in this run, before or after the read, in an access that
conflicts with another agent's. With no other agent at work nothing races. -/
def State.racing (s : State) (x : Nat) : Bool :=
  s.foreign.any (fun f => (f.isWrite && f.touches x 1) || inRanges s.workNow.foreseen x)

/-- An access of the command and one of another agent conflict: a common byte, and one of them a write (R67). -/
def Touch.conflicts (t : Touch) (f : ForeignAccess) : Bool :=
  f.touches t.addr t.len && (f.isWrite || decide (t.tag = .written))

/-- Two accesses of different other agents conflict (R67). -/
def ForeignAccess.conflicts (f g : ForeignAccess) : Bool :=
  decide (f.agent ≠ g.agent) && f.touches g.addr g.len && (f.isWrite || g.isWrite)

/-- The ranges that the command wrote in an access that conflicts. -/
def racedByCommand (trace : List Touch) (foreign : List ForeignAccess) : List (Nat × Nat) :=
  (trace.filter (fun t => decide (t.tag = .written) && foreign.any (fun f => t.conflicts f))).map
    (fun t => (t.addr, t.len))

/-- The ranges that the running command has written so far in an access that conflicts. -/
def State.racedSoFar (s : State) : List (Nat × Nat) := racedByCommand s.workNow.trace s.foreign

/-- The ranges that other agents wrote in an access that conflicts. -/
def racedByOthers (trace : List Touch) (foreign : List ForeignAccess) : List (Nat × Nat) :=
  (foreign.filter (fun f => f.isWrite && (trace.any (fun t => t.conflicts f) || foreign.any (fun g => f.conflicts g)))).map
    (fun f => (f.addr, f.len))

/-- What the other agents wrote, without regard to conflicts. -/
def landForeign (m : Memory) : List ForeignAccess → Memory
  | [] => m
  | f :: fs =>
    match f.op with
    | .read _ => landForeign m fs
    | .write data => landForeign (m.writeList f.addr data) fs

/-- What another agent's read of `n` bytes from `a` gives, and the number of draws after it: the byte that memory holds, or
a free value for a byte that an access which conflicts has written (R67: "every read of such a byte returns any value"). -/
def hearBytes (opc : BitVec 8) (raced : List (Nat × Nat)) (m : Memory) (draws a : Nat) : Nat → List Byte × Nat
  | 0 => ([], draws)
  | n + 1 =>
    if inRanges raced a then
      let rest := hearBytes opc raced m (draws + 1) (a + 1) n
      (Config.freeByte opc draws :: rest.1, rest.2)
    else
      let rest := hearBytes opc raced m draws (a + 1) n
      (m.read a :: rest.1, rest.2)

/-- What the reads of other agents give, and the number of draws after them; an agent's read sees its own earlier
writes. -/
def hearForeign (opc : BitVec 8) (raced : List (Nat × Nat)) (m : Memory) (draws : Nat) :
    List ForeignAccess → List ForeignReply × Nat
  | [] => ([], draws)
  | f :: fs =>
    match f.op with
    | .read n =>
      let heard := hearBytes opc raced m draws f.addr n
      let rest := hearForeign opc raced m heard.2 fs
      (⟨f.agent, f.addr, heard.1⟩ :: rest.1, rest.2)
    | .write data => hearForeign opc raced (m.writeList f.addr data) draws fs

/-- The free byte that the running command draws next. -/
def State.nextByte (s : State) : Byte := Config.freeByte s.inst.running s.draws

/-- Puts a free value in each of `n` bytes from address `a` on (R67: "holds any value"). -/
def State.scramble (s : State) (a : Nat) : Nat → State
  | 0 => s
  | n + 1 => State.scramble { s with mem := s.mem.write a s.nextByte, draws := s.draws + 1 } (a + 1) n

/-- Puts a free value in each byte of each range. -/
def State.scrambleAll (s : State) : List (Nat × Nat) → State
  | [] => s
  | r :: rs => State.scrambleAll (s.scramble r.1 r.2) rs

/-- The end of the time in which other agents' accesses overlapped the command: their reads have their replies, their
writes are in memory, and every byte that a conflicting access wrote holds any value (R67). The accesses are used up. -/
def State.settleForeign (s : State) : State :=
  let raced := s.racedSoFar ++ racedByOthers s.workNow.trace s.foreign
  let heard := hearForeign s.inst.running raced s.mem s.draws s.foreign
  { State.scrambleAll
      { s with
        mem := landForeign s.mem s.foreign
        foreignReplies := s.foreignReplies ++ heard.1
        draws := heard.2 } raced with
    foreign := [] }

/-! ### Accesses of the command (R56 to R58) -/

/-- `in range`: no address below 0 or past the top of the address space (R56). -/
def inRange (c : Config) (a : Int) (n : Nat) : Bool := decide (0 ≤ a) && decide (a + n ≤ 2 ^ c.addrW)

/-- The window makes the byte available for the kind. -/
def windowCovers (w : Window) (kind : Kind) (x : Nat) : Bool :=
  decide (w.base ≤ x) && decide (x < w.base + w.size) &&
    match kind with
    | .read => w.read
    | .write => w.write

/-- The caller has made byte `x` available for the kind (R58). -/
def admitsByte (c : Config) (kind : Kind) (x : Nat) : Bool := c.windows.any (fun w => windowCovers w kind x)

/-- `Admit(a, n, kind)` (R58): the caller has made every byte of the access available. -/
def admits (c : Config) (a : Nat) (kind : Kind) : Nat → Bool
  | 0 => true
  | n + 1 => admitsByte c kind a && admits c (a + 1) kind n

/-- The checks of R57 in their order: range, alignment where the element needs it, admission. -/
def checkAccess (c : Config) (kind : Kind) (aligned : Bool) (a : Int) (n : Nat) : Option Cause :=
  if inRange c a n then
    if aligned && decide (a % 4 ≠ 0) then some (.misaligned a n)
    else if admits c a.toNat kind n then none
    else some (.memUnadmitted a n kind)
  else some (.memUnadmitted a n kind)

/-- Makes the checks of R57, and raises. -/
def check (kind : Kind) (aligned : Bool) (a : Int) (n : Nat) : Cmd Unit := fun s =>
  match checkAccess s.cfg kind aligned a n with
  | some cause => .error cause s
  | none => .ok () s

/-- The working state with an access added to the trace (R63). -/
def addTouch (w : Work) (tag : Tag) (a n : Nat) : Work := { w with trace := ⟨tag, a, n⟩ :: w.trace }

/-- Adds an access to the trace (R63). -/
def touch (tag : Tag) (a n : Nat) : Cmd Unit := updateWork (fun w => addTouch w tag a n)

/-- One byte of a read: the byte that memory holds, or a free value where it races (R57, R65, R67). -/
def readByte (x : Nat) : Cmd Byte := fun s =>
  if s.racing x then .ok s.nextByte { s with draws := s.draws + 1 }
  else .ok (s.mem.read x) s

/-- The `n` bytes from address `a`, lowest first. -/
def readBytes (a : Nat) : Nat → Cmd (List Byte)
  | 0 => pure []
  | n + 1 => do
    let v ← readByte a
    let vs ← readBytes (a + 1) n
    pure (v :: vs)

/-- `MemRead(a, n)` (R13, R57), tagged for the trace (R63). -/
def memRead (tag : Tag) (aligned : Bool) (a : Int) (n : Nat) : Cmd (List Byte) := do
  check .read aligned a n
  touch tag a.toNat n
  readBytes a.toNat n

/-- Puts bytes in memory; every check is made. -/
def store (a : Nat) (bytes : List Byte) : Cmd Unit := fun s => .ok () { s with mem := s.mem.writeList a bytes }

/-- `MemWrite(a, n, bytes)` (R13, R57). -/
def memWrite (aligned : Bool) (a : Int) (bytes : List Byte) : Cmd Unit := do
  check .write aligned a bytes.length
  touch .written a.toNat bytes.length
  store a.toNat bytes

/-- `LdS8(a)` (R13): a matrix or vector element. -/
def ldS8 (a : Int) : Cmd Int := do
  let v ← memRead .input false a 1
  pure (s8 (v.headD 0))

/-- `LdU8(a)` (R13): a ledger byte (R171). -/
def ldU8 (a : Int) : Cmd Byte := do
  let v ← memRead .input false a 1
  pure (v.headD 0)

/-- A 4-byte input element: `LdF32(a)` as a pattern, `LdI32(a)` as a pattern of two's complement (R13). -/
def ldInput32 (a : Int) : Cmd Word32 := do
  let v ← memRead .input true a 4
  pure (le32 v)

/-- `LdF32(e)` of a result element that the command is about to write (R136). -/
def ldResult32 (e : Int) : Cmd Word32 := do
  let v ← memRead .result true e 4
  pure (le32 v)

/-- `StF32(a, f)` and `StI32(a, x)` (R13). -/
def st32 (a : Int) (v : Word32) : Cmd Unit := memWrite true a (leBytes32 v)

/-- A 16-byte int8 input of a kernel (R53, R55): no alignment. -/
def ldBlock (a : Int) : Cmd Lanes := do
  let v ← memRead .input false a 16
  pure (le128 v)

/-! ### Numbers -/

/-- A NaN pattern, a free value (R20). -/
def drawNaN : Cmd Word32 := fun s => .ok (nanPattern s.inst.running s.draws) { s with draws := s.draws + 1 }

/-- A float result: the value, or a NaN pattern where there is none (R20). -/
def orNaN (v : Option Word32) : Cmd Word32 :=
  match v with
  | some f => pure f
  | none => drawNaN

/-- `f32_mul(x, y)` (R18, R20). -/
def fMul (x y : Word32) : Cmd Word32 := orNaN (fMul? x y)

/-- `f32_add(x, y)` (R19, R20). -/
def fAdd (x y : Word32) : Cmd Word32 := orNaN (fAdd? x y)

/-- `acc32(x, site)` (R11), the only place where a running integer value is narrowed; the site is read off the loop
positions. -/
def acc32 (x : Int) (site : Work → Site) : Cmd Word32 := fun s =>
  match s.cfg.intOvf with
  | .fault => if in32 x then .ok (bits32 x) s else .error (.intOverflow (site s.workNow)) s
  | .wrap => .ok (bits32 x) s

/-- `P <- Dot16Lanes(A, B)` on the operand latches (R100, R102). -/
def dotBlock : Cmd Unit := do
  let c ← config
  updateWork (fun w => { w with partials := dot16Lanes c.dotMode w.latchA w.latchB })

/-- `dot <- acc32(dot + x, site)`. -/
def addDot (x : Int) (site : Work → Site) : Cmd Unit := do
  let w ← work
  let d ← acc32 (w.dot.toInt + x) site
  updateWork (fun w => { w with dot := d })

/-- `rs <- acc32(rs + x, site)`. -/
def addRowSum (x : Int) (site : Work → Site) : Cmd Unit := do
  let w ← work
  let d ← acc32 (w.rowSum.toInt + x) site
  updateWork (fun w => { w with rowSum := d })

/-- `Accumulate(e, contrib)` (R136): a read, an addition and a write of a result element. -/
def accumulate (e : Int) (contrib : Word32) : Cmd Unit := do
  let old ← ldResult32 e
  let new ← fAdd old contrib
  st32 e new

/-! ### The alias check (R64) -/

/-- The byte is in the part of the trace with this tag (R63). -/
def inTrace (trace : List Touch) (tag : Tag) (x : Nat) : Bool :=
  trace.any (fun t => decide (t.tag = tag) && decide (t.addr ≤ x) && decide (x < t.addr + t.len))

/-- The written bytes of the trace, access by access. -/
def writtenBytes (trace : List Touch) : List Nat :=
  (trace.filter (fun t => decide (t.tag = .written))).flatMap (fun t => List.range' t.addr t.len)

/-- The lowest address in `Wr ∩ I` (R64). -/
def lowestAlias (trace : List Touch) : Option Nat :=
  ((writtenBytes trace).filter (fun x => inTrace trace .input x)).min?

/-- The alias check at the end of a kernel (R64, R211). -/
def aliasCheck : Cmd Unit := fun s =>
  match lowestAlias s.workNow.trace with
  | some x => .error (.aliased x) s
  | none => .ok () s

/-! ### Raising a fault, and running a command -/

/-- The code of a cause (R212). -/
def Cause.code : Cause → BitVec 8
  | .illegalCmd _ => 0x01
  | .unwrittenArg _ => 0x02
  | .badArg _ _ => 0x03
  | .precondBlock _ => 0x04
  | .debugAssert _ => 0x05
  | .ledgerRange _ _ _ => 0x06
  | .memUnadmitted _ _ _ => 0x07
  | .misaligned _ _ => 0x08
  | .intOverflow _ => 0x09
  | .aliased _ => 0x0A

/-- The code of a record (R212). -/
def FaultRecord.code (r : FaultRecord) : BitVec 8 := r.cause.code

/-- `FAULT <- (code, opc, info)` (R201). A record is never replaced: nothing clears it (R41). -/
def State.recordFault (s : State) (opc : BitVec 8) (cause : Cause) : State :=
  { s with inst := { s.inst with fault := some (s.inst.fault.getD ⟨opc, cause⟩) } }

/-- A command starts: `BUSY <- true`, and `W` is created (R35, R40), with the ranges it is to write in accesses that
conflict. -/
def State.startCommand (s : State) (opc : BitVec 8) (foreseen : List (Nat × Nat)) : State :=
  { s with inst := { s.inst with busy := true, running := opc, work := some { Work.fresh with foreseen := foreseen } } }

/-- The state in which a piece of a command ends, completed or faulted. -/
def endState {α : Type} : EStateM.Result Cause State α → State
  | .ok _ s => s
  | .error _ s => s

/-- A command from its start to the end of its pseudocode. With no other agent at work it just runs. Otherwise reads of the
bytes that it writes in conflicting accesses return any value, be they before the write or after it (R67), and which bytes
those are is known at its end only: so ranges are taken from a free value, and the run counts if it does write just those
ranges in conflicting accesses. A run for which that fails is none that R67 has; then the command runs with every such read
giving memory's byte, one of the values that R67 admits (assumption log 9). -/
def runBody (opc : BitVec 8) (body : Cmd Unit) (s : State) : EStateM.Result Cause State Unit :=
  if s.foreign.isEmpty then body (s.startCommand opc [])
  else
    let next := { s with draws := s.draws + 1 }
    let foreseen := Config.freeRanges opc s.draws
    let run := body (next.startCommand opc foreseen)
    if (endState run).racedSoFar = foreseen then run else body (next.startCommand opc [])

/-- A command ends: `W` is discarded and `BUSY <- false` (R35, R40, R201). -/
def State.endCommand (s : State) : State :=
  { s with inst := { s.inst with busy := false, running := 0x00, work := none } }

/-- The end of a command in one of its two outcomes (R38): completed, or faulted with the fault recorded (R201). In both
the accesses that other agents made meanwhile are in memory. -/
def finish (opc : BitVec 8) (r : EStateM.Result Cause State Unit) : State :=
  match r with
  | .ok _ s => s.settleForeign.endCommand
  | .error cause s => (s.settleForeign.recordFault opc cause).endCommand

/-- A CMD write on the addressed block (R35): it has no step while a fault is recorded (R41), it is held while the block
is busy (R42), and otherwise the command runs from its start to its end. -/
def runCommand (opc : BitVec 8) (body : Cmd Unit) (s : State) : Host.Outcome State Fault Refusal :=
  match s.inst.fault with
  | some record => .fault (.blockFaulted record)
  | none => if s.inst.busy then .fault .held else .next (finish opc (runBody opc body s))

end Sys2Proof.Machine
end

