-- ==== Sys2Proof/Machine/Operands.lean ====
section
/-! DEFINITION. The operand views of 30_encoding.md R84 to R86, and the operands of each command in the order of R88. -/

namespace Sys2Proof.Machine

/-- `ARG[i]` (R12, R33): the pattern it holds, or `UnwrittenArg(i)`. -/
def readArg (i : Fin 10) : Cmd Word64 := fun s =>
  match s.inst.args[i] with
  | some v => .ok v s
  | none => .error (.unwrittenArg i) s

/-- The address that a pattern is (R84), if it has no bit at or above `ADDR_W`. -/
def viewAddr (addrW : Nat) (v : Word64) : Option Nat := if v.toNat < 2 ^ addrW then some v.toNat else none

/-- The int32 that a pattern is the sign extension of (R85), if it is one. -/
def viewInt (v : Word64) : Option Int :=
  if (v.setWidth 32).signExtend 64 = v then some (v.setWidth 32).toInt else none

/-- The dimension that a pattern is (R85): an int32 that is not negative. -/
def viewDim (v : Word64) : Option Nat :=
  match viewInt v with
  | some x => if 0 ≤ x then some x.toNat else none
  | none => none

/-- The binary32 pattern that a pattern is (R86), if its upper half is 0. -/
def viewF32 (v : Word64) : Option Word32 := if v.extractLsb' 32 32 = 0 then some (v.setWidth 32) else none

/-- The value of a view, or `BadArg(i, ARG[i])` (R204). -/
def orBadArg {α : Type} (i : Fin 10) (v : Word64) (r : Option α) : Cmd α :=
  match r with
  | some x => pure x
  | none => raise (.badArg i v)

/-- `ArgAddr(i)` (R84). -/
def argAddr (i : Fin 10) : Cmd Nat := do
  let v ← readArg i
  let c ← config
  orBadArg i v (viewAddr c.addrW v)

/-- `ArgInt(i)` (R85). -/
def argInt (i : Fin 10) : Cmd Int := do
  let v ← readArg i
  orBadArg i v (viewInt v)

/-- `ArgDim(i)` (R85): the form check and the sign check raise the same fault, in that order. -/
def argDim (i : Fin 10) : Cmd Nat := do
  let v ← readArg i
  orBadArg i v (viewDim v)

/-- `ArgF32(i)` (R86). -/
def argF32 (i : Fin 10) : Cmd Word32 := do
  let v ← readArg i
  orBadArg i v (viewF32 v)

/-- The operands of a dense kernel (R87, R137). -/
structure DenseArgs where
  matrix : Nat
  rows : Nat
  cols : Nat
  vectors : Nat
  scales : Nat
  batch : Nat
  result : Nat
  stride : Int
  deriving DecidableEq, Repr

/-- Decodes ARG0 to ARG7 of a dense kernel in ascending order (R87, R88). -/
def denseArgs : Cmd DenseArgs := do
  let matrix ← argAddr 0
  let rows ← argDim 1
  let cols ← argDim 2
  let vectors ← argAddr 3
  let scales ← argAddr 4
  let batch ← argDim 5
  let result ← argAddr 6
  let stride ← argInt 7
  pure ⟨matrix, rows, cols, vectors, scales, batch, result, stride⟩

/-- The operands of a walk of the sparse kernel (R176, `SparseBody`). -/
structure SparseArgs where
  matrix : Nat
  ledger : Nat
  rows : Nat
  cols : Nat
  vector : Nat
  scale : Word32
  result : Int
  stride : Int
  deriving DecidableEq, Repr

/-- Decodes ARG0 to ARG7 of SMMA in ascending order (R87, R88). -/
def sparseArgs : Cmd SparseArgs := do
  let matrix ← argAddr 0
  let ledger ← argAddr 1
  let rows ← argDim 2
  let cols ← argDim 3
  let vector ← argAddr 4
  let scale ← argF32 5
  let result ← argAddr 6
  let stride ← argInt 7
  pure ⟨matrix, ledger, rows, cols, vector, scale, result, stride⟩

/-- The operands of SMMA.B (R87, R178). -/
structure SparseBatchArgs where
  matrix : Nat
  ledger : Nat
  rows : Nat
  cols : Nat
  vectors : Nat
  scales : Nat
  batch : Nat
  results : Nat
  stride : Int
  deriving DecidableEq, Repr

/-- Decodes ARG0 to ARG8 of SMMA.B in ascending order (R87, R88). -/
def sparseBatchArgs : Cmd SparseBatchArgs := do
  let matrix ← argAddr 0
  let ledger ← argAddr 1
  let rows ← argDim 2
  let cols ← argDim 3
  let vectors ← argAddr 4
  let scales ← argAddr 5
  let batch ← argDim 6
  let results ← argAddr 7
  let stride ← argInt 8
  pure ⟨matrix, ledger, rows, cols, vectors, scales, batch, results, stride⟩

end Sys2Proof.Machine
end

