-- ==== Sys2Proof/Machine/Dense.lean ====
section
/-! DEFINITION. The dense kernels DMMA.S (41_dense_kernels.md R130 to R138) and DMMA.A (R139 to R146). -/

namespace Sys2Proof.Machine

/-- `ResAddr(b, r)` (R133), an integer: a negative stride can take it below 0. -/
def DenseArgs.resAddr (d : DenseArgs) (b r : Nat) : Int := d.result + 4 * (((b * d.rows + r : Nat) : Int) * d.stride)

/-- The address of element `c` of matrix row `r` (R130). -/
def DenseArgs.matrixAt (d : DenseArgs) (r c : Nat) : Nat := d.matrix + r * d.cols + c

/-- The address of element `c` of vector `b` (R131). -/
def DenseArgs.vectorAt (d : DenseArgs) (b c : Nat) : Nat := d.vectors + b * d.cols + c

/-- `nblk`, the number of whole blocks of a row (R134). -/
def DenseArgs.nblk (d : DenseArgs) : Nat := d.cols / 16

/-- The first half of a block step (R135, R141): the vector slice into latch A, the matrix slice into latch B, and the
lane dot product added into `dot`. -/
def denseBlock (d : DenseArgs) (b r k : Nat) : Cmd Unit := do
  updateWork (fun w => { w with k := k })
  let v ← ldBlock (d.vectorAt b (16 * k))
  updateWork (fun w => { w with latchA := v })
  let m ← ldBlock (d.matrixAt r (16 * k))
  updateWork (fun w => { w with latchB := m })
  dotBlock
  let w ← work
  addDot (reduce4 w.partials).toInt (fun w => .blk w.b w.r w.k)

/-- One block step of `RowDotSum` (R141): the matrix block is read once and serves both sums. -/
def denseBlockSum (d : DenseArgs) (b r k : Nat) : Cmd Unit := do
  denseBlock d b r k
  let w ← work
  addRowSum (rowSum16 w.latchB) (fun w => .rsblk w.b w.r w.k)

/-- One remainder column (R135): the matrix byte, then the vector byte, and their product added into `dot`; the matrix
element is handed on. -/
def denseColumn (d : DenseArgs) (b r c : Nat) : Cmd Int := do
  updateWork (fun w => { w with c := c })
  let m ← ldS8 (d.matrixAt r c)
  let v ← ldS8 (d.vectorAt b c)
  addDot (m * v) (fun w => .col w.b w.r w.c)
  pure m

/-- `RowDot(b, r)` (R135), which leaves its result in `dot`. -/
def rowDot (d : DenseArgs) (b r : Nat) : Cmd Unit := do
  updateWork (fun w => { w with dot := 0 })
  loop 0 d.nblk (fun k => denseBlock d b r k)
  loop (16 * d.nblk) (d.cols - 16 * d.nblk) (fun c => do
    let _ ← denseColumn d b r c)

/-- `RowDotSum(b, r)` (R141), which leaves its results in `dot` and `row_sum`. -/
def rowDotSum (d : DenseArgs) (b r : Nat) : Cmd Unit := do
  updateWork (fun w => { w with dot := 0, rowSum := 0 })
  loop 0 d.nblk (fun k => denseBlockSum d b r k)
  loop (16 * d.nblk) (d.cols - 16 * d.nblk) (fun c => do
    let m ← denseColumn d b r c
    addRowSum m (fun w => .rscol w.b w.r w.c))

/-- The row step of DMMA.S (R137): the row's sum times the batch's scale, added into the result element. -/
def denseRow (d : DenseArgs) (b : Nat) (bs : Word32) (r : Nat) : Cmd Unit := do
  updateWork (fun w => { w with r := r })
  rowDot d b r
  let w ← work
  let contrib ← fMul (fOfInt w.dot.toInt) bs
  accumulate (d.resAddr b r) contrib

/-- The batch step of DMMA.S (R137). -/
def denseBatch (d : DenseArgs) (b : Nat) : Cmd Unit := do
  updateWork (fun w => { w with b := b })
  let bs ← ldInput32 (d.scales + 4 * b : Nat)
  loop 0 d.rows (fun r => denseRow d b bs r)

/-- The pseudocode of DMMA.S (R137). -/
def dmmaSBody : Cmd Unit := do
  let d ← denseArgs
  loop 0 d.batch (fun b => denseBatch d b)
  aliasCheck

/-- DMMA.S: the dense symmetric kernel (R137). -/
def execDmmaS (s : State) : Host.Outcome State Fault Refusal := runCommand 0x10 dmmaSBody s

/-- `AdjustedSum(dot, rs, off, b, r)` (R143). -/
def adjustedSum (dot rs off : Word32) : Cmd Word32 := do
  let p ← acc32 (rs.toInt * off.toInt) (fun w => .prod w.b w.r)
  acc32 (dot.toInt - p.toInt) (fun w => .adj w.b w.r)

/-- `Scale3(adj, bs, cs)` (R144), in the order of `P_ASYM_ORDER`. -/
def scale3 (adj : Word32) (bs cs : Word32) : Cmd Word32 := do
  let c ← config
  match c.asymOrder with
  | .leftToRight => do
    let x ← fMul (fOfInt adj.toInt) bs
    fMul x cs
  | .scaleFirst => do
    let x ← fMul cs bs
    fMul (fOfInt adj.toInt) x

/-- The row step of DMMA.A (R142). -/
def asymRow (d : DenseArgs) (pcs : Nat) (b : Nat) (bs off : Word32) (r : Nat) : Cmd Unit := do
  updateWork (fun w => { w with r := r })
  rowDotSum d b r
  let w ← work
  let adj ← adjustedSum w.dot w.rowSum off
  let cs ← ldInput32 (pcs + 4 * r : Nat)
  let contrib ← scale3 adj bs cs
  accumulate (d.resAddr b r) contrib

/-- The batch step of DMMA.A (R142). -/
def asymBatch (d : DenseArgs) (pcs offsets : Nat) (b : Nat) : Cmd Unit := do
  updateWork (fun w => { w with b := b })
  let bs ← ldInput32 (d.scales + 4 * b : Nat)
  let off ← ldInput32 (offsets + 4 * b : Nat)
  loop 0 d.rows (fun r => asymRow d pcs b bs off r)

/-- The pseudocode of DMMA.A (R142). -/
def dmmaABody : Cmd Unit := do
  let d ← denseArgs
  let pcs ← argAddr 8
  let offsets ← argAddr 9
  loop 0 d.batch (fun b => asymBatch d pcs offsets b)
  aliasCheck

/-- DMMA.A: the dense asymmetric, per-channel kernel (R142). -/
def execDmmaA (s : State) : Host.Outcome State Fault Refusal := runCommand 0x11 dmmaABody s

end Sys2Proof.Machine
end

