-- ==== Sys2Proof/Machine/Primitive.lean ====
section
/-! DEFINITION. The commands DOT16 (40_lane_primitives.md R107) and HRED (R108). -/

namespace Sys2Proof.Machine

/-- The pseudocode of DOT16 (R107). Both operands are read before the one write, so the output may overlap them (R64). -/
def dot16Body : Cmd Unit := do
  let a ← argAddr 0
  let b ← argAddr 1
  let d ← argAddr 2
  let x ← memRead .input false a 16
  updateWork (fun w => { w with latchA := le128 x })
  let y ← memRead .input false b 16
  updateWork (fun w => { w with latchB := le128 y })
  dotBlock
  let w ← work
  memWrite true d
    (leBytes32 (lane32 w.partials 0) ++ leBytes32 (lane32 w.partials 1) ++
      leBytes32 (lane32 w.partials 2) ++ leBytes32 (lane32 w.partials 3))

/-- DOT16: sixteen int8 lane pairs to four int32 partial sums (R107). -/
def execDot16 (s : State) : Host.Outcome State Fault Refusal := runCommand 0x01 dot16Body s

/-- The pseudocode of HRED (R108). -/
def hredBody : Cmd Unit := do
  let a ← argAddr 0
  let d ← argAddr 1
  let x ← memRead .input true a 16
  updateWork (fun w => { w with partials := le128 x })
  let w ← work
  st32 d (reduce4 w.partials)

/-- HRED: four int32 to one int32, with wrap-around (R108). -/
def execHred (s : State) : Host.Outcome State Fault Refusal := runCommand 0x02 hredBody s

end Sys2Proof.Machine
end

