-- ==== Sys2Proof/Machine/Sparse.lean ====
section
/-! DEFINITION. The sparse kernel SMMA (42_sparse_kernels.md R170 to R177) and its batch driver SMMA.B (R178 to R182). -/

namespace Sys2Proof.Machine

/-- `BlockPrecond(m_cols)` (R175). -/
def blockPrecond (cols : Nat) : Cmd Unit := do
  let c ← config
  if cols % 16 = 0 then pure ()
  else if c.debugChecks then raise (.debugAssert cols)
  else raise (.precondBlock cols)

/-- The next ledger byte, and the ledger cursor past it (R173). -/
def nextLedgerByte : Cmd Byte := do
  let w ← work
  let v ← ldU8 w.lc
  updateWork (fun w => { w with lc := w.lc + 1 })
  pure v

/-- One entry of a row's ledger segment (R173, R174, R176): the index byte and its range check, the vector slice it names
into latch A, the next packed matrix block into latch B, and their dot product added into `dot`. -/
def sparseEntry (a : SparseArgs) (r i : Nat) : Cmd Unit := do
  updateWork (fun w => { w with k := i })
  let bi ← nextLedgerByte
  let col := 16 * bi.toNat
  if col + 16 > a.cols then raise (.ledgerRange r i bi)
  else do
    let v ← ldBlock (a.vector + col : Nat)
    updateWork (fun w => { w with latchA := v })
    let w ← work
    let m ← ldBlock w.mc
    updateWork (fun w => { w with latchB := m })
    dotBlock
    let w ← work
    addDot (reduce4 w.partials).toInt (fun w => .sblk w.r w.k)
    updateWork (fun w => { w with mc := w.mc + 16 })

/-- The result element of row `r` of a walk (R176), an integer: a negative stride can take it below 0. -/
def SparseArgs.resAddr (a : SparseArgs) (r : Nat) : Int := a.result + 4 * ((r : Int) * a.stride)

/-- One row of the walk (R176): the count byte, its entries, and the row's sum times the scale added into the result. -/
def sparseRow (a : SparseArgs) (r : Nat) : Cmd Unit := do
  updateWork (fun w => { w with r := r })
  let n ← nextLedgerByte
  updateWork (fun w => { w with dot := 0 })
  loop 0 n.toNat (fun i => sparseEntry a r i)
  let w ← work
  let contrib ← fMul (fOfInt w.dot.toInt) a.scale
  accumulate (a.resAddr r) contrib

/-- `SparseBody` (R176): one walk of the ledger and the packed matrix from their starts. -/
def sparseBody (a : SparseArgs) : Cmd Unit := do
  updateWork (fun w => { w with lc := a.ledger, mc := a.matrix })
  loop 0 a.rows (fun r => sparseRow a r)

/-- The pseudocode of SMMA (R176). -/
def smmaBody : Cmd Unit := do
  let a ← sparseArgs
  blockPrecond a.cols
  sparseBody a
  aliasCheck

/-- SMMA: the sparse block kernel on one vector (R176). -/
def execSmma (s : State) : Host.Outcome State Fault Refusal := runCommand 0x20 smmaBody s

/-- The operands of batch `b`'s walk (R178). -/
def SparseBatchArgs.walk (a : SparseBatchArgs) (b : Nat) (scale : Word32) : SparseArgs where
  matrix := a.matrix
  ledger := a.ledger
  rows := a.rows
  cols := a.cols
  vector := a.vectors + b * a.cols
  scale := scale
  result := a.results + 4 * ((b : Int) * a.stride * (a.rows : Int))
  stride := a.stride

/-- The batch step of SMMA.B (R178). -/
def sparseBatch (a : SparseBatchArgs) (b : Nat) : Cmd Unit := do
  updateWork (fun w => { w with b := b })
  let scale ← ldInput32 (a.scales + 4 * b : Nat)
  sparseBody (a.walk b scale)

/-- The pseudocode of SMMA.B (R178). -/
def smmaBBody : Cmd Unit := do
  let a ← sparseBatchArgs
  blockPrecond a.cols
  loop 0 a.batch (fun b => sparseBatch a b)
  aliasCheck

/-- SMMA.B: the batch driver over the sparse kernel (R178). -/
def execSmmaB (s : State) : Host.Outcome State Fault Refusal := runCommand 0x21 smmaBBody s

end Sys2Proof.Machine
end

