-- ==== Sys2Proof/Machine/Dispatch.lean ====
section
/-! DEFINITION. One arm per command (30_encoding.md R82). -/

namespace Sys2Proof.Machine

def exec (i : Instr) (s : State) : Host.Outcome State Fault Refusal :=
  match i with
  | .dot16 => Sys2Proof.Machine.execDot16 s
  | .hred => Sys2Proof.Machine.execHred s
  | .dmmaS => Sys2Proof.Machine.execDmmaS s
  | .dmmaA => Sys2Proof.Machine.execDmmaA s
  | .smma => Sys2Proof.Machine.execSmma s
  | .smmaB => Sys2Proof.Machine.execSmmaB s

end Sys2Proof.Machine
end

