-- ==== Sys2Proof/Machine/Caller.lean ====
section
/-! DEFINITION. What each interaction of the host does (70_reset_and_hazards.md R252): ARG writes and reads, CMD writes,
the caller's own memory accesses, the choice of a block, and reset (R240). -/

namespace Sys2Proof.Machine

/-- ARG write: all 64 bits (R32). -/
def writeArg (i : Fin 10) (v : Word64) (s : State) : State :=
  { s with inst := { s.inst with args := s.inst.args.set i (some v) } }

/-- ARG read by the caller: the last pattern written (R33), or `UnwrittenArg(i)` with `opc = 0x00` (R203). -/
def callerReadArg (i : Fin 10) (s : State) : State :=
  match s.inst.args[i] with
  | some v => { s with reply := some (.arg v) }
  | none => s.recordFault 0x00 (.unwrittenArg i)

/-- A CMD write of a word that is no command word (R83, R202): the command ends with `IllegalCmd(w)`, `opc = 0x00`,
before any argument register or memory is read. -/
def illegalCommand (w : Word32) (s : State) : Host.Outcome State Fault Refusal :=
  runCommand 0x00 (raise (.illegalCmd w)) s

/-- A CMD write (R35): decodes the word and runs the command. -/
def writeCmd (w : Word32) (s : State) : Host.Outcome State Fault Refusal :=
  match decode w with
  | .ok i => exec i s
  | .error (.illegalCmd w) => illegalCommand w s

/-- The bytes are addresses of the memory (R43). -/
def inSpace (c : Config) (a n : Nat) : Bool := decide (a + n ≤ 2 ^ c.addrW)

/-- The caller writes its own buffers between commands (R252). -/
def callerWrite (a : Nat) (data : List Byte) (s : State) : Host.Outcome State Fault Refusal :=
  if inSpace s.cfg a data.length then .next { s with mem := s.mem.writeList a data }
  else .fault (.noSuchAddress a data.length)

/-- The caller reads its own buffers between commands (R252): "the bytes as the last write left them". -/
def callerRead (a n : Nat) (s : State) : Host.Outcome State Fault Refusal :=
  if inSpace s.cfg a n then .next { s with reply := some (.bytes (s.mem.readList a n)) }
  else .fault (.noSuchAddress a n)

/-- The host, or another agent, will make this access while the next command runs (R65, R67, R252). -/
def announce (f : ForeignAccess) (s : State) : Host.Outcome State Fault Refusal :=
  if inSpace s.cfg f.addr f.len then .next { s with foreign := s.foreign ++ [f] }
  else .fault (.noSuchAddress f.addr f.len)

/-- The caller addresses another block: it and the addressed one change places, each with all it holds (R221). -/
def selectBlock (n : Nat) (s : State) : Host.Outcome State Fault Refusal :=
  match s.others[n]? with
  | some i => .next { s with inst := i, others := s.others.set n s.inst }
  | none => .fault (.noSuchBlock n)

/-- The faults that the blocks have recorded. -/
def State.recorded (s : State) : List FaultRecord := (s.inst :: s.others).filterMap (fun i => i.fault)

/-- Reset (R240): every block into the state of R45, memory untouched; a fault recorded before belongs to the run that
ends and is still reported for it. -/
def platformReset (s : State) : State :=
  { s with
    inst := Instance.reset
    others := s.others.map (fun _ => Instance.reset)
    foreignReplies := []
    reply := none
    pastFaults := s.pastFaults ++ s.recorded }

/-- One interaction of the host (R252). -/
def perform (a : HostAct) (s : State) : Host.Outcome State Fault Refusal :=
  match a with
  | .argWrite i v => .next (writeArg i v s)
  | .argRead i => .next (callerReadArg i s)
  | .cmdWrite w => writeCmd w s
  | .cmdRead => .refused .cmdRead
  | .memWrite p data => callerWrite p data s
  | .memRead p n => callerRead p n s
  | .during f => announce f s
  | .select n => selectBlock n s
  | .reset => .next (platformReset s)

/-- The host's next interaction, taken off the list of those to come: it is held while the addressed block is busy (R42,
R247). With nothing to come the machine is idle and stays as it is (R223). -/
def nextInteraction (s : State) : Host.Outcome State Fault Refusal :=
  match s.caller with
  | [] => .next s
  | a :: rest => if s.inst.busy then .fault .held else perform a { s with caller := rest }

/-- The state with a CMD write of the word as the next interaction. -/
def placeCommand (s : State) (w : Word32) : State := { s with caller := .cmdWrite w :: s.caller }

end Sys2Proof.Machine
end

