-- ==== Sys2Proof/Machine/Step.lean ====
section
/-! DEFINITION. One step of the machine: the host's next interaction (70_reset_and_hazards.md R252); a command is one
step (10_state.md R37). -/

namespace Sys2Proof.Machine

/-- One step: the next interaction of the host. -/
def step (s : State) : Host.Outcome State Fault Refusal := nextInteraction s

/-- The state whose next step runs the command word: the block fetches nothing (R37, R70), so the word is placed as the
next CMD write of the caller, bits above `nbits` 0. -/
def State.withFetchWord (s : State) (nbits w : Nat) : State := placeCommand s (BitVec.ofNat 32 (w % 2 ^ nbits))

end Sys2Proof.Machine
end

