-- ==== Sys2Proof/Machine/Asm.lean ====
section
/-! DEFINITION. The assembler of 30_encoding.md R91 to R93: a source line is the ARG writes of its operands in order and
then one CMD write. What the rules leave open of the literals' spelling is assumption log 17. -/

namespace Sys2Proof.Machine

/-- The command that a mnemonic of R91 names, in lower case. -/
def mnemonicCommand (name : List Char) : Option Instr :=
  if name = "dot16".toList then some .dot16
  else if name = "hred".toList then some .hred
  else if name = "dmma.s".toList then some .dmmaS
  else if name = "dmma.a".toList then some .dmmaA
  else if name = "smma".toList then some .smma
  else if name = "smma.b".toList then some .smmaB
  else none

/-- The command that a call name of R92 and its number of arguments name. -/
def callCommand (name : List Char) (arguments : Nat) : Option Instr :=
  if name = "DenseMultiplyAccumulate".toList ∨ name = "MatrixBatchVectorMultiplyAccumulate".toList then
    if arguments = 8 then some .dmmaS else if arguments = 10 then some .dmmaA else none
  else if name = "SparseMultiplyAccumulate".toList then some .smma
  else if name = "BatchedSparseMultiplyAccumulate".toList then some .smmaB
  else none

/-- The command a line spells: a mnemonic, in any case, or a call name (R91, R92). -/
def lineCommand (l : Line) : Option Instr :=
  match mnemonicCommand (l.name.map Char.toLower) with
  | some i => some i
  | none => callCommand l.name l.operands.length

/-- The binary32 pattern of `± digits / 10^places`, if that value is exactly representable (R91). -/
def exactDecimal (negative : Bool) (digits places : Nat) : Option Word32 :=
  let scaled := digits * 2 ^ 149
  let mag := scaled / 10 ^ places
  let pattern := withSign negative (roundMag mag 0)
  if mag * 10 ^ places = scaled ∧ fIsFinite pattern ∧ fMag pattern = mag then some pattern else none

/-- The argument register's pattern for a literal, if the literal fits the view (R91, R93): addresses zero-extended,
integers sign-extended, a scale in the low half. -/
def literalBits (addrW : Nat) (v : View) (l : Literal) : Option Word64 :=
  match v, l with
  | .addr, .hex n => if n < 2 ^ addrW ∧ n < 2 ^ 64 then some (BitVec.ofNat 64 n) else none
  | .dim, .dec x => if 0 ≤ x ∧ in32 x then some (BitVec.ofInt 64 x) else none
  | .int, .dec x => if in32 x then some (BitVec.ofInt 64 x) else none
  | .f32, .hex n => if n < 2 ^ 32 then some (BitVec.ofNat 64 n) else none
  | .f32, .dec x => (exactDecimal (decide (x < 0)) x.natAbs 0).map (fun f => f.setWidth 64)
  | .f32, .frac negative digits places => (exactDecimal negative digits places).map (fun f => f.setWidth 64)
  | _, _ => none

/-- The ARG writes of a list of operands from register `i` on, in operand order (R91). -/
def operandWrites (addrW : Nat) (i : Nat) : List View → List Literal → Option (List HostAct)
  | [], [] => some []
  | v :: vs, l :: ls =>
    match literalBits addrW v l, operandWrites addrW (i + 1) vs ls with
    | some bits, some rest => some (.argWrite (Fin.ofNat 10 i) bits :: rest)
    | _, _ => none
  | _, _ => none

/-- A line assembled (R91), or `none` for a line that spells no command: the assembler refuses it and emits no CMD write
(R93). -/
def assembleLine (addrW : Nat) (l : Line) : Option (List HostAct) :=
  match lineCommand l with
  | some i =>
    if l.arityOk i.views then
      (operandWrites addrW 0 i.views l.operands).map (fun writes => writes ++ [.cmdWrite (encode i)])
    else none
  | none => none

/-- A program assembled line by line; one refused line refuses it. -/
def assemble (addrW : Nat) : List Line → Option (List HostAct)
  | [] => some []
  | l :: ls =>
    match assembleLine addrW l, assemble addrW ls with
    | some acts, some rest => some (acts ++ rest)
    | _, _ => none

/-! ### Source text -/

/-- The digit a character is in base `base`, at most 16. -/
def digitOf (base : Nat) (c : Char) : Option Nat :=
  let n := c.toNat
  let d :=
    if 48 ≤ n ∧ n ≤ 57 then n - 48
    else if 97 ≤ n ∧ n ≤ 102 then n - 87
    else if 65 ≤ n ∧ n ≤ 70 then n - 55
    else 99
  if d < base then some d else none

/-- The number that digits spell, given the number read so far. -/
def digitsFrom (base acc : Nat) : List Char → Option Nat
  | [] => some acc
  | c :: cs =>
    match digitOf base c with
    | some d => digitsFrom base (base * acc + d) cs
    | none => none

/-- A non-empty run of digits. -/
def number (base : Nat) (cs : List Char) : Option Nat := if cs.isEmpty then none else digitsFrom base 0 cs

/-- A decimal literal without its sign: digits, or digits, a point and digits. DESIGN CHOICE (assumption log 17): R91 says
"a decimal float" and not whether one may lack a point; digits without one are an integer in the model, so a scale spelled
`-0` is the integer 0, with the pattern of +0.0, while `-0.0` keeps its sign and has the pattern 0x80000000. -/
def unsignedDecimal (negative : Bool) (cs : List Char) : Option Literal :=
  let whole := cs.takeWhile (fun c => c != '.')
  match cs.dropWhile (fun c => c != '.') with
  | [] => (number 10 whole).map (fun n => .dec (if negative then -(n : Int) else n))
  | _ :: fraction =>
    match number 10 whole, number 10 fraction with
    | some _, some _ => (number 10 (whole ++ fraction)).map (fun n => .frac negative n fraction.length)
    | _, _ => none

/-- A numeric literal (R91). DESIGN CHOICE (assumption log 17): R91 says "signed decimal" and not whether the sign may be a
plus; the model reads a leading `-` only, and refuses a leading `+`. -/
def parseLiteral (cs : List Char) : Option Literal :=
  match cs with
  | '0' :: 'x' :: rest => (number 16 rest).map .hex
  | '-' :: rest => unsignedDecimal true rest
  | _ => unsignedDecimal false cs

/-- Blank space at the front dropped. -/
def trimLeft (cs : List Char) : List Char := cs.dropWhile (fun c => c == ' ' || c == '\t')

/-- Blank space at both ends dropped. -/
def trim (cs : List Char) : List Char := (trimLeft (trimLeft cs).reverse).reverse

/-- The pieces between commas. -/
def splitCommas : List Char → List (List Char)
  | [] => [[]]
  | c :: cs =>
    match splitCommas cs with
    | p :: ps => if c = ',' then [] :: p :: ps else (c :: p) :: ps
    | [] => [[c]]

/-- Every piece as a literal. -/
def parseOperands : List (List Char) → Option (List Literal)
  | [] => some []
  | p :: ps =>
    match parseLiteral (trim p), parseOperands ps with
    | some l, some ls => some (l :: ls)
    | _, _ => none

/-- The operands of a line, with commas between them. -/
def parseOperandList (text : List Char) : Option (List Literal) :=
  let code := trim text
  parseOperands (if code.isEmpty then [] else splitCommas code)

/-- A call `Name(op, …, op)` as R92 writes it, from behind its opening parenthesis. The form is that of the call names: a
mnemonic of R91 takes no parentheses. -/
def parseCall (name inner : List Char) : Option Line :=
  match inner.reverse with
  | ')' :: arguments =>
    if (mnemonicCommand (name.map Char.toLower)).isSome then none
    else (parseOperandList arguments.reverse).map (fun ops => ⟨name, ops⟩)
  | _ => none

/-- The character belongs to a line's name. -/
def inName (c : Char) : Bool := c != ' ' && c != '\t' && c != '('

/-- One line of source text without its comment (R91: `;` starts a comment): a name and its operands, or a call (R92).
DESIGN CHOICE (assumption log 17): a call name is also read in the form of R91's lines, without parentheses. -/
def parseLine (text : List Char) : Option Line :=
  let code := trim (text.takeWhile (fun c => c != ';'))
  let name := code.takeWhile inName
  match trim (code.dropWhile inName) with
  | '(' :: inner => parseCall name inner
  | rest => (parseOperandList rest).map (fun ops => ⟨name, ops⟩)

/-- A line of source text that holds nothing but blank space and a comment. DESIGN CHOICE (assumption log 17): R91 has one
line be one command and R93 refuses a line that spells none, and neither names a line that spells nothing; the model skips
such a line. -/
def blankLine (text : List Char) : Bool := (trim (text.takeWhile (fun c => c != ';'))).isEmpty

/-- Source text, line by line, assembled into the host's interactions; a blank line is skipped (DESIGN CHOICE, assumption
log 17). -/
def assembleText (addrW : Nat) : List (List Char) → Option (List HostAct)
  | [] => some []
  | t :: ts =>
    if blankLine t then assembleText addrW ts
    else
      match parseLine t, assembleText addrW ts with
      | some l, some rest => (assembleLine addrW l).map (fun acts => acts ++ rest)
      | _, _ => none

end Sys2Proof.Machine
end

