-- ==== Sys2Proof/Safety.lean ====
section
/-! DEFINITION. What counts as a safe run, in the terms that claims use (60_exceptions.md R201; 70_reset_and_hazards.md
R253), and the invariants of the machine. -/

namespace Sys2Proof.Machine

/-- "no instance has a fault recorded" (R201): not in this run, and not in a run that a reset ended (R240). -/
abbrev State.faultFree (s : State) : Prop := s.recorded = [] ∧ s.pastFaults = []

/-- The end of a run (R253): no block is busy, and no CMD write is left to issue. DESIGN CHOICE (assumption log 15): the
caller's list can hold several runs, since a reset is one of its interactions and starts a new run (R240); every CMD write of
the list counts as left to issue, one behind a pending reset among them, so this is the end of the last run of the list. -/
abbrev State.runEnded (s : State) : Prop :=
  s.inst.busy = false ∧ (∀ i ∈ s.others, i.busy = false) ∧ ∀ w, HostAct.cmdWrite w ∉ s.caller

/-- A block between commands: not busy, no command running, no working state (R40, R42, R223). -/
abbrev Instance.idle (i : Instance) : Prop := i.busy = false ∧ i.running = 0x00 ∧ i.work = none

/-- Every block is between commands: a command is one step, and `W` does not outlive it (R37, R40). -/
abbrev State.quiet (s : State) : Prop := s.inst.idle ∧ ∀ i ∈ s.others, i.idle

/-- Other agents' accesses are accesses of the address space (R43). -/
abbrev State.foreignInSpace (s : State) : Prop := ∀ f ∈ s.foreign, f.addr + f.len ≤ 2 ^ s.cfg.addrW

/-- The invariant of the memory: the canonical form, and no byte outside the address space (R43). -/
abbrev State.memoryOk (s : State) : Prop := s.mem.wf = true ∧ s.mem.below (2 ^ s.cfg.addrW) = true

/-- The launch has `N_INST` blocks (R221). -/
abbrev State.blockCount (s : State) : Prop := s.others.length + 1 = s.cfg.nInst

/-- The addressed block accepts a CMD write (R35, R41, R42). -/
abbrev State.accepts (s : State) : Prop := s.inst.fault = none ∧ s.inst.busy = false

/-- A step left no fault in the addressed block: the command completed (R38). -/
def completed (o : Host.Outcome State Fault Refusal) (s' : State) : Prop := o = .next s' ∧ s'.inst.fault = none

/-- The operands that a command decodes in a state (R34, R88), or nothing where the decoding raises. -/
def operandsOf {α : Type} (m : Cmd α) (s : State) : Option α :=
  match m s with
  | .ok a _ => some a
  | .error _ _ => none

/-- Another agent writes byte `x` while the next command runs (R65, R67). -/
abbrev State.foreignWrites (s : State) (x : Nat) : Prop := ∃ f ∈ s.foreign, f.isWrite = true ∧ f.touches x 1 = true

/-- A read of byte `x` by the running command races (R65, R67): another agent writes the byte while the command runs, or
the byte is in a range that the command is to write in an access that conflicts with another agent's. -/
abbrev State.racesAt (s : State) (x : Nat) : Prop :=
  s.foreignWrites x ∨ (s.foreign ≠ [] ∧ ∃ r ∈ s.workNow.foreseen, r.1 ≤ x ∧ x < r.1 + r.2)

/-- The state after a command that completed and left the memory and the number of draws so: all else is as before it,
no command runs, and the accesses of other agents are used up. -/
def State.afterCommand (s : State) (m : Memory) (draws : Nat) : State :=
  { s with mem := m, draws := draws, foreign := [], inst := { s.inst with busy := false, running := 0x00, work := none } }

/-! ### What a fault record may say -/

/-- The fits of an operand view, on the 64-bit pattern as a signed or unsigned number (R84 to R86): an address is below
`2 ^ ADDR_W`, an int32 is in the int32 range, a dimension is in its non-negative half, a binary32 is below 2^32. -/
def viewAccepts (addrW : Nat) (v : View) (x : Word64) : Bool :=
  match v with
  | .addr => decide (x.toNat < 2 ^ addrW)
  | .int => decide (-2147483648 ≤ x.toInt) && decide (x.toInt ≤ 2147483647)
  | .dim => decide (0 ≤ x.toInt) && decide (x.toInt ≤ 2147483647)
  | .f32 => decide (x.toNat < 4294967296)

/-- The first fault of decoding the operands of a list of views from register `k` on (R88): `UnwrittenArg` or `BadArg`,
register by register. -/
def operandFault (addrW : Nat) (args : Vector (Option Word64) 10) (k : Nat) : List View → Option Cause
  | [] => none
  | v :: vs =>
    match (args[k]?).join with
    | some x => if viewAccepts addrW v x then operandFault addrW args (k + 1) vs else some (.badArg (Fin.ofNat 10 k) x)
    | none => some (.unwrittenArg (Fin.ofNat 10 k))

/-- The steps of R135, R141 and R143 at which each dense command can overflow (R210). -/
def Site.ofDense : Site → Bool
  | .blk _ _ _ => true
  | .col _ _ _ => true
  | .rsblk _ _ _ => false
  | .rscol _ _ _ => false
  | .prod _ _ => false
  | .adj _ _ => false
  | .sblk _ _ => false

/-- The steps at which the sparse commands narrow (R176). -/
def Site.ofSparse : Site → Bool
  | .sblk _ _ => true
  | .blk _ _ _ => false
  | .col _ _ _ => false
  | .rsblk _ _ _ => false
  | .rscol _ _ _ => false
  | .prod _ _ => false
  | .adj _ _ => false

/-- The faults each command raises (the table of R212, with R203, R204 and R210). -/
def raises (i : Instr) (c : Cause) : Bool :=
  match c with
  | .illegalCmd _ => false
  | .unwrittenArg k => decide (k.val < i.views.length)
  | .badArg k _ => decide (k.val < i.views.length)
  | .precondBlock _ => i == .smma || i == .smmaB
  | .debugAssert _ => i == .smma || i == .smmaB
  | .ledgerRange _ _ _ => i == .smma || i == .smmaB
  | .memUnadmitted _ _ _ => true
  | .misaligned _ _ => true
  | .intOverflow site => (i == .dmmaS && site.ofDense) || (i == .dmmaA && !site.ofSparse)
  | .aliased _ => i == .dmmaS || i == .dmmaA || i == .smma || i == .smmaB

/-- The fault, raised by the command, tells that the command had written nothing: an operand or the number of columns does
not fit (R203 to R206); DOT16 and HRED raise nothing after their one write (R107, R108); the rest are raised in the first
row of the first batch, before that row's result (R135, R141, R143, R176). -/
def Cause.beforeAnyWrite (i : Instr) (c : Cause) : Bool :=
  i == .dot16 || i == .hred ||
    match c with
    | .illegalCmd _ => true
    | .unwrittenArg _ => true
    | .badArg _ _ => true
    | .precondBlock _ => true
    | .debugAssert _ => true
    | .ledgerRange r _ _ => i == .smma && r == 0
    | .memUnadmitted _ _ _ => false
    | .misaligned _ _ => false
    | .intOverflow (.blk b r _) => b == 0 && r == 0
    | .intOverflow (.col b r _) => b == 0 && r == 0
    | .intOverflow (.rsblk b r _) => b == 0 && r == 0
    | .intOverflow (.rscol b r _) => b == 0 && r == 0
    | .intOverflow (.prod b r) => b == 0 && r == 0
    | .intOverflow (.adj b r) => b == 0 && r == 0
    | .intOverflow (.sblk _ _) => false
    | .aliased _ => false

/-- A record is one that R212 allows: of a command, with a fault of that command; or with `opc = 0x00`, an illegal
command word or a caller's read of an unwritten register. -/
def FaultRecord.allowed (r : FaultRecord) : Prop :=
  (∃ i : Instr, r.opc = i.opc ∧ raises i r.cause = true) ∨
    (r.opc = 0x00 ∧ ((∃ w, r.cause = .illegalCmd w ∧ legalWord w = false) ∨ ∃ k, r.cause = .unwrittenArg k))

/-- Every fault recorded so far. -/
def State.allFaults (s : State) : List FaultRecord := s.recorded ++ s.pastFaults

/-! ### Where a command stores -/

/-- Byte `x` is one that the command can store to in `s`: of DOT16's and HRED's destination, or of a kernel's result
element at or above address 0, at the operands that the command decodes in `s` (R55, R107, R108, R133, R176, R178). -/
def storedByte (i : Instr) (s : State) (x : Nat) : Prop :=
  match i with
  | .dot16 => ∃ d, operandsOf (argAddr 2) s = some d ∧ d ≤ x ∧ x < d + 16
  | .hred => ∃ d, operandsOf (argAddr 1) s = some d ∧ d ≤ x ∧ x < d + 4
  | .dmmaS => ∃ d, operandsOf denseArgs s = some d ∧
      ∃ b < d.batch, ∃ r < d.rows, 0 ≤ d.resAddr b r ∧ d.resAddr b r ≤ x ∧ (x : Int) < d.resAddr b r + 4
  | .dmmaA => ∃ d, operandsOf denseArgs s = some d ∧
      ∃ b < d.batch, ∃ r < d.rows, 0 ≤ d.resAddr b r ∧ d.resAddr b r ≤ x ∧ (x : Int) < d.resAddr b r + 4
  | .smma => ∃ a, operandsOf sparseArgs s = some a ∧
      ∃ r < a.rows, 0 ≤ a.resAddr r ∧ a.resAddr r ≤ x ∧ (x : Int) < a.resAddr r + 4
  | .smmaB => ∃ a, operandsOf sparseBatchArgs s = some a ∧
      ∃ b < a.batch, ∃ r < a.rows, 0 ≤ (a.walk b 0).resAddr r ∧ (a.walk b 0).resAddr r ≤ x ∧
        (x : Int) < (a.walk b 0).resAddr r + 4

end Sys2Proof.Machine
end

