-- ==== Sys2Proof/Safety/Reference.lean ====
section
/-! DEFINITION. The scalar reference that claims about the kernels are stated in: what a kernel adds to which result
element, as plain sums over the columns of a row (41_dense_kernels.md R138, R145; 42_sparse_kernels.md R176), and the
conditions under which a run is free of faults (70_reset_and_hazards.md R242, R249). It has no blocks, no latches, no
trace and no checks. -/

namespace Sys2Proof.Machine

/-! ### Sums and float results -/

/-- The sum of `f 0` to `f (n - 1)`. -/
def sumTo (f : Nat → Int) : Nat → Int
  | 0 => 0
  | n + 1 => sumTo f n + f n

/-- `f 0`, then `f 1`, up to `f (n - 1)`. -/
def upTo {α : Type} (f : Nat → α → α) : Nat → α → α
  | 0, x => x
  | n + 1, x => f n (upTo f n x)

/-- The product of two lanes in a mode (R100, R102). -/
def product (mode : DotMode) (a b : Byte) : Int :=
  match mode with
  | .exact => exactProduct a b
  | .signTransfer => signTransferProduct a b

/-- A float result and the number of draws after it: the value, or a NaN pattern drawn by the command with operation code
`opc` (R20). -/
def valueOrDraw (opc : BitVec 8) (v : Option Word32) (n : Nat) : Word32 × Nat :=
  match v with
  | some f => (f, n)
  | none => (nanPattern opc n, n + 1)

/-- Memory and the number of draws, as a command goes on. -/
abbrev Progress := Memory × Nat

/-- The element at `e` becomes what it holds plus the contribution (R136). -/
def addTo (opc : BitVec 8) (e : Nat) (contrib : Word32 × Nat) (m : Memory) : Progress :=
  let sum := valueOrDraw opc (fAdd? (m.read32 e) contrib.1) contrib.2
  (m.writeList e (leBytes32 sum.1), sum.2)

/-! ### Comparing two memories -/

/-- Two memories are the same but for NaN patterns in elements: the elements at `e` with `element e` are equal, or a NaN in
both, and every other byte is the same (R146, R180: "the NaN patterns are independent draws"). -/
def sameButNaN (element : Int → Prop) (m m' : Memory) : Prop :=
  (∀ e, element e → m.read32 e.toNat = m'.read32 e.toNat ∨
    (fIsNaN (m.read32 e.toNat) = true ∧ fIsNaN (m'.read32 e.toNat) = true)) ∧
  ∀ x, (∀ e, element e → ¬ (e.toNat ≤ x ∧ x < e.toNat + 4)) → m.read x = m'.read x

/-- No element at `e` with `element e` is a NaN. -/
def noNaN (element : Int → Prop) (m : Memory) : Prop := ∀ e, element e → fIsNaN (m.read32 e.toNat) = false

/-- The memories are the same outside the elements at `e` with `element e`. -/
def sameOutside (element : Int → Prop) (m m' : Memory) : Prop :=
  ∀ x, (∀ e, element e → ¬ (e.toNat ≤ x ∧ x < e.toNat + 4)) → m'.read x = m.read x

/-! ### What other agents read -/

/-- What other agents' reads give, one after another, where nothing conflicts: the bytes that memory holds, after the
agent's own earlier writes (R67). -/
def repliesInOrder (m : Memory) : List ForeignAccess → List ForeignReply
  | [] => []
  | f :: fs =>
    match f.op with
    | .read n => ⟨f.agent, f.addr, m.readList f.addr n⟩ :: repliesInOrder m fs
    | .write data => repliesInOrder (m.writeList f.addr data) fs

/-! ### Accesses -/

/-- A byte of the address space that the caller has made available for reads. -/
abbrev readable (c : Config) (x : Nat) : Prop := x < 2 ^ c.addrW ∧ admitsByte c .read x = true

/-- A 4-byte element that can be read (R57). -/
abbrev readable32 (c : Config) (a : Int) : Prop := checkAccess c .read true a 4 = none

/-- A 4-byte element that can be written (R57). -/
abbrev writable32 (c : Config) (a : Int) : Prop := checkAccess c .write true a 4 = none

/-- The byte is one of the four of the element. -/
abbrev inElement (x : Nat) (e : Int) : Prop := e.toNat ≤ x ∧ x < e.toNat + 4

/-! ### The lane primitives -/

/-- The sum of lanes `4i` to `4i + 3` of the products of the bytes at `a` and `b` (R100, R102). -/
def partialDot (mode : DotMode) (m : Memory) (a b i : Nat) : Int :=
  sumTo (fun j => product mode (m.read (a + 4 * i + j)) (m.read (b + 4 * i + j))) 4

/-- The sixteen bytes that DOT16 stores (R107). -/
def dot16Bytes (mode : DotMode) (m : Memory) (a b : Nat) : List Byte :=
  (List.range 4).flatMap (fun i => leBytes32 (bits32 (partialDot mode m a b i)))

/-- The sum of the four int32 at `a` (R105, R108). -/
def fourSum (m : Memory) (a : Nat) : Int := sumTo (fun i => (m.read32 (a + 4 * i)).toInt) 4

/-! ### The dense kernels -/

/-- The term of column `j`: block columns go through the lane primitive, vector first, and remainder columns are exact
(R134, R135). -/
def denseTerm (c : Config) (m : Memory) (d : DenseArgs) (b r j : Nat) : Int :=
  if j < 16 * d.nblk then product c.dotMode (m.read (d.vectorAt b j)) (m.read (d.matrixAt r j))
  else s8 (m.read (d.matrixAt r j)) * s8 (m.read (d.vectorAt b j))

/-- The dot product of matrix row `r` with vector `b`. -/
def denseDot (c : Config) (m : Memory) (d : DenseArgs) (b r : Nat) : Int := sumTo (denseTerm c m d b r) d.cols

/-- The sum of the raw values of matrix row `r` (R139). -/
def denseRowSum (m : Memory) (d : DenseArgs) (r : Nat) : Int := sumTo (fun j => s8 (m.read (d.matrixAt r j))) d.cols

/-- The running sum is narrowed after `n` columns: after each block, and after each remainder column (R135). -/
abbrev narrowedAt (d : DenseArgs) (n : Nat) : Prop := n ≤ d.cols ∧ (n % 16 = 0 ∨ 16 * d.nblk ≤ n)

/-- No running sum of DMMA.S leaves int32, or overflow wraps (R11, R249). -/
def denseFits (c : Config) (m : Memory) (d : DenseArgs) : Prop :=
  c.intOvf = .wrap ∨
    ∀ b < d.batch, ∀ r < d.rows, ∀ n, narrowedAt d n → in32 (sumTo (denseTerm c m d b r) n) = true

/-- The bytes a dense kernel reads as input, but for DMMA.A's own two arrays (R63). -/
def DenseArgs.inputByte (d : DenseArgs) (x : Nat) : Prop :=
  (∃ b < d.batch, inElement x (d.scales + 4 * b : Nat)) ∨
    (∃ r < d.rows, ∃ j < d.cols, x = d.matrixAt r j) ∨ (∃ b < d.batch, ∃ j < d.cols, x = d.vectorAt b j)

/-- `e` is the address of a result element of a dense kernel (R133). -/
def DenseArgs.element (d : DenseArgs) (e : Int) : Prop := ∃ b < d.batch, ∃ r < d.rows, e = d.resAddr b r

/-- The caller has made every byte available that a dense kernel accesses, but for DMMA.A's own two arrays (R242). -/
structure DenseReady (c : Config) (d : DenseArgs) : Prop where
  scales : ∀ b < d.batch, readable32 c (d.scales + 4 * b : Nat)
  matrix : ∀ _b < d.batch, ∀ r < d.rows, ∀ j < d.cols, readable c (d.matrixAt r j)
  vectors : ∀ b < d.batch, ∀ _r < d.rows, ∀ j < d.cols, readable c (d.vectorAt b j)
  result : ∀ b < d.batch, ∀ r < d.rows, readable32 c (d.resAddr b r) ∧ writable32 c (d.resAddr b r)

/-- What DMMA.S does to memory (R137, R138): row by row and batch by batch, the row's sum times the batch's scale is
added into the row's result element; inputs are those of the memory `m₀` at the start. -/
def dmmaSReference (c : Config) (m₀ : Memory) (d : DenseArgs) (p : Progress) : Progress :=
  upTo (fun b p => upTo (fun r p =>
    addTo 0x10 (d.resAddr b r).toNat
      (valueOrDraw 0x10 (fMul? (fOfInt (wrap32 (denseDot c m₀ d b r))) (m₀.read32 (d.scales + 4 * b))) p.2) p.1)
    d.rows p) d.batch p

/-- The input offset of batch `b` (R132). -/
def offsetAt (m : Memory) (offsets b : Nat) : Int := (m.read32 (offsets + 4 * b)).toInt

/-- `Σ_c row[c]·(vector[c] - offset)`, as `AdjustedSum` has it (R143, R145). -/
def denseAdjusted (c : Config) (m : Memory) (d : DenseArgs) (offsets b r : Nat) : Int :=
  denseDot c m d b r - denseRowSum m d r * offsetAt m offsets b

/-- No running value of DMMA.A leaves int32, or overflow wraps (R11, R142, R249). -/
def asymFits (c : Config) (m : Memory) (d : DenseArgs) (offsets : Nat) : Prop :=
  c.intOvf = .wrap ∨
    ∀ b < d.batch, ∀ r < d.rows,
      (∀ n, narrowedAt d n → in32 (sumTo (denseTerm c m d b r) n) = true ∧
        in32 (sumTo (fun j => s8 (m.read (d.matrixAt r j))) n) = true) ∧
      in32 (denseRowSum m d r * offsetAt m offsets b) = true ∧ in32 (denseAdjusted c m d offsets b r) = true

/-- The value that a dense kernel narrows at a step, where no step before it overflows, or nothing where it has no such
step (R135, R141, R143). -/
def denseSiteValue (c : Config) (m : Memory) (d : DenseArgs) (offsets : Nat) : Site → Option Int
  | .blk b r k =>
    if b < d.batch ∧ r < d.rows ∧ k < d.nblk then some (sumTo (denseTerm c m d b r) (16 * (k + 1))) else none
  | .col b r j =>
    if b < d.batch ∧ r < d.rows ∧ 16 * d.nblk ≤ j ∧ j < d.cols then some (sumTo (denseTerm c m d b r) (j + 1)) else none
  | .rsblk b r k =>
    if b < d.batch ∧ r < d.rows ∧ k < d.nblk then some (sumTo (fun j => s8 (m.read (d.matrixAt r j))) (16 * (k + 1)))
    else none
  | .rscol b r j =>
    if b < d.batch ∧ r < d.rows ∧ 16 * d.nblk ≤ j ∧ j < d.cols then
      some (sumTo (fun j => s8 (m.read (d.matrixAt r j))) (j + 1))
    else none
  | .prod b r => if b < d.batch ∧ r < d.rows then some (denseRowSum m d r * offsetAt m offsets b) else none
  | .adj b r => if b < d.batch ∧ r < d.rows then some (denseAdjusted c m d offsets b r) else none
  | .sblk _ _ => none

/-- DMMA.A's own two arrays can be read (R142, R242). -/
structure AsymReady (c : Config) (d : DenseArgs) (pcs offsets : Nat) : Prop extends DenseReady c d where
  offsets : ∀ b < d.batch, readable32 c (offsets + 4 * b : Nat)
  perChannel : ∀ _b < d.batch, ∀ r < d.rows, readable32 c (pcs + 4 * r : Nat)

/-- The bytes DMMA.A reads as input (R63). -/
def asymInputByte (d : DenseArgs) (pcs offsets x : Nat) : Prop :=
  d.inputByte x ∨ (∃ b < d.batch, inElement x (offsets + 4 * b : Nat)) ∨
    (∃ r < d.rows, inElement x (pcs + 4 * r : Nat))

/-- `Scale3` (R144), with the number of draws after it. -/
def scaleOrDraw (opc : BitVec 8) (order : AsymOrder) (adj : Int) (bs cs : Word32) (n : Nat) : Word32 × Nat :=
  match order with
  | .leftToRight =>
    let x := valueOrDraw opc (fMul? (fOfInt adj) bs) n
    valueOrDraw opc (fMul? x.1 cs) x.2
  | .scaleFirst =>
    let x := valueOrDraw opc (fMul? cs bs) n
    valueOrDraw opc (fMul? (fOfInt adj) x.1) x.2

/-- What DMMA.A does to memory (R142, R145). -/
def dmmaAReference (c : Config) (m₀ : Memory) (d : DenseArgs) (pcs offsets : Nat) (p : Progress) : Progress :=
  upTo (fun b p => upTo (fun r p =>
    addTo 0x11 (d.resAddr b r).toNat
      (scaleOrDraw 0x11 c.asymOrder (wrap32 (denseAdjusted c m₀ d offsets b r)) (m₀.read32 (d.scales + 4 * b))
        (m₀.read32 (pcs + 4 * r)) p.2) p.1)
    d.rows p) d.batch p

/-! ### The sparse kernel -/

/-- Where row `r`'s ledger segment begins (R170): each segment is its count byte and as many index bytes. -/
def ledgerAt (m : Memory) (ledger : Nat) : Nat → Nat
  | 0 => ledger
  | r + 1 => ledgerAt m ledger r + 1 + (m.read (ledgerAt m ledger r)).toNat

/-- The number of blocks of row `r` (R170). -/
def blockCountOf (m : Memory) (ledger r : Nat) : Nat := (m.read (ledgerAt m ledger r)).toNat

/-- The block index at position `i` of row `r` (R170). -/
def blockIndex (m : Memory) (ledger r i : Nat) : Nat := (m.read (ledgerAt m ledger r + 1 + i)).toNat

/-- Where row `r`'s packed blocks begin (R172). -/
def packedAt (m : Memory) (matrix ledger : Nat) : Nat → Nat
  | 0 => matrix
  | r + 1 => packedAt m matrix ledger r + 16 * blockCountOf m ledger r

/-- The term of lane `j` of entry `i` of row `r` (R176). -/
def sparseTerm (c : Config) (m : Memory) (a : SparseArgs) (r i j : Nat) : Int :=
  product c.dotMode (m.read (a.vector + 16 * blockIndex m a.ledger r i + j))
    (m.read (packedAt m a.matrix a.ledger r + 16 * i + j))

/-- The row's sum over its blocks (R176). -/
def sparseDot (c : Config) (m : Memory) (a : SparseArgs) (r : Nat) : Int :=
  sumTo (fun i => sumTo (sparseTerm c m a r i) 16) (blockCountOf m a.ledger r)

/-- The bytes a walk reads as input (R63, R182). -/
def sparseInputByte (m : Memory) (a : SparseArgs) (x : Nat) : Prop :=
  ∃ r < a.rows, (∃ i ≤ blockCountOf m a.ledger r, x = ledgerAt m a.ledger r + i) ∨
    (∃ i < blockCountOf m a.ledger r, ∃ j < 16,
      x = a.vector + 16 * blockIndex m a.ledger r i + j ∨ x = packedAt m a.matrix a.ledger r + 16 * i + j)

/-- `e` is the address of a result element of a walk (R176). -/
def SparseArgs.element (a : SparseArgs) (e : Int) : Prop := ∃ r < a.rows, e = a.resAddr r

/-- `e` is the address of a result element of SMMA.B (R178). -/
def SparseBatchArgs.element (a : SparseBatchArgs) (e : Int) : Prop :=
  ∃ b < a.batch, ∃ r < a.rows, e = (a.walk b 0).resAddr r

/-- The ledger names blocks inside the row (R174), and the caller has made every byte available that a walk accesses
(R242). -/
structure SparseReady (c : Config) (m : Memory) (a : SparseArgs) : Prop where
  index : ∀ r < a.rows, ∀ i < blockCountOf m a.ledger r, 16 * blockIndex m a.ledger r i + 16 ≤ a.cols
  inputs : ∀ x, sparseInputByte m a x → readable c x
  result : ∀ r < a.rows, readable32 c (a.resAddr r) ∧ writable32 c (a.resAddr r)

/-- What a walk does to memory (R176), under the command with operation code `opc`. -/
def sparseReference (opc : BitVec 8) (c : Config) (m₀ : Memory) (a : SparseArgs) (p : Progress) : Progress :=
  upTo (fun r p =>
    addTo opc (a.resAddr r).toNat (valueOrDraw opc (fMul? (fOfInt (sparseDot c m₀ a r)) a.scale) p.2) p.1) a.rows p

/-- Batch `b`'s walk with its scale from memory (R178). -/
def SparseBatchArgs.walkAt (a : SparseBatchArgs) (m : Memory) (b : Nat) : SparseArgs :=
  a.walk b (m.read32 (a.scales + 4 * b))

/-- What SMMA.B does to memory (R178): one walk per batch. -/
def smmaBReference (c : Config) (m₀ : Memory) (a : SparseBatchArgs) (p : Progress) : Progress :=
  upTo (fun b p => sparseReference 0x21 c m₀ (a.walkAt m₀ b) p) a.batch p

/-- The bytes SMMA.B reads as input (R63). -/
def sparseBatchInputByte (m : Memory) (a : SparseBatchArgs) (x : Nat) : Prop :=
  ∃ b < a.batch, inElement x (a.scales + 4 * b : Nat) ∨ sparseInputByte m (a.walkAt m b) x

/-- SMMA commands issued one after another, the `b`-th with the argument registers `argv b` (R179): the state after
`n` of them, or nothing where one of them does not complete. -/
def walksInTurn (argv : Nat → Vector (Option Word64) 10) (s : State) : Nat → Option State
  | 0 => some s
  | n + 1 =>
    match walksInTurn argv s n with
    | some t =>
      match exec .smma { t with inst := { t.inst with args := argv n } } with
      | .next u => if u.inst.fault = none then some u else none
      | _ => none
    | none => none

/-- A dense matrix holds, row by row, the blocks that a ledger lists, and zeros elsewhere; the ledger lists no block of a
row twice (R172, R180). -/
structure DenseOf (m : Memory) (a : SparseArgs) (matrix : Nat) : Prop where
  whole : a.cols % 16 = 0
  inside : ∀ r < a.rows, ∀ i < blockCountOf m a.ledger r, 16 * blockIndex m a.ledger r i + 16 ≤ a.cols
  once : ∀ r < a.rows, ∀ i < blockCountOf m a.ledger r, ∀ k < blockCountOf m a.ledger r,
    blockIndex m a.ledger r i = blockIndex m a.ledger r k → i = k
  listed : ∀ r < a.rows, ∀ i < blockCountOf m a.ledger r, ∀ j < 16,
    m.read (matrix + r * a.cols + 16 * blockIndex m a.ledger r i + j) =
      m.read (packedAt m a.matrix a.ledger r + 16 * i + j)
  zero : ∀ r < a.rows, ∀ k < a.cols / 16, (∀ i < blockCountOf m a.ledger r, blockIndex m a.ledger r i ≠ k) →
    ∀ j < 16, m.read (matrix + r * a.cols + 16 * k + j) = 0

/-! ### The assembler -/

/-- The state after `n` steps, or nothing where one of them stops. -/
def afterSteps : Nat → State → Option State
  | 0, s => some s
  | n + 1, s =>
    match step s with
    | .next t => afterSteps n t
    | _ => none

/-- The literal fits the view (R91, R93): an address inside the address space and the register, an integer of the view's
range, a binary32 pattern, or a decimal number that binary32 holds exactly. -/
def literalFits (addrW : Nat) (v : View) (l : Literal) : Prop :=
  match v, l with
  | .addr, .hex n => n < 2 ^ addrW ∧ n < 2 ^ 64
  | .dim, .dec x => 0 ≤ x ∧ x ≤ 2147483647
  | .int, .dec x => -2147483648 ≤ x ∧ x ≤ 2147483647
  | .f32, .hex n => n < 2 ^ 32
  | .f32, .dec x => ∃ f, fIsFinite f = true ∧ fUnits f = x * 2 ^ 149
  | .f32, .frac negative digits places =>
    ∃ f, fIsFinite f = true ∧ fUnits f * 10 ^ places = (if negative then -(digits : Int) else digits) * 2 ^ 149
  | _, _ => False

/-- Register `k`, read through the view, gives what the literal says (R91): the address or the integer itself, the
binary32 pattern, or the binary32 value that is exactly the decimal fraction. -/
def readsAs (t : State) (k : Fin 10) (v : View) (l : Literal) : Prop :=
  match v, l with
  | .addr, .hex n => argAddr k t = .ok n t
  | .dim, .dec x => ∃ n : Nat, (n : Int) = x ∧ argDim k t = .ok n t
  | .int, .dec x => argInt k t = .ok x t
  | .f32, .hex n => n < 2 ^ 32 ∧ argF32 k t = .ok (BitVec.ofNat 32 n) t
  | .f32, .dec x => ∃ f, argF32 k t = .ok f t ∧ fIsFinite f = true ∧ fUnits f = x * 2 ^ 149
  | .f32, .frac negative digits places =>
    ∃ f, argF32 k t = .ok f t ∧ fIsFinite f = true ∧ fSign f = negative ∧
      fUnits f * 10 ^ places = (if negative then -(digits : Int) else digits) * 2 ^ 149
  | _, _ => False

end Sys2Proof.Machine
end

