-- ==== Sys2Proof/Certificates/Slice0/Obligations.lean ====
section
/-! DEFINITION. The statements for the provers, by the rules of spec/ they come from. Where a statement says "no other agent
is at work", it assumes that `foreign` is empty (20_memory.md R66). -/

open Sys2Proof Sys2Proof.Machine

/-! ### Command words -/

/-- The six words of the opcode map, written out bit by bit, decode to their commands (R81, R82), and the table's word 0x11,
as the table numbers its bits, is DMMA.A; the four words 0x00000000, 0x00000003, 0x00000110 and 0x80000020, the last two
with a reserved bit set, are `IllegalCmd` (R83); and decoding undoes encoding for every command. Which of all words decode
is the statement DecoderTotal. -/
def Obligations.OpcodeMapDecodes : Prop :=
  decode 0b00000000000000000000000000000001 = .ok .dot16 ∧
  decode 0b00000000000000000000000000000010 = .ok .hred ∧
  decode 0b00000000000000000000000000010000 = .ok .dmmaS ∧
  decode 0b00000000000000000000000000010001 = .ok .dmmaA ∧
  decode 0b00000000000000000000000000100000 = .ok .smma ∧
  decode 0b00000000000000000000000000100001 = .ok .smmaB ∧
  decodeTableWord 32 0x11 = some .dmmaA ∧
  decode 0x00000000 = .error (.illegalCmd 0x00000000) ∧
  decode 0x00000003 = .error (.illegalCmd 0x00000003) ∧
  decode 0x00000110 = .error (.illegalCmd 0x00000110) ∧
  decode 0x80000020 = .error (.illegalCmd 0x80000020) ∧
  ∀ i : Instr, i.wellFormed = true → decode (encode i) = .ok i

/-- R90 (the spec's decision D5): the decoder is total. Each word decodes to a command exactly when the word is that command's operation code with
nothing above it; every other word is `IllegalCmd`. -/
def Obligations.DecoderTotal : Prop :=
  ∀ w : Word32,
    (∀ i : Instr, decode w = .ok i ↔ w &&& 0xFFFFFFFF = i.opc.setWidth 32) ∧
    ((∃ i : Instr, decode w = .ok i) ∨ decode w = .error (.illegalCmd w)) ∧
    (decode w = .error (.illegalCmd w) ↔ legalWord w = false)

/-- R202 (the spec's decision D5): a CMD write of a word that is not legal ends with the fault `IllegalCmd`, code 0x01, whose info is the word and
whose `opc` is 0x00; no argument register and no byte of memory plays a part, and nothing else changes. -/
def Obligations.IllegalWordFaults : Prop :=
  ∀ (s : State) (w : Word32), s.accepts → s.inst.idle → s.foreign = [] → legalWord w = false →
    writeCmd w s = .next (s.recordFault 0x00 (.illegalCmd w)) ∧
    (s.recordFault 0x00 (.illegalCmd w)).inst.fault = some ⟨0x00, .illegalCmd w⟩ ∧
    FaultRecord.code ⟨0x00, .illegalCmd w⟩ = 0x01

/-! ### A step of the machine -/

/-- A CMD write whose word decodes to a command runs exactly that command, with the interaction taken off the caller's
list; and a word placed as the next one runs at once (R35, R37). The list of interactions is the model's own (log 10). -/
def Obligations.StepRunsCommand : Prop :=
  ∀ (s : State) (i : Instr), s.inst.busy = false →
    (∀ (w : Word32) (rest : List HostAct), s.caller = .cmdWrite w :: rest → decode w = .ok i →
      step s = exec i { s with caller := rest }) ∧
    (∀ nbits n : Nat, decodeTableWord nbits n = some i → step (s.withFetchWord nbits n) = exec i s)

/-- A command that is accepted ends in one step, and in one of two ways: completed, with no fault recorded, or faulted,
with one record under the command's operation code; in both `BUSY` is false and no working state is left (R35, R38, R40,
R201). -/
def Obligations.CommandEnds : Prop :=
  ∀ (i : Instr) (s : State), s.accepts →
    ∃ t, exec i s = .next t ∧ t.inst.busy = false ∧ t.inst.work = none ∧
      (t.inst.fault = none ∨ ∃ c, t.inst.fault = some ⟨i.opc, c⟩)

/-- The two interactions that have no step: a CMD write, whatever its word, while `FAULT` is not empty (R41), where the model
stops with a fault that carries the record; and a read of CMD, which is refused (R36). -/
def Obligations.InteractionsWithoutStep : Prop :=
  ∀ (s : State) (rest : List HostAct), s.inst.busy = false →
    (∀ (r : FaultRecord) (w : Word32), s.inst.fault = some r → s.caller = .cmdWrite w :: rest →
      step s = .fault (.blockFaulted r)) ∧
    (s.caller = .cmdRead :: rest → step s = .refused .cmdRead)

/-- Nothing clears a fault record (R41, R213, R240). A step that is no reset and no choice of another block leaves the addressed
block's record in place and the other blocks as they are; a choice of another block makes the two change places, each with
all it holds (log 14); and every record of every block stays on record at every step, a reset's among them, which empties
the blocks' records and reports them for the run it ends (log 15). That the first record stays where a caller reads an
unwritten register of a faulted block is the model's choice (log 4): the spec gives no second record. -/
def Obligations.FaultsAreKept : Prop :=
  ∀ s t : State, step s = .next t →
    ((∀ rest, s.caller ≠ .reset :: rest) → (∀ n rest, s.caller ≠ .select n :: rest) →
      (∀ r, s.inst.fault = some r → t.inst.fault = some r) ∧ t.others = s.others) ∧
    (∀ n rest, s.caller = .select n :: rest →
      s.others[n]? = some t.inst ∧ t.others = s.others.set n s.inst) ∧
    ∀ r ∈ s.allFaults, r ∈ t.allFaults

/-- The records that R212 allows are an invariant of every step: a fault is recorded under the operation code of a command
that raises it, with an argument index or an overflow site of that command; under 0x00 only an illegal command word or a
caller's read is recorded. -/
def Obligations.RecordsStayAllowed : Prop :=
  ∀ s t : State, (∀ r ∈ s.allFaults, r.allowed) → step s = .next t → ∀ r ∈ t.allFaults, r.allowed

/-- The memory keeps its canonical form and holds no byte outside the address space, whatever the step; and the accesses
that other agents announce stay inside it as well (R43, R57). -/
def Obligations.MemoryStaysWellFormed : Prop :=
  ∀ s t : State, s.memoryOk → s.foreignInSpace → step s = .next t → t.memoryOk ∧ t.foreignInSpace

/-- Between steps every block is idle (R37, R40, R42, R223): a step never leaves a command running, in the addressed block
or another, and so no interaction is ever held. -/
def Obligations.StepsLeaveBlocksIdle : Prop :=
  ∀ s : State, s.quiet → (∀ t, step s = .next t → t.quiet) ∧ step s ≠ .fault .held

/-- No step changes a launch parameter or the number of blocks (R6, R221, R252). -/
def Obligations.LaunchParametersFixed : Prop :=
  ∀ s t : State, step s = .next t → t.cfg = s.cfg ∧ t.others.length = s.others.length

/-- The state at the start of a run satisfies the invariants, and in it no register holds a value, no block is busy, no
fault is recorded and no working state exists, for all launch parameters; memory is as the caller left it (R45, R240,
R241). That an unlisted byte of memory reads 0 and the default launch parameters are the model's choices (logs 6 and 7);
no clause is about them. -/
def Obligations.ResetState : Prop :=
  (∀ (c : Config) (m : Memory), c.wellFormed = true →
    (State.launch c m).mem = m ∧ (State.launch c m).cfg = c ∧ (State.launch c m).blockCount ∧
    (State.launch c m).quiet ∧ (State.launch c m).allFaults = [] ∧ (State.launch c m).accepts ∧
    ∀ b ∈ (State.launch c m).inst :: (State.launch c m).others,
      (∀ i : Fin 10, b.args[i] = none) ∧ b.busy = false ∧ b.fault = none ∧ b.work = none) ∧
  State.reset.memoryOk ∧ State.reset.foreignInSpace

/-- A reset puts every block into its reset state and does not touch memory; the faults recorded before stay on record for
the run that ended (R240). -/
def Obligations.ResetEvent : Prop :=
  ∀ (s : State) (rest : List HostAct), s.inst.busy = false → s.caller = .reset :: rest →
    ∃ t, step s = .next t ∧ t.mem = s.mem ∧ t.cfg = s.cfg ∧ t.inst = Instance.reset ∧
      t.others = s.others.map (fun _ => Instance.reset) ∧ t.recorded = [] ∧
      t.pastFaults = s.pastFaults ++ s.recorded

/-! ### Argument registers -/

/-- R33 (the spec's decision D4): the caller reads back the last pattern it wrote, all 64 bits, no other register changes with a write, and no command
changes any; a caller's read of a register that holds no value is the fault `UnwrittenArg`, code 0x02, with `opc` 0x00
(R203), and a command's read of one raises it as well. -/
def Obligations.ArgReadsBack : Prop :=
  (∀ (s : State) (i : Fin 10) (v : Word64),
    (callerReadArg i (writeArg i v s)).reply = some (.arg v) ∧
    ∀ j : Fin 10, j ≠ i → (writeArg i v s).inst.args[j] = s.inst.args[j]) ∧
  (∀ (s : State) (i : Fin 10), s.inst.args[i] = none → s.inst.fault = none →
    (callerReadArg i s).inst.fault = some ⟨0x00, .unwrittenArg i⟩ ∧
    FaultRecord.code ⟨0x00, .unwrittenArg i⟩ = 0x02 ∧ readArg i s = .error (.unwrittenArg i) s) ∧
  ∀ (i : Instr) (s t : State), exec i s = .next t → t.inst.args = s.inst.args

/-- The operand views (R84, R85, R86), for every 64-bit pattern: an address is the pattern as an unsigned number below
`2 ^ ADDR_W`; an int32 is the number whose sign extension the pattern is; a dimension is one that is not negative; a
binary32 is the low half below an upper half of zeros. Every other pattern is `BadArg` with the index and the pattern, and
a register without a value is `UnwrittenArg`. -/
def Obligations.OperandViews : Prop :=
  ∀ (s : State) (i : Fin 10),
    (s.inst.args[i] = none →
      argAddr i s = .error (.unwrittenArg i) s ∧ argInt i s = .error (.unwrittenArg i) s ∧
      argDim i s = .error (.unwrittenArg i) s ∧ argF32 i s = .error (.unwrittenArg i) s) ∧
    ∀ v : Word64, s.inst.args[i] = some v →
      argAddr i s = (if v.toNat < 2 ^ s.cfg.addrW then .ok v.toNat s else .error (.badArg i v) s) ∧
      (∀ x : Int, argInt i s = .ok x s ↔ (in32 x = true ∧ v = BitVec.ofInt 64 x)) ∧
      ((∀ x : Int, in32 x = true → v ≠ BitVec.ofInt 64 x) → argInt i s = .error (.badArg i v) s) ∧
      (∀ n : Nat, argDim i s = .ok n s ↔ (n < 2147483648 ∧ v = BitVec.ofNat 64 n)) ∧
      ((∀ n : Nat, n < 2147483648 → v ≠ BitVec.ofNat 64 n) → argDim i s = .error (.badArg i v) s) ∧
      (∀ f : Word32, argF32 i s = .ok f s ↔ v = (0 : BitVec 32) ++ f) ∧
      ((∀ f : Word32, v ≠ (0 : BitVec 32) ++ f) → argF32 i s = .error (.badArg i v) s)

/-- The order of operand decoding (R88, R203, R204): the first register, in ascending index, that holds no value or does
not fit its view ends the command, before anything else happens; and where there is none, the command ends with neither
fault. No other agent is at work. -/
def Obligations.OperandFaultsInOrder : Prop :=
  ∀ (i : Instr) (s : State), s.accepts → s.inst.idle → s.foreign = [] →
    (∀ c, operandFault s.cfg.addrW s.inst.args 0 i.views = some c → exec i s = .next (s.recordFault i.opc c)) ∧
    (operandFault s.cfg.addrW s.inst.args 0 i.views = none →
      ∃ t, exec i s = .next t ∧ (∀ o k, t.inst.fault ≠ some ⟨o, .unwrittenArg k⟩) ∧
        ∀ o k v, t.inst.fault ≠ some ⟨o, .badArg k v⟩)

/-! ### Frames -/

/-- The frame of every command but for memory (R31, R34, R39): the argument registers, the other blocks, the launch
parameters and what the caller still has to do stay as they are, whether the command completes or faults; what other agents
read meanwhile is added to what they read before. -/
def Obligations.CommandFrame : Prop :=
  ∀ (i : Instr) (s t : State), exec i s = .next t →
    t.inst.args = s.inst.args ∧ t.others = s.others ∧ t.cfg = s.cfg ∧ t.caller = s.caller ∧ t.reply = s.reply ∧
    t.pastFaults = s.pastFaults ∧ t.inst.idle ∧ t.foreign = [] ∧ s.draws ≤ t.draws ∧
    ∃ replies, t.foreignReplies = s.foreignReplies ++ replies

/-- The memory frame of DOT16 and HRED (R55): whether it completes or faults, every byte outside the destination that no
other agent writes reads as before. -/
def Obligations.PrimitiveMemoryFrame : Prop :=
  ∀ (i : Instr) (s t : State), (i = .dot16 ∨ i = .hred) → exec i s = .next t →
    ∀ x, ¬ storedByte i s x → ¬ s.foreignWrites x → t.mem.read x = s.mem.read x

/-- The memory frame of DMMA.S and DMMA.A (R55, R133): every byte outside the result elements that no other agent writes
reads as before. -/
def Obligations.DenseMemoryFrame : Prop :=
  ∀ (i : Instr) (s t : State), (i = .dmmaS ∨ i = .dmmaA) → exec i s = .next t →
    ∀ x, ¬ storedByte i s x → ¬ s.foreignWrites x → t.mem.read x = s.mem.read x

/-- The memory frame of SMMA and SMMA.B (R55, R176, R178): every byte outside the result elements that no other agent
writes reads as before. -/
def Obligations.SparseMemoryFrame : Prop :=
  ∀ (i : Instr) (s t : State), (i = .smma ∨ i = .smmaB) → exec i s = .next t →
    ∀ x, ¬ storedByte i s x → ¬ s.foreignWrites x → t.mem.read x = s.mem.read x

/-! ### Memory -/

/-- Little-endian order (R50, the spec's decision D6): an element is made up of its four bytes, the lowest address least significant; `le_bytes32` is the inverse; and
an element that is stored reads back. -/
def Obligations.LittleEndian : Prop :=
  (∀ (m : Memory) (a : Nat), (m.read32 a).toNat =
    (m.read a).toNat + 2 ^ 8 * (m.read (a + 1)).toNat + 2 ^ 16 * (m.read (a + 2)).toNat +
      2 ^ 24 * (m.read (a + 3)).toNat) ∧
  (∀ (v : Word32), le32 (leBytes32 v) = v ∧ ∀ j < 4, (leBytes32 v)[j]? = some (v.extractLsb' (8 * j) 8)) ∧
  (∀ (b0 b1 b2 b3 : Byte), leBytes32 (le32 [b0, b1, b2, b3]) = [b0, b1, b2, b3]) ∧
  ∀ (m : Memory) (a : Nat) (v : Word32), m.wf = true → (m.writeList a (leBytes32 v)).read32 a = v

/-- R57 (the spec's decisions D7 and D24): the three checks of an access in their order, for reads and writes of any size: range, alignment where the element
needs it, admission of every byte (R56, R58). An access that fails one raises, and changes nothing; one that passes reads
the current bytes or replaces them. No other agent is at work. -/
def Obligations.AccessChecks : Prop :=
  ∀ (s : State) (tag : Tag) (aligned : Bool) (a : Int) (n : Nat) (bytes : List Byte),
    s.foreign = [] → bytes.length = n →
    ((¬ (0 ≤ a ∧ a + n ≤ 2 ^ s.cfg.addrW) →
        memRead tag aligned a n s = .error (.memUnadmitted a n .read) s ∧
        memWrite aligned a bytes s = .error (.memUnadmitted a n .write) s) ∧
     (0 ≤ a ∧ a + n ≤ 2 ^ s.cfg.addrW →
       (aligned = true ∧ a % 4 ≠ 0 →
          memRead tag aligned a n s = .error (.misaligned a n) s ∧
          memWrite aligned a bytes s = .error (.misaligned a n) s) ∧
       (¬ (aligned = true ∧ a % 4 ≠ 0) →
          (((∃ j < n, admitsByte s.cfg .read (a.toNat + j) = false) →
              memRead tag aligned a n s = .error (.memUnadmitted a n .read) s) ∧
            ((∀ j < n, admitsByte s.cfg .read (a.toNat + j) = true) →
              ∃ t, memRead tag aligned a n s = .ok (s.mem.readList a.toNat n) t ∧ t.mem = s.mem)) ∧
          ((∃ j < n, admitsByte s.cfg .write (a.toNat + j) = false) →
              memWrite aligned a bytes s = .error (.memUnadmitted a n .write) s) ∧
          ((∀ j < n, admitsByte s.cfg .write (a.toNat + j) = true) →
              ∃ t, memWrite aligned a bytes s = .ok () t ∧ t.mem = s.mem.writeList a.toNat bytes))))

/-- The alias fault (R63, R64, R211). Its address is the lowest byte that the command both wrote and read as input, and there is
none exactly when the two sets are disjoint. And a kernel that runs to its end and has written a byte that it read as input
ends with `Alias` of the lowest such byte: so it is for each of the four where the caller has made every byte available and
the run raises nothing else, whatever the overlap (no running sum overflows whatever the result elements hold; the dense
asymmetric kernel's offsets, and a ledger byte still to be read, are not written over). No other agent is at work. -/
def Obligations.LowestAlias : Prop :=
  (∀ (trace : List Touch),
    (∀ x, lowestAlias trace = some x ↔
      (inTrace trace .written x = true ∧ inTrace trace .input x = true ∧
        ∀ y, inTrace trace .written y = true → inTrace trace .input y = true → x ≤ y)) ∧
    (lowestAlias trace = none ↔ ∀ x, ¬ (inTrace trace .written x = true ∧ inTrace trace .input x = true))) ∧
  (∀ (s : State) (d : DenseArgs) (x : Nat), s.accepts → s.foreign = [] → operandsOf denseArgs s = some d →
    DenseReady s.cfg d → (∀ m, sameOutside d.element s.mem m → denseFits s.cfg m d) →
    ((∃ e, d.element e ∧ inElement x e) ∧ d.inputByte x) →
    (∀ y, (∃ e, d.element e ∧ inElement y e) → d.inputByte y → x ≤ y) →
    ∃ t, exec .dmmaS s = .next t ∧ t.inst.fault = some ⟨0x10, .aliased x⟩) ∧
  (∀ (s : State) (d : DenseArgs) (pcs offsets x : Nat), s.accepts → s.foreign = [] →
    operandsOf denseArgs s = some d → operandsOf (argAddr 8) s = some pcs → operandsOf (argAddr 9) s = some offsets →
    AsymReady s.cfg d pcs offsets →
    (s.cfg.intOvf = .wrap ∨ ((∀ m, sameOutside d.element s.mem m → asymFits s.cfg m d offsets) ∧
      ∀ b < d.batch, ∀ y, inElement y (offsets + 4 * b : Nat) → ∀ e, d.element e → ¬ inElement y e)) →
    ((∃ e, d.element e ∧ inElement x e) ∧ asymInputByte d pcs offsets x) →
    (∀ y, (∃ e, d.element e ∧ inElement y e) → asymInputByte d pcs offsets y → x ≤ y) →
    ∃ t, exec .dmmaA s = .next t ∧ t.inst.fault = some ⟨0x11, .aliased x⟩) ∧
  (∀ (s : State) (a : SparseArgs) (x : Nat), s.accepts → s.foreign = [] → operandsOf sparseArgs s = some a →
    a.cols % 16 = 0 → SparseReady s.cfg s.mem a →
    (∀ r < a.rows, ∀ q < r, ∀ i ≤ blockCountOf s.mem a.ledger r,
      ¬ inElement (ledgerAt s.mem a.ledger r + i) (a.resAddr q)) →
    ((∃ e, a.element e ∧ inElement x e) ∧ sparseInputByte s.mem a x) →
    (∀ y, (∃ e, a.element e ∧ inElement y e) → sparseInputByte s.mem a y → x ≤ y) →
    ∃ t, exec .smma s = .next t ∧ t.inst.fault = some ⟨0x20, .aliased x⟩) ∧
  ∀ (s : State) (a : SparseBatchArgs) (x : Nat), s.accepts → s.foreign = [] → operandsOf sparseBatchArgs s = some a →
    a.cols % 16 = 0 → (∀ b < a.batch, readable32 s.cfg (a.scales + 4 * b : Nat)) →
    (∀ b < a.batch, SparseReady s.cfg s.mem (a.walkAt s.mem b)) →
    (∀ r < a.rows, ∀ i ≤ blockCountOf s.mem a.ledger r, ∀ e, a.element e →
      ¬ inElement (ledgerAt s.mem a.ledger r + i) e) →
    ((∃ e, a.element e ∧ inElement x e) ∧ sparseBatchInputByte s.mem a x) →
    (∀ y, (∃ e, a.element e ∧ inElement y e) → sparseBatchInputByte s.mem a y → x ≤ y) →
    ∃ t, exec .smmaB s = .next t ∧ t.inst.fault = some ⟨0x21, .aliased x⟩

/-- A kernel that completes has written no byte that it read as input (R64, R211): a result element that overlaps an input
never goes unnoticed. For the dense kernels that is so whatever other agents do; for the sparse ones, whose inputs the
ledger names, where no other agent is at work. -/
def Obligations.CompletedKernelsAreDisjoint : Prop :=
  (∀ (s t : State) (d : DenseArgs), exec .dmmaS s = .next t → t.inst.fault = none → operandsOf denseArgs s = some d →
    ∀ e, d.element e → ∀ x, inElement x e → ¬ d.inputByte x) ∧
  (∀ (s t : State) (d : DenseArgs) (pcs offsets : Nat), exec .dmmaA s = .next t → t.inst.fault = none →
    operandsOf denseArgs s = some d → operandsOf (argAddr 8) s = some pcs → operandsOf (argAddr 9) s = some offsets →
    ∀ e, d.element e → ∀ x, inElement x e → ¬ asymInputByte d pcs offsets x) ∧
  (∀ (s t : State) (a : SparseArgs), s.foreign = [] → exec .smma s = .next t → t.inst.fault = none →
    operandsOf sparseArgs s = some a → ∀ e, a.element e → ∀ x, inElement x e → ¬ sparseInputByte s.mem a x) ∧
  ∀ (s t : State) (a : SparseBatchArgs), s.foreign = [] → exec .smmaB s = .next t → t.inst.fault = none →
    operandsOf sparseBatchArgs s = some a →
    ∀ e, a.element e → ∀ x, inElement x e → ¬ sparseBatchInputByte s.mem a x

/-- A read of a byte that races gives a value nothing is known of, drawn afresh for each byte: a byte that another agent writes
while the command runs, and a byte that the command is to write in this run in an access that conflicts, be it read before
that write or after it (R65, R67). Any other byte reads as memory holds it. And where other agents only read, and none of
them reads a byte that the command can store to, or the command ends with a fault raised before it has written anything,
nothing conflicts: the command ends as it does with no other agent at work, and the reads give the bytes of memory (R57,
R67). That a free value is drawn by number and by the command's operation code is log 8; that the run foresees what it
will write, and spends one draw on that, is log 9. -/
def Obligations.RacingReadsAreDraws : Prop :=
  (∀ (s : State) (a n : Nat),
    ∃ (bytes : List Byte) (t : State) (k : Nat → Nat),
      readBytes a n s = .ok bytes t ∧ bytes.length = n ∧ t.mem = s.mem ∧
      (∀ i < n, ∀ j < n, s.racesAt (a + i) → s.racesAt (a + j) → k i = k j → i = j) ∧
      ∀ j < n,
        (s.racesAt (a + j) →
          s.draws ≤ k j ∧ k j < t.draws ∧ bytes[j]? = some (Config.freeByte s.inst.running (k j))) ∧
        (¬ s.racesAt (a + j) → bytes[j]? = some (s.mem.read (a + j)))) ∧
  ∀ (i : Instr) (s t : State), s.foreign ≠ [] → (∀ f ∈ s.foreign, f.isWrite = false) → exec i s = .next t →
    ((∀ f ∈ s.foreign, ∀ x, f.touches x 1 = true → ¬ storedByte i s x) ∨
      ∃ c, t.inst.fault = some ⟨i.opc, c⟩ ∧ c.beforeAnyWrite i = true) →
    ∃ u, exec i { s with foreign := [], draws := s.draws + 1 } = .next u ∧
      t = { u with foreignReplies := s.foreignReplies ++ repliesInOrder u.mem s.foreign }

/-- Where no access of another agent conflicts with DOT16's or with another one's, the command and the other agents' writes
give the memory of running one after the other, and the other agents' reads give the bytes that memory holds (R67, R252).
That one draw is spent where another agent is at work is log 9. -/
def Obligations.ConflictFreeDot16 : Prop :=
  ∀ (s : State) (a b d : Nat), s.accepts →
    operandsOf (argAddr 0) s = some a → operandsOf (argAddr 1) s = some b → operandsOf (argAddr 2) s = some d →
    checkAccess s.cfg .read false a 16 = none → checkAccess s.cfg .read false b 16 = none →
    checkAccess s.cfg .write true d 16 = none →
    (∀ f ∈ s.foreign, f.touches d 16 = false ∧
      (f.isWrite = true → f.touches a 16 = false ∧ f.touches b 16 = false) ∧ ∀ g ∈ s.foreign, f.conflicts g = false) →
    exec .dot16 s = .next { s.afterCommand
      (landForeign (s.mem.writeList d (dot16Bytes s.cfg.dotMode s.mem a b)) s.foreign)
      (if s.foreign = [] then s.draws else s.draws + 1) with
        foreignReplies := s.foreignReplies ++
          repliesInOrder (s.mem.writeList d (dot16Bytes s.cfg.dotMode s.mem a b)) s.foreign }

/-- Where another agent writes a byte of DOT16's destination while the command runs, every byte that either of them wrote
holds a value nothing is known of (R67). Where another agent, the host for one, reads a byte of the destination, every byte
of the destination holds such a value, and the read gives back the bytes of memory outside the destination and values
nothing is known of inside it (R67, R252). -/
def Obligations.ConflictingWritesAreDraws : Prop :=
  ∀ (s : State) (a b d agent y : Nat), s.accepts → s.mem.wf = true →
    operandsOf (argAddr 0) s = some a → operandsOf (argAddr 1) s = some b → operandsOf (argAddr 2) s = some d →
    checkAccess s.cfg .read false a 16 = none → checkAccess s.cfg .read false b 16 = none →
    checkAccess s.cfg .write true d 16 = none →
    (∀ data : List Byte, s.foreign = [⟨agent, y, .write data⟩] → overlap y data.length d 16 = true →
      ∃ t, exec .dot16 s = .next t ∧ t.inst.fault = none ∧
        ∀ x, (d ≤ x ∧ x < d + 16) ∨ (y ≤ x ∧ x < y + data.length) →
          ∃ k, s.draws ≤ k ∧ k < t.draws ∧ t.mem.read x = Config.freeByte 0x01 k) ∧
    ∀ n : Nat, s.foreign = [⟨agent, y, .read n⟩] → overlap y n d 16 = true →
      ∃ t data, exec .dot16 s = .next t ∧ t.inst.fault = none ∧
        (∀ x, d ≤ x ∧ x < d + 16 → ∃ k, s.draws ≤ k ∧ k < t.draws ∧ t.mem.read x = Config.freeByte 0x01 k) ∧
        t.foreignReplies = s.foreignReplies ++ [⟨agent, y, data⟩] ∧ data.length = n ∧
        ∀ j < n,
          (d ≤ y + j ∧ y + j < d + 16 → ∃ k, s.draws ≤ k ∧ k < t.draws ∧ data[j]? = some (Config.freeByte 0x01 k)) ∧
          (¬ (d ≤ y + j ∧ y + j < d + 16) → data[j]? = some (s.mem.read (y + j)))

/-! ### Numbers -/

/-- R10: `wrap32` gives the one int32 that is congruent to the integer modulo 2^32, and `in32` is the int32 range. -/
def Obligations.WrapIsUnique : Prop :=
  ∀ x : Int,
    (-2147483648 ≤ wrap32 x ∧ wrap32 x ≤ 2147483647 ∧ (4294967296 : Int) ∣ wrap32 x - x) ∧
    (∀ y : Int, -2147483648 ≤ y → y ≤ 2147483647 → (4294967296 : Int) ∣ y - x → y = wrap32 x) ∧
    (in32 x = true ↔ (-2147483648 ≤ x ∧ x ≤ 2147483647))

/-- `acc32` (R11, the spec's decision D15) under `FAULT` keeps a value that is an int32 and raises `IntOverflow` with the site for any other; under
`WRAP` it wraps every value. It changes nothing. -/
def Obligations.AccNarrows : Prop :=
  ∀ (s : State) (x : Int) (site : Work → Site),
    (s.cfg.intOvf = .fault →
      (in32 x = true → ∃ v, acc32 x site s = .ok v s ∧ v.toInt = x) ∧
      (in32 x = false → acc32 x site s = .error (.intOverflow (site s.workNow)) s)) ∧
    (s.cfg.intOvf = .wrap → ∃ v, acc32 x site s = .ok v s ∧ v.toInt = wrap32 x)

/-- R17 (the spec's decision D13): the conversion of an int32 gives the nearest binary32 value, a tie the one with an even fraction; it is finite, 0
gives +0.0, magnitudes up to 2^24 are exact; and the rule's two examples. Values are counted in units of 2^-149. -/
def Obligations.IntToFloatNearest : Prop :=
  (∀ x : Int, in32 x = true →
    fIsFinite (fOfInt x) = true ∧
    (∀ z : Word32, fIsFinite z = true →
      (fUnits (fOfInt x) - x * 2 ^ 149).natAbs < (fUnits z - x * 2 ^ 149).natAbs ∨
      ((fUnits (fOfInt x) - x * 2 ^ 149).natAbs = (fUnits z - x * 2 ^ 149).natAbs ∧
        (fUnits z = fUnits (fOfInt x) ∨ fFrac (fOfInt x) % 2 = 0))) ∧
    (x.natAbs ≤ 2 ^ 24 → fUnits (fOfInt x) = x * 2 ^ 149)) ∧
  fOfInt 0 = 0x00000000 ∧ fOfInt 16777217 = 0x4B800000 ∧ fOfInt 16777219 = 0x4B800002

/-- The product (R18; that it is the IEEE 754 product is the spec's decision D12). It is a NaN exactly for a NaN operand and for an infinity times a zero; the sign is the exclusive-or
of the operands' signs; an infinity with anything else is an infinity; and finite operands give the value nearest to the
exact product, a tie the one with an even fraction, or an infinity when the exact product is at least half a unit past the
largest finite value. -/
def Obligations.ProductNearest : Prop :=
  ∀ x y : Word32,
    (fMul? x y = none ↔ (fIsNaN x = true ∨ fIsNaN y = true ∨ (fIsInf x = true ∧ fIsZero y = true) ∨
      (fIsZero x = true ∧ fIsInf y = true))) ∧
    ∀ r, fMul? x y = some r →
      fIsNaN r = false ∧ fSign r = (fSign x != fSign y) ∧
      ((fIsInf x = true ∨ fIsInf y = true) → fIsInf r = true) ∧
      (fIsFinite x = true → fIsFinite y = true →
        (fIsInf r = true ↔ (2 ^ 25 - 1) * 2 ^ 252 * 2 ^ 149 ≤ (fUnits x * fUnits y).natAbs) ∧
        (fIsFinite r = true → ∀ z : Word32, fIsFinite z = true →
          (fUnits r * 2 ^ 149 - fUnits x * fUnits y).natAbs < (fUnits z * 2 ^ 149 - fUnits x * fUnits y).natAbs ∨
          ((fUnits r * 2 ^ 149 - fUnits x * fUnits y).natAbs = (fUnits z * 2 ^ 149 - fUnits x * fUnits y).natAbs ∧
            (fUnits z = fUnits r ∨ fFrac r % 2 = 0))))

/-- The sum (R19; that it is the IEEE 754 sum is the spec's decision D12). It is a NaN exactly for a NaN operand and for infinities of opposite signs; an infinity with anything else
is that infinity; an exact zero sum is +0.0, but for (-0) + (-0); and finite operands give the value nearest to the exact
sum, a tie the one with an even fraction, or the infinity of its sign when the exact sum is at least half a unit past the
largest finite value. -/
def Obligations.SumNearest : Prop :=
  ∀ x y : Word32,
    (fAdd? x y = none ↔ (fIsNaN x = true ∨ fIsNaN y = true ∨
      (fIsInf x = true ∧ fIsInf y = true ∧ fSign x ≠ fSign y))) ∧
    ∀ r, fAdd? x y = some r →
      fIsNaN r = false ∧
      (fIsInf x = true → r = x) ∧ (fIsInf y = true → r = y) ∧
      (fIsFinite x = true → fIsFinite y = true →
        (fUnits x + fUnits y = 0 → r = if fSign x && fSign y then 0x80000000 else 0x00000000) ∧
        (fUnits x + fUnits y ≠ 0 → fSign r = decide (fUnits x + fUnits y < 0)) ∧
        (fIsInf r = true ↔ (2 ^ 25 - 1) * 2 ^ 252 ≤ (fUnits x + fUnits y).natAbs) ∧
        (fIsFinite r = true → ∀ z : Word32, fIsFinite z = true →
          (fUnits r - (fUnits x + fUnits y)).natAbs < (fUnits z - (fUnits x + fUnits y)).natAbs ∨
          ((fUnits r - (fUnits x + fUnits y)).natAbs = (fUnits z - (fUnits x + fUnits y)).natAbs ∧
            (fUnits z = fUnits r ∨ fFrac r % 2 = 0))))

/-- A float result that is a NaN is a draw (R20): its pattern is a NaN with any sign and any non-zero fraction, of which
nothing else is known, and the number of draws moves on; any other result draws nothing. No status flag exists. That draws
are counted, and depend on the command's operation code, is log 8. -/
def Obligations.NaNsAreDraws : Prop :=
  (∀ (opc : BitVec 8) (n : Nat), fIsNaN (nanPattern opc n) = true ∧
    fSign (nanPattern opc n) = Config.freeNaNSign opc n ∧
    fFrac (nanPattern opc n) = (Config.freeNaNFraction opc n).val + 1) ∧
  ∀ (s : State) (x y : Word32),
    (fMul? x y = none →
      fMul x y s = .ok (nanPattern s.inst.running s.draws) { s with draws := s.draws + 1 }) ∧
    (fAdd? x y = none →
      fAdd x y s = .ok (nanPattern s.inst.running s.draws) { s with draws := s.draws + 1 }) ∧
    (∀ r, fMul? x y = some r → fMul x y s = .ok r s) ∧ ∀ r, fAdd? x y = some r → fAdd x y s = .ok r s

/-- Starting from -0.0 instead of +0.0 gives the same result under every contribution that is no NaN but one: under -0.0
the element stays -0.0, and from +0.0 it becomes +0.0 (R244, which the spec derives from R19). -/
def Obligations.PreZero : Prop :=
  (∀ c : Word32, fIsNaN c = false → c ≠ 0x80000000 → fAdd? 0x80000000 c = fAdd? 0x00000000 c) ∧
  fAdd? 0x80000000 0x80000000 = some 0x80000000 ∧ fAdd? 0x00000000 0x80000000 = some 0x00000000

/-! ### Lane functions -/

/-- R100: partial sum `i` of EXACT mode is the exact sum of the products of lanes `4i` to `4i + 3`, and the four of them
total the dot product of the sixteen lane pairs. -/
def Obligations.Dot16LanesExact : Prop :=
  ∀ A B : Lanes,
    (∀ i < 4, (lane32 (dot16Lanes .exact A B) i).toInt =
      s8 (lane8 A (4 * i)) * s8 (lane8 B (4 * i)) + s8 (lane8 A (4 * i + 1)) * s8 (lane8 B (4 * i + 1)) +
        s8 (lane8 A (4 * i + 2)) * s8 (lane8 B (4 * i + 2)) + s8 (lane8 A (4 * i + 3)) * s8 (lane8 B (4 * i + 3))) ∧
    (lane32 (dot16Lanes .exact A B) 0).toInt + (lane32 (dot16Lanes .exact A B) 1).toInt +
        (lane32 (dot16Lanes .exact A B) 2).toInt + (lane32 (dot16Lanes .exact A B) 3).toInt =
      sumTo (fun j => s8 (lane8 A j) * s8 (lane8 B j)) 16

/-- SIGN_TRANSFER mode (R102, the spec's decision D17; it derives the sentences on the products and the saturation from
its pseudocode). A product whose A lane is negative and whose B lane is -128 enters with its sign inverted, as
128 times the A lane; every other product is exact; the saturation never takes effect; and partial sum `i` is the sum of the
products of lanes `4i` to `4i + 3`. -/
def Obligations.SignTransferProducts : Prop :=
  (∀ a b : Byte, signTransferProduct a b = if s8 a < 0 ∧ s8 b = -128 then 128 * s8 a else s8 a * s8 b) ∧
  (∀ (A B : Lanes) (k : Nat), k < 8 →
    signTransferPair A B k = signTransferProduct (lane8 A (2 * k)) (lane8 B (2 * k)) +
      signTransferProduct (lane8 A (2 * k + 1)) (lane8 B (2 * k + 1)) ∧
    -32768 ≤ signTransferPair A B k ∧ signTransferPair A B k ≤ 32512) ∧
  ∀ (A B : Lanes) (i : Nat), i < 4 →
    (lane32 (dot16Lanes .signTransfer A B) i).toInt = signTransferPair A B (2 * i) + signTransferPair A B (2 * i + 1)

/-- The ranges of EXACT mode, for products, partial sums and their total (R103, which the spec derives from R100). -/
def Obligations.Dot16LanesRange : Prop :=
  (∀ a b : Byte, -16256 ≤ exactProduct a b ∧ exactProduct a b ≤ 16384) ∧
  (∀ (A B : Lanes) (i : Nat), i < 4 →
    -65024 ≤ (lane32 (dot16Lanes .exact A B) i).toInt ∧ (lane32 (dot16Lanes .exact A B) i).toInt ≤ 65536) ∧
  ∀ A B : Lanes,
    -260096 ≤ (reduce4 (dot16Lanes .exact A B)).toInt ∧ (reduce4 (dot16Lanes .exact A B)).toInt ≤ 262144

/-- The reducer (R105, which the spec derives from R10 and R104) gives the wrapped sum of the four lanes for every input, whatever the order of its additions; where
the sum is less than 2^31 in magnitude it is the exact sum; and that is so for every output of the lane primitive, in either
mode. -/
def Obligations.ReducerSums : Prop :=
  (∀ L : Lanes, (reduce4 L).toInt =
    wrap32 ((lane32 L 0).toInt + (lane32 L 1).toInt + (lane32 L 2).toInt + (lane32 L 3).toInt)) ∧
  (∀ L : Lanes,
    ((lane32 L 0).toInt + (lane32 L 1).toInt + (lane32 L 2).toInt + (lane32 L 3).toInt).natAbs < 2147483648 →
    (reduce4 L).toInt = (lane32 L 0).toInt + (lane32 L 1).toInt + (lane32 L 2).toInt + (lane32 L 3).toInt) ∧
  ∀ (mode : DotMode) (A B : Lanes),
    ((lane32 (dot16Lanes mode A B) 0).toInt + (lane32 (dot16Lanes mode A B) 1).toInt +
      (lane32 (dot16Lanes mode A B) 2).toInt + (lane32 (dot16Lanes mode A B) 3).toInt).natAbs < 2147483648

/-- The block row sum (R106, which the spec derives from R100 and R105) is the sum of the sixteen signed bytes, in [-2048, 2032]; and it is what the lane primitive and
the reducer give against sixteen ones as operand A, in either mode. -/
def Obligations.RowSumIsSum : Prop :=
  ∀ (M : Lanes),
    rowSum16 M = sumTo (fun j => s8 (lane8 M j)) 16 ∧ -2048 ≤ rowSum16 M ∧ rowSum16 M ≤ 2032 ∧
    ∀ mode : DotMode, (reduce4 (dot16Lanes mode 0x01010101010101010101010101010101 M)).toInt = rowSum16 M

/-! ### The lane commands -/

/-- DOT16 (R107): where its three accesses pass their checks, the command completes, and all it does is to put the four
partial sums at the destination, computed from the bytes before it. No other agent is at work. -/
def Obligations.Dot16Result : Prop :=
  ∀ (s : State) (a b d : Nat), s.accepts → s.foreign = [] →
    operandsOf (argAddr 0) s = some a → operandsOf (argAddr 1) s = some b → operandsOf (argAddr 2) s = some d →
    checkAccess s.cfg .read false a 16 = none → checkAccess s.cfg .read false b 16 = none →
    checkAccess s.cfg .write true d 16 = none →
    exec .dot16 s = .next (s.afterCommand (s.mem.writeList d (dot16Bytes s.cfg.dotMode s.mem a b)) s.draws)

/-- HRED (R108): where its two accesses pass their checks, the command completes, and all it does is to put the wrapped sum
of the four int32 at the source into the int32 at the destination. No other agent is at work. -/
def Obligations.HredResult : Prop :=
  ∀ (s : State) (a d : Nat), s.accepts → s.foreign = [] →
    operandsOf (argAddr 0) s = some a → operandsOf (argAddr 1) s = some d →
    checkAccess s.cfg .read true a 16 = none → checkAccess s.cfg .write true d 4 = none →
    exec .hred s = .next (s.afterCommand (s.mem.writeList d (leBytes32 (bits32 (fourSum s.mem a)))) s.draws)

/-- The faults of DOT16 and HRED once their operands are decoded (R107, R108): the first access that fails a check, in the
order A, B, destination for DOT16 and source, destination for HRED, ends the command with that check's fault and nothing
done; the destination and HRED's source need alignment. No other agent is at work. -/
def Obligations.PrimitiveFaults : Prop :=
  (∀ (s : State) (a b d : Nat) (c : Cause), s.accepts → s.inst.idle → s.foreign = [] →
    operandsOf (argAddr 0) s = some a → operandsOf (argAddr 1) s = some b → operandsOf (argAddr 2) s = some d →
    (((checkAccess s.cfg .read false a 16).or (checkAccess s.cfg .read false b 16)).or
      (checkAccess s.cfg .write true d 16)) = some c →
    exec .dot16 s = .next (s.recordFault 0x01 c)) ∧
  ∀ (s : State) (a d : Nat) (c : Cause), s.accepts → s.inst.idle → s.foreign = [] →
    operandsOf (argAddr 0) s = some a → operandsOf (argAddr 1) s = some d →
    ((checkAccess s.cfg .read true a 16).or (checkAccess s.cfg .write true d 4)) = some c →
    exec .hred s = .next (s.recordFault 0x02 c)

/-- The dot product of two 16-byte operands (R100, R105, R248): DOT16 and then HRED on its output, with the registers set
between them, leave the dot product of the sixteen lane pairs at HRED's destination, in EXACT mode exactly. No other agent
is at work. -/
def Obligations.DotThenReduce : Prop :=
  ∀ (s : State) (a b d e : Nat), s.accepts → s.foreign = [] → s.mem.wf = true → s.cfg.dotMode = .exact →
    d < 2 ^ 64 → e < 2 ^ 64 →
    operandsOf (argAddr 0) s = some a → operandsOf (argAddr 1) s = some b → operandsOf (argAddr 2) s = some d →
    checkAccess s.cfg .read false a 16 = none → checkAccess s.cfg .read false b 16 = none →
    checkAccess s.cfg .write true d 16 = none → checkAccess s.cfg .read true d 16 = none →
    checkAccess s.cfg .write true e 4 = none →
    ∃ t u, exec .dot16 s = .next t ∧
      exec .hred (writeArg 1 (BitVec.ofNat 64 e) (writeArg 0 (BitVec.ofNat 64 d) t)) = .next u ∧
      u.inst.fault = none ∧
      (u.mem.read32 e).toInt = sumTo (fun j => s8 (s.mem.read (a + j)) * s8 (s.mem.read (b + j))) 16

/-! ### The dense kernels -/

/-- DMMA.S (R137, R138): where the caller has made every byte available, no running sum leaves int32 (or overflow wraps) and
no result byte is an input byte, the command completes, and the memory is that of the scalar reference: per batch and row,
`f32_mul(f32_of_i32(dot), scale)` added into the result element, where `dot` is the sum over all columns. No other agent is
at work. -/
def Obligations.DmmaSResult : Prop :=
  ∀ (s : State) (d : DenseArgs), s.accepts → s.foreign = [] → operandsOf denseArgs s = some d →
    DenseReady s.cfg d → denseFits s.cfg s.mem d →
    (∀ b < d.batch, ∀ r < d.rows, ∀ x, inElement x (d.resAddr b r) → ¬ d.inputByte x) →
    exec .dmmaS s = .next (s.afterCommand
      (dmmaSReference s.cfg s.mem d (s.mem, s.draws)).1 (dmmaSReference s.cfg s.mem d (s.mem, s.draws)).2)

/-- DMMA.A (R142, R145): under the same conditions, with its two arrays, the command completes, and the memory is that of
the affine formula: per batch and row, the adjusted sum times the two scales, in the order of `P_ASYM_ORDER`, added into the
result element. No other agent is at work. -/
def Obligations.DmmaAResult : Prop :=
  ∀ (s : State) (d : DenseArgs) (pcs offsets : Nat), s.accepts → s.foreign = [] → operandsOf denseArgs s = some d →
    operandsOf (argAddr 8) s = some pcs → operandsOf (argAddr 9) s = some offsets →
    AsymReady s.cfg d pcs offsets → asymFits s.cfg s.mem d offsets →
    (∀ b < d.batch, ∀ r < d.rows, ∀ x, inElement x (d.resAddr b r) → ¬ asymInputByte d pcs offsets x) →
    exec .dmmaA s = .next (s.afterCommand
      (dmmaAReference s.cfg s.mem d pcs offsets (s.mem, s.draws)).1
      (dmmaAReference s.cfg s.mem d pcs offsets (s.mem, s.draws)).2)

/-- The affine formula (R145, which the spec derives from R141, R143 and R144): in EXACT mode the adjusted sum is the sum over the columns of the matrix value times the
vector value less the batch's offset. -/
def Obligations.AffineFormula : Prop :=
  ∀ (c : Config) (m : Memory) (d : DenseArgs) (offsets b r : Nat), c.dotMode = .exact →
    denseAdjusted c m d offsets b r =
      sumTo (fun j => s8 (m.read (d.matrixAt r j)) * (s8 (m.read (d.vectorAt b j)) - offsetAt m offsets b)) d.cols

/-- The overflow budget (R249, which the spec derives from R11, R103 and R143). DMMA.S never overflows with at most 131071 columns, in either mode, and overflows with
131072 when every product is 16384; DMMA.A never overflows when `128·m_cols·(128 + |offset|) ≤ 2^31 - 1` for every batch,
which holds with at most 65535 columns and offsets of magnitude at most 128. -/
def Obligations.OverflowBudget : Prop :=
  (∀ (c : Config) (m : Memory) (d : DenseArgs), d.cols ≤ 131071 → denseFits c m d) ∧
  (∀ (c : Config) (m : Memory) (d : DenseArgs), d.cols = 131072 → 0 < d.batch → 0 < d.rows → c.intOvf = .fault →
    (∀ j < d.cols, denseTerm c m d 0 0 j = 16384) → ¬ denseFits c m d) ∧
  (∀ (c : Config) (m : Memory) (d : DenseArgs) (offsets : Nat),
    (∀ b < d.batch, 128 * d.cols * (128 + (offsetAt m offsets b).natAbs) ≤ 2147483647) → asymFits c m d offsets) ∧
  ∀ cols off : Nat, cols ≤ 65535 → off ≤ 128 → 128 * cols * (128 + off) ≤ 2147483647

/-- An overflow is never passed over (R11, R142, R143, R210): where the caller has made every byte available and no result byte
is an input byte, a dense kernel under `FAULT` in which some running value leaves int32 ends with `IntOverflow`, and its
info names a step of the kernel whose value leaves int32: for DMMA.S a block or a column of the dot product; for DMMA.A one
of those, a block or a column of the row sum, the product of the row sum and the offset, or the difference. No other agent
is at work. -/
def Obligations.DenseOverflowFaults : Prop :=
  (∀ (s : State) (d : DenseArgs), s.accepts → s.foreign = [] → operandsOf denseArgs s = some d →
    DenseReady s.cfg d → ¬ denseFits s.cfg s.mem d →
    (∀ b < d.batch, ∀ r < d.rows, ∀ x, inElement x (d.resAddr b r) → ¬ d.inputByte x) →
    ∃ t site v, exec .dmmaS s = .next t ∧ t.inst.fault = some ⟨0x10, .intOverflow site⟩ ∧ site.ofDense = true ∧
      denseSiteValue s.cfg s.mem d 0 site = some v ∧ in32 v = false) ∧
  ∀ (s : State) (d : DenseArgs) (pcs offsets : Nat), s.accepts → s.foreign = [] → operandsOf denseArgs s = some d →
    operandsOf (argAddr 8) s = some pcs → operandsOf (argAddr 9) s = some offsets →
    AsymReady s.cfg d pcs offsets → ¬ asymFits s.cfg s.mem d offsets →
    (∀ b < d.batch, ∀ r < d.rows, ∀ x, inElement x (d.resAddr b r) → ¬ asymInputByte d pcs offsets x) →
    ∃ t site v, exec .dmmaA s = .next t ∧ t.inst.fault = some ⟨0x11, .intOverflow site⟩ ∧
      denseSiteValue s.cfg s.mem d offsets site = some v ∧ in32 v = false

/-- The first scale of a kernel is its first access (R137, R142, R178): with a batch, a scale at the start of the array that
cannot be read, misaligned or not available, ends the command with that fault and nothing done. No other agent is at work.
-/
def Obligations.FirstScaleFaults : Prop :=
  (∀ (s : State) (d : DenseArgs) (c : Cause), s.accepts → s.inst.idle → s.foreign = [] →
    operandsOf denseArgs s = some d → 0 < d.batch → checkAccess s.cfg .read true d.scales 4 = some c →
    exec .dmmaS s = .next (s.recordFault 0x10 c) ∧
    ∀ pcs offsets, operandsOf (argAddr 8) s = some pcs → operandsOf (argAddr 9) s = some offsets →
      exec .dmmaA s = .next (s.recordFault 0x11 c)) ∧
  ∀ (s : State) (a : SparseBatchArgs) (c : Cause), s.accepts → s.inst.idle → s.foreign = [] →
    operandsOf sparseBatchArgs s = some a → a.cols % 16 = 0 → 0 < a.batch →
    checkAccess s.cfg .read true a.scales 4 = some c → exec .smmaB s = .next (s.recordFault 0x21 c)

/-- Zero dimensions are legal (R89). With no batch the batched kernels touch no memory, and SMMA with no row touches none:
they complete whatever is made available, and change nothing. With a batch and no row, the batched kernels read the scales,
and DMMA.A the offsets, and nothing else: they complete where those can be read, and change nothing. With no column, each row
of DMMA.S adds `f32_mul(+0.0, scale)` to its result element. No other agent is at work. -/
def Obligations.ZeroDimensions : Prop :=
  ∀ s : State, s.accepts → s.foreign = [] →
    (∀ d, operandsOf denseArgs s = some d →
      (d.batch = 0 ∨ (d.rows = 0 ∧ ∀ b < d.batch, readable32 s.cfg (d.scales + 4 * b : Nat))) →
      exec .dmmaS s = .next (s.afterCommand s.mem s.draws) ∧
      ∀ pcs offsets, operandsOf (argAddr 8) s = some pcs → operandsOf (argAddr 9) s = some offsets →
        (∀ b < d.batch, readable32 s.cfg (offsets + 4 * b : Nat)) →
        exec .dmmaA s = .next (s.afterCommand s.mem s.draws)) ∧
    (∀ a, operandsOf sparseArgs s = some a → a.cols % 16 = 0 → a.rows = 0 →
      exec .smma s = .next (s.afterCommand s.mem s.draws)) ∧
    (∀ a, operandsOf sparseBatchArgs s = some a → a.cols % 16 = 0 →
      (a.batch = 0 ∨ (a.rows = 0 ∧ ∀ b < a.batch, readable32 s.cfg (a.scales + 4 * b : Nat))) →
      exec .smmaB s = .next (s.afterCommand s.mem s.draws)) ∧
    ∀ d, operandsOf denseArgs s = some d → d.cols = 0 → DenseReady s.cfg d →
      (∀ b < d.batch, ∀ r < d.rows, ∀ x, inElement x (d.resAddr b r) → ¬ d.inputByte x) →
      ∃ p : Progress, exec .dmmaS s = .next (s.afterCommand p.1 p.2) ∧
        p = upTo (fun b p => upTo (fun r p => addTo 0x10 (d.resAddr b r).toNat
          (valueOrDraw 0x10 (fMul? 0x00000000 (s.mem.read32 (d.scales + 4 * b))) p.2) p.1) d.rows p)
          d.batch (s.mem, s.draws)

/-- The symmetric kernel is the asymmetric one with offsets 0 and per-channel scales 1.0 (R146, which the spec derives
from R137 and R142 to R144), from the left to the right: where both run free of faults, they leave the same memory, except
that a result element which is a NaN after both may hold different patterns, since those are independent draws; and where
no result element is left a NaN, the memories are equal. No other agent is at work. -/
def Obligations.AsymmetricIsSymmetric : Prop :=
  ∀ (s t u : State) (d : DenseArgs) (pcs offsets : Nat), s.accepts → s.foreign = [] → s.mem.wf = true →
    operandsOf denseArgs s = some d → operandsOf (argAddr 8) s = some pcs → operandsOf (argAddr 9) s = some offsets →
    AsymReady s.cfg d pcs offsets → asymFits s.cfg s.mem d offsets →
    (∀ b < d.batch, ∀ r < d.rows, ∀ x, inElement x (d.resAddr b r) → ¬ asymInputByte d pcs offsets x) →
    s.cfg.asymOrder = .leftToRight →
    (∀ r < d.rows, s.mem.read32 (pcs + 4 * r) = 0x3F800000) → (∀ b < d.batch, s.mem.read32 (offsets + 4 * b) = 0) →
    exec .dmmaS s = .next t → exec .dmmaA s = .next u →
    t.inst.fault = none ∧ u.inst.fault = none ∧ sameButNaN d.element t.mem u.mem ∧
      (noNaN d.element t.mem → t.mem = u.mem)

/-! ### The sparse kernels -/

/-- R175, R205, R206 (the spec's decision D20): a number of columns that is no multiple of 16 ends SMMA and SMMA.B right after operand decoding, with
nothing done, whatever the rows, the batch and the memory: `DebugAssert`, code 0x05, in a debug build, and `PrecondBlock`,
code 0x04, in a release build, with the number of columns as info. No other agent is at work. -/
def Obligations.BlockPrecondition : Prop :=
  (∀ (s : State) (a : SparseArgs), s.accepts → s.inst.idle → s.foreign = [] →
    operandsOf sparseArgs s = some a → a.cols % 16 ≠ 0 →
    exec .smma s = .next (s.recordFault 0x20
      (if s.cfg.debugChecks then .debugAssert a.cols else .precondBlock a.cols))) ∧
  (∀ (s : State) (a : SparseBatchArgs), s.accepts → s.inst.idle → s.foreign = [] →
    operandsOf sparseBatchArgs s = some a → a.cols % 16 ≠ 0 →
    exec .smmaB s = .next (s.recordFault 0x21
      (if s.cfg.debugChecks then .debugAssert a.cols else .precondBlock a.cols))) ∧
  ∀ n : Nat, (Cause.debugAssert n).code = 0x05 ∧ (Cause.precondBlock n).code = 0x04

/-- SMMA (R176, R182): where the number of columns is a multiple of 16, the ledger names blocks inside the row, the caller
has made available every byte that the walk accesses (and no byte beyond), and no result byte is an input byte, the command
completes, and the memory is that of the reference: per row, `f32_mul(f32_of_i32(dot), scale)` added into the result
element, where `dot` is the sum over the row's blocks. No other agent is at work. -/
def Obligations.SmmaResult : Prop :=
  ∀ (s : State) (a : SparseArgs), s.accepts → s.foreign = [] → operandsOf sparseArgs s = some a → a.cols % 16 = 0 →
    SparseReady s.cfg s.mem a → (∀ r < a.rows, ∀ x, inElement x (a.resAddr r) → ¬ sparseInputByte s.mem a x) →
    exec .smma s = .next (s.afterCommand
      (sparseReference 0x20 s.cfg s.mem a (s.mem, s.draws)).1 (sparseReference 0x20 s.cfg s.mem a (s.mem, s.draws)).2)

/-- SMMA.B (R178): under the same conditions for every batch, and with readable scales, the command completes, and the
memory is that of one walk per batch, in order. No other agent is at work. -/
def Obligations.SmmaBResult : Prop :=
  ∀ (s : State) (a : SparseBatchArgs), s.accepts → s.foreign = [] → operandsOf sparseBatchArgs s = some a →
    a.cols % 16 = 0 → (∀ b < a.batch, readable32 s.cfg (a.scales + 4 * b : Nat)) →
    (∀ b < a.batch, SparseReady s.cfg s.mem (a.walkAt s.mem b)) →
    (∀ b < a.batch, ∀ r < a.rows, ∀ x, inElement x ((a.walkAt s.mem b).resAddr r) → ¬ sparseBatchInputByte s.mem a x) →
    exec .smmaB s = .next (s.afterCommand
      (smmaBReference s.cfg s.mem a (s.mem, s.draws)).1 (smmaBReference s.cfg s.mem a (s.mem, s.draws)).2)

/-- The batch driver is SMMA commands in order (R179, which the spec derives from R176 and R178): where SMMA.B's conditions hold,
issuing SMMA once per batch, with the batch's vector, scale and result in the registers, completes and leaves the same
memory, except that a result element which is a NaN after both may hold different patterns, since those are independent
draws (R20); and where no result element is left a NaN, the memories are equal. No other agent is at work. -/
def Obligations.BatchIsWalksInTurn : Prop :=
  ∀ (s : State) (a : SparseBatchArgs) (argv : Nat → Vector (Option Word64) 10), s.accepts → s.foreign = [] →
    s.mem.wf = true → operandsOf sparseBatchArgs s = some a → a.cols % 16 = 0 →
    (∀ b < a.batch, readable32 s.cfg (a.scales + 4 * b : Nat)) →
    (∀ b < a.batch, SparseReady s.cfg s.mem (a.walkAt s.mem b)) →
    (∀ b < a.batch, ∀ r < a.rows, ∀ x, inElement x ((a.walkAt s.mem b).resAddr r) → ¬ sparseBatchInputByte s.mem a x) →
    (∀ b < a.batch,
      operandsOf sparseArgs { s with inst := { s.inst with args := argv b } } = some (a.walkAt s.mem b)) →
    ∃ t u, exec .smmaB s = .next t ∧ walksInTurn argv s a.batch = some u ∧ t.inst.fault = none ∧
      sameButNaN a.element t.mem u.mem ∧ (noNaN a.element t.mem → t.mem = u.mem)

/-- SMMA and SMMA.B cannot overflow (R177, which the spec derives from R102, R103, R171 and R176). Neither ever ends with `IntOverflow`, in either mode, under either treatment of
overflow, whatever the memory holds and whatever other agents do; both end under `WRAP` as they end under `FAULT`, given the
same draws (log 8), so that nothing is ever wrapped; and the running sum of a row's walk stays within 66846720. -/
def Obligations.SparseCannotOverflow : Prop :=
  (∀ (i : Instr) (s t : State), (i = .smma ∨ i = .smmaB) → exec i s = .next t →
    (∀ o site, t.inst.fault ≠ some ⟨o, .intOverflow site⟩) ∧
    exec i { s with cfg := { s.cfg with intOvf := .wrap } } = .next { t with cfg := { t.cfg with intOvf := .wrap } }) ∧
  ∀ (c : Config) (m : Memory) (a : SparseArgs) (r n : Nat), n ≤ blockCountOf m a.ledger r →
    (sumTo (fun i => sumTo (sparseTerm c m a r i) 16) n).natAbs ≤ 66846720

/-- The range check of a block index (R174, R207): where the rows before row `r` and the entries before entry `i` of its
segment can be walked, and entry `i` names a block outside the row, SMMA ends with `LedgerRange`, whose info is the row, the
position and the index byte; the results of the rows before are in memory, and the block named is not read. And so does
SMMA.B in its first batch, under its own operation code, once the batch's scale has been read. No other agent is at work. -/
def Obligations.LedgerRangeFaults : Prop :=
  ∀ (s : State) (a : SparseArgs) (r i : Nat), s.accepts → s.foreign = [] →
    a.cols % 16 = 0 → r < a.rows → i < blockCountOf s.mem a.ledger r →
    SparseReady s.cfg s.mem { a with rows := r } →
    (∀ k ≤ i + 1, readable s.cfg (ledgerAt s.mem a.ledger r + k)) →
    (∀ k < i, 16 * blockIndex s.mem a.ledger r k + 16 ≤ a.cols ∧
      ∀ j < 16, readable s.cfg (a.vector + 16 * blockIndex s.mem a.ledger r k + j) ∧
        readable s.cfg (packedAt s.mem a.matrix a.ledger r + 16 * k + j)) →
    a.cols < 16 * blockIndex s.mem a.ledger r i + 16 →
    (∀ q < r, ∀ x, inElement x (a.resAddr q) → ¬ sparseInputByte s.mem { a with rows := r + 1 } x) →
    (operandsOf sparseArgs s = some a →
      exec .smma s = .next ((s.afterCommand
        (sparseReference 0x20 s.cfg s.mem { a with rows := r } (s.mem, s.draws)).1
        (sparseReference 0x20 s.cfg s.mem { a with rows := r } (s.mem, s.draws)).2).recordFault 0x20
          (.ledgerRange r i (s.mem.read (ledgerAt s.mem a.ledger r + 1 + i))))) ∧
    ∀ batch : SparseBatchArgs, operandsOf sparseBatchArgs s = some batch → 0 < batch.batch →
      readable32 s.cfg batch.scales → a = batch.walkAt s.mem 0 →
      exec .smmaB s = .next ((s.afterCommand
        (sparseReference 0x21 s.cfg s.mem { a with rows := r } (s.mem, s.draws)).1
        (sparseReference 0x21 s.cfg s.mem { a with rows := r } (s.mem, s.draws)).2).recordFault 0x21
          (.ledgerRange r i (s.mem.read (ledgerAt s.mem a.ledger r + 1 + i))))

/-- Sparse and dense agree (R180, which the spec derives from R105, R137 and R176): where a dense matrix holds the blocks of a
ledger and zeros elsewhere, in EXACT mode, and the two kernels run with the same vector, scale, result and stride from the
same memory, both complete, and leave the same memory, except that a result element which is a NaN after both may hold
different patterns, since those are independent draws; and where no result element is left a NaN, the memories are equal.
No other agent is at work. -/
def Obligations.SparseIsDense : Prop :=
  ∀ (s s' : State) (a : SparseArgs) (d : DenseArgs), s.accepts → s'.accepts → s.foreign = [] → s'.foreign = [] →
    s.mem.wf = true → s'.mem = s.mem → s'.cfg = s.cfg → s.cfg.dotMode = .exact →
    operandsOf sparseArgs s = some a → operandsOf denseArgs s' = some d →
    DenseOf s.mem a d.matrix → d.rows = a.rows → d.cols = a.cols → d.batch = 1 → d.vectors = a.vector →
    (d.result : Int) = a.result → d.stride = a.stride → s.mem.read32 d.scales = a.scale →
    SparseReady s.cfg s.mem a → DenseReady s.cfg d → denseFits s.cfg s.mem d →
    (∀ r < a.rows, ∀ x, inElement x (a.resAddr r) → ¬ sparseInputByte s.mem a x ∧ ¬ d.inputByte x) →
    ∃ t u, exec .smma s = .next t ∧ exec .dmmaS s' = .next u ∧ t.inst.fault = none ∧ u.inst.fault = none ∧
      sameButNaN a.element t.mem u.mem ∧ (noNaN a.element t.mem → t.mem = u.mem)

/-! ### The assembler -/

/-- An assembled line (R91, R93): it is one ARG write per operand, in operand order from ARG0 on, each with a pattern that
fits the view its command gives it, and then the CMD write of the command's word; a line that names no command, or has
another number of operands, is refused; and a line that names a command and has its number of operands is assembled exactly
when each of its literals fits its operand's view. Which form of literal a view takes beyond R91's words is log 17. -/
def Obligations.AssembledLine : Prop :=
  ∀ (addrW : Nat) (l : Line),
    (∀ acts, assembleLine addrW l = some acts →
      ∃ i, lineCommand l = some i ∧ l.operands.length = i.views.length ∧ acts.length = i.views.length + 1 ∧
        acts[i.views.length]? = some (.cmdWrite (encode i)) ∧
        ∀ k < i.views.length, ∃ v x, i.views[k]? = some v ∧ viewAccepts addrW v x = true ∧
          acts[k]? = some (.argWrite (Fin.ofNat 10 k) x)) ∧
    (lineCommand l = none → assembleLine addrW l = none) ∧
    ∀ i, lineCommand l = some i →
      (l.operands.length ≠ i.views.length → assembleLine addrW l = none) ∧
      (l.operands.length = i.views.length →
        ((∃ acts, assembleLine addrW l = some acts) ↔
          ∀ k < i.views.length, ∃ v x, i.views[k]? = some v ∧ l.operands[k]? = some x ∧ literalFits addrW v x))

/-- What a source line spells is what the command reads (R87, R91): where the caller has the interactions of an assembled
line still to do, the ARG writes are steps that complete, the next interaction is then the CMD write of a word that decodes
to the line's command, and every operand, read through its view, is the line's literal: every address, every integer, every
binary32 pattern and every decimal fraction that the assembler takes. -/
def Obligations.LineRoundTrip : Prop :=
  ∀ (s : State) (l : Line) (i : Instr) (acts rest : List HostAct), s.inst.busy = false →
    lineCommand l = some i → assembleLine s.cfg.addrW l = some acts → s.caller = acts ++ rest →
    ∃ t, afterSteps i.views.length s = some t ∧ t.caller = .cmdWrite (encode i) :: rest ∧
      decode (encode i) = .ok i ∧ t.mem = s.mem ∧ t.inst.fault = s.inst.fault ∧
      ∀ k < i.views.length, ∃ v x, i.views[k]? = some v ∧ l.operands[k]? = some x ∧ readsAs t (Fin.ofNat 10 k) v x
end

