-- ==== Sys2Proof/Laws/Memory.lean ====
section
/-! SUPPORT. The laws of the memory: the canonical form is kept by every operation and makes equal memories equal lists;
a read after a write to the same place gives what was written, and a write leaves every other place alone. -/

namespace Sys2Proof.Machine

theorem Memory.wfAbove_mono {lo lo' : Nat} (h : lo' ≤ lo) :
    ∀ {m : Memory}, Memory.wfAbove lo m = true → Memory.wfAbove lo' m = true
  | [], _ => rfl
  | (k, v) :: m, hm => by
    simp only [Memory.wfAbove, Bool.and_eq_true, decide_eq_true_eq] at hm ⊢
    exact ⟨⟨by omega, hm.1.2⟩, hm.2⟩

theorem Memory.read_of_lt {a : Nat} :
    ∀ {m : Memory} {lo : Nat}, Memory.wfAbove lo m = true → a < lo → m.read a = blankByte
  | [], _, _, _ => rfl
  | (k, v) :: m, lo, hm, h => by
    simp only [Memory.wfAbove, Bool.and_eq_true, decide_eq_true_eq] at hm
    have hk : k ≠ a := by omega
    simp only [Memory.read, hk, if_false]
    exact Memory.read_of_lt hm.2 (by omega)

theorem Memory.wfAbove_write {a : Nat} {v : Byte} :
    ∀ {m : Memory} {lo : Nat}, Memory.wfAbove lo m = true → lo ≤ a → Memory.wfAbove lo (m.write a v) = true
  | [], lo, _, h => by
    simp only [Memory.write]
    split
    · rfl
    · simp [Memory.wfAbove, *]
  | (k, w) :: m, lo, hm, h => by
    simp only [Memory.wfAbove, Bool.and_eq_true, decide_eq_true_eq] at hm
    obtain ⟨⟨hk, hw⟩, hm⟩ := hm
    simp only [Memory.write]
    split
    · split
      · simp [Memory.wfAbove, hk, hw, hm]
      · rename_i hlt hv
        have : a + 1 ≤ k := by omega
        simp [Memory.wfAbove, h, hw, hm, hv, this]
    · split
      · split
        · exact Memory.wfAbove_mono (by omega) hm
        · rename_i he hv
          subst he
          simp [Memory.wfAbove, h, hm, hv]
      · have ih := Memory.wfAbove_write (v := v) hm (by omega : k + 1 ≤ a)
        simp [Memory.wfAbove, hk, hw, ih]

/-- A write keeps the canonical form. -/
theorem Memory.wf_write {m : Memory} (a : Nat) (v : Byte) (h : m.wf = true) : (m.write a v).wf = true :=
  Memory.wfAbove_write h (Nat.zero_le a)

/-- A read after a write to the same address gives the byte written. -/
theorem Memory.read_write_same {a : Nat} {v : Byte} :
    ∀ {m : Memory} {lo : Nat}, Memory.wfAbove lo m = true → (m.write a v).read a = v
  | [], _, _ => by
    simp only [Memory.write]
    split
    · simp [Memory.read, *]
    · simp [Memory.read]
  | (k, w) :: m, lo, hm => by
    simp only [Memory.wfAbove, Bool.and_eq_true, decide_eq_true_eq] at hm
    obtain ⟨⟨hk, hw⟩, hm⟩ := hm
    simp only [Memory.write]
    split
    · rename_i hlt
      split
      · rename_i hv
        have hne : k ≠ a := by omega
        simp only [Memory.read, hne, if_false]
        rw [Memory.read_of_lt hm (by omega), hv]
      · simp [Memory.read]
    · split
      · rename_i hlt he
        subst he
        split
        · rename_i hv
          rw [Memory.read_of_lt hm (by omega), hv]
        · simp [Memory.read]
      · rename_i hlt hne
        have hne' : k ≠ a := fun h => hne h.symm
        simp only [Memory.read, hne', if_false]
        exact Memory.read_write_same hm

/-- A write leaves every other address alone. -/
theorem Memory.read_write_other {a b : Nat} {v : Byte} (hab : b ≠ a) :
    ∀ m : Memory, (m.write a v).read b = m.read b
  | [] => by
    simp only [Memory.write]
    split
    · rfl
    · simp [Memory.read, hab.symm]
  | (k, w) :: m => by
    simp only [Memory.write]
    split
    · split
      · rfl
      · simp [Memory.read, hab.symm]
    · split
      · rename_i he
        subst he
        split
        · simp [Memory.read, hab.symm]
        · simp [Memory.read, hab.symm]
      · simp only [Memory.read]
        split
        · rfl
        · exact Memory.read_write_other hab m

theorem Memory.read_write {m : Memory} (h : m.wf = true) (a b : Nat) (v : Byte) :
    (m.write a v).read b = if b = a then v else m.read b := by
  split
  · rename_i e
    subst e
    exact Memory.read_write_same h
  · exact Memory.read_write_other (by assumption) m

/-- Two memories in canonical form that read alike are the same list. -/
theorem Memory.ext_of_read :
    ∀ {m m' : Memory} {lo : Nat}, Memory.wfAbove lo m = true → Memory.wfAbove lo m' = true →
      (∀ a, m.read a = m'.read a) → m = m'
  | [], [], _, _, _, _ => rfl
  | [], (k, v) :: m', lo, _, hm', h => by
    simp only [Memory.wfAbove, Bool.and_eq_true, bne_iff_ne] at hm'
    have := h k
    simp [Memory.read] at this
    exact absurd this.symm hm'.1.2
  | (k, v) :: m, [], lo, hm, _, h => by
    simp only [Memory.wfAbove, Bool.and_eq_true, bne_iff_ne] at hm
    have := h k
    simp [Memory.read] at this
    exact absurd this hm.1.2
  | (k, v) :: m, (k', v') :: m', lo, hm, hm', h => by
    simp only [Memory.wfAbove, Bool.and_eq_true, bne_iff_ne, decide_eq_true_eq] at hm hm'
    obtain ⟨⟨hk, hv⟩, hm⟩ := hm
    obtain ⟨⟨hk', hv'⟩, hm'⟩ := hm'
    have hkk : k = k' := by
      rcases Nat.lt_trichotomy k k' with hlt | heq | hlt
      · have := h k
        rw [Memory.read, if_pos rfl, Memory.read, if_neg (by omega), Memory.read_of_lt hm' (by omega)] at this
        exact absurd this hv
      · exact heq
      · have := h k'
        rw [Memory.read, if_neg (by omega), Memory.read_of_lt hm (by omega), Memory.read, if_pos rfl] at this
        exact absurd this.symm hv'
    subst hkk
    have hvv : v = v' := by
      have := h k
      simpa [Memory.read] using this
    subst hvv
    have : m = m' := Memory.ext_of_read hm hm' (fun a => by
      by_cases ha : a < k + 1
      · rw [Memory.read_of_lt hm ha, Memory.read_of_lt hm' ha]
      · have := h a
        rwa [Memory.read, if_neg (by omega), Memory.read, if_neg (by omega)] at this)
    rw [this]

/-- Writing a list of bytes keeps the canonical form. -/
theorem Memory.wf_writeList :
    ∀ {bytes : List Byte} {m : Memory} {a : Nat}, m.wf = true → (m.writeList a bytes).wf = true
  | [], _, _, h => h
  | v :: _, m, a, h => by
    rw [Memory.writeList]
    exact Memory.wf_writeList (Memory.wf_write a v h)

/-- A list of bytes written from address `a` leaves every address outside alone. -/
theorem Memory.read_writeList_other {b : Nat} :
    ∀ {bytes : List Byte} {m : Memory} {a : Nat}, (b < a ∨ a + bytes.length ≤ b) →
      (m.writeList a bytes).read b = m.read b
  | [], _, _, _ => rfl
  | v :: vs, m, a, h => by
    simp only [List.length_cons] at h
    rw [Memory.writeList, Memory.read_writeList_other (by omega), Memory.read_write_other (by omega)]

/-- Byte `i` of what was written from address `a` is at address `a + i`. -/
theorem Memory.read_writeList_at :
    ∀ {bytes : List Byte} {m : Memory} {a i : Nat}, m.wf = true → i < bytes.length →
      (m.writeList a bytes).read (a + i) = bytes.getD i 0
  | v :: vs, m, a, 0, h, _ => by
    rw [Memory.writeList, Memory.read_writeList_other (by omega)]
    simp [Memory.read_write_same h]
  | v :: vs, m, a, i + 1, h, hi => by
    simp only [List.length_cons] at hi
    rw [Memory.writeList, (by omega : a + (i + 1) = a + 1 + i),
      Memory.read_writeList_at (Memory.wf_write _ _ h) (by omega)]
    simp

@[simp] theorem Memory.length_readList (m : Memory) : ∀ (n a : Nat), (m.readList a n).length = n
  | 0, _ => rfl
  | n + 1, a => by simp [Memory.readList, Memory.length_readList m n]

theorem Memory.readList_congr {m m' : Memory} :
    ∀ {n a : Nat}, (∀ x, a ≤ x → x < a + n → m.read x = m'.read x) → m.readList a n = m'.readList a n
  | 0, _, _ => rfl
  | n + 1, a, h => by
    rw [Memory.readList, Memory.readList, h a (by omega) (by omega),
      Memory.readList_congr (fun x h1 h2 => h x (by omega) (by omega))]

theorem Memory.getD_readList (m : Memory) :
    ∀ (n a i : Nat), i < n → (m.readList a n).getD i 0 = m.read (a + i)
  | n + 1, a, 0, _ => by simp [Memory.readList]
  | n + 1, a, i + 1, h => by
    rw [Memory.readList, List.getD_cons_succ, Memory.getD_readList m n (a + 1) i (by omega)]
    congr 1
    omega

/-- Reading back a whole list of bytes. -/
theorem Memory.readList_writeList_same :
    ∀ {bytes : List Byte} {m : Memory} {a : Nat}, m.wf = true →
      (m.writeList a bytes).readList a bytes.length = bytes
  | [], _, _, _ => rfl
  | v :: vs, m, a, h => by
    rw [Memory.writeList, List.length_cons, Memory.readList, Memory.readList_writeList_same (Memory.wf_write _ _ h),
      Memory.read_writeList_other (by omega), Memory.read_write_same h]

theorem Memory.readList_writeList_other {bytes : List Byte} {m : Memory} {a b n : Nat}
    (h : b + n ≤ a ∨ a + bytes.length ≤ b) : (m.writeList a bytes).readList b n = m.readList b n :=
  Memory.readList_congr (fun x h1 h2 => Memory.read_writeList_other (by omega))

@[simp] theorem length_leBytes32 (v : Word32) : (leBytes32 v).length = 4 := rfl

/-- Little-endian assembly undoes disassembly (R50). -/
@[simp] theorem le32_leBytes32 (v : Word32) : le32 (leBytes32 v) = v := by
  apply BitVec.eq_of_toNat_eq
  have h : v.toNat < 2 ^ 32 := v.isLt
  simp only [le32, leNat, leBytes32, BitVec.toNat_ofNat, BitVec.extractLsb'_toNat, Nat.shiftRight_eq_div_pow]
  omega

theorem Memory.read32_writeList_same {m : Memory} (h : m.wf = true) (a : Nat) (v : Word32) :
    (m.writeList a (leBytes32 v)).read32 a = v := by
  have := Memory.readList_writeList_same (bytes := leBytes32 v) (a := a) h
  rw [length_leBytes32] at this
  rw [Memory.read32, this, le32_leBytes32]

theorem Memory.read32_writeList_other {m : Memory} {a b : Nat} {bytes : List Byte}
    (h : b + 4 ≤ a ∨ a + bytes.length ≤ b) : (m.writeList a bytes).read32 b = m.read32 b := by
  rw [Memory.read32, Memory.read32, Memory.readList_writeList_other h]

theorem Memory.below_write {a hi : Nat} {v : Byte} (ha : a < hi) :
    ∀ {m : Memory}, m.below hi = true → (m.write a v).below hi = true
  | [], _ => by
    simp only [Memory.write]
    split <;> simp [Memory.below, ha]
  | (k, w) :: m, h => by
    simp only [Memory.below, List.all_cons, Bool.and_eq_true, decide_eq_true_eq] at h
    have ih := Memory.below_write (v := v) ha (m := m) (by simpa [Memory.below] using h.2)
    simp only [Memory.write]
    split
    · split
      · simpa only [Memory.below, List.all_cons, Bool.and_eq_true, decide_eq_true_eq] using h
      · simpa only [Memory.below, List.all_cons, Bool.and_eq_true, decide_eq_true_eq] using ⟨ha, h⟩
    · split
      · split
        · exact h.2
        · simpa only [Memory.below, List.all_cons, Bool.and_eq_true, decide_eq_true_eq] using ⟨ha, h.2⟩
      · simp only [Memory.below, List.all_cons, Bool.and_eq_true, decide_eq_true_eq]
        exact ⟨h.1, ih⟩

theorem Memory.below_writeList {hi : Nat} :
    ∀ {bytes : List Byte} {m : Memory} {a : Nat}, a + bytes.length ≤ hi → m.below hi = true →
      (m.writeList a bytes).below hi = true
  | [], _, _, _, h => h
  | v :: vs, m, a, hb, h => by
    simp only [List.length_cons] at hb
    rw [Memory.writeList]
    exact Memory.below_writeList (by omega) (Memory.below_write (by omega) h)

end Sys2Proof.Machine
end

