-- ==== Sys2Proof/Laws/State.lean ====
section
/-! SUPPORT. One lemma per field for each update of the state, so that no later proof unfolds a record update. -/

namespace Sys2Proof.Machine

/-! ### `withWork` -/

@[simp] theorem State.withWork_cfg (s : State) (w : Work) : (s.withWork w).cfg = s.cfg := rfl
@[simp] theorem State.withWork_mem (s : State) (w : Work) : (s.withWork w).mem = s.mem := rfl
@[simp] theorem State.withWork_others (s : State) (w : Work) : (s.withWork w).others = s.others := rfl
@[simp] theorem State.withWork_caller (s : State) (w : Work) : (s.withWork w).caller = s.caller := rfl
@[simp] theorem State.withWork_foreign (s : State) (w : Work) : (s.withWork w).foreign = s.foreign := rfl
@[simp] theorem State.withWork_foreignReplies (s : State) (w : Work) : (s.withWork w).foreignReplies = s.foreignReplies := rfl
@[simp] theorem State.withWork_reply (s : State) (w : Work) : (s.withWork w).reply = s.reply := rfl
@[simp] theorem State.withWork_pastFaults (s : State) (w : Work) : (s.withWork w).pastFaults = s.pastFaults := rfl
@[simp] theorem State.withWork_draws (s : State) (w : Work) : (s.withWork w).draws = s.draws := rfl
@[simp] theorem State.withWork_args (s : State) (w : Work) : (s.withWork w).inst.args = s.inst.args := rfl
@[simp] theorem State.withWork_busy (s : State) (w : Work) : (s.withWork w).inst.busy = s.inst.busy := rfl
@[simp] theorem State.withWork_running (s : State) (w : Work) : (s.withWork w).inst.running = s.inst.running := rfl
@[simp] theorem State.withWork_fault (s : State) (w : Work) : (s.withWork w).inst.fault = s.inst.fault := rfl
@[simp] theorem State.withWork_workNow (s : State) (w : Work) : (s.withWork w).workNow = w := rfl
@[simp] theorem State.withWork_withWork (s : State) (w w' : Work) : (s.withWork w).withWork w' = s.withWork w' := rfl

/-! ### `startCommand` and `endCommand` -/

@[simp] theorem State.startCommand_cfg (s : State) (o : BitVec 8) (rs : List (Nat × Nat)) :
    (s.startCommand o rs).cfg = s.cfg := rfl
@[simp] theorem State.startCommand_mem (s : State) (o : BitVec 8) (rs : List (Nat × Nat)) :
    (s.startCommand o rs).mem = s.mem := rfl
@[simp] theorem State.startCommand_others (s : State) (o : BitVec 8) (rs : List (Nat × Nat)) :
    (s.startCommand o rs).others = s.others := rfl
@[simp] theorem State.startCommand_caller (s : State) (o : BitVec 8) (rs : List (Nat × Nat)) :
    (s.startCommand o rs).caller = s.caller := rfl
@[simp] theorem State.startCommand_foreign (s : State) (o : BitVec 8) (rs : List (Nat × Nat)) :
    (s.startCommand o rs).foreign = s.foreign := rfl
@[simp] theorem State.startCommand_foreignReplies (s : State) (o : BitVec 8) (rs : List (Nat × Nat)) :
    (s.startCommand o rs).foreignReplies = s.foreignReplies := rfl
@[simp] theorem State.startCommand_reply (s : State) (o : BitVec 8) (rs : List (Nat × Nat)) :
    (s.startCommand o rs).reply = s.reply := rfl
@[simp] theorem State.startCommand_pastFaults (s : State) (o : BitVec 8) (rs : List (Nat × Nat)) :
    (s.startCommand o rs).pastFaults = s.pastFaults := rfl
@[simp] theorem State.startCommand_draws (s : State) (o : BitVec 8) (rs : List (Nat × Nat)) :
    (s.startCommand o rs).draws = s.draws := rfl
@[simp] theorem State.startCommand_args (s : State) (o : BitVec 8) (rs : List (Nat × Nat)) :
    (s.startCommand o rs).inst.args = s.inst.args := rfl
@[simp] theorem State.startCommand_busy (s : State) (o : BitVec 8) (rs : List (Nat × Nat)) :
    (s.startCommand o rs).inst.busy = true := rfl
@[simp] theorem State.startCommand_running (s : State) (o : BitVec 8) (rs : List (Nat × Nat)) :
    (s.startCommand o rs).inst.running = o := rfl
@[simp] theorem State.startCommand_fault (s : State) (o : BitVec 8) (rs : List (Nat × Nat)) :
    (s.startCommand o rs).inst.fault = s.inst.fault := rfl
@[simp] theorem State.startCommand_workNow (s : State) (o : BitVec 8) (rs : List (Nat × Nat)) :
    (s.startCommand o rs).workNow = { Work.fresh with foreseen := rs } := rfl

@[simp] theorem State.endCommand_cfg (s : State) : s.endCommand.cfg = s.cfg := rfl
@[simp] theorem State.endCommand_mem (s : State) : s.endCommand.mem = s.mem := rfl
@[simp] theorem State.endCommand_others (s : State) : s.endCommand.others = s.others := rfl
@[simp] theorem State.endCommand_caller (s : State) : s.endCommand.caller = s.caller := rfl
@[simp] theorem State.endCommand_foreign (s : State) : s.endCommand.foreign = s.foreign := rfl
@[simp] theorem State.endCommand_foreignReplies (s : State) : s.endCommand.foreignReplies = s.foreignReplies := rfl
@[simp] theorem State.endCommand_reply (s : State) : s.endCommand.reply = s.reply := rfl
@[simp] theorem State.endCommand_pastFaults (s : State) : s.endCommand.pastFaults = s.pastFaults := rfl
@[simp] theorem State.endCommand_draws (s : State) : s.endCommand.draws = s.draws := rfl
@[simp] theorem State.endCommand_args (s : State) : s.endCommand.inst.args = s.inst.args := rfl
@[simp] theorem State.endCommand_busy (s : State) : s.endCommand.inst.busy = false := rfl
@[simp] theorem State.endCommand_running (s : State) : s.endCommand.inst.running = 0x00 := rfl
@[simp] theorem State.endCommand_fault (s : State) : s.endCommand.inst.fault = s.inst.fault := rfl
@[simp] theorem State.endCommand_work (s : State) : s.endCommand.inst.work = none := rfl

/-! ### `recordFault` -/

@[simp] theorem State.recordFault_cfg (s : State) (o : BitVec 8) (c : Cause) : (s.recordFault o c).cfg = s.cfg := rfl
@[simp] theorem State.recordFault_mem (s : State) (o : BitVec 8) (c : Cause) : (s.recordFault o c).mem = s.mem := rfl
@[simp] theorem State.recordFault_others (s : State) (o : BitVec 8) (c : Cause) :
    (s.recordFault o c).others = s.others := rfl
@[simp] theorem State.recordFault_caller (s : State) (o : BitVec 8) (c : Cause) :
    (s.recordFault o c).caller = s.caller := rfl
@[simp] theorem State.recordFault_foreign (s : State) (o : BitVec 8) (c : Cause) :
    (s.recordFault o c).foreign = s.foreign := rfl
@[simp] theorem State.recordFault_foreignReplies (s : State) (o : BitVec 8) (c : Cause) :
    (s.recordFault o c).foreignReplies = s.foreignReplies := rfl
@[simp] theorem State.recordFault_running (s : State) (o : BitVec 8) (c : Cause) :
    (s.recordFault o c).inst.running = s.inst.running := rfl
@[simp] theorem State.recordFault_reply (s : State) (o : BitVec 8) (c : Cause) :
    (s.recordFault o c).reply = s.reply := rfl
@[simp] theorem State.recordFault_pastFaults (s : State) (o : BitVec 8) (c : Cause) :
    (s.recordFault o c).pastFaults = s.pastFaults := rfl
@[simp] theorem State.recordFault_draws (s : State) (o : BitVec 8) (c : Cause) :
    (s.recordFault o c).draws = s.draws := rfl
@[simp] theorem State.recordFault_args (s : State) (o : BitVec 8) (c : Cause) :
    (s.recordFault o c).inst.args = s.inst.args := rfl
@[simp] theorem State.recordFault_busy (s : State) (o : BitVec 8) (c : Cause) :
    (s.recordFault o c).inst.busy = s.inst.busy := rfl
@[simp] theorem State.recordFault_work (s : State) (o : BitVec 8) (c : Cause) :
    (s.recordFault o c).inst.work = s.inst.work := rfl
@[simp] theorem State.recordFault_fault (s : State) (o : BitVec 8) (c : Cause) :
    (s.recordFault o c).inst.fault = some (s.inst.fault.getD ⟨o, c⟩) := rfl

/-! ### `writeArg` -/

@[simp] theorem writeArg_cfg (i : Fin 10) (v : Word64) (s : State) : (writeArg i v s).cfg = s.cfg := rfl
@[simp] theorem writeArg_mem (i : Fin 10) (v : Word64) (s : State) : (writeArg i v s).mem = s.mem := rfl
@[simp] theorem writeArg_others (i : Fin 10) (v : Word64) (s : State) : (writeArg i v s).others = s.others := rfl
@[simp] theorem writeArg_caller (i : Fin 10) (v : Word64) (s : State) : (writeArg i v s).caller = s.caller := rfl
@[simp] theorem writeArg_foreign (i : Fin 10) (v : Word64) (s : State) : (writeArg i v s).foreign = s.foreign := rfl
@[simp] theorem writeArg_foreignReplies (i : Fin 10) (v : Word64) (s : State) :
    (writeArg i v s).foreignReplies = s.foreignReplies := rfl
@[simp] theorem writeArg_running (i : Fin 10) (v : Word64) (s : State) :
    (writeArg i v s).inst.running = s.inst.running := rfl
@[simp] theorem writeArg_reply (i : Fin 10) (v : Word64) (s : State) : (writeArg i v s).reply = s.reply := rfl
@[simp] theorem writeArg_pastFaults (i : Fin 10) (v : Word64) (s : State) :
    (writeArg i v s).pastFaults = s.pastFaults := rfl
@[simp] theorem writeArg_draws (i : Fin 10) (v : Word64) (s : State) : (writeArg i v s).draws = s.draws := rfl
@[simp] theorem writeArg_args (i : Fin 10) (v : Word64) (s : State) :
    (writeArg i v s).inst.args = s.inst.args.set i (some v) := rfl
@[simp] theorem writeArg_busy (i : Fin 10) (v : Word64) (s : State) : (writeArg i v s).inst.busy = s.inst.busy := rfl
@[simp] theorem writeArg_fault (i : Fin 10) (v : Word64) (s : State) :
    (writeArg i v s).inst.fault = s.inst.fault := rfl
@[simp] theorem writeArg_work (i : Fin 10) (v : Word64) (s : State) : (writeArg i v s).inst.work = s.inst.work := rfl

end Sys2Proof.Machine
end

