-- ==== Sys2Proof/Laws/Cmd.lean ====
section
/-! SUPPORT. How a piece of a running command is run: sequencing, loops, and the two ways of saying once what it can do,
`Cmd.Keeps` (what every end state, completed or faulted, has in common with the start) and equations of the form
"it ends with `a` in state `s'`". -/

namespace Sys2Proof.Machine

variable {α β : Type}

/-- Sequencing: the second piece starts where the first one ended. -/
theorem Cmd.bind_apply (m : Cmd α) (f : α → Cmd β) (s : State) :
    (m >>= f) s = match m s with
      | .ok a t => f a t
      | .error c t => .error c t := by
  show EStateM.bind m f s = _
  unfold EStateM.bind
  cases m s <;> rfl

theorem Cmd.bind_ok {m : Cmd α} {f : α → Cmd β} {s t : State} {a : α} (h : m s = .ok a t) : (m >>= f) s = f a t := by
  rw [Cmd.bind_apply, h]

theorem Cmd.bind_error {m : Cmd α} {f : α → Cmd β} {s t : State} {c : Cause} (h : m s = .error c t) :
    (m >>= f) s = .error c t := by
  rw [Cmd.bind_apply, h]

@[simp] theorem Cmd.pure_apply (a : α) (s : State) : (pure a : Cmd α) s = .ok a s := rfl

@[simp] theorem raise_apply (c : Cause) (s : State) : (raise c : Cmd α) s = .error c s := rfl

@[simp] theorem config_apply (s : State) : config s = .ok s.cfg s := rfl

@[simp] theorem work_apply (s : State) : work s = .ok s.workNow s := rfl

@[simp] theorem updateWork_apply (f : Work → Work) (s : State) :
    updateWork f s = .ok () (s.withWork (f s.workNow)) := rfl

/-- If two pieces in sequence complete, the first completes, and the second completes from there. -/
theorem Cmd.bind_eq_ok {m : Cmd α} {f : α → Cmd β} {s t : State} {b : β} (h : (m >>= f) s = .ok b t) :
    ∃ a u, m s = .ok a u ∧ f a u = .ok b t := by
  rw [Cmd.bind_apply] at h
  cases hm : m s with
  | ok a u => exact ⟨a, u, rfl, by rw [hm] at h; exact h⟩
  | error c u => rw [hm] at h; cases h

/-- If two pieces in sequence raise, one of them raised. -/
theorem Cmd.bind_eq_error {m : Cmd α} {f : α → Cmd β} {s t : State} {c : Cause} (h : (m >>= f) s = .error c t) :
    m s = .error c t ∨ ∃ a u, m s = .ok a u ∧ f a u = .error c t := by
  rw [Cmd.bind_apply] at h
  cases hm : m s with
  | ok a u => exact .inr ⟨a, u, rfl, by rw [hm] at h; exact h⟩
  | error c' u =>
    rw [hm] at h
    cases h
    exact .inl rfl

@[simp] theorem store_apply (a : Nat) (bytes : List Byte) (s : State) :
    store a bytes s = .ok () { s with mem := s.mem.writeList a bytes } := rfl

@[simp] theorem loop_zero (lo : Nat) (body : Nat → Cmd Unit) : loop lo 0 body = pure () := rfl

theorem loop_succ (lo n : Nat) (body : Nat → Cmd Unit) :
    loop lo (n + 1) body = body lo >>= fun _ => loop (lo + 1) n body := rfl

/-- A loop completes if an invariant holds at its start and every round completes and takes the invariant one round on. -/
theorem loop_completes {body : Nat → Cmd Unit} (Inv : Nat → State → Prop) :
    ∀ {n lo : Nat} {s : State}, Inv lo s →
      (∀ i t, lo ≤ i → i < lo + n → Inv i t → ∃ u, body i t = .ok () u ∧ Inv (i + 1) u) →
      ∃ u, loop lo n body s = .ok () u ∧ Inv (lo + n) u
  | 0, _, s, h, _ => ⟨s, rfl, h⟩
  | n + 1, lo, s, h, step => by
    obtain ⟨t, ht, hInv⟩ := step lo s (Nat.le_refl _) (by omega) h
    obtain ⟨u, hu, hInv'⟩ := loop_completes Inv (n := n) hInv
      (fun i t h1 h2 => step i t (by omega) (by omega))
    refine ⟨u, ?_, ?_⟩
    · rw [loop_succ, Cmd.bind_ok ht]
      exact hu
    · rw [(by omega : lo + (n + 1) = lo + 1 + n)]
      exact hInv'

@[simp] theorem endState_ok (a : α) (s : State) : endState (.ok a s : EStateM.Result Cause State α) = s := rfl

@[simp] theorem endState_error (c : Cause) (s : State) :
    endState (.error c s : EStateM.Result Cause State α) = s := rfl

/-- Wherever the piece ends, the end stands in relation `R` to the start. -/
def Cmd.Keeps (R : State → State → Prop) (m : Cmd α) : Prop := ∀ s, R s (endState (m s))

/-- What is never written: a relation that a command keeps as long as every write to memory keeps it. -/
structure Neutral (R : State → State → Prop) : Prop where
  refl : ∀ s, R s s
  trans : ∀ {s t u}, R s t → R t u → R s u
  work : ∀ (s : State) (w : Work), R s (s.withWork w)
  draw : ∀ s : State, R s { s with draws := s.draws + 1 }

/-- A write of `n` bytes at `a` that passes its checks keeps the relation. -/
def WriteKeeps (R : State → State → Prop) (a : Int) (n : Nat) : Prop :=
  ∀ (s : State) (bytes : List Byte), bytes.length = n → checkAccess s.cfg .write true a n = none →
    R s { s with mem := s.mem.writeList a.toNat bytes }

namespace Cmd.Keeps

variable {R : State → State → Prop}

theorem of_same {m : Cmd α} (h : Neutral R) (hm : ∀ s, endState (m s) = s) : Cmd.Keeps R m := fun s => by
  rw [hm s]
  exact h.refl s

theorem pure (h : Neutral R) (a : α) : Cmd.Keeps R (Pure.pure a : Cmd α) := fun s => h.refl s

theorem raise (h : Neutral R) (c : Cause) : Cmd.Keeps R (Machine.raise c : Cmd α) := fun s => h.refl s

theorem config (h : Neutral R) : Cmd.Keeps R Machine.config := fun s => h.refl s

theorem work (h : Neutral R) : Cmd.Keeps R Machine.work := fun s => h.refl s

theorem updateWork (h : Neutral R) (f : Work → Work) : Cmd.Keeps R (Machine.updateWork f) := fun s => h.work s _

theorem bind (h : Neutral R) {m : Cmd α} {f : α → Cmd β} (hm : Cmd.Keeps R m) (hf : ∀ a, Cmd.Keeps R (f a)) :
    Cmd.Keeps R (m >>= f) := fun s => by
  rw [Cmd.bind_apply]
  have := hm s
  cases hms : m s with
  | ok a t =>
    rw [hms] at this
    exact h.trans this (hf a t)
  | error c t =>
    rw [hms] at this
    exact this

theorem loop (h : Neutral R) {body : Nat → Cmd Unit} :
    ∀ {n lo : Nat}, (∀ i, lo ≤ i → i < lo + n → Cmd.Keeps R (body i)) → Cmd.Keeps R (Machine.loop lo n body)
  | 0, _, _ => pure h ()
  | n + 1, lo, hb =>
    bind h (hb lo (Nat.le_refl _) (by omega)) (fun _ => loop h (fun i h1 h2 => hb i (by omega) (by omega)))

theorem check (h : Neutral R) (k : Kind) (al : Bool) (a : Int) (n : Nat) : Cmd.Keeps R (Machine.check k al a n) :=
  of_same h (fun s => by
    unfold Machine.check
    split <;> rfl)

theorem readByte (h : Neutral R) (x : Nat) : Cmd.Keeps R (Machine.readByte x) := fun s => by
  unfold Machine.readByte
  split
  · exact h.draw s
  · exact h.refl s

theorem readBytes (h : Neutral R) : ∀ (n a : Nat), Cmd.Keeps R (Machine.readBytes a n)
  | 0, _ => pure h []
  | n + 1, a => bind h (readByte h a) (fun _ => bind h (readBytes h n (a + 1)) (fun _ => pure h _))

theorem memRead (h : Neutral R) (tag : Tag) (al : Bool) (a : Int) (n : Nat) :
    Cmd.Keeps R (Machine.memRead tag al a n) :=
  bind h (check h _ _ _ _) (fun _ => bind h (updateWork h _) (fun _ => readBytes h n _))

theorem memWrite (h : Neutral R) {a : Int} {bytes : List Byte} (hw : WriteKeeps R a bytes.length) :
    Cmd.Keeps R (Machine.memWrite true a bytes) := fun s => by
  unfold Machine.memWrite
  cases hc : checkAccess s.cfg .write true a bytes.length with
  | some c =>
    have hce : Machine.check .write true a bytes.length s = .error c s := by simp [Machine.check, hc]
    rw [Cmd.bind_error hce]
    exact h.refl s
  | none =>
    have hco : Machine.check .write true a bytes.length s = .ok () s := by simp [Machine.check, hc]
    rw [Cmd.bind_ok hco]
    exact h.trans (h.work s _) (hw (s.withWork _) _ rfl hc)

theorem ldS8 (h : Neutral R) (a : Int) : Cmd.Keeps R (Machine.ldS8 a) :=
  bind h (memRead h _ _ _ _) (fun _ => pure h _)

theorem ldU8 (h : Neutral R) (a : Int) : Cmd.Keeps R (Machine.ldU8 a) :=
  bind h (memRead h _ _ _ _) (fun _ => pure h _)

theorem ldInput32 (h : Neutral R) (a : Int) : Cmd.Keeps R (Machine.ldInput32 a) :=
  bind h (memRead h _ _ _ _) (fun _ => pure h _)

theorem ldResult32 (h : Neutral R) (e : Int) : Cmd.Keeps R (Machine.ldResult32 e) :=
  bind h (memRead h _ _ _ _) (fun _ => pure h _)

theorem ldBlock (h : Neutral R) (a : Int) : Cmd.Keeps R (Machine.ldBlock a) :=
  bind h (memRead h _ _ _ _) (fun _ => pure h _)

theorem st32 (h : Neutral R) {a : Int} (hw : WriteKeeps R a 4) (v : Word32) : Cmd.Keeps R (Machine.st32 a v) :=
  memWrite h hw

theorem orNaN (h : Neutral R) (v : Option Word32) : Cmd.Keeps R (Machine.orNaN v) := by
  cases v with
  | some f => exact pure h f
  | none => exact fun s => h.draw s

theorem fMul (h : Neutral R) (x y : Word32) : Cmd.Keeps R (Machine.fMul x y) := orNaN h _

theorem fAdd (h : Neutral R) (x y : Word32) : Cmd.Keeps R (Machine.fAdd x y) := orNaN h _

theorem acc32 (h : Neutral R) (x : Int) (site : Work → Site) : Cmd.Keeps R (Machine.acc32 x site) :=
  of_same h (fun s => by
    unfold Machine.acc32
    split
    · split <;> rfl
    · rfl)

theorem dotBlock (h : Neutral R) : Cmd.Keeps R Machine.dotBlock :=
  bind h (config h) (fun _ => updateWork h _)

theorem addDot (h : Neutral R) (x : Int) (site : Work → Site) : Cmd.Keeps R (Machine.addDot x site) :=
  bind h (work h) (fun _ => bind h (acc32 h _ _) (fun _ => updateWork h _))

theorem addRowSum (h : Neutral R) (x : Int) (site : Work → Site) : Cmd.Keeps R (Machine.addRowSum x site) :=
  bind h (work h) (fun _ => bind h (acc32 h _ _) (fun _ => updateWork h _))

theorem accumulate (h : Neutral R) {e : Int} (hw : WriteKeeps R e 4) (c : Word32) :
    Cmd.Keeps R (Machine.accumulate e c) :=
  bind h (ldResult32 h e) (fun _ => bind h (fAdd h _ _) (fun _ => st32 h hw _))

theorem aliasCheck (h : Neutral R) : Cmd.Keeps R Machine.aliasCheck :=
  of_same h (fun s => by
    unfold Machine.aliasCheck
    split <;> rfl)

/-! ### The kernels -/

theorem denseBlock (h : Neutral R) (d : DenseArgs) (b r k : Nat) : Cmd.Keeps R (Machine.denseBlock d b r k) :=
  bind h (updateWork h _) fun _ => bind h (ldBlock h _) fun _ => bind h (updateWork h _) fun _ =>
    bind h (ldBlock h _) fun _ => bind h (updateWork h _) fun _ => bind h (dotBlock h) fun _ =>
      bind h (work h) fun _ => addDot h _ _

theorem denseBlockSum (h : Neutral R) (d : DenseArgs) (b r k : Nat) : Cmd.Keeps R (Machine.denseBlockSum d b r k) :=
  bind h (denseBlock h d b r k) fun _ => bind h (work h) fun _ => addRowSum h _ _

theorem denseColumn (h : Neutral R) (d : DenseArgs) (b r c : Nat) : Cmd.Keeps R (Machine.denseColumn d b r c) :=
  bind h (updateWork h _) fun _ => bind h (ldS8 h _) fun _ => bind h (ldS8 h _) fun _ =>
    bind h (addDot h _ _) fun _ => pure h _

theorem rowDot (h : Neutral R) (d : DenseArgs) (b r : Nat) : Cmd.Keeps R (Machine.rowDot d b r) :=
  bind h (updateWork h _) fun _ => bind h (loop h fun k _ _ => denseBlock h d b r k) fun _ =>
    loop h fun c _ _ => bind h (denseColumn h d b r c) fun _ => pure h _

theorem rowDotSum (h : Neutral R) (d : DenseArgs) (b r : Nat) : Cmd.Keeps R (Machine.rowDotSum d b r) :=
  bind h (updateWork h _) fun _ => bind h (loop h fun k _ _ => denseBlockSum h d b r k) fun _ =>
    loop h fun c _ _ => bind h (denseColumn h d b r c) fun _ => addRowSum h _ _

theorem denseRow (h : Neutral R) (d : DenseArgs) (b : Nat) (bs : Word32) {r : Nat}
    (hw : WriteKeeps R (d.resAddr b r) 4) : Cmd.Keeps R (Machine.denseRow d b bs r) :=
  bind h (updateWork h _) fun _ => bind h (rowDot h d b r) fun _ => bind h (work h) fun _ =>
    bind h (fMul h _ _) fun _ => accumulate h hw _

theorem denseBatch (h : Neutral R) (d : DenseArgs) {b : Nat} (hw : ∀ r < d.rows, WriteKeeps R (d.resAddr b r) 4) :
    Cmd.Keeps R (Machine.denseBatch d b) :=
  bind h (updateWork h _) fun _ => bind h (ldInput32 h _) fun _ =>
    loop h fun r _ hr => denseRow h d b _ (hw r (by omega))

theorem adjustedSum (h : Neutral R) (dot rs off : Word32) : Cmd.Keeps R (Machine.adjustedSum dot rs off) :=
  bind h (acc32 h _ _) fun _ => acc32 h _ _

theorem scale3 (h : Neutral R) (adj bs cs : Word32) : Cmd.Keeps R (Machine.scale3 adj bs cs) :=
  bind h (config h) fun c => by
    cases c.asymOrder with
    | leftToRight => exact bind h (fMul h _ _) fun _ => fMul h _ _
    | scaleFirst => exact bind h (fMul h _ _) fun _ => fMul h _ _

theorem asymRow (h : Neutral R) (d : DenseArgs) (pcs b : Nat) (bs off : Word32) {r : Nat}
    (hw : WriteKeeps R (d.resAddr b r) 4) : Cmd.Keeps R (Machine.asymRow d pcs b bs off r) :=
  bind h (updateWork h _) fun _ => bind h (rowDotSum h d b r) fun _ => bind h (work h) fun _ =>
    bind h (adjustedSum h _ _ _) fun _ => bind h (ldInput32 h _) fun _ => bind h (scale3 h _ _ _) fun _ =>
      accumulate h hw _

theorem asymBatch (h : Neutral R) (d : DenseArgs) (pcs offsets : Nat) {b : Nat}
    (hw : ∀ r < d.rows, WriteKeeps R (d.resAddr b r) 4) : Cmd.Keeps R (Machine.asymBatch d pcs offsets b) :=
  bind h (updateWork h _) fun _ => bind h (ldInput32 h _) fun _ => bind h (ldInput32 h _) fun _ =>
    loop h fun r _ hr => asymRow h d pcs b _ _ (hw r (by omega))

theorem nextLedgerByte (h : Neutral R) : Cmd.Keeps R Machine.nextLedgerByte :=
  bind h (work h) fun _ => bind h (ldU8 h _) fun _ => bind h (updateWork h _) fun _ => pure h _

theorem blockPrecond (h : Neutral R) (cols : Nat) : Cmd.Keeps R (Machine.blockPrecond cols) :=
  bind h (config h) fun c => by
    split
    · exact pure h ()
    · split <;> exact raise h _

theorem sparseEntry (h : Neutral R) (a : SparseArgs) (r i : Nat) : Cmd.Keeps R (Machine.sparseEntry a r i) :=
  bind h (updateWork h _) fun _ => bind h (nextLedgerByte h) fun bi => by
    dsimp only
    split
    · exact raise h _
    · exact bind h (ldBlock h _) fun _ => bind h (updateWork h _) fun _ => bind h (work h) fun _ =>
        bind h (ldBlock h _) fun _ => bind h (updateWork h _) fun _ => bind h (dotBlock h) fun _ =>
          bind h (work h) fun _ => bind h (addDot h _ _) fun _ => updateWork h _

theorem sparseRow (h : Neutral R) (a : SparseArgs) {r : Nat}
    (hw : WriteKeeps R (a.resAddr r) 4) : Cmd.Keeps R (Machine.sparseRow a r) :=
  bind h (updateWork h _) fun _ => bind h (nextLedgerByte h) fun _ => bind h (updateWork h _) fun _ =>
    bind h (loop h fun i _ _ => sparseEntry h a r i) fun _ => bind h (work h) fun _ =>
      bind h (fMul h _ _) fun _ => accumulate h hw _

theorem sparseBody (h : Neutral R) (a : SparseArgs)
    (hw : ∀ r < a.rows, WriteKeeps R (a.resAddr r) 4) :
    Cmd.Keeps R (Machine.sparseBody a) :=
  bind h (updateWork h _) fun _ => loop h fun r _ hr => sparseRow h a (hw r (by omega))

theorem sparseBatch (h : Neutral R) (a : SparseBatchArgs) {b : Nat}
    (hw : ∀ r < a.rows, WriteKeeps R (a.results + 4 * ((b : Int) * a.stride * (a.rows : Int)) + 4 * ((r : Int) * a.stride)) 4) :
    Cmd.Keeps R (Machine.sparseBatch a b) :=
  bind h (updateWork h _) fun _ => bind h (ldInput32 h _) fun v => sparseBody h (a.walk b v) hw

end Cmd.Keeps

end Sys2Proof.Machine
end

