-- ==== Sys2Proof/Laws/Operands.lean ====
section
/-! SUPPORT. Operand decoding reads the argument registers and the launch parameters, and changes nothing (R34, R88). -/

namespace Sys2Proof.Machine

variable {α β : Type}

/-- A piece of a command whose outcome depends on the launch parameters and the argument registers alone, and which
leaves the state as it is. -/
def ArgReader (m : Cmd α) : Prop :=
  ∃ f : Config → Vector (Option Word64) 10 → Except Cause α, ∀ s,
    m s = match f s.cfg s.inst.args with
      | .ok a => .ok a s
      | .error c => .error c s

namespace ArgReader

theorem pure (a : α) : ArgReader (Pure.pure a : Cmd α) := ⟨fun _ _ => .ok a, fun _ => rfl⟩

theorem raise (c : Cause) : ArgReader (Machine.raise c : Cmd α) := ⟨fun _ _ => .error c, fun _ => rfl⟩

theorem config : ArgReader Machine.config := ⟨fun c _ => .ok c, fun _ => rfl⟩

theorem readArg (i : Fin 10) : ArgReader (Machine.readArg i) :=
  ⟨fun _ a => match a[i] with
    | some v => .ok v
    | none => .error (.unwrittenArg i), fun s => by
      unfold Machine.readArg
      dsimp only
      cases s.inst.args[i] <;> rfl⟩

theorem orBadArg (i : Fin 10) (v : Word64) (r : Option α) : ArgReader (Machine.orBadArg i v r) := by
  cases r with
  | some x => exact pure x
  | none => exact raise _

theorem bind {m : Cmd α} {f : α → Cmd β} (hm : ArgReader m) (hf : ∀ a, ArgReader (f a)) : ArgReader (m >>= f) := by
  obtain ⟨g, hg⟩ := hm
  choose h hh using hf
  refine ⟨fun c a => match g c a with
    | .ok x => h x c a
    | .error e => .error e, fun s => ?_⟩
  rw [Cmd.bind_apply, hg s]
  dsimp only
  cases g s.cfg s.inst.args with
  | ok x => exact hh x s
  | error e => rfl

theorem argAddr (i : Fin 10) : ArgReader (Machine.argAddr i) :=
  bind (readArg i) fun _ => bind config fun _ => orBadArg _ _ _

theorem argInt (i : Fin 10) : ArgReader (Machine.argInt i) := bind (readArg i) fun _ => orBadArg _ _ _

theorem argDim (i : Fin 10) : ArgReader (Machine.argDim i) := bind (readArg i) fun _ => orBadArg _ _ _

theorem argF32 (i : Fin 10) : ArgReader (Machine.argF32 i) := bind (readArg i) fun _ => orBadArg _ _ _

theorem denseArgs : ArgReader Machine.denseArgs :=
  bind (argAddr _) fun _ => bind (argDim _) fun _ => bind (argDim _) fun _ => bind (argAddr _) fun _ =>
    bind (argAddr _) fun _ => bind (argDim _) fun _ => bind (argAddr _) fun _ => bind (argInt _) fun _ => pure _

theorem sparseArgs : ArgReader Machine.sparseArgs :=
  bind (argAddr _) fun _ => bind (argAddr _) fun _ => bind (argDim _) fun _ => bind (argDim _) fun _ =>
    bind (argAddr _) fun _ => bind (argF32 _) fun _ => bind (argAddr _) fun _ => bind (argInt _) fun _ => pure _

theorem sparseBatchArgs : ArgReader Machine.sparseBatchArgs :=
  bind (argAddr _) fun _ => bind (argAddr _) fun _ => bind (argDim _) fun _ => bind (argDim _) fun _ =>
    bind (argAddr _) fun _ => bind (argAddr _) fun _ => bind (argDim _) fun _ => bind (argAddr _) fun _ =>
      bind (argInt _) fun _ => pure _

/-- Wherever it ends, the state is as it was. -/
theorem endState_eq {m : Cmd α} (h : ArgReader m) (s : State) : endState (m s) = s := by
  obtain ⟨f, hf⟩ := h
  rw [hf s]
  cases f s.cfg s.inst.args <;> rfl

/-- What it gives depends on the launch parameters and the argument registers alone. -/
theorem ok_of_same {m : Cmd α} (h : ArgReader m) {s t : State} {a : α} (hs : operandsOf m s = some a)
    (hc : t.cfg = s.cfg) (ha : t.inst.args = s.inst.args) : m t = .ok a t := by
  obtain ⟨f, hf⟩ := h
  unfold operandsOf at hs
  rw [hf s] at hs
  rw [hf t, hc, ha]
  cases hfs : f s.cfg s.inst.args with
  | ok b => simp [hfs] at hs; rw [hs]
  | error c => simp [hfs] at hs

/-- Where it gives nothing it raises, and the state is as it was. -/
theorem error_of_none {m : Cmd α} (h : ArgReader m) {s : State} (hs : operandsOf m s = none) :
    ∃ c, ∀ t : State, t.cfg = s.cfg → t.inst.args = s.inst.args → m t = .error c t := by
  obtain ⟨f, hf⟩ := h
  unfold operandsOf at hs
  rw [hf s] at hs
  cases hfs : f s.cfg s.inst.args with
  | ok b => simp [hfs] at hs
  | error c => exact ⟨c, fun t hc ha => by rw [hf t, hc, ha, hfs]⟩

/-- A command that starts by decoding operands keeps what the rest of it keeps. -/
theorem keeps {R : State → State → Prop} {m : Cmd α} (h : ArgReader m) (N : Neutral R) : Cmd.Keeps R m :=
  Cmd.Keeps.of_same N h.endState_eq

/-- A command that starts by decoding operands ends, from `s`, where the rest of it ends for the operands decoded in
`s`, or it raises at once. -/
theorem then_at {P : State → Prop} {m : Cmd α} {f : α → Cmd β} (h : ArgReader m) (s : State) (hs : P s)
    (hf : ∀ a, operandsOf m s = some a → P (endState (f a s))) : P (endState ((m >>= f) s)) := by
  cases hm : operandsOf m s with
  | some a =>
    rw [Cmd.bind_ok (h.ok_of_same hm rfl rfl)]
    exact hf a hm
  | none =>
    obtain ⟨c, hc⟩ := h.error_of_none hm
    rw [Cmd.bind_error (hc s rfl rfl)]
    exact hs

/-- Operands do not depend on whether the command has started. -/
theorem operandsOf_startCommand {m : Cmd α} (h : ArgReader m) (s : State) (o : BitVec 8) (rs : List (Nat × Nat)) :
    operandsOf m (s.startCommand o rs) = operandsOf m s := by
  cases hs : operandsOf m s with
  | some a =>
    have := h.ok_of_same (t := s.startCommand o rs) hs rfl rfl
    simp [operandsOf, this]
  | none =>
    obtain ⟨c, hc⟩ := h.error_of_none hs
    have := hc (s.startCommand o rs) rfl rfl
    simp [operandsOf, this]

end ArgReader

/-- An address operand of a register that holds a pattern (R84). -/
theorem argAddr_of_some {i : Fin 10} {v : Word64} {s : State} (h : s.inst.args[i] = some v) :
    argAddr i s = match viewAddr s.cfg.addrW v with
      | some a => .ok a s
      | none => .error (.badArg i v) s := by
  have hr : readArg i s = .ok v s := by simp [readArg, h]
  unfold argAddr
  rw [Cmd.bind_ok hr, Cmd.bind_ok (config_apply s)]
  unfold orBadArg
  cases viewAddr s.cfg.addrW v <;> rfl

/-- An operand of a register that holds no value (R33). -/
theorem readArg_of_none {i : Fin 10} {s : State} (h : s.inst.args[i] = none) :
    readArg i s = .error (.unwrittenArg i) s := by simp [readArg, h]

theorem readArg_of_some {i : Fin 10} {v : Word64} {s : State} (h : s.inst.args[i] = some v) :
    readArg i s = .ok v s := by simp [readArg, h]

theorem orBadArg_some {i : Fin 10} {v : Word64} {x : α} (s : State) : orBadArg i v (some x) s = .ok x s := rfl

theorem orBadArg_none {i : Fin 10} {v : Word64} (s : State) :
    (orBadArg i v none : Cmd α) s = .error (.badArg i v) s := rfl

end Sys2Proof.Machine
end

