-- ==== Sys2Proof/Laws/Frame.lean ====
section
/-! SUPPORT. What every command leaves alone, said once for all six: a command ends as `finish` says, its body keeps
every relation that its writes keep, and the accesses of other agents change memory and the number of draws only. -/

namespace Sys2Proof.Machine

/-- The pseudocode of each command. -/
def bodyOf : Instr → Cmd Unit
  | .dot16 => dot16Body
  | .hred => hredBody
  | .dmmaS => dmmaSBody
  | .dmmaA => dmmaABody
  | .smma => smmaBody
  | .smmaB => smmaBBody

/-- A command is a CMD write that runs its pseudocode (R35). -/
theorem exec_eq_runCommand (i : Instr) (s : State) : exec i s = runCommand i.opc (bodyOf i) s := by
  cases i <;> rfl

/-- The three ways a CMD write can go: the block is faulted, it is busy, or the command runs to its end. -/
theorem runCommand_cases (opc : BitVec 8) (body : Cmd Unit) (s : State) :
    (∃ r, s.inst.fault = some r ∧ runCommand opc body s = .fault (.blockFaulted r)) ∨
    (s.inst.fault = none ∧ s.inst.busy = true ∧ runCommand opc body s = .fault .held) ∨
    (s.accepts ∧ runCommand opc body s = .next (finish opc (runBody opc body s))) := by
  unfold runCommand
  cases hf : s.inst.fault with
  | some r => exact .inl ⟨r, rfl, rfl⟩
  | none =>
    cases hb : s.inst.busy with
    | true => exact .inr (.inl ⟨rfl, rfl, by simp⟩)
    | false => exact .inr (.inr ⟨⟨hf, hb⟩, by simp⟩)

/-- In a block that accepts it a command runs. -/
theorem runCommand_of_accepts {opc : BitVec 8} {body : Cmd Unit} {s : State} (h : s.accepts) :
    runCommand opc body s = .next (finish opc (runBody opc body s)) := by
  simp [runCommand, h.1, h.2]

/-- If a command answers a next state, the block accepted it, and the state is the end of its run. -/
theorem runCommand_next {opc : BitVec 8} {body : Cmd Unit} {s t : State} (h : runCommand opc body s = .next t) :
    s.accepts ∧ t = finish opc (runBody opc body s) := by
  rcases runCommand_cases opc body s with ⟨r, _, hr⟩ | ⟨_, _, hr⟩ | ⟨ha, hr⟩
  · rw [hr] at h; cases h
  · rw [hr] at h; cases h
  · rw [hr] at h
    cases h
    exact ⟨ha, rfl⟩

theorem exec_next {i : Instr} {s t : State} (h : exec i s = .next t) :
    s.accepts ∧ t = finish i.opc (runBody i.opc (bodyOf i) s) :=
  runCommand_next (exec_eq_runCommand i s ▸ h)

/-- With no other agent at work a command just runs. -/
theorem runBody_of_nil {opc : BitVec 8} {body : Cmd Unit} {s : State} (h : s.foreign = []) :
    runBody opc body s = body (s.startCommand opc []) := by
  simp [runBody, h]

/-- Everything a run of a command can be: it starts with ranges foreseen, a draw spent on them where another agent is at
work; and either none are foreseen, or they are the ranges that the run writes in accesses that conflict (R67). -/
theorem runBody_cases (opc : BitVec 8) (body : Cmd Unit) (s : State) :
    ∃ n foreseen, s.draws ≤ n ∧ runBody opc body s = body ({ s with draws := n }.startCommand opc foreseen) ∧
      (foreseen = [] ∨ (endState (runBody opc body s)).racedSoFar = foreseen) := by
  by_cases h : s.foreign.isEmpty = true
  · exact ⟨s.draws, [], Nat.le_refl _, if_pos h, .inl rfl⟩
  · by_cases hr : (endState (body ({ s with draws := s.draws + 1 }.startCommand opc
        (Config.freeRanges opc s.draws)))).racedSoFar = Config.freeRanges opc s.draws
    · have he : runBody opc body s = body ({ s with draws := s.draws + 1 }.startCommand opc
          (Config.freeRanges opc s.draws)) := (if_neg h).trans (if_pos hr)
      exact ⟨s.draws + 1, _, Nat.le_succ _, he, .inr (he ▸ hr)⟩
    · exact ⟨s.draws + 1, [], Nat.le_succ _, (if_neg h).trans (if_neg hr), .inl rfl⟩

/-! ### The accesses of other agents -/

/-- All but memory, the number of draws, the list of accesses and the replies to them is as before. -/
structure SameButMemory (s t : State) : Prop where
  cfg : t.cfg = s.cfg
  inst : t.inst = s.inst
  others : t.others = s.others
  caller : t.caller = s.caller
  reply : t.reply = s.reply
  pastFaults : t.pastFaults = s.pastFaults
  draws : s.draws ≤ t.draws

theorem State.scramble_same : ∀ (n a : Nat) (s : State), SameButMemory s (s.scramble a n)
  | 0, _, _ => ⟨rfl, rfl, rfl, rfl, rfl, rfl, Nat.le_refl _⟩
  | n + 1, a, s => by
    have h := State.scramble_same n (a + 1)
      { s with mem := s.mem.write a s.nextByte, draws := s.draws + 1 }
    exact ⟨h.cfg, h.inst, h.others, h.caller, h.reply, h.pastFaults,
      Nat.le_trans (Nat.le_succ _) h.draws⟩

theorem State.scrambleAll_same : ∀ (rs : List (Nat × Nat)) (s : State), SameButMemory s (s.scrambleAll rs)
  | [], _ => ⟨rfl, rfl, rfl, rfl, rfl, rfl, Nat.le_refl _⟩
  | r :: rs, s => by
    have h1 := State.scramble_same r.2 r.1 s
    have h2 := State.scrambleAll_same rs (s.scramble r.1 r.2)
    exact ⟨h2.cfg.trans h1.cfg, h2.inst.trans h1.inst, h2.others.trans h1.others, h2.caller.trans h1.caller,
      h2.reply.trans h1.reply, h2.pastFaults.trans h1.pastFaults, Nat.le_trans h1.draws h2.draws⟩

theorem hearBytes_draws (opc : BitVec 8) (raced : List (Nat × Nat)) (m : Memory) :
    ∀ (n draws a : Nat), draws ≤ (hearBytes opc raced m draws a n).2
  | 0, _, _ => Nat.le_refl _
  | n + 1, draws, a => by
    unfold hearBytes
    split
    · exact Nat.le_trans (Nat.le_succ _) (hearBytes_draws opc raced m n (draws + 1) (a + 1))
    · exact hearBytes_draws opc raced m n draws (a + 1)

theorem hearForeign_draws (opc : BitVec 8) (raced : List (Nat × Nat)) :
    ∀ (fs : List ForeignAccess) (m : Memory) (draws : Nat), draws ≤ (hearForeign opc raced m draws fs).2
  | [], _, _ => Nat.le_refl _
  | f :: fs, m, draws => by
    unfold hearForeign
    split
    · exact Nat.le_trans (hearBytes_draws opc raced m _ draws f.addr) (hearForeign_draws opc raced fs m _)
    · exact hearForeign_draws opc raced fs _ draws

theorem State.scramble_foreignReplies : ∀ (n a : Nat) (s : State), (s.scramble a n).foreignReplies = s.foreignReplies
  | 0, _, _ => rfl
  | n + 1, a, _ => State.scramble_foreignReplies n (a + 1) _

theorem State.scrambleAll_foreignReplies :
    ∀ (rs : List (Nat × Nat)) (s : State), (s.scrambleAll rs).foreignReplies = s.foreignReplies
  | [], _ => rfl
  | r :: rs, s => (State.scrambleAll_foreignReplies rs _).trans (State.scramble_foreignReplies r.2 r.1 s)

theorem State.settleForeign_same (s : State) : SameButMemory s s.settleForeign := by
  have h := State.scrambleAll_same
    (s.racedSoFar ++ racedByOthers s.workNow.trace s.foreign)
    { s with
      mem := landForeign s.mem s.foreign
      foreignReplies := s.foreignReplies ++ (hearForeign s.inst.running
        (s.racedSoFar ++ racedByOthers s.workNow.trace s.foreign) s.mem s.draws s.foreign).1
      draws := (hearForeign s.inst.running
        (s.racedSoFar ++ racedByOthers s.workNow.trace s.foreign) s.mem s.draws s.foreign).2 }
  exact ⟨h.cfg, h.inst, h.others, h.caller, h.reply, h.pastFaults, Nat.le_trans (hearForeign_draws _ _ _ _ _) h.draws⟩

@[simp] theorem State.settleForeign_foreign (s : State) : s.settleForeign.foreign = [] := rfl

/-- The replies to other agents' reads are added to the ones before (R252). -/
theorem State.settleForeign_foreignReplies (s : State) :
    s.settleForeign.foreignReplies = s.foreignReplies ++ (hearForeign s.inst.running
      (s.racedSoFar ++ racedByOthers s.workNow.trace s.foreign) s.mem s.draws s.foreign).1 :=
  State.scrambleAll_foreignReplies _ _

/-- With no other agent at work there is nothing to settle. -/
theorem State.settleForeign_of_nil {s : State} (h : s.foreign = []) : s.settleForeign = s := by
  have hr : s.racedSoFar = [] := by
    simp [State.racedSoFar, racedByCommand, h]
  have ho : racedByOthers s.workNow.trace s.foreign = [] := by
    simp [racedByOthers, h]
  unfold State.settleForeign
  simp only [hr, ho, List.append_nil, State.scrambleAll]
  rw [h]
  cases s
  simp only at h
  simp [h, landForeign, hearForeign]

/-! ### What every command leaves alone -/

/-- What no command writes (R31, R34, R41): the launch parameters, the argument registers, `BUSY`, `FAULT` and `running`
while it runs, the other blocks, and the model's own fields but the number of draws. -/
structure Undisturbed (s t : State) : Prop where
  cfg : t.cfg = s.cfg
  args : t.inst.args = s.inst.args
  busy : t.inst.busy = s.inst.busy
  running : t.inst.running = s.inst.running
  fault : t.inst.fault = s.inst.fault
  others : t.others = s.others
  caller : t.caller = s.caller
  foreign : t.foreign = s.foreign
  foreignReplies : t.foreignReplies = s.foreignReplies
  reply : t.reply = s.reply
  pastFaults : t.pastFaults = s.pastFaults
  draws : s.draws ≤ t.draws

theorem Undisturbed.neutral : Neutral Undisturbed where
  refl _ := ⟨rfl, rfl, rfl, rfl, rfl, rfl, rfl, rfl, rfl, rfl, rfl, Nat.le_refl _⟩
  trans h1 h2 := ⟨h2.cfg.trans h1.cfg, h2.args.trans h1.args, h2.busy.trans h1.busy, h2.running.trans h1.running,
    h2.fault.trans h1.fault, h2.others.trans h1.others, h2.caller.trans h1.caller, h2.foreign.trans h1.foreign,
    h2.foreignReplies.trans h1.foreignReplies, h2.reply.trans h1.reply, h2.pastFaults.trans h1.pastFaults, Nat.le_trans h1.draws h2.draws⟩
  work _ _ := ⟨rfl, rfl, rfl, rfl, rfl, rfl, rfl, rfl, rfl, rfl, rfl, Nat.le_refl _⟩
  draw _ := ⟨rfl, rfl, rfl, rfl, rfl, rfl, rfl, rfl, rfl, rfl, rfl, Nat.le_succ _⟩

/-- What the writes of each command at operands decoded in `s` must keep for the command to keep a relation: DOT16 and
HRED write at their destination, the kernels at their result elements (R55). -/
def WritesKeep (R : State → State → Prop) (i : Instr) (s : State) : Prop :=
  match i with
  | .dot16 => ∀ d, operandsOf (argAddr 2) s = some d → WriteKeeps R d 16
  | .hred => ∀ d, operandsOf (argAddr 1) s = some d → WriteKeeps R d 4
  | .dmmaS => ∀ d, operandsOf denseArgs s = some d → ∀ b < d.batch, ∀ r < d.rows, WriteKeeps R (d.resAddr b r) 4
  | .dmmaA => ∀ d, operandsOf denseArgs s = some d → ∀ b < d.batch, ∀ r < d.rows, WriteKeeps R (d.resAddr b r) 4
  | .smma => ∀ a, operandsOf sparseArgs s = some a → ∀ r < a.rows,
      WriteKeeps R (a.resAddr r) 4
  | .smmaB => ∀ a, operandsOf sparseBatchArgs s = some a → ∀ b < a.batch, ∀ r < a.rows,
      WriteKeeps R (a.results + 4 * ((b : Int) * a.stride * (a.rows : Int)) + 4 * ((r : Int) * a.stride)) 4

namespace Cmd.Keeps

/-- Wherever a command ends, it has kept what its writes keep. -/
theorem command {R : State → State → Prop} (N : Neutral R) (i : Instr) (s : State) (h : WritesKeep R i s) :
    R s (endState (bodyOf i s)) := by
  have r0 := N.refl s
  cases i with
  | dot16 =>
    refine (ArgReader.argAddr 0).then_at s r0 fun a _ => (ArgReader.argAddr 1).then_at s r0 fun b _ =>
      (ArgReader.argAddr 2).then_at s r0 fun d hd => ?_
    exact bind N (memRead N _ _ _ _) (fun _ => bind N (updateWork N _) fun _ =>
      bind N (memRead N _ _ _ _) fun _ => bind N (updateWork N _) fun _ => bind N (dotBlock N) fun _ => bind N (work N) fun _ => memWrite N (h d hd)) s
  | hred =>
    refine (ArgReader.argAddr 0).then_at s r0 fun a _ => (ArgReader.argAddr 1).then_at s r0 fun d hd => ?_
    exact bind N (memRead N _ _ _ _) (fun _ => bind N (updateWork N _) fun _ =>
      bind N (work N) fun _ => st32 N (h d hd) _) s
  | dmmaS =>
    refine ArgReader.denseArgs.then_at s r0 fun d hd => ?_
    exact bind N (loop N fun b _ hb => denseBatch N d fun r hr => h d hd b (by omega) r hr) (fun _ => aliasCheck N) s
  | dmmaA =>
    refine ArgReader.denseArgs.then_at s r0 fun d hd => ?_
    exact bind N ((ArgReader.argAddr 8).keeps N) (fun _ => bind N ((ArgReader.argAddr 9).keeps N) fun _ =>
      bind N (loop N fun b _ hb => asymBatch N d _ _ fun r hr => h d hd b (by omega) r hr) fun _ => aliasCheck N) s
  | smma =>
    refine ArgReader.sparseArgs.then_at s r0 fun a ha => ?_
    exact bind N (blockPrecond N _) (fun _ => bind N (sparseBody N a fun r hr => h a ha r hr) fun _ => aliasCheck N) s
  | smmaB =>
    refine ArgReader.sparseBatchArgs.then_at s r0 fun a ha => ?_
    exact bind N (blockPrecond N _) (fun _ =>
      bind N (loop N fun b _ hb => sparseBatch N a fun r hr => h a ha b (by omega) r hr) fun _ => aliasCheck N) s

end Cmd.Keeps

/-- A relation that every write keeps. -/
theorem WritesKeep.of_all {R : State → State → Prop} (h : ∀ a n, WriteKeeps R a n) (i : Instr) (s : State) :
    WritesKeep R i s := by
  cases i with
  | dot16 => exact fun _ _ => h _ _
  | hred => exact fun _ _ => h _ _
  | dmmaS => exact fun _ _ _ _ _ _ => h _ _
  | dmmaA => exact fun _ _ _ _ _ _ => h _ _
  | smma => exact fun _ _ _ _ => h _ _
  | smmaB => exact fun _ _ _ _ _ _ => h _ _

/-- No command disturbs what is not its own (R31, R34). -/
theorem bodyOf_undisturbed (i : Instr) (s : State) : Undisturbed s (endState (bodyOf i s)) :=
  Cmd.Keeps.command Undisturbed.neutral i s (WritesKeep.of_all (fun _ _ _ _ _ _ =>
    ⟨rfl, rfl, rfl, rfl, rfl, rfl, rfl, rfl, rfl, rfl, rfl, Nat.le_refl _⟩) i s)

/-- What the end of a command leaves alone of the state in which its pseudocode ended. -/
theorem finish_same (opc : BitVec 8) (r : EStateM.Result Cause State Unit) :
    (finish opc r).cfg = (endState r).cfg ∧ (finish opc r).inst.args = (endState r).inst.args ∧
    (finish opc r).inst.idle ∧
    (finish opc r).others = (endState r).others ∧ (finish opc r).caller = (endState r).caller ∧
    (finish opc r).foreign = [] ∧ (finish opc r).reply = (endState r).reply ∧
    (finish opc r).pastFaults = (endState r).pastFaults ∧ (endState r).draws ≤ (finish opc r).draws ∧
    (finish opc r).mem = (endState r).settleForeign.mem := by
  cases r with
  | ok a s =>
    have h := s.settleForeign_same
    exact ⟨h.cfg, by simp [finish, h.inst], ⟨rfl, rfl, rfl⟩, h.others, h.caller, rfl, h.reply, h.pastFaults, h.draws, rfl⟩
  | error c s =>
    have h := s.settleForeign_same
    exact ⟨h.cfg, by simp [finish, h.inst], ⟨rfl, rfl, rfl⟩, h.others, h.caller, rfl, h.reply, h.pastFaults, h.draws, rfl⟩

/-- The fault record after a command whose block had none (R38, R201): empty if it completed, and otherwise the cause it
raised under its `OPC`. -/
theorem finish_fault (opc : BitVec 8) (r : EStateM.Result Cause State Unit) (h : (endState r).inst.fault = none) :
    (finish opc r).inst.fault = match r with
      | .ok _ _ => none
      | .error c _ => some ⟨opc, c⟩ := by
  cases r with
  | ok a s => simp [finish, s.settleForeign_same.inst]; exact h
  | error c s =>
    have h' : s.inst.fault = none := h
    simp [finish, s.settleForeign_same.inst, h']

end Sys2Proof.Machine
end

