-- ==== Sys2Proof/Laws/Lanes.lean ====
section
/-! SUPPORT. The laws of the integer primitives and of the lane functions (00_scope.md R10; 40_lane_primitives.md R100 to
R106). -/

namespace Sys2Proof.Machine

/-! ### int8, int32 -/

theorem s8_bounds (u : Byte) : -128 ≤ s8 u ∧ s8 u ≤ 127 := by
  unfold s8
  have h1 := BitVec.le_toInt u
  have h2 := BitVec.toInt_lt (x := u)
  norm_num at h1 h2
  omega

theorem toInt_bits32 (x : Int) : (bits32 x).toInt = wrap32 x := by
  unfold bits32 wrap32
  rw [BitVec.toInt_ofInt]

/-- Narrowing keeps what fits (R10). -/
theorem wrap32_of_in32 {x : Int} (h : in32 x = true) : wrap32 x = x := by
  simp only [in32, Bool.and_eq_true, decide_eq_true_eq] at h
  unfold wrap32
  rw [Int.bmod_def]
  omega

theorem toInt_bits32_of_in32 {x : Int} (h : in32 x = true) : (bits32 x).toInt = x := by
  rw [toInt_bits32, wrap32_of_in32 h]

theorem bits32_add (x y : Int) : bits32 (x + y) = bits32 x + bits32 y := BitVec.ofInt_add x y

theorem bits32_toInt (v : Word32) : bits32 v.toInt = v := BitVec.ofInt_toInt

/-- Adding to a narrowed value and narrowing again narrows the sum. -/
theorem bits32_toInt_add (v : Word32) (x : Int) : bits32 (v.toInt + x) = v + bits32 x := by
  rw [bits32_add, bits32_toInt]

/-! ### Lanes -/

theorem lane32_pack32_0 (a b c d : Word32) : lane32 (pack32 a b c d) 0 = a := by
  apply BitVec.eq_of_toNat_eq
  have ha : a.toNat < 2 ^ 32 := a.isLt
  have hb : b.toNat < 2 ^ 32 := b.isLt
  have hc : c.toNat < 2 ^ 32 := c.isLt
  have hd : d.toNat < 2 ^ 32 := d.isLt
  simp only [lane32, pack32, BitVec.extractLsb'_toNat, BitVec.toNat_ofNat, Nat.shiftRight_eq_div_pow]
  omega

theorem lane32_pack32_1 (a b c d : Word32) : lane32 (pack32 a b c d) 1 = b := by
  apply BitVec.eq_of_toNat_eq
  have ha : a.toNat < 2 ^ 32 := a.isLt
  have hb : b.toNat < 2 ^ 32 := b.isLt
  have hc : c.toNat < 2 ^ 32 := c.isLt
  have hd : d.toNat < 2 ^ 32 := d.isLt
  simp only [lane32, pack32, BitVec.extractLsb'_toNat, BitVec.toNat_ofNat, Nat.shiftRight_eq_div_pow]
  omega

theorem lane32_pack32_2 (a b c d : Word32) : lane32 (pack32 a b c d) 2 = c := by
  apply BitVec.eq_of_toNat_eq
  have ha : a.toNat < 2 ^ 32 := a.isLt
  have hb : b.toNat < 2 ^ 32 := b.isLt
  have hc : c.toNat < 2 ^ 32 := c.isLt
  have hd : d.toNat < 2 ^ 32 := d.isLt
  simp only [lane32, pack32, BitVec.extractLsb'_toNat, BitVec.toNat_ofNat, Nat.shiftRight_eq_div_pow]
  omega

theorem lane32_pack32_3 (a b c d : Word32) : lane32 (pack32 a b c d) 3 = d := by
  apply BitVec.eq_of_toNat_eq
  have ha : a.toNat < 2 ^ 32 := a.isLt
  have hb : b.toNat < 2 ^ 32 := b.isLt
  have hc : c.toNat < 2 ^ 32 := c.isLt
  have hd : d.toNat < 2 ^ 32 := d.isLt
  simp only [lane32, pack32, BitVec.extractLsb'_toNat, BitVec.toNat_ofNat, Nat.shiftRight_eq_div_pow]
  omega

/-- The shuffle order of R104 adds all four lanes. -/
theorem reduce4_eq (l : Lanes) : reduce4 l = lane32 l 0 + lane32 l 1 + lane32 l 2 + lane32 l 3 := by
  simp only [reduce4, addLanes, swapHalves, swapPairs, lane32_pack32_0, lane32_pack32_1, lane32_pack32_2,
    lane32_pack32_3]
  ring

/-! ### Products -/

theorem exactProduct_bounds (a b : Byte) : -16256 ≤ exactProduct a b ∧ exactProduct a b ≤ 16384 := by
  have ha := s8_bounds a
  have hb := s8_bounds b
  unfold exactProduct
  constructor <;> nlinarith [ha.1, ha.2, hb.1, hb.2]

theorem signTransferProduct_bounds (a b : Byte) : -16384 ≤ signTransferProduct a b ∧ signTransferProduct a b ≤ 16256 := by
  have ha := s8_bounds a
  unfold signTransferProduct
  dsimp only
  have key : ∀ y : Int, -128 ≤ y → y ≤ 127 → -16384 ≤ ((s8 a).natAbs : Int) * y ∧ ((s8 a).natAbs : Int) * y ≤ 16256 := by
    intro y h1 h2
    have hn : ((s8 a).natAbs : Int) ≤ 128 := by omega
    have hp : (0 : Int) ≤ ((s8 a).natAbs : Int) := by omega
    constructor <;> nlinarith
  split
  · exact key _ (s8_bounds _).1 (s8_bounds _).2
  · split
    · exact key 0 (by omega) (by omega)
    · exact key _ (s8_bounds _).1 (s8_bounds _).2

theorem product_bounds (mode : DotMode) (a b : Byte) : -16384 ≤ product mode a b ∧ product mode a b ≤ 16384 := by
  cases mode with
  | exact =>
    have := exactProduct_bounds a b
    exact ⟨by simp only [product]; omega, by simp only [product]; omega⟩
  | signTransfer =>
    have := signTransferProduct_bounds a b
    exact ⟨by simp only [product]; omega, by simp only [product]; omega⟩

/-- The saturation of R102 can never take effect. -/
theorem signTransferPair_eq (A B : Lanes) (k : Nat) :
    signTransferPair A B k = signTransferProduct (lane8 A (2 * k)) (lane8 B (2 * k)) +
      signTransferProduct (lane8 A (2 * k + 1)) (lane8 B (2 * k + 1)) := by
  have h1 := signTransferProduct_bounds (lane8 A (2 * k)) (lane8 B (2 * k))
  have h2 := signTransferProduct_bounds (lane8 A (2 * k + 1)) (lane8 B (2 * k + 1))
  unfold signTransferPair sat16
  omega

/-- Partial sum `i` is the sum of the products of lanes `4i .. 4i + 3`, in either mode (R100, R101, R102). -/
theorem partialSum_eq (mode : DotMode) (A B : Lanes) (i : Nat) :
    partialSum mode A B i =
      product mode (lane8 A (4 * i)) (lane8 B (4 * i)) + product mode (lane8 A (4 * i + 1)) (lane8 B (4 * i + 1)) +
        product mode (lane8 A (4 * i + 2)) (lane8 B (4 * i + 2)) +
          product mode (lane8 A (4 * i + 3)) (lane8 B (4 * i + 3)) := by
  have e0 : 2 * (2 * i) = 4 * i := by omega
  have e1 : 2 * (2 * i + 1) = 4 * i + 2 := by omega
  cases mode with
  | exact =>
    simp only [partialSum, exactPair, product, e0, e1]
    ring
  | signTransfer =>
    simp only [partialSum, signTransferPair_eq, product, e0, e1]
    ring

theorem partialSum_bounds (mode : DotMode) (A B : Lanes) (i : Nat) :
    -65536 ≤ partialSum mode A B i ∧ partialSum mode A B i ≤ 65536 := by
  rw [partialSum_eq]
  have h0 := product_bounds mode (lane8 A (4 * i)) (lane8 B (4 * i))
  have h1 := product_bounds mode (lane8 A (4 * i + 1)) (lane8 B (4 * i + 1))
  have h2 := product_bounds mode (lane8 A (4 * i + 2)) (lane8 B (4 * i + 2))
  have h3 := product_bounds mode (lane8 A (4 * i + 3)) (lane8 B (4 * i + 3))
  omega

theorem sumTo_congr {f g : Nat → Int} : ∀ {n : Nat}, (∀ j < n, f j = g j) → sumTo f n = sumTo g n
  | 0, _ => rfl
  | n + 1, h => by
    rw [sumTo, sumTo, sumTo_congr (fun j hj => h j (by omega)), h n (by omega)]

theorem sumTo_add (f : Nat → Int) (n : Nat) : ∀ k, sumTo f (n + k) = sumTo f n + sumTo (fun j => f (n + j)) k
  | 0 => by simp [sumTo]
  | k + 1 => by
    rw [← Nat.add_assoc, sumTo, sumTo_add f n k, sumTo]
    ring

theorem sumTo_bounds {f : Nat → Int} {lo hi : Int} :
    ∀ {n : Nat}, (∀ j < n, lo ≤ f j ∧ f j ≤ hi) → lo * n ≤ sumTo f n ∧ sumTo f n ≤ hi * n
  | 0, _ => by simp [sumTo]
  | n + 1, h => by
    have ih := sumTo_bounds (n := n) (fun j hj => h j (by omega))
    have hn := h n (by omega)
    rw [sumTo]
    push_cast
    constructor <;> linarith [ih.1, ih.2, hn.1, hn.2]

/-- The dot product of two lane registers, as the scalar reference has it. -/
def lanesDot (mode : DotMode) (A B : Lanes) : Int := sumTo (fun j => product mode (lane8 A j) (lane8 B j)) 16

theorem lanesDot_bounds (mode : DotMode) (A B : Lanes) : -262144 ≤ lanesDot mode A B ∧ lanesDot mode A B ≤ 262144 := by
  have := sumTo_bounds (n := 16) (fun j _ => product_bounds mode (lane8 A j) (lane8 B j))
  unfold lanesDot
  constructor
  · have := this.1; norm_num at this ⊢; exact this
  · have := this.2; norm_num at this ⊢; exact this

/-- The lane primitive and the reducer together give the sum of all sixteen products: the grouping into partial sums
cannot be seen (R101, R105). -/
theorem toInt_reduce4_dot16Lanes (mode : DotMode) (A B : Lanes) :
    (reduce4 (dot16Lanes mode A B)).toInt = lanesDot mode A B := by
  rw [reduce4_eq]
  simp only [dot16Lanes, lane32_pack32_0, lane32_pack32_1, lane32_pack32_2, lane32_pack32_3]
  rw [← bits32_add, ← bits32_add, ← bits32_add, toInt_bits32_of_in32]
  · simp only [partialSum_eq, lanesDot, sumTo]
    ring
  · have h0 := partialSum_bounds mode A B 0
    have h1 := partialSum_bounds mode A B 1
    have h2 := partialSum_bounds mode A B 2
    have h3 := partialSum_bounds mode A B 3
    simp only [in32, Bool.and_eq_true, decide_eq_true_eq]
    omega

theorem laneSum_eq (m : Lanes) : ∀ n, laneSum m n = sumTo (fun j => s8 (lane8 m j)) n
  | 0 => rfl
  | n + 1 => by rw [laneSum, sumTo, laneSum_eq m n]

/-! ### Lanes from memory -/

theorem leNat_lt : ∀ l : List Byte, leNat l < 256 ^ l.length
  | [] => by simp [leNat]
  | v :: vs => by
    have ih := leNat_lt vs
    have hv : v.toNat < 256 := v.isLt
    rw [leNat, List.length_cons, Nat.pow_succ]
    omega

theorem leNat_div_mod : ∀ (l : List Byte) (j : Nat), j < l.length → leNat l / 256 ^ j % 256 = (l.getD j 0).toNat
  | v :: vs, 0, _ => by
    have hv : v.toNat < 256 := v.isLt
    simp only [leNat, Nat.pow_zero, Nat.div_one, List.getD_cons_zero]
    omega
  | v :: vs, j + 1, h => by
    have hv : v.toNat < 256 := v.isLt
    rw [List.length_cons] at h
    have hd : (v.toNat + 256 * leNat vs) / 256 = leNat vs := by omega
    rw [leNat, Nat.pow_succ, Nat.mul_comm (256 ^ j), ← Nat.div_div_eq_div_mul, hd, List.getD_cons_succ]
    exact leNat_div_mod vs j (by omega)

/-- Lane `j` of sixteen bytes is byte `j` (R51). -/
theorem lane8_le128 {l : List Byte} (hl : l.length = 16) {j : Nat} (hj : j < 16) : lane8 (le128 l) j = l.getD j 0 := by
  apply BitVec.eq_of_toNat_eq
  have hlt := leNat_lt l
  rw [hl] at hlt
  have h2 : leNat l < 2 ^ 128 := by
    calc leNat l < 256 ^ 16 := hlt
      _ = 2 ^ 128 := by norm_num
  unfold lane8 le128
  rw [BitVec.extractLsb'_toNat, BitVec.toNat_ofNat, Nat.mod_eq_of_lt h2, Nat.shiftRight_eq_div_pow]
  have := leNat_div_mod l j (by omega)
  have e : (2 : Nat) ^ (8 * j) = 256 ^ j := by
    rw [Nat.pow_mul]
  rw [e]
  exact this

/-- Lane `j` of the sixteen bytes at an address (R51). -/
theorem lane8_read128 (m : Memory) (a : Nat) {j : Nat} (hj : j < 16) : lane8 (m.read128 a) j = m.read (a + j) := by
  unfold Memory.read128
  rw [lane8_le128 (by simp) hj, Memory.getD_readList m 16 a j hj]

/-- The dot product of two 16-byte slices of memory. -/
theorem lanesDot_read128 (mode : DotMode) (m : Memory) (a b : Nat) :
    lanesDot mode (m.read128 a) (m.read128 b) = sumTo (fun j => product mode (m.read (a + j)) (m.read (b + j))) 16 :=
  sumTo_congr (fun j hj => by rw [lane8_read128 m a hj, lane8_read128 m b hj])

theorem laneSum_read128 (m : Memory) (a : Nat) :
    rowSum16 (m.read128 a) = sumTo (fun j => s8 (m.read (a + j))) 16 := by
  rw [rowSum16, laneSum_eq]
  exact sumTo_congr (fun j hj => by rw [lane8_read128 m a hj])

end Sys2Proof.Machine
end

