-- ==== Sys2Proof/Laws/Access.lean ====
section
/-! SUPPORT. The accesses and the numeric steps of a running command, each as one equation, where no other agent is at
work: what it gives, and the state it leaves. -/

namespace Sys2Proof.Machine

/-- The state of a running command: `s` with the memory and the draws of `p`, and the working state `w`. -/
def State.at (s : State) (p : Progress) (w : Work) : State :=
  { s with mem := p.1, draws := p.2, inst := { s.inst with work := some w } }

@[simp] theorem State.at_cfg (s : State) (p : Progress) (w : Work) : (s.at p w).cfg = s.cfg := rfl
@[simp] theorem State.at_mem (s : State) (p : Progress) (w : Work) : (s.at p w).mem = p.1 := rfl
@[simp] theorem State.at_draws (s : State) (p : Progress) (w : Work) : (s.at p w).draws = p.2 := rfl
@[simp] theorem State.at_foreign (s : State) (p : Progress) (w : Work) : (s.at p w).foreign = s.foreign := rfl
@[simp] theorem State.at_workNow (s : State) (p : Progress) (w : Work) : (s.at p w).workNow = w := rfl
@[simp] theorem State.at_withWork (s : State) (p : Progress) (w w' : Work) : (s.at p w).withWork w' = s.at p w' := rfl
@[simp] theorem State.at_args (s : State) (p : Progress) (w : Work) : (s.at p w).inst.args = s.inst.args := rfl

@[simp] theorem State.at_running (s : State) (p : Progress) (w : Work) : (s.at p w).inst.running = s.inst.running := rfl

/-- The state in which a command runs, but for the working state. -/
abbrev State.busyWith (s : State) (opc : BitVec 8) : State :=
  { s with inst := { s.inst with busy := true, running := opc } }

theorem State.startCommand_eq_at (s : State) (opc : BitVec 8) :
    s.startCommand opc [] = (s.busyWith opc).at (s.mem, s.draws) Work.fresh := rfl

/-- The end of a command that completed, where no other agent was at work. -/
theorem finish_ok_at {opc : BitVec 8} {s : State} (hf : s.foreign = []) (p : Progress) (w : Work) :
    finish opc (.ok () ((s.busyWith opc).at p w)) = s.afterCommand p.1 p.2 := by
  have : ((s.busyWith opc).at p w).foreign = [] := hf
  simp only [finish, State.settleForeign_of_nil this]
  simp [State.endCommand, State.at, State.afterCommand, hf]

/-- The end of a command that raised, where no other agent was at work. -/
theorem finish_error_at {opc : BitVec 8} {s : State} (hf : s.foreign = []) (h : s.inst.fault = none) (c : Cause)
    (p : Progress) (w : Work) :
    finish opc (.error c ((s.busyWith opc).at p w)) =
      (s.afterCommand p.1 p.2).recordFault opc c := by
  have : ((s.busyWith opc).at p w).foreign = [] := hf
  simp only [finish, State.settleForeign_of_nil this]
  simp [State.endCommand, State.at, State.afterCommand, State.recordFault, hf, h]

/-! ### Checks -/

theorem check_of_none {k : Kind} {al : Bool} {a : Int} {n : Nat} {s : State} (h : checkAccess s.cfg k al a n = none) :
    check k al a n s = .ok () s := by
  simp [check, h]

theorem check_of_some {k : Kind} {al : Bool} {a : Int} {n : Nat} {c : Cause} {s : State}
    (h : checkAccess s.cfg k al a n = some c) : check k al a n s = .error c s := by
  simp [check, h]

theorem admits_of_readable {c : Config} : ∀ {n a : Nat}, (∀ j < n, readable c (a + j)) → admits c a .read n = true
  | 0, _, _ => rfl
  | n + 1, a, h => by
    have h0 : readable c a := h 0 (by omega)
    rw [admits, h0.2, admits_of_readable (fun j hj => by
      have := h (j + 1) (by omega)
      rwa [(by omega : a + (j + 1) = a + 1 + j)] at this)]
    rfl

/-- A read without alignment of bytes that are all readable passes its checks. -/
theorem checkAccess_of_readable {c : Config} {a n : Nat} (hn : 0 < n) (h : ∀ j < n, readable c (a + j)) :
    checkAccess c .read false a n = none := by
  have hr : inRange c a n = true := by
    have := (h (n - 1) (by omega)).1
    have e : a + (n - 1) = a + n - 1 := by omega
    simp only [inRange, Bool.and_eq_true, decide_eq_true_eq]
    constructor
    · omega
    · have : a + n ≤ 2 ^ c.addrW := by omega
      exact_mod_cast this
  simp [checkAccess, hr, admits_of_readable h]

/-! ### Reads and writes -/

theorem racing_of_nil {s : State} (hf : s.foreign = []) (x : Nat) : s.racing x = false := by
  simp [State.racing, hf]

theorem readBytes_of_nil {s : State} (hf : s.foreign = []) :
    ∀ (n a : Nat), readBytes a n s = .ok (s.mem.readList a n) s
  | 0, _ => rfl
  | n + 1, a => by
    have hb : readByte a s = .ok (s.mem.read a) s := by simp [readByte, racing_of_nil hf]
    rw [readBytes, Cmd.bind_ok hb, Cmd.bind_ok (readBytes_of_nil hf n (a + 1))]
    rfl

/-- A read that passes its checks gives the bytes that memory holds, and only the trace grows (R57, R63). -/
theorem memRead_at {s : State} (hf : s.foreign = []) (p : Progress) (w : Work) {tag : Tag} {al : Bool}
    {a : Int} {n : Nat} (h : checkAccess s.cfg .read al a n = none) :
    memRead tag al a n (s.at p w) =
      .ok (p.1.readList a.toNat n) (s.at p (addTouch w tag a.toNat n)) := by
  have hc : check .read al a n (s.at p w) = .ok () (s.at p w) := check_of_none h
  unfold memRead touch
  rw [Cmd.bind_ok hc, Cmd.bind_ok (updateWork_apply _ _)]
  exact readBytes_of_nil (s := s.at p (addTouch w tag a.toNat n)) hf n a.toNat

/-- An access that fails a check raises, and changes nothing (R57). -/
theorem memRead_error {s : State} {tag : Tag} {al : Bool} {a : Int} {n : Nat} {c : Cause}
    (h : checkAccess s.cfg .read al a n = some c) : memRead tag al a n s = .error c s :=
  Cmd.bind_error (check_of_some h)

/-- A write that passes its checks puts the bytes in memory (R57). -/
theorem memWrite_at {s : State} (p : Progress) (w : Work) {al : Bool} {a : Int} {bytes : List Byte}
    (h : checkAccess s.cfg .write al a bytes.length = none) :
    memWrite al a bytes (s.at p w) =
      .ok () (s.at (p.1.writeList a.toNat bytes, p.2) (addTouch w .written a.toNat bytes.length)) := by
  have hc : check .write al a bytes.length (s.at p w) = .ok () (s.at p w) := check_of_none h
  unfold memWrite touch
  rw [Cmd.bind_ok hc, Cmd.bind_ok (updateWork_apply _ _)]
  rfl

theorem memWrite_error {s : State} {al : Bool} {a : Int} {bytes : List Byte} {c : Cause}
    (h : checkAccess s.cfg .write al a bytes.length = some c) : memWrite al a bytes s = .error c s :=
  Cmd.bind_error (check_of_some h)

theorem ldS8_at {s : State} (hf : s.foreign = []) (p : Progress) (w : Work) {a : Nat} (h : readable s.cfg a) :
    ldS8 a (s.at p w) = .ok (s8 (p.1.read a)) (s.at p (addTouch w .input a 1)) := by
  have hc : checkAccess s.cfg .read false a 1 = none :=
    checkAccess_of_readable (by omega) (fun j hj => by
      obtain rfl : j = 0 := by omega
      exact h)
  unfold ldS8
  rw [Cmd.bind_ok (memRead_at hf p w hc)]
  rfl

theorem ldU8_at {s : State} (hf : s.foreign = []) (p : Progress) (w : Work) {a : Nat} (h : readable s.cfg a) :
    ldU8 a (s.at p w) = .ok (p.1.read a) (s.at p (addTouch w .input a 1)) := by
  have hc : checkAccess s.cfg .read false a 1 = none :=
    checkAccess_of_readable (by omega) (fun j hj => by
      obtain rfl : j = 0 := by omega
      exact h)
  unfold ldU8
  rw [Cmd.bind_ok (memRead_at hf p w hc)]
  rfl

theorem ldBlock_at {s : State} (hf : s.foreign = []) (p : Progress) (w : Work) {a : Nat}
    (h : ∀ j < 16, readable s.cfg (a + j)) :
    ldBlock a (s.at p w) = .ok (p.1.read128 a) (s.at p (addTouch w .input a 16)) := by
  unfold ldBlock
  rw [Cmd.bind_ok (memRead_at hf p w (checkAccess_of_readable (by omega) h))]
  rfl

theorem ldInput32_at {s : State} (hf : s.foreign = []) (p : Progress) (w : Work) {a : Nat} (h : readable32 s.cfg a) :
    ldInput32 a (s.at p w) = .ok (p.1.read32 a) (s.at p (addTouch w .input a 4)) := by
  unfold ldInput32
  rw [Cmd.bind_ok (memRead_at hf p w h)]
  rfl

theorem orNaN_at {s : State} (p : Progress) (w : Work) (v : Option Word32) :
    orNaN v (s.at p w) = .ok (valueOrDraw s.inst.running v p.2).1 (s.at (p.1, (valueOrDraw s.inst.running v p.2).2) w) := by
  cases v <;> rfl

theorem orNaN_mk {s : State} (m : Memory) (n : Nat) (w : Work) (v : Option Word32) :
    orNaN v (s.at (m, n) w) = .ok (valueOrDraw s.inst.running v n).1 (s.at (m, (valueOrDraw s.inst.running v n).2) w) := orNaN_at (m, n) w v

theorem acc32_at {s : State} (p : Progress) (w : Work) {x : Int} (site : Work → Site)
    (h : s.cfg.intOvf = .wrap ∨ in32 x = true) : acc32 x site (s.at p w) = .ok (bits32 x) (s.at p w) := by
  unfold acc32
  rw [State.at_cfg]
  cases hm : s.cfg.intOvf with
  | wrap => rfl
  | fault =>
    rcases h with h | h
    · rw [hm] at h; cases h
    · simp [h]

theorem ldResult32_at {s : State} (hf : s.foreign = []) (p : Progress) (w : Work) {e : Int} (h : readable32 s.cfg e) :
    ldResult32 e (s.at p w) = .ok (p.1.read32 e.toNat) (s.at p (addTouch w .result e.toNat 4)) := by
  unfold ldResult32
  rw [Cmd.bind_ok (memRead_at hf p w h)]
  rfl

/-- The result update (R136): the element becomes what it held plus the contribution. -/
theorem accumulate_at {s : State} (hf : s.foreign = []) (p : Progress) (w : Work) {e : Int} (c : Word32)
    (hr : readable32 s.cfg e) (hw : writable32 s.cfg e) :
    accumulate e c (s.at p w) =
      .ok () (s.at (addTo s.inst.running e.toNat (c, p.2) p.1)
        (addTouch (addTouch w .result e.toNat 4) .written e.toNat 4)) := by
  unfold accumulate
  rw [Cmd.bind_ok (ldResult32_at hf p w hr)]
  unfold fAdd
  rw [Cmd.bind_ok (orNaN_at _ _ _)]
  unfold st32
  rw [memWrite_at _ _ (by rw [length_leBytes32]; exact hw)]
  rfl

/-- The result update with a contribution that is a float result (R20, R136). -/
theorem accumulate_mk {s : State} (hf : s.foreign = []) (m : Memory) (w : Work) {e : Int} (v : Word32 × Nat)
    (hr : readable32 s.cfg e) (hw : writable32 s.cfg e) :
    accumulate e v.1 (s.at (m, v.2) w) =
      .ok () (s.at (addTo s.inst.running e.toNat v m) (addTouch (addTouch w .result e.toNat 4) .written e.toNat 4)) := by
  obtain ⟨c, n⟩ := v
  exact accumulate_at hf (m, n) w c hr hw

/-! ### The trace -/

/-- Every input byte of the trace is one of `I`, and every written byte one of `O`. -/
def TraceIn (I O : Nat → Prop) (trace : List Touch) : Prop :=
  ∀ t ∈ trace, ∀ x, t.addr ≤ x → x < t.addr + t.len → (t.tag = .input → I x) ∧ (t.tag = .written → O x)

theorem TraceIn.nil (I O : Nat → Prop) : TraceIn I O [] := by
  intro t ht
  cases ht

theorem TraceIn.input {I O : Nat → Prop} {t : List Touch} {a n : Nat} (h : TraceIn I O t)
    (hi : ∀ x, a ≤ x → x < a + n → I x) : TraceIn I O (⟨.input, a, n⟩ :: t) := by
  intro u hu x h1 h2
  rcases List.mem_cons.1 hu with rfl | hu
  · exact ⟨fun _ => hi x h1 h2, nofun⟩
  · exact h u hu x h1 h2

theorem TraceIn.result {I O : Nat → Prop} {t : List Touch} (a n : Nat) (h : TraceIn I O t) :
    TraceIn I O (⟨.result, a, n⟩ :: t) := by
  intro u hu x h1 h2
  rcases List.mem_cons.1 hu with rfl | hu
  · exact ⟨nofun, nofun⟩
  · exact h u hu x h1 h2

theorem TraceIn.written {I O : Nat → Prop} {t : List Touch} {a n : Nat} (h : TraceIn I O t)
    (ho : ∀ x, a ≤ x → x < a + n → O x) : TraceIn I O (⟨.written, a, n⟩ :: t) := by
  intro u hu x h1 h2
  rcases List.mem_cons.1 hu with rfl | hu
  · exact ⟨nofun, fun _ => ho x h1 h2⟩
  · exact h u hu x h1 h2

/-- A byte of the trace under a tag. -/
theorem inTrace_iff {trace : List Touch} {tag : Tag} {x : Nat} :
    inTrace trace tag x = true ↔ ∃ t ∈ trace, t.tag = tag ∧ t.addr ≤ x ∧ x < t.addr + t.len := by
  simp [inTrace, List.any_eq_true, and_assoc]

theorem mem_writtenBytes {trace : List Touch} {x : Nat} :
    x ∈ writtenBytes trace ↔ inTrace trace .written x = true := by
  rw [inTrace_iff]
  simp [writtenBytes, List.mem_flatMap, List.mem_range'_1, and_assoc]

/-- If no written byte is an input byte, the alias check passes (R64). -/
theorem aliasCheck_at {s : State} (p : Progress) (w : Work) {I O : Nat → Prop} (h : TraceIn I O w.trace)
    (hd : ∀ x, O x → ¬ I x) : aliasCheck (s.at p w) = .ok () (s.at p w) := by
  have : lowestAlias w.trace = none := by
    unfold lowestAlias
    rw [List.min?_eq_none_iff, List.filter_eq_nil_iff]
    intro x hx hin
    obtain ⟨t, ht, htag, h1, h2⟩ := inTrace_iff.1 (mem_writtenBytes.1 hx)
    obtain ⟨t', ht', htag', h1', h2'⟩ := inTrace_iff.1 hin
    exact hd x ((h t ht x h1 h2).2 htag) ((h t' ht' x h1' h2').1 htag')
  unfold aliasCheck
  rw [State.at_workNow, this]

/-! ### What other agents read -/

theorem hearBytes_nil (opc : BitVec 8) (m : Memory) (draws : Nat) :
    ∀ (n a : Nat), hearBytes opc [] m draws a n = (m.readList a n, draws)
  | 0, _ => rfl
  | n + 1, a => by
    simp only [hearBytes, inRanges, List.any_nil, Bool.false_eq_true, if_false, hearBytes_nil opc m draws n (a + 1)]
    rfl

/-- Where nothing conflicts, other agents' reads give the bytes that memory holds, and draw nothing (R67). -/
theorem hearForeign_nil (opc : BitVec 8) (draws : Nat) :
    ∀ (fs : List ForeignAccess) (m : Memory), hearForeign opc [] m draws fs = (repliesInOrder m fs, draws)
  | [], _ => rfl
  | f :: fs, m => by
    unfold hearForeign repliesInOrder
    cases f.op with
    | read n => simp only [hearBytes_nil, hearForeign_nil opc draws fs m]
    | write data => exact hearForeign_nil opc draws fs (m.writeList f.addr data)

/-! ### The elements a command may write -/

/-- When a read races (R65, R67). -/
theorem racing_iff {s : State} {x : Nat} : s.racing x = true ↔ s.racesAt x := by
  simp only [State.racing, inRanges, List.any_eq_true, Bool.or_eq_true, Bool.and_eq_true, decide_eq_true_eq]
  constructor
  · rintro ⟨f, hf, h | h⟩
    · exact .inl ⟨f, hf, h⟩
    · exact .inr ⟨List.ne_nil_of_mem hf, h⟩
  · rintro (⟨f, hf, h⟩ | ⟨hne, h⟩)
    · exact ⟨f, hf, .inl h⟩
    · obtain ⟨f, hf⟩ := List.exists_mem_of_ne_nil _ hne
      exact ⟨f, hf, .inr h⟩

/-! ### Rounds of a reference -/

@[simp] theorem upTo_zero {α : Type} (f : Nat → α → α) (x : α) : upTo f 0 x = x := rfl

theorem upTo_succ {α : Type} (f : Nat → α → α) (n : Nat) (x : α) : upTo f (n + 1) x = f n (upTo f n x) := rfl

/-- What rounds keep that each of them keeps. -/
theorem upTo_keeps {α : Type} {f : Nat → α → α} {P : α → Prop} :
    ∀ {n : Nat} {x : α}, P x → (∀ i < n, ∀ y, P y → P (f i y)) → P (upTo f n x)
  | 0, _, h, _ => h
  | n + 1, _, h, hf => hf n (by omega) _ (upTo_keeps h (fun i hi => hf i (by omega)))

/-- A loop whose every round completes takes the state through the rounds of the reference. -/
theorem loop_at {s : State} {body : Nat → Cmd Unit} {f : Nat → Progress → Progress} (P : Progress → Prop)
    (Q : Nat → Work → Prop) {n : Nat} {p : Progress} {w : Work} (hp : P p) (hw : Q 0 w)
    (step : ∀ i < n, ∀ p w, P p → Q i w → ∃ w', body i (s.at p w) = .ok () (s.at (f i p) w') ∧ P (f i p) ∧ Q (i + 1) w') :
    ∃ w', loop 0 n body (s.at p w) = .ok () (s.at (upTo f n p) w') ∧ P (upTo f n p) ∧ Q n w' := by
  obtain ⟨u, hu, w', rfl, hP, hQ⟩ := loop_completes
    (fun i t => ∃ w, t = s.at (upTo f i p) w ∧ P (upTo f i p) ∧ Q i w) (n := n) (lo := 0) (s := s.at p w)
    ⟨w, rfl, hp, hw⟩ (fun i t _ hi ⟨w, ht, hP, hQ⟩ => by
      obtain ⟨w', hb, hP', hQ'⟩ := step i (by omega) _ w hP hQ
      exact ⟨_, by rw [ht]; exact hb, w', rfl, hP', hQ'⟩)
  rw [Nat.zero_add] at hu hP hQ
  exact ⟨w', hu, hP, hQ⟩

end Sys2Proof.Machine
end

