-- ==== Sys2Proof/Laws/Dense.lean ====
section
/-! SUPPORT. The steps of the dense kernels (41_dense_kernels.md), each as what it adds to the running sums and to the
trace, where no other agent is at work: a block step, a remainder column, a row scan, and a row's result update. -/

namespace Sys2Proof.Machine

variable {s : State} {d : DenseArgs} {p : Progress} {w : Work} {I O : Nat → Prop}

theorem DenseArgs.nblk_le (d : DenseArgs) : 16 * d.nblk ≤ d.cols := by
  unfold DenseArgs.nblk
  omega

theorem DenseArgs.vectorAt_add (d : DenseArgs) (b c j : Nat) : d.vectorAt b c + j = d.vectorAt b (c + j) := by
  unfold DenseArgs.vectorAt
  omega

theorem DenseArgs.matrixAt_add (d : DenseArgs) (r c j : Nat) : d.matrixAt r c + j = d.matrixAt r (c + j) := by
  unfold DenseArgs.matrixAt
  omega

/-- Adding into the running dot product (R135). -/
theorem addDot_at {x : Int} {site : Work → Site} (h : s.cfg.intOvf = .wrap ∨ in32 (w.dot.toInt + x) = true) :
    addDot x site (s.at p w) = .ok () (s.at p { w with dot := bits32 (w.dot.toInt + x) }) := by
  unfold addDot
  rw [Cmd.bind_ok (work_apply _), State.at_workNow, Cmd.bind_ok (acc32_at p w site h)]
  rfl

/-- Adding into the running row sum (R141). -/
theorem addRowSum_at {x : Int} {site : Work → Site} (h : s.cfg.intOvf = .wrap ∨ in32 (w.rowSum.toInt + x) = true) :
    addRowSum x site (s.at p w) = .ok () (s.at p { w with rowSum := bits32 (w.rowSum.toInt + x) }) := by
  unfold addRowSum
  rw [Cmd.bind_ok (work_apply _), State.at_workNow, Cmd.bind_ok (acc32_at p w site h)]
  rfl

theorem dotBlock_at : dotBlock (s.at p w) =
    .ok () (s.at p { w with partials := dot16Lanes s.cfg.dotMode w.latchA w.latchB }) := by
  unfold dotBlock
  rw [Cmd.bind_ok (config_apply _)]
  rfl

/-! What `addTouch` leaves alone. -/

@[simp] theorem addTouch_dot (w : Work) (t : Tag) (a n : Nat) : (addTouch w t a n).dot = w.dot := rfl
@[simp] theorem addTouch_rowSum (w : Work) (t : Tag) (a n : Nat) : (addTouch w t a n).rowSum = w.rowSum := rfl
@[simp] theorem addTouch_latchA (w : Work) (t : Tag) (a n : Nat) : (addTouch w t a n).latchA = w.latchA := rfl
@[simp] theorem addTouch_latchB (w : Work) (t : Tag) (a n : Nat) : (addTouch w t a n).latchB = w.latchB := rfl
@[simp] theorem addTouch_lc (w : Work) (t : Tag) (a n : Nat) : (addTouch w t a n).lc = w.lc := rfl
@[simp] theorem addTouch_mc (w : Work) (t : Tag) (a n : Nat) : (addTouch w t a n).mc = w.mc := rfl

/-- What a scan step does to the working state that the rest of the command looks at. -/
structure ScanStep (I O : Nat → Prop) (w' : Work) (dot rowSum : Word32) : Prop where
  dot : w'.dot = dot
  rowSum : w'.rowSum = rowSum
  trace : TraceIn I O w'.trace

/-- The second half of a block step: the latches' dot product is added into `dot` (R135, R176). -/
theorem blockTail_at {A B : Lanes} {D R : Word32} {site : Work → Site} (hA : w.latchA = A) (hB : w.latchB = B)
    (hD : w.dot = D) (hR : w.rowSum = R) (ht : TraceIn I O w.trace)
    (ho : s.cfg.intOvf = .wrap ∨ in32 (D.toInt + lanesDot s.cfg.dotMode A B) = true) :
    ∃ w', (dotBlock >>= fun _ => work >>= fun w => addDot (reduce4 w.partials).toInt site) (s.at p w) =
        .ok () (s.at p w') ∧
      ScanStep I O w' (bits32 (D.toInt + lanesDot s.cfg.dotMode A B)) R ∧ w'.latchB = B ∧ w'.lc = w.lc ∧
      w'.mc = w.mc := by
  subst hA hB hD hR
  rw [Cmd.bind_ok dotBlock_at, Cmd.bind_ok (work_apply _), State.at_workNow]
  dsimp only
  rw [toInt_reduce4_dot16Lanes]
  generalize lanesDot s.cfg.dotMode w.latchA w.latchB = x at ho
  generalize dot16Lanes s.cfg.dotMode w.latchA w.latchB = P
  rw [addDot_at (w := { w with partials := P }) ho]
  exact ⟨_, rfl, ⟨rfl, rfl, ht⟩, rfl, rfl, rfl⟩

/-- A block step adds the block's dot product into `dot` (R135). -/
theorem denseBlock_at (hf : s.foreign = []) {b r k : Nat}
    (hv : ∀ j < 16, readable s.cfg (d.vectorAt b (16 * k + j)) ∧ I (d.vectorAt b (16 * k + j)))
    (hm : ∀ j < 16, readable s.cfg (d.matrixAt r (16 * k + j)) ∧ I (d.matrixAt r (16 * k + j)))
    (ht : TraceIn I O w.trace)
    (ho : s.cfg.intOvf = .wrap ∨ in32 (w.dot.toInt +
      lanesDot s.cfg.dotMode (p.1.read128 (d.vectorAt b (16 * k))) (p.1.read128 (d.matrixAt r (16 * k)))) = true) :
    ∃ w', denseBlock d b r k (s.at p w) = .ok () (s.at p w') ∧
      ScanStep I O w' (bits32 (w.dot.toInt +
        lanesDot s.cfg.dotMode (p.1.read128 (d.vectorAt b (16 * k))) (p.1.read128 (d.matrixAt r (16 * k))))) w.rowSum ∧
      w'.latchB = p.1.read128 (d.matrixAt r (16 * k)) := by
  have hv' : ∀ j < 16, readable s.cfg (d.vectorAt b (16 * k) + j) := fun j hj => by
    rw [d.vectorAt_add]
    exact (hv j hj).1
  have hm' : ∀ j < 16, readable s.cfg (d.matrixAt r (16 * k) + j) := fun j hj => by
    rw [d.matrixAt_add]
    exact (hm j hj).1
  have hi : ∀ x, d.vectorAt b (16 * k) ≤ x → x < d.vectorAt b (16 * k) + 16 → I x := fun x h1 h2 => by
    have := (hv (x - d.vectorAt b (16 * k)) (by omega)).2
    rw [← d.vectorAt_add] at this
    rwa [(by omega : d.vectorAt b (16 * k) + (x - d.vectorAt b (16 * k)) = x)] at this
  have hi' : ∀ x, d.matrixAt r (16 * k) ≤ x → x < d.matrixAt r (16 * k) + 16 → I x := fun x h1 h2 => by
    have := (hm (x - d.matrixAt r (16 * k)) (by omega)).2
    rw [← d.matrixAt_add] at this
    rwa [(by omega : d.matrixAt r (16 * k) + (x - d.matrixAt r (16 * k)) = x)] at this
  unfold denseBlock
  rw [Cmd.bind_ok (updateWork_apply _ _), State.at_workNow, State.at_withWork, Cmd.bind_ok (ldBlock_at hf _ _ hv'),
    Cmd.bind_ok (updateWork_apply _ _), State.at_workNow, State.at_withWork, Cmd.bind_ok (ldBlock_at hf _ _ hm'),
    Cmd.bind_ok (updateWork_apply _ _), State.at_workNow, State.at_withWork]
  obtain ⟨w', h, hs, hB, -, -⟩ := blockTail_at (I := I) (O := O) (s := s) (p := p) (D := w.dot) (R := w.rowSum)
    (A := p.1.read128 (d.vectorAt b (16 * k))) (B := p.1.read128 (d.matrixAt r (16 * k)))
    (site := fun w => .blk w.b w.r w.k)
    (w := { addTouch { addTouch { w with k := k } .input (d.vectorAt b (16 * k)) 16 with
      latchA := p.1.read128 (d.vectorAt b (16 * k)) } .input (d.matrixAt r (16 * k)) 16 with
      latchB := p.1.read128 (d.matrixAt r (16 * k)) })
    (by dsimp only [addTouch]) (by dsimp only [addTouch]) (by dsimp only [addTouch]) (by dsimp only [addTouch])
    (by dsimp only [addTouch]; exact (ht.input hi).input hi') ho
  exact ⟨w', h, hs, hB⟩

/-- A block step of the asymmetric kernel adds the block's row sum as well (R141). -/
theorem denseBlockSum_at (hf : s.foreign = []) {b r k : Nat}
    (hv : ∀ j < 16, readable s.cfg (d.vectorAt b (16 * k + j)) ∧ I (d.vectorAt b (16 * k + j)))
    (hm : ∀ j < 16, readable s.cfg (d.matrixAt r (16 * k + j)) ∧ I (d.matrixAt r (16 * k + j)))
    (ht : TraceIn I O w.trace)
    (ho : s.cfg.intOvf = .wrap ∨ in32 (w.dot.toInt +
      lanesDot s.cfg.dotMode (p.1.read128 (d.vectorAt b (16 * k))) (p.1.read128 (d.matrixAt r (16 * k)))) = true)
    (ho' : s.cfg.intOvf = .wrap ∨ in32 (w.rowSum.toInt + rowSum16 (p.1.read128 (d.matrixAt r (16 * k)))) = true) :
    ∃ w', denseBlockSum d b r k (s.at p w) = .ok () (s.at p w') ∧
      ScanStep I O w' (bits32 (w.dot.toInt +
        lanesDot s.cfg.dotMode (p.1.read128 (d.vectorAt b (16 * k))) (p.1.read128 (d.matrixAt r (16 * k)))))
        (bits32 (w.rowSum.toInt + rowSum16 (p.1.read128 (d.matrixAt r (16 * k))))) := by
  obtain ⟨w', hw', hs, hl⟩ := denseBlock_at hf hv hm ht ho
  unfold denseBlockSum
  rw [Cmd.bind_ok hw', Cmd.bind_ok (work_apply _), State.at_workNow, hl,
    addRowSum_at (by rw [hs.rowSum]; exact ho'), hs.rowSum]
  exact ⟨_, rfl, ⟨hs.dot, rfl, hs.trace⟩⟩

/-- A remainder column adds the product of its two elements into `dot` (R135). -/
theorem denseColumn_at (hf : s.foreign = []) {b r c : Nat}
    (hv : readable s.cfg (d.vectorAt b c) ∧ I (d.vectorAt b c)) (hm : readable s.cfg (d.matrixAt r c) ∧ I (d.matrixAt r c))
    (ht : TraceIn I O w.trace)
    (ho : s.cfg.intOvf = .wrap ∨
      in32 (w.dot.toInt + s8 (p.1.read (d.matrixAt r c)) * s8 (p.1.read (d.vectorAt b c))) = true) :
    ∃ w', denseColumn d b r c (s.at p w) = .ok (s8 (p.1.read (d.matrixAt r c))) (s.at p w') ∧
      ScanStep I O w'
        (bits32 (w.dot.toInt + s8 (p.1.read (d.matrixAt r c)) * s8 (p.1.read (d.vectorAt b c)))) w.rowSum := by
  have one : ∀ {a x : Nat}, a ≤ x → x < a + 1 → x = a := by omega
  unfold denseColumn
  rw [Cmd.bind_ok (updateWork_apply _ _), State.at_workNow, State.at_withWork, Cmd.bind_ok (ldS8_at hf _ _ hm.1),
    Cmd.bind_ok (ldS8_at hf _ _ hv.1),
    Cmd.bind_ok (addDot_at (w := addTouch (addTouch { w with c := c } .input (d.matrixAt r c) 1) .input
      (d.vectorAt b c) 1) ho)]
  refine ⟨_, rfl, ⟨?_, ?_, ?_⟩⟩
  · dsimp only [addTouch]
  · dsimp only [addTouch]
  · dsimp only [addTouch]
    exact (ht.input fun x h1 h2 => one h1 h2 ▸ hm.2).input fun x h1 h2 => one h1 h2 ▸ hv.2

/-! ### Row scans -/

/-- The first `16 n` terms of a row, block by block. -/
theorem sumTo_blocks (c : Config) (m : Memory) (d : DenseArgs) (b r : Nat) {k : Nat} (hk : k < d.nblk) :
    sumTo (denseTerm c m d b r) (16 * (k + 1)) = sumTo (denseTerm c m d b r) (16 * k) +
      lanesDot c.dotMode (m.read128 (d.vectorAt b (16 * k))) (m.read128 (d.matrixAt r (16 * k))) := by
  rw [(by omega : 16 * (k + 1) = 16 * k + 16), sumTo_add, lanesDot_read128]
  rw [sumTo_congr (f := fun j => denseTerm c m d b r (16 * k + j)) (fun j hj => by
    rw [denseTerm, if_pos (by omega), ← d.vectorAt_add, ← d.matrixAt_add])]

theorem sumTo_blocks_raw (m : Memory) (d : DenseArgs) (r k : Nat) :
    sumTo (fun j => s8 (m.read (d.matrixAt r j))) (16 * (k + 1)) =
      sumTo (fun j => s8 (m.read (d.matrixAt r j))) (16 * k) + rowSum16 (m.read128 (d.matrixAt r (16 * k))) := by
  rw [(by omega : 16 * (k + 1) = 16 * k + 16), sumTo_add, laneSum_read128]
  rw [sumTo_congr (f := fun j => s8 (m.read (d.matrixAt r (16 * k + j)))) (fun j hj => by rw [← d.matrixAt_add])]

theorem sumTo_column (c : Config) (m : Memory) (d : DenseArgs) (b r : Nat) {j : Nat} (hj : 16 * d.nblk ≤ j) :
    sumTo (denseTerm c m d b r) (j + 1) = sumTo (denseTerm c m d b r) j +
      s8 (m.read (d.matrixAt r j)) * s8 (m.read (d.vectorAt b j)) := by
  rw [sumTo, denseTerm, if_neg (by omega)]

/-- Narrowing a sum term by term is narrowing it once; without wrap-around no narrowing is seen. -/
theorem narrow_step {c : Config} {x y z : Int} {v : Word32} (hv : v = bits32 x) (hz : z = x + y)
    (hx : c.intOvf = .wrap ∨ in32 x = true) (h : c.intOvf = .wrap ∨ in32 z = true) :
    (c.intOvf = .wrap ∨ in32 (v.toInt + y) = true) ∧ bits32 (v.toInt + y) = bits32 z := by
  subst hv hz
  refine ⟨?_, by rw [bits32_toInt_add, bits32_add]⟩
  rcases h with h | h
  · exact .inl h
  · rcases hx with hx | hx
    · exact .inl hx
    · exact .inr (by rw [toInt_bits32_of_in32 hx]; exact h)

/-- The bytes a row scan reads are readable and are input bytes. -/
structure RowInputs (s : State) (d : DenseArgs) (I : Nat → Prop) (b r : Nat) : Prop where
  vector : ∀ j < d.cols, readable s.cfg (d.vectorAt b j) ∧ I (d.vectorAt b j)
  matrix : ∀ j < d.cols, readable s.cfg (d.matrixAt r j) ∧ I (d.matrixAt r j)

/-- `RowDot` leaves the row's sum, narrowed, in `dot` (R135, R138). -/
theorem rowDot_at (hf : s.foreign = []) {b r : Nat} (hin : RowInputs s d I b r) (ht : TraceIn I O w.trace)
    (hfit : ∀ n, narrowedAt d n → s.cfg.intOvf = .wrap ∨ in32 (sumTo (denseTerm s.cfg p.1 d b r) n) = true) :
    ∃ w', rowDot d b r (s.at p w) = .ok () (s.at p w') ∧
      w'.dot = bits32 (denseDot s.cfg p.1 d b r) ∧ TraceIn I O w'.trace := by
  have hn := d.nblk_le
  unfold rowDot
  rw [Cmd.bind_ok (updateWork_apply _ _), State.at_workNow, State.at_withWork]
  obtain ⟨u, hu, w1, rfl, hd1, ht1⟩ := loop_completes
    (fun k t => ∃ w, t = s.at p w ∧ w.dot = bits32 (sumTo (denseTerm s.cfg p.1 d b r) (16 * k)) ∧ TraceIn I O w.trace)
    (n := d.nblk) (lo := 0) (s := s.at p { w with dot := 0 }) (body := fun k => denseBlock d b r k)
    ⟨_, rfl, rfl, ht⟩ (fun k t _ hk ⟨w, ht, hd, htr⟩ => by
      have hfitk := hfit (16 * k) ⟨by omega, .inl (by omega)⟩
      have hfitk' := hfit (16 * (k + 1)) ⟨by omega, .inl (by omega)⟩
      obtain ⟨ho, he⟩ := narrow_step hd (sumTo_blocks s.cfg p.1 d b r (by omega)) hfitk hfitk'
      obtain ⟨w', hw', hs, _⟩ := denseBlock_at (w := w) hf (fun j hj => hin.vector _ (by omega))
        (fun j hj => hin.matrix _ (by omega)) htr ho
      exact ⟨_, by rw [ht]; exact hw', w', rfl, by rw [hs.dot, he], hs.trace⟩)
  rw [Nat.zero_add] at hd1
  rw [Cmd.bind_ok hu]
  obtain ⟨u, hu, w2, rfl, hd2, ht2⟩ := loop_completes
    (fun c t => ∃ w, t = s.at p w ∧ w.dot = bits32 (sumTo (denseTerm s.cfg p.1 d b r) c) ∧ TraceIn I O w.trace)
    (n := d.cols - 16 * d.nblk) (lo := 16 * d.nblk) (s := s.at p w1)
    (body := fun c => denseColumn d b r c >>= fun _ => pure ())
    ⟨_, rfl, hd1, ht1⟩ (fun c t hc hc' ⟨w, ht, hd, htr⟩ => by
      have hfitk := hfit c ⟨by omega, .inr hc⟩
      have hfitk' := hfit (c + 1) ⟨by omega, .inr (by omega)⟩
      obtain ⟨ho, he⟩ := narrow_step hd (sumTo_column s.cfg p.1 d b r hc) hfitk hfitk'
      obtain ⟨w', hw', hs⟩ := denseColumn_at (w := w) hf (hin.vector c (by omega)) (hin.matrix c (by omega)) htr ho
      exact ⟨_, by rw [ht, Cmd.bind_ok hw']; rfl, w', rfl, by rw [hs.dot, he], hs.trace⟩)
  rw [(by omega : 16 * d.nblk + (d.cols - 16 * d.nblk) = d.cols)] at hd2
  exact ⟨w2, hu, hd2, ht2⟩

/-- `RowDotSum` leaves the row's two sums, narrowed, in `dot` and `row_sum` (R141). -/
theorem rowDotSum_at (hf : s.foreign = []) {b r : Nat} (hin : RowInputs s d I b r) (ht : TraceIn I O w.trace)
    (hfit : ∀ n, narrowedAt d n → s.cfg.intOvf = .wrap ∨ in32 (sumTo (denseTerm s.cfg p.1 d b r) n) = true)
    (hfit' : ∀ n, narrowedAt d n →
      s.cfg.intOvf = .wrap ∨ in32 (sumTo (fun j => s8 (p.1.read (d.matrixAt r j))) n) = true) :
    ∃ w', rowDotSum d b r (s.at p w) = .ok () (s.at p w') ∧
      ScanStep I O w' (bits32 (denseDot s.cfg p.1 d b r)) (bits32 (denseRowSum p.1 d r)) := by
  have hn := d.nblk_le
  unfold rowDotSum
  rw [Cmd.bind_ok (updateWork_apply _ _), State.at_workNow, State.at_withWork]
  obtain ⟨u, hu, w1, rfl, hd1, hr1, ht1⟩ := loop_completes
    (fun k t => ∃ w, t = s.at p w ∧ w.dot = bits32 (sumTo (denseTerm s.cfg p.1 d b r) (16 * k)) ∧
      w.rowSum = bits32 (sumTo (fun j => s8 (p.1.read (d.matrixAt r j))) (16 * k)) ∧ TraceIn I O w.trace)
    (n := d.nblk) (lo := 0) (s := s.at p { w with dot := 0, rowSum := 0 }) (body := fun k => denseBlockSum d b r k)
    ⟨_, rfl, rfl, rfl, ht⟩ (fun k t _ hk ⟨w, ht, hd, hr, htr⟩ => by
      have at0 : narrowedAt d (16 * k) := ⟨by omega, .inl (by omega)⟩
      have at1 : narrowedAt d (16 * (k + 1)) := ⟨by omega, .inl (by omega)⟩
      obtain ⟨ho, he⟩ := narrow_step hd (sumTo_blocks s.cfg p.1 d b r (by omega)) (hfit _ at0) (hfit _ at1)
      obtain ⟨ho', he'⟩ := narrow_step hr (sumTo_blocks_raw p.1 d r k) (hfit' _ at0) (hfit' _ at1)
      obtain ⟨w', hw', hs⟩ := denseBlockSum_at (w := w) hf (fun j hj => hin.vector _ (by omega))
        (fun j hj => hin.matrix _ (by omega)) htr ho ho'
      exact ⟨_, by rw [ht]; exact hw', w', rfl, by rw [hs.dot, he], by rw [hs.rowSum, he'], hs.trace⟩)
  rw [Nat.zero_add] at hd1 hr1
  rw [Cmd.bind_ok hu]
  obtain ⟨u, hu, w2, rfl, hd2, hr2, ht2⟩ := loop_completes
    (fun c t => ∃ w, t = s.at p w ∧ w.dot = bits32 (sumTo (denseTerm s.cfg p.1 d b r) c) ∧
      w.rowSum = bits32 (sumTo (fun j => s8 (p.1.read (d.matrixAt r j))) c) ∧ TraceIn I O w.trace)
    (n := d.cols - 16 * d.nblk) (lo := 16 * d.nblk) (s := s.at p w1)
    (body := fun c => denseColumn d b r c >>= fun m => addRowSum m (fun w => .rscol w.b w.r w.c))
    ⟨_, rfl, hd1, hr1, ht1⟩ (fun c t hc hc' ⟨w, ht, hd, hr, htr⟩ => by
      have at0 : narrowedAt d c := ⟨by omega, .inr hc⟩
      have at1 : narrowedAt d (c + 1) := ⟨by omega, .inr (by omega)⟩
      obtain ⟨ho, he⟩ := narrow_step hd (sumTo_column s.cfg p.1 d b r hc) (hfit _ at0) (hfit _ at1)
      obtain ⟨w', hw', hs⟩ := denseColumn_at (w := w) hf (hin.vector c (by omega)) (hin.matrix c (by omega)) htr ho
      obtain ⟨ho', he'⟩ := narrow_step (hs.rowSum.trans hr) (rfl : sumTo (fun j => s8 (p.1.read (d.matrixAt r j))) (c + 1) = _)
        (hfit' _ at0) (hfit' _ at1)
      have hd' : w'.dot = bits32 (sumTo (denseTerm s.cfg p.1 d b r) (c + 1)) := hs.dot.trans he
      have htr' := hs.trace
      clear hs ho he
      refine ⟨_, ?_, { w' with rowSum := bits32 (sumTo (fun j => s8 (p.1.read (d.matrixAt r j))) (c + 1)) }, rfl, hd',
        rfl, htr'⟩
      rw [ht, Cmd.bind_ok hw', addRowSum_at ho', ← he'])
  rw [(by omega : 16 * d.nblk + (d.cols - 16 * d.nblk) = d.cols)] at hd2 hr2
  exact ⟨w2, hu, ⟨hd2, hr2, ht2⟩⟩

/-! ### Rows -/

/-- The row step of DMMA.S adds the row's sum times the scale into the row's result element (R137). -/
theorem denseRow_at (hf : s.foreign = []) {b r : Nat} {bs : Word32} (hin : RowInputs s d I b r)
    (ht : TraceIn I O w.trace)
    (hfit : ∀ n, narrowedAt d n → s.cfg.intOvf = .wrap ∨ in32 (sumTo (denseTerm s.cfg p.1 d b r) n) = true)
    (hr : readable32 s.cfg (d.resAddr b r)) (hw : writable32 s.cfg (d.resAddr b r))
    (hO : ∀ x, inElement x (d.resAddr b r) → O x) :
    ∃ w', denseRow d b bs r (s.at p w) =
        .ok () (s.at (addTo s.inst.running (d.resAddr b r).toNat
          (valueOrDraw s.inst.running (fMul? (fOfInt (wrap32 (denseDot s.cfg p.1 d b r))) bs) p.2) p.1) w') ∧
      TraceIn I O w'.trace := by
  unfold denseRow
  rw [Cmd.bind_ok (updateWork_apply _ _), State.at_workNow, State.at_withWork]
  obtain ⟨w1, h1, hd, ht1⟩ := rowDot_at (p := p) (w := { w with r := r }) hf hin ht hfit
  rw [Cmd.bind_ok h1, Cmd.bind_ok (work_apply _), State.at_workNow, hd, toInt_bits32]
  unfold fMul
  rw [Cmd.bind_ok (orNaN_at _ _ _), accumulate_mk hf _ _ _ hr hw]
  refine ⟨_, rfl, ?_⟩
  dsimp only [addTouch]
  exact (ht1.result _ _).written fun x h1 h2 => hO x ⟨h1, h2⟩

/-- `Scale3` (R144). -/
theorem scale3_at (adj bs cs : Word32) :
    scale3 adj bs cs (s.at p w) = .ok (scaleOrDraw s.inst.running s.cfg.asymOrder adj.toInt bs cs p.2).1
      (s.at (p.1, (scaleOrDraw s.inst.running s.cfg.asymOrder adj.toInt bs cs p.2).2) w) := by
  unfold scale3 fMul
  rw [Cmd.bind_ok (config_apply _), State.at_cfg]
  cases s.cfg.asymOrder with
  | leftToRight =>
    dsimp only
    rw [Cmd.bind_ok (orNaN_at _ _ _), orNaN_mk, scaleOrDraw]
  | scaleFirst =>
    dsimp only
    rw [Cmd.bind_ok (orNaN_at _ _ _), orNaN_mk, scaleOrDraw]

/-- `AdjustedSum` narrows `dot - rs·off` (R143, R145). -/
theorem adjustedSum_at {x y o : Int} {dot rs off : Word32} (hd : dot = bits32 x) (hr : rs = bits32 y) (ho : off.toInt = o)
    (hx : s.cfg.intOvf = .wrap ∨ in32 x = true) (hy : s.cfg.intOvf = .wrap ∨ in32 y = true)
    (hp : s.cfg.intOvf = .wrap ∨ in32 (y * o) = true) (ha : s.cfg.intOvf = .wrap ∨ in32 (x - y * o) = true) :
    adjustedSum dot rs off (s.at p w) = .ok (bits32 (x - y * o)) (s.at p w) := by
  subst hd hr ho
  have e1 : bits32 ((bits32 y).toInt * off.toInt) = bits32 (y * off.toInt) := by
    unfold bits32
    rw [BitVec.ofInt_mul, BitVec.ofInt_mul, BitVec.ofInt_toInt]
  have e2 : bits32 ((bits32 x).toInt - (bits32 (y * off.toInt)).toInt) = bits32 (x - y * off.toInt) := by
    unfold bits32
    rw [sub_eq_add_neg, BitVec.ofInt_add, BitVec.ofInt_neg, BitVec.ofInt_toInt, BitVec.ofInt_toInt,
      sub_eq_add_neg, BitVec.ofInt_add, BitVec.ofInt_neg]
  have h1 : s.cfg.intOvf = .wrap ∨ in32 ((bits32 y).toInt * off.toInt) = true := by
    rcases hy with hy | hy
    · exact .inl hy
    · rw [toInt_bits32_of_in32 hy]
      exact hp
  have h2 : s.cfg.intOvf = .wrap ∨ in32 ((bits32 x).toInt - (bits32 (y * off.toInt)).toInt) = true := by
    rcases hx with hx | hx
    · exact .inl hx
    · rcases hp with hp | hp
      · exact .inl hp
      · rw [toInt_bits32_of_in32 hx, toInt_bits32_of_in32 hp]
        exact ha
  unfold adjustedSum
  rw [Cmd.bind_ok (acc32_at p w _ h1), e1, acc32_at p w _ h2, e2]

/-- The row step of DMMA.A (R142). -/
theorem asymRow_at (hf : s.foreign = []) {pcs offsets b r : Nat} {bs off : Word32} (hin : RowInputs s d I b r)
    (ht : TraceIn I O w.trace) (hoff : off.toInt = offsetAt p.1 offsets b)
    (hfit : s.cfg.intOvf = .wrap ∨
      ((∀ n, narrowedAt d n → in32 (sumTo (denseTerm s.cfg p.1 d b r) n) = true ∧
        in32 (sumTo (fun j => s8 (p.1.read (d.matrixAt r j))) n) = true) ∧
      in32 (denseRowSum p.1 d r * offsetAt p.1 offsets b) = true ∧
      in32 (denseAdjusted s.cfg p.1 d offsets b r) = true))
    (hc : readable32 s.cfg (pcs + 4 * r : Nat)) (hcI : ∀ x, inElement x (pcs + 4 * r : Nat) → I x)
    (hr : readable32 s.cfg (d.resAddr b r)) (hw : writable32 s.cfg (d.resAddr b r))
    (hO : ∀ x, inElement x (d.resAddr b r) → O x) :
    ∃ w', asymRow d pcs b bs off r (s.at p w) =
        .ok () (s.at (addTo s.inst.running (d.resAddr b r).toNat
          (scaleOrDraw s.inst.running s.cfg.asymOrder (wrap32 (denseAdjusted s.cfg p.1 d offsets b r)) bs (p.1.read32 (pcs + 4 * r)) p.2)
          p.1) w') ∧
      TraceIn I O w'.trace := by
  have all : narrowedAt d d.cols := ⟨Nat.le_refl _, .inr d.nblk_le⟩
  unfold asymRow
  rw [Cmd.bind_ok (updateWork_apply _ _), State.at_workNow, State.at_withWork]
  obtain ⟨w1, h1, hs⟩ := rowDotSum_at (p := p) (w := { w with r := r }) hf hin ht
    (fun n hn => hfit.imp id fun h => (h.1 n hn).1) (fun n hn => hfit.imp id fun h => (h.1 n hn).2)
  rw [Cmd.bind_ok h1, Cmd.bind_ok (work_apply _), State.at_workNow,
    Cmd.bind_ok (adjustedSum_at hs.dot hs.rowSum hoff (hfit.imp id fun h => (h.1 _ all).1)
      (hfit.imp id fun h => (h.1 _ all).2) (hfit.imp id fun h => h.2.1) (hfit.imp id fun h => h.2.2)),
    Cmd.bind_ok (ldInput32_at hf _ _ hc), Cmd.bind_ok (scale3_at _ _ _), accumulate_mk hf _ _ _ hr hw, toInt_bits32,
    ← denseAdjusted]
  refine ⟨_, rfl, ?_⟩
  dsimp only [addTouch]
  exact ((hs.trace.input fun x h1 h2 => hcI x ⟨h1, h2⟩).result _ _).written fun x h1 h2 => hO x ⟨h1, h2⟩

/-! ### Memory under a reference -/

/-- A contribution changes no byte outside its element. -/
theorem addTo_read_other {o : BitVec 8} {e : Nat} {c : Word32 × Nat} {m : Memory} {x : Nat} (h : x < e ∨ e + 4 ≤ x) :
    (addTo o e c m).1.read x = m.read x :=
  Memory.read_writeList_other (by rw [length_leBytes32]; exact h)

/-- A contribution leaves the element at the sum (R136). -/
theorem addTo_read32_same {o : BitVec 8} {e : Nat} {c : Word32 × Nat} {m : Memory} (h : m.wf = true) :
    (addTo o e c m).1.read32 e = (valueOrDraw o (fAdd? (m.read32 e) c.1) c.2).1 :=
  Memory.read32_writeList_same h e _

theorem addTo_wf {o : BitVec 8} {e : Nat} {c : Word32 × Nat} {m : Memory} (h : m.wf = true) : (addTo o e c m).1.wf = true :=
  Memory.wf_writeList h

/-- Two memories that agree on the input bytes of a row give it the same terms. -/
theorem denseTerm_congr {c : Config} {m m' : Memory} {b r j : Nat} (hv : m.read (d.vectorAt b j) = m'.read (d.vectorAt b j))
    (hm : m.read (d.matrixAt r j) = m'.read (d.matrixAt r j)) : denseTerm c m d b r j = denseTerm c m' d b r j := by
  unfold denseTerm
  rw [hv, hm]

theorem Memory.read32_congr {m m' : Memory} {a : Nat} (h : ∀ x, a ≤ x → x < a + 4 → m.read x = m'.read x) :
    m.read32 a = m'.read32 a := by
  unfold Memory.read32
  rw [Memory.readList_congr h]

end Sys2Proof.Machine
end

