-- ==== Sys2Proof/Laws/Float.lean ====
section
/-! SUPPORT. The laws of binary32 rounding (00_scope.md R16 to R21): the fields of a built pattern, the value it stands for,
and that `roundMag` gives the nearest value, a tie the one with an even fraction. -/

namespace Sys2Proof.Machine

/-! ### Fields -/

theorem toNat_withSign {n : Bool} {mag : Nat} (h : mag < 2147483648) :
    (withSign n mag).toNat = mag + if n then 2147483648 else 0 := by
  unfold withSign
  rw [BitVec.toNat_ofNat]
  cases n
  · simp only [Bool.false_eq_true, if_false]
    omega
  · simp only [if_true]
    omega

theorem fSign_eq (x : Word32) : fSign x = decide (2147483648 ≤ x.toNat) := by
  unfold fSign
  rw [BitVec.getLsbD, Nat.testBit_eq_decide_div_mod_eq]
  have : x.toNat < 4294967296 := x.isLt
  simp only [decide_eq_decide]
  omega

theorem fExp_eq (x : Word32) : fExp x = x.toNat / 8388608 % 256 := by
  unfold fExp
  rw [BitVec.extractLsb'_toNat, Nat.shiftRight_eq_div_pow]

theorem fFrac_eq (x : Word32) : fFrac x = x.toNat % 8388608 := by
  unfold fFrac
  rw [BitVec.extractLsb'_toNat, Nat.shiftRight_eq_div_pow]
  norm_num

theorem fSign_withSign {n : Bool} {mag : Nat} (h : mag < 2147483648) : fSign (withSign n mag) = n := by
  rw [fSign_eq, toNat_withSign h]
  cases n <;> simp
  omega

theorem fExp_withSign {n : Bool} {mag : Nat} (h : mag < 2147483648) :
    fExp (withSign n mag) = mag / 8388608 := by
  rw [fExp_eq, toNat_withSign h]
  split <;> omega

theorem fFrac_withSign {n : Bool} {mag : Nat} (h : mag < 2147483648) :
    fFrac (withSign n mag) = mag % 8388608 := by
  rw [fFrac_eq, toNat_withSign h]
  cases n
  · simp
  · simp only [if_true]
    omega

/-- The value, in units of 2^-149, that 31 magnitude bits stand for. -/
def magValue (mag : Nat) : Nat :=
  if mag / 8388608 = 0 then mag % 8388608 else (8388608 + mag % 8388608) * 2 ^ (mag / 8388608 - 1)

theorem fMag_withSign {n : Bool} {mag : Nat} (h : mag < 2147483648) : fMag (withSign n mag) = magValue mag := by
  unfold fMag magValue
  rw [fExp_withSign h, fFrac_withSign h]

/-- The magnitude bits of a pattern. -/
theorem fMag_eq_magValue (x : Word32) : fMag x = magValue (x.toNat % 2147483648) := by
  unfold fMag magValue
  rw [fExp_eq, fFrac_eq]
  have h1 : x.toNat / 8388608 % 256 = x.toNat % 2147483648 / 8388608 := by omega
  have h2 : x.toNat % 8388608 = x.toNat % 2147483648 % 8388608 := by omega
  rw [h1, h2]

/-- A finite pattern is below the infinities. -/
theorem fIsFinite_iff (x : Word32) : fIsFinite x = true ↔ x.toNat % 2147483648 < 255 * 8388608 := by
  unfold fIsFinite
  rw [fExp_eq, bne_iff_ne]
  have : x.toNat < 4294967296 := x.isLt
  omega

theorem fIsFinite_withSign {n : Bool} {mag : Nat} (h : mag < 2147483648) :
    fIsFinite (withSign n mag) = true ↔ mag < 255 * 8388608 := by
  unfold fIsFinite
  rw [fExp_withSign h, bne_iff_ne]
  omega

theorem fIsInf_withSign {n : Bool} {mag : Nat} (h : mag ≤ 255 * 8388608) :
    fIsInf (withSign n mag) = true ↔ mag = 255 * 8388608 := by
  unfold fIsInf
  rw [fExp_withSign (by omega), fFrac_withSign (by omega), Bool.and_eq_true, beq_iff_eq, beq_iff_eq]
  omega

/-! ### Rounding to a multiple of a power of two -/

/-- `roundShift` gives the nearest integer, a tie the even one. -/
theorem roundShift_nearest (m q k : Nat) :
    ((roundShift m q * 2 ^ q : Int) - m).natAbs < ((k * 2 ^ q : Int) - m).natAbs ∨
      (((roundShift m q * 2 ^ q : Int) - m).natAbs = ((k * 2 ^ q : Int) - m).natAbs ∧
        (k = roundShift m q ∨ roundShift m q % 2 = 0)) := by
  have hm := Nat.div_add_mod m (2 ^ q)
  have hr : m % 2 ^ q < 2 ^ q := Nat.mod_lt _ (Nat.two_pow_pos q)
  have hp : 0 < 2 ^ q := Nat.two_pow_pos q
  unfold roundShift
  generalize m / 2 ^ q = d at *
  generalize m % 2 ^ q = r at *
  have e : (2 ^ q : Int) = ((2 ^ q : Nat) : Int) := by push_cast; rfl
  rw [e]
  generalize 2 ^ q = p at *
  subst hm
  dsimp only
  -- distances in terms of how far `k` is from `d`
  rcases Nat.lt_trichotomy k d with hk | rfl | hk
  · obtain ⟨j, rfl⟩ : ∃ j, d = k + 1 + j := ⟨d - k - 1, by omega⟩
    have e1 : ((k * p : Int) - ((p * (k + 1 + j) + r : Nat) : Int)) = -((p : Int) + p * j + r) := by push_cast; ring
    have hj : (0 : Int) ≤ (p : Int) * j := by positivity
    split
    · next h =>
      have e2 : (((k + 1 + j + 1 : Nat) * p : Int) - ((p * (k + 1 + j) + r : Nat) : Int)) = (p : Int) - r := by
        push_cast; ring
      rw [e1, e2]
      generalize (p : Int) * j = y at *
      omega
    · next h =>
      have e2 : (((k + 1 + j : Nat) * p : Int) - ((p * (k + 1 + j) + r : Nat) : Int)) = -(r : Int) := by push_cast; ring
      rw [e1, e2]
      generalize (p : Int) * j = y at *
      omega
  · have e1 : ((k * p : Int) - ((p * k + r : Nat) : Int)) = -(r : Int) := by push_cast; ring
    split
    · next h =>
      have e2 : (((k + 1 : Nat) * p : Int) - ((p * k + r : Nat) : Int)) = (p : Int) - r := by push_cast; ring
      rw [e1, e2]
      omega
    · next h =>
      rw [e1]
      exact .inr ⟨rfl, .inl rfl⟩
  · obtain ⟨j, rfl⟩ : ∃ j, k = d + 1 + j := ⟨k - d - 1, by omega⟩
    have e1 : (((d + 1 + j : Nat) * p : Int) - ((p * d + r : Nat) : Int)) = (p : Int) + p * j - r := by push_cast; ring
    have hj : (0 : Int) ≤ (p : Int) * j := by positivity
    have hj' : j ≠ 0 → (p : Int) ≤ p * j := fun h => by
      have : (1 : Int) ≤ j := by omega
      nlinarith
    split
    · next h =>
      have e2 : (((d + 1 : Nat) * p : Int) - ((p * d + r : Nat) : Int)) = (p : Int) - r := by push_cast; ring
      rw [e1, e2]
      by_cases hj0 : j = 0
      · subst hj0
        refine .inr ⟨by simp, .inl (by omega)⟩
      · have := hj' hj0
        generalize (p : Int) * j = y at *
        omega
    · next h =>
      have e2 : ((d * p : Int) - ((p * d + r : Nat) : Int)) = -(r : Int) := by push_cast; ring
      rw [e1, e2]
      generalize (p : Int) * j = y at *
      omega

/-! ### Rounding to binary32 -/

/-- The place of the last bit kept, above the smallest subnormal's. -/
def roundPlace (m t : Nat) : Nat := max (Nat.log2 m - 23) t

/-- The magnitude bits before an overflow is turned into an infinity. -/
def roundBits (m t : Nat) : Nat := (roundPlace m t - t) * 8388608 + roundShift m (roundPlace m t)

theorem roundMag_eq (m t : Nat) : roundMag m t = min (roundBits m t) (255 * 8388608) := rfl

theorem lt_two_pow_roundPlace (m t : Nat) : m < 2 ^ (roundPlace m t + 24) := by
  rcases Nat.eq_zero_or_pos m with rfl | hm
  · exact Nat.two_pow_pos _
  · have h1 : m < 2 ^ (Nat.log2 m + 1) := (Nat.log2_lt (by omega)).1 (Nat.lt_succ_self _)
    refine lt_of_lt_of_le h1 (Nat.pow_le_pow_right (by omega) ?_)
    unfold roundPlace
    omega

theorem two_pow_le_of_roundPlace {m t : Nat} (h : t < roundPlace m t) : 2 ^ (roundPlace m t + 23) ≤ m := by
  have hq : roundPlace m t = Nat.log2 m - 23 := by
    unfold roundPlace at *
    omega
  have hl : 23 < Nat.log2 m := by
    unfold roundPlace at *
    omega
  have hm : m ≠ 0 := by
    rintro rfl
    simp at hl
  have := Nat.log2_self_le hm
  rwa [hq, Nat.sub_add_cancel (by omega)]

theorem roundShift_bounds (m q : Nat) : m / 2 ^ q ≤ roundShift m q ∧ roundShift m q ≤ m / 2 ^ q + 1 := by
  unfold roundShift
  dsimp only
  split <;> omega

theorem roundShift_le (m t : Nat) : roundShift m (roundPlace m t) ≤ 16777216 := by
  have h1 := (roundShift_bounds m (roundPlace m t)).2
  have h2 := lt_two_pow_roundPlace m t
  have h3 : m / 2 ^ roundPlace m t < 16777216 := by
    rw [Nat.div_lt_iff_lt_mul (Nat.two_pow_pos _)]
    calc m < 2 ^ (roundPlace m t + 24) := h2
      _ = 16777216 * 2 ^ roundPlace m t := by rw [Nat.pow_add]; ring
  omega

theorem le_roundShift {m t : Nat} (h : t < roundPlace m t) : 8388608 ≤ roundShift m (roundPlace m t) := by
  have h1 := (roundShift_bounds m (roundPlace m t)).1
  have h2 := two_pow_le_of_roundPlace h
  have h3 : 8388608 ≤ m / 2 ^ roundPlace m t := by
    rw [Nat.le_div_iff_mul_le (Nat.two_pow_pos _)]
    calc 8388608 * 2 ^ roundPlace m t = 2 ^ (roundPlace m t + 23) := by rw [Nat.pow_add]; ring
      _ ≤ m := h2
  omega

theorem le_roundPlace (m t : Nat) : t ≤ roundPlace m t := by
  unfold roundPlace
  omega

/-- The value of magnitude bits built from a place and a significand. -/
theorem magValue_place {e d : Nat} (hd : d ≤ 16777216) (he : e = 0 ∨ 8388608 ≤ d) :
    magValue (e * 8388608 + d) = d * 2 ^ e := by
  unfold magValue
  by_cases hd0 : d < 8388608
  · obtain rfl : e = 0 := by omega
    rw [if_pos (by omega)]
    simp only [Nat.zero_mul, Nat.zero_add, Nat.pow_zero, Nat.mul_one]
    omega
  · by_cases htop : d = 16777216
    · subst htop
      rw [if_neg (by omega), (by omega : (e * 8388608 + 16777216) / 8388608 - 1 = e + 1),
        (by omega : (e * 8388608 + 16777216) % 8388608 = 0), Nat.pow_succ]
      ring
    · rw [if_neg (by omega), (by omega : (e * 8388608 + d) / 8388608 - 1 = e),
        (by omega : 8388608 + (e * 8388608 + d) % 8388608 = d)]

/-- The value of the rounded bits, in the unit of `m`. -/
theorem magValue_roundBits (m t : Nat) :
    magValue (roundBits m t) * 2 ^ t = roundShift m (roundPlace m t) * 2 ^ roundPlace m t := by
  have hle := le_roundPlace m t
  unfold roundBits
  rw [magValue_place (roundShift_le m t) (by
    rcases Nat.eq_or_lt_of_le hle with h | h
    · exact .inl (by omega)
    · exact .inr (le_roundShift h))]
  rw [Nat.mul_assoc, ← Nat.pow_add, Nat.sub_add_cancel hle]

/-- A value at or above the binade of a place is a multiple of that place. -/
theorem magValue_multiple {mag e : Nat} (h : 8388608 * 2 ^ e ≤ magValue mag) : ∃ k, magValue mag = k * 2 ^ e := by
  unfold magValue at *
  split at h
  · next h0 =>
    rw [if_pos h0]
    have : 1 ≤ 2 ^ e := Nat.one_le_two_pow
    have h2 : mag % 8388608 < 8388608 := Nat.mod_lt _ (by omega)
    omega
  · next h0 =>
    rw [if_neg h0]
    have h2 : mag % 8388608 < 8388608 := Nat.mod_lt _ (by omega)
    have hle : e ≤ mag / 8388608 - 1 := by
      by_contra hlt
      have h3 : 2 * 2 ^ (mag / 8388608 - 1) ≤ 2 ^ e := by
        rw [← Nat.pow_succ']
        exact Nat.pow_le_pow_right (by omega) (by omega)
      have h4 : (8388608 + mag % 8388608) * 2 ^ (mag / 8388608 - 1) < 16777216 * 2 ^ (mag / 8388608 - 1) :=
        Nat.mul_lt_mul_of_pos_right (by omega) (Nat.two_pow_pos _)
      omega
    refine ⟨(8388608 + mag % 8388608) * 2 ^ (mag / 8388608 - 1 - e), ?_⟩
    rw [Nat.mul_assoc, ← Nat.pow_add, Nat.sub_add_cancel hle]

/-- The rounded bits stand for the value nearest to `m` units of `2^(-149 - t)`, a tie for the one with an even fraction. -/
theorem roundBits_nearest (m t mag : Nat) :
    ((magValue (roundBits m t) * 2 ^ t : Int) - m).natAbs < ((magValue mag * 2 ^ t : Int) - m).natAbs ∨
      (((magValue (roundBits m t) * 2 ^ t : Int) - m).natAbs = ((magValue mag * 2 ^ t : Int) - m).natAbs ∧
        (magValue mag = magValue (roundBits m t) ∨ roundBits m t % 2 = 0)) := by
  have hle := le_roundPlace m t
  have hval := magValue_roundBits m t
  have hvalI : (magValue (roundBits m t) * 2 ^ t : Int) = roundShift m (roundPlace m t) * 2 ^ roundPlace m t := by
    exact_mod_cast hval
  have hpar : roundBits m t % 2 = roundShift m (roundPlace m t) % 2 := by
    unfold roundBits
    omega
  by_cases hmul : ∃ k, magValue mag = k * 2 ^ (roundPlace m t - t)
  · obtain ⟨k, hk⟩ := hmul
    have hkN : magValue mag * 2 ^ t = k * 2 ^ roundPlace m t := by
      rw [hk, Nat.mul_assoc, ← Nat.pow_add, Nat.sub_add_cancel hle]
    have hkI : (magValue mag * 2 ^ t : Int) = k * 2 ^ roundPlace m t := by exact_mod_cast hkN
    rw [hvalI, hkI, hpar]
    rcases roundShift_nearest m (roundPlace m t) k with h | ⟨h1, h2⟩
    · exact .inl h
    · refine .inr ⟨h1, h2.imp (fun h => ?_) id⟩
      rw [h, ← hval] at hkN
      exact Nat.eq_of_mul_eq_mul_right (Nat.two_pow_pos t) hkN
  · have hlt : magValue mag < 8388608 * 2 ^ (roundPlace m t - t) := by
      by_contra h
      exact hmul (magValue_multiple (by omega))
    have hqt : t < roundPlace m t := by
      rcases Nat.eq_or_lt_of_le hle with h | h
      · refine absurd ⟨magValue mag, ?_⟩ hmul
        rw [← h]
        simp
      · exact h
    have hm := two_pow_le_of_roundPlace hqt
    have hv : magValue mag * 2 ^ t < 2 ^ (roundPlace m t + 23) := by
      calc magValue mag * 2 ^ t < 8388608 * 2 ^ (roundPlace m t - t) * 2 ^ t :=
            Nat.mul_lt_mul_of_pos_right hlt (Nat.two_pow_pos t)
        _ = 2 ^ (roundPlace m t + 23) := by
            rw [Nat.mul_assoc, ← Nat.pow_add, Nat.sub_add_cancel hle, Nat.pow_add]
            ring
    have hb := roundShift_nearest m (roundPlace m t) 8388608
    have e : ((8388608 : Nat) * 2 ^ roundPlace m t : Int) = ((2 ^ (roundPlace m t + 23) : Nat) : Int) := by
      push_cast
      rw [pow_add]
      ring
    rw [e] at hb
    rw [hvalI]
    left
    have hv' : (magValue mag * 2 ^ t : Int) = ((magValue mag * 2 ^ t : Nat) : Int) := by push_cast; rfl
    rw [hv']
    generalize magValue mag * 2 ^ t = v at *
    generalize 2 ^ (roundPlace m t + 23) = w at *
    omega

/-- The rounded bits reach the infinities exactly from half a unit past the largest finite value on. -/
theorem roundBits_overflow (m t : Nat) : 255 * 8388608 ≤ roundBits m t ↔ (2 ^ 25 - 1) * 2 ^ 252 * 2 ^ t ≤ m := by
  have hle := le_roundPlace m t
  have hlt := lt_two_pow_roundPlace m t
  have hd := roundShift_le m t
  have hT : (2 ^ 25 - 1) * 2 ^ 252 * 2 ^ t = 33554431 * 2 ^ (252 + t) := by
    rw [Nat.pow_add]
    ring
  rw [hT]
  unfold roundBits
  by_cases h254 : 254 ≤ roundPlace m t - t
  · have h1 := two_pow_le_of_roundPlace (m := m) (t := t) (by omega)
    have h2 := le_roundShift (m := m) (t := t) (by omega)
    have h3 : 2 ^ (277 + t) ≤ 2 ^ (roundPlace m t + 23) := Nat.pow_le_pow_right (by omega) (by omega)
    have h4 : 2 ^ (277 + t) = 33554432 * 2 ^ (252 + t) := by
      rw [(by omega : 277 + t = 252 + t + 25), Nat.pow_add]
      ring
    constructor
    · intro _
      omega
    · intro _
      omega
  · by_cases h253 : roundPlace m t - t = 253
    · have hq : roundPlace m t = 253 + t := by omega
      have h5 : 2 ^ roundPlace m t = 2 * 2 ^ (252 + t) := by
        rw [hq, (by omega : 253 + t = 252 + t + 1), Nat.pow_succ]
        ring
      have h2 := le_roundShift (m := m) (t := t) (by omega)
      have hdm := Nat.div_add_mod m (2 ^ roundPlace m t)
      have hmod := Nat.mod_lt m (Nat.two_pow_pos (roundPlace m t))
      have h7 : m < 33554432 * 2 ^ (252 + t) := by
        calc m < 2 ^ (roundPlace m t + 24) := hlt
          _ = 33554432 * 2 ^ (252 + t) := by
            rw [Nat.pow_add, h5]
            ring
      have key : roundShift m (roundPlace m t) = 16777216 ↔ 33554431 * 2 ^ (252 + t) ≤ m := by
        unfold roundShift
        dsimp only
        rw [h5] at hdm hmod ⊢
        generalize 2 ^ (252 + t) = u at *
        generalize m % (2 * u) = r at *
        generalize m / (2 * u) = d at *
        have hd16 : d < 16777216 := by
          by_contra hge
          have : 2 * u * 16777216 ≤ 2 * u * d := Nat.mul_le_mul_left _ (by omega)
          omega
        constructor
        · intro h
          split at h
          · next hc =>
            obtain rfl : d = 16777215 := by omega
            omega
          · omega
        · intro h
          obtain rfl : d = 16777215 := by
            by_contra hne
            have : 2 * u * d ≤ 2 * u * 16777214 := Nat.mul_le_mul_left _ (by omega)
            omega
          rw [if_pos (by omega)]
      rw [← key, h253]
      omega
    · have h8 : 2 ^ (roundPlace m t + 24) ≤ 2 ^ (276 + t) := Nat.pow_le_pow_right (by omega) (by omega)
      have h9 : 2 ^ (276 + t) = 16777216 * 2 ^ (252 + t) := by
        rw [(by omega : 276 + t = 252 + t + 24), Nat.pow_add]
        ring
      constructor
      · intro h
        omega
      · intro h
        omega

/-- A value that binary32 has is not changed by rounding. -/
theorem roundBits_exact {mag : Nat} (h : mag < 255 * 8388608) (t : Nat) : roundBits (magValue mag * 2 ^ t) t = mag := by
  have hpos : 0 < 2 ^ t := Nat.two_pow_pos t
  by_cases h0 : mag / 8388608 = 0
  · have hv : magValue mag = mag := by
      unfold magValue
      rw [if_pos h0]
      omega
    have hlt : mag * 2 ^ t < 2 ^ (t + 23) := by
      rw [Nat.pow_add, Nat.mul_comm (2 ^ t)]
      exact Nat.mul_lt_mul_of_pos_right (by omega) hpos
    have hq : roundPlace (mag * 2 ^ t) t = t := by
      unfold roundPlace
      rcases Nat.eq_zero_or_pos (mag * 2 ^ t) with hz | hz
      · rw [hz]
        simp
      · have := (Nat.log2_lt (k := t + 23) (by omega)).2 hlt
        omega
    rw [hv, roundBits, hq]
    unfold roundShift
    dsimp only
    rw [Nat.mul_div_cancel _ hpos, Nat.mul_mod_left]
    rw [if_neg (by omega)]
    omega
  · have hv : magValue mag = (8388608 + mag % 8388608) * 2 ^ (mag / 8388608 - 1) := by
      unfold magValue
      rw [if_neg h0]
    have hf : mag % 8388608 < 8388608 := Nat.mod_lt _ (by omega)
    have e : magValue mag * 2 ^ t = (8388608 + mag % 8388608) * 2 ^ (mag / 8388608 - 1 + t) := by
      rw [hv, Nat.mul_assoc, ← Nat.pow_add]
    rw [e]
    generalize hE : mag / 8388608 - 1 = E at *
    have hpE : 0 < 2 ^ (E + t) := Nat.two_pow_pos _
    have hlo : 2 ^ (23 + (E + t)) ≤ (8388608 + mag % 8388608) * 2 ^ (E + t) := by
      rw [Nat.pow_add 2 23]
      exact Nat.mul_le_mul_right _ (by omega)
    have hhi : (8388608 + mag % 8388608) * 2 ^ (E + t) < 2 ^ (24 + (E + t)) := by
      rw [Nat.pow_add 2 24]
      exact Nat.mul_lt_mul_of_pos_right (by omega) hpE
    have hne : (8388608 + mag % 8388608) * 2 ^ (E + t) ≠ 0 := by
      have := Nat.two_pow_pos (23 + (E + t))
      omega
    have hlog : Nat.log2 ((8388608 + mag % 8388608) * 2 ^ (E + t)) = 23 + (E + t) := by
      have h1 := (Nat.le_log2 hne).2 hlo
      have h2 := (Nat.log2_lt hne).2 hhi
      omega
    have hq : roundPlace ((8388608 + mag % 8388608) * 2 ^ (E + t)) t = E + t := by
      unfold roundPlace
      rw [hlog]
      omega
    rw [roundBits, hq]
    unfold roundShift
    dsimp only
    rw [Nat.mul_div_cancel _ hpE, Nat.mul_mod_left, if_neg (by omega)]
    omega

/-- The magnitude of a value. -/
theorem natAbs_fUnits (x : Word32) : (fUnits x).natAbs = fMag x := by
  unfold fUnits
  split <;> omega

/-- A signed value rounded: the result, where it is finite, is the value nearest to `p` units of `2^(-149 - t)`, a tie the
one with an even fraction. -/
theorem nearest_withSign {neg : Bool} {m t : Nat} {p : Int} (hp : p = if neg then -(m : Int) else m)
    (hfin : fIsFinite (withSign neg (roundMag m t)) = true) {z : Word32} :
    (fUnits (withSign neg (roundMag m t)) * 2 ^ t - p).natAbs < (fUnits z * 2 ^ t - p).natAbs ∨
      ((fUnits (withSign neg (roundMag m t)) * 2 ^ t - p).natAbs = (fUnits z * 2 ^ t - p).natAbs ∧
        (fUnits z = fUnits (withSign neg (roundMag m t)) ∨ fFrac (withSign neg (roundMag m t)) % 2 = 0)) := by
  have hle : roundMag m t ≤ 255 * 8388608 := by
    rw [roundMag_eq]
    omega
  have hlt := (fIsFinite_withSign (n := neg) (by omega)).1 hfin
  have hb : roundMag m t = roundBits m t := by
    rw [roundMag_eq] at hlt ⊢
    omega
  have hfr : fFrac (withSign neg (roundMag m t)) % 2 = roundBits m t % 2 := by
    rw [fFrac_withSign (by omega), hb]
    omega
  have hr : fUnits (withSign neg (roundMag m t)) =
      if neg then -(magValue (roundBits m t) : Int) else magValue (roundBits m t) := by
    unfold fUnits
    rw [fSign_withSign (by omega), fMag_withSign (by omega), hb]
  have hn := roundBits_nearest m t (z.toNat % 2147483648)
  rw [← fMag_eq_magValue] at hn
  rw [hfr, hr, hp]
  have hz : fUnits z = if fSign z then -(fMag z : Int) else fMag z := rfl
  rw [hz]
  have hpos : (0 : Int) < 2 ^ t := by positivity
  have hV : (fMag z * 2 ^ t : Int) = 0 → fMag z = 0 := fun h => by
    rcases Int.mul_eq_zero.1 h with h | h
    · exact_mod_cast h
    · omega
  have hV' : (magValue (roundBits m t) * 2 ^ t : Int) = (fMag z * 2 ^ t : Int) →
      magValue (roundBits m t) = fMag z := fun h => by
    have := Int.eq_of_mul_eq_mul_right (by omega) h
    exact_mod_cast this
  have hR0 : (0 : Int) ≤ magValue (roundBits m t) * 2 ^ t := by positivity
  have hZ0 : (0 : Int) ≤ fMag z * 2 ^ t := by positivity
  have hz0 := roundBits_nearest m t 0
  have hm0 : magValue 0 = 0 := by simp [magValue]
  rw [hm0] at hz0
  cases neg <;> cases hs : fSign z <;> simp only [Bool.false_eq_true, if_true, if_false, neg_mul] at *
  all_goals
    generalize (magValue (roundBits m t) * 2 ^ t : Int) = R at *
    generalize (fMag z * 2 ^ t : Int) = Z at *
    generalize magValue (roundBits m t) = ρ at *
    generalize fMag z = ζ at *
    omega

/-- Rounding gives an infinity exactly from half a unit past the largest finite value on. -/
theorem fIsInf_roundMag {m t : Nat} {neg : Bool} :
    fIsInf (withSign neg (roundMag m t)) = true ↔ (2 ^ 25 - 1) * 2 ^ 252 * 2 ^ t ≤ m := by
  rw [fIsInf_withSign (by rw [roundMag_eq]; omega), ← roundBits_overflow, roundMag_eq]
  omega

/-- Rounding gives a finite value or an infinity. -/
theorem fIsFinite_roundMag {neg : Bool} {m t : Nat} :
    fIsFinite (withSign neg (roundMag m t)) = !fIsInf (withSign neg (roundMag m t)) := by
  have : roundMag m t ≤ 255 * 8388608 := by
    rw [roundMag_eq]
    omega
  have h1 := fIsFinite_withSign (n := neg) (mag := roundMag m t) (by omega)
  have h2 := fIsInf_withSign (n := neg) (mag := roundMag m t) (by omega)
  cases h : fIsInf (withSign neg (roundMag m t))
  · rw [Bool.not_false, h1]
    by_contra hc
    have := h2.2 (by omega)
    simp [this] at h
  · rw [Bool.not_true]
    have := h2.1 h
    cases h' : fIsFinite (withSign neg (roundMag m t))
    · rfl
    · have := h1.1 h'
      omega

/-- Rounding never gives a NaN. -/
theorem fIsNaN_roundMag {neg : Bool} {m t : Nat} : fIsNaN (withSign neg (roundMag m t)) = false := by
  have : roundMag m t ≤ 255 * 8388608 := by
    rw [roundMag_eq]
    omega
  unfold fIsNaN
  rw [fExp_withSign (by omega), fFrac_withSign (by omega)]
  rw [Bool.and_eq_false_iff, beq_eq_false_iff_ne, bne_eq_false_iff_eq]
  omega

end Sys2Proof.Machine
end

