-- ==== Sys2Proof/Laws/PerInstr.lean ====
section
/-! SUPPORT. One statement per command about its word and its operands, with one lemma per constructor (30_encoding.md R81,
R82, R87): the word is legal, its reserved bits are 0 and its low byte is the operation code, and its operands fit the
argument registers. -/

namespace Sys2Proof.Laws.WordShape

/-- The word of a well-formed command is legal and has the fields of R81, and the command reads at most ten registers. -/
def Statement (i : Instr) : Prop :=
  i.wellFormed = true ∧ legalWord (encode i) = true ∧ rsvField (encode i) = 0 ∧ opcField (encode i) = i.opc ∧
    1 ≤ i.views.length ∧ i.views.length ≤ 10

theorem dot16 : Statement .dot16 := by
  unfold Statement
  decide

theorem hred : Statement .hred := by
  unfold Statement
  decide

theorem dmmaS : Statement .dmmaS := by
  unfold Statement
  decide

theorem dmmaA : Statement .dmmaA := by
  unfold Statement
  decide

theorem smma : Statement .smma := by
  unfold Statement
  decide

theorem smmaB : Statement .smmaB := by
  unfold Statement
  decide

end Sys2Proof.Laws.WordShape
end

