-- ==== Sys2Proof/Laws/Sparse.lean ====
section
/-! SUPPORT. The steps of the sparse kernel (42_sparse_kernels.md), each as what it adds to the running sum, to the
cursors and to the trace, where no other agent is at work: a ledger byte, an entry, and a row. -/

namespace Sys2Proof.Machine

variable {s : State} {a : SparseArgs} {p : Progress} {w : Work} {I O : Nat → Prop}

/-- What a step of the walk does to the working state that the rest of the walk looks at. -/
structure WalkStep (I O : Nat → Prop) (w' : Work) (dot : Word32) (lc mc : Nat) : Prop where
  dot : w'.dot = dot
  lc : w'.lc = lc
  mc : w'.mc = mc
  trace : TraceIn I O w'.trace

/-- The next ledger byte, and the ledger cursor past it (R173). -/
theorem nextLedgerByte_at (hf : s.foreign = []) (h : readable s.cfg w.lc) (hI : I w.lc) (ht : TraceIn I O w.trace) :
    ∃ w', nextLedgerByte (s.at p w) = .ok (p.1.read w.lc) (s.at p w') ∧
      WalkStep I O w' w.dot (w.lc + 1) w.mc ∧ w'.k = w.k ∧ w'.r = w.r := by
  have one : ∀ x, w.lc ≤ x → x < w.lc + 1 → I x := fun x h1 h2 => by
    rwa [(by omega : x = w.lc)]
  unfold nextLedgerByte
  rw [Cmd.bind_ok (work_apply _), State.at_workNow, Cmd.bind_ok (ldU8_at hf _ _ h), Cmd.bind_ok (updateWork_apply _ _),
    State.at_workNow, State.at_withWork]
  exact ⟨_, rfl, ⟨rfl, rfl, rfl, ht.input one⟩, rfl, rfl⟩

/-- An index byte that names a block outside the row raises before anything else is read (R174). -/
theorem sparseEntry_range (hf : s.foreign = []) {r i : Nat} (h : readable s.cfg w.lc)
    (hout : a.cols < 16 * (p.1.read w.lc).toNat + 16) :
    ∃ w', sparseEntry a r i (s.at p w) = .error (.ledgerRange r i (p.1.read w.lc)) (s.at p w') := by
  have htr : TraceIn (fun _ => True) (fun _ => True) w.trace :=
    fun _ _ _ _ _ => ⟨fun _ => trivial, fun _ => trivial⟩
  obtain ⟨w', h1, -⟩ := nextLedgerByte_at (s := s) (p := p) (w := { w with k := i }) hf h trivial htr
  unfold sparseEntry
  rw [Cmd.bind_ok (updateWork_apply _ _), State.at_workNow, State.at_withWork, Cmd.bind_ok h1]
  refine ⟨w', ?_⟩
  dsimp only
  rw [if_pos (by omega)]
  rfl

/-- One entry of a row's segment adds its block's dot product into `dot`, and takes both cursors on (R173, R176). -/
theorem sparseEntry_at (hf : s.foreign = []) {r i : Nat} (h : readable s.cfg w.lc ∧ I w.lc)
    (hin : 16 * (p.1.read w.lc).toNat + 16 ≤ a.cols)
    (hv : ∀ j < 16, readable s.cfg (a.vector + 16 * (p.1.read w.lc).toNat + j) ∧
      I (a.vector + 16 * (p.1.read w.lc).toNat + j))
    (hm : ∀ j < 16, readable s.cfg (w.mc + j) ∧ I (w.mc + j)) (ht : TraceIn I O w.trace)
    (ho : s.cfg.intOvf = .wrap ∨ in32 (w.dot.toInt + lanesDot s.cfg.dotMode
      (p.1.read128 (a.vector + 16 * (p.1.read w.lc).toNat)) (p.1.read128 w.mc)) = true) :
    ∃ w', sparseEntry a r i (s.at p w) = .ok () (s.at p w') ∧
      WalkStep I O w' (bits32 (w.dot.toInt + lanesDot s.cfg.dotMode
        (p.1.read128 (a.vector + 16 * (p.1.read w.lc).toNat)) (p.1.read128 w.mc))) (w.lc + 1) (w.mc + 16) := by
  obtain ⟨w1, h1, hs, -, -⟩ := nextLedgerByte_at (s := s) (p := p) (w := { w with k := i }) (I := I) (O := O) hf h.1 h.2 ht
  have hd1 : w1.dot = w.dot := hs.dot
  have hl1 : w1.lc = w.lc + 1 := hs.lc
  have hm1 : w1.mc = w.mc := hs.mc
  have ht1 := hs.trace
  clear hs
  generalize hbi : p.1.read w.lc = bi at *
  have hi : ∀ x, a.vector + 16 * bi.toNat ≤ x → x < a.vector + 16 * bi.toNat + 16 → I x := fun x h1 h2 => by
    have := (hv (x - (a.vector + 16 * bi.toNat)) (by omega)).2
    rwa [(by omega : a.vector + 16 * bi.toNat + (x - (a.vector + 16 * bi.toNat)) = x)] at this
  have hi' : ∀ x, w.mc ≤ x → x < w.mc + 16 → I x := fun x h1 h2 => by
    have := (hm (x - w.mc) (by omega)).2
    rwa [(by omega : w.mc + (x - w.mc) = x)] at this
  unfold sparseEntry
  rw [Cmd.bind_ok (updateWork_apply _ _), State.at_workNow, State.at_withWork, Cmd.bind_ok h1]
  rw [if_neg (by omega), Cmd.bind_ok (ldBlock_at hf _ _ fun j hj => (hv j hj).1), Cmd.bind_ok (updateWork_apply _ _),
    State.at_workNow, State.at_withWork, Cmd.bind_ok (work_apply _), State.at_workNow]
  generalize hA : p.1.read128 (a.vector + 16 * bi.toNat) = A at *
  generalize hB : p.1.read128 w.mc = B at *
  generalize hw2 : ({ addTouch w1 .input (a.vector + 16 * bi.toNat) 16 with latchA := A } : Work) = w2
  have hm2 : w2.mc = w.mc := by rw [← hw2]; exact hm1
  have hl2 : w2.lc = w.lc + 1 := by rw [← hw2]; exact hl1
  have hd2 : w2.dot = w.dot := by rw [← hw2]; exact hd1
  have hA2 : w2.latchA = A := by rw [← hw2]
  have ht2 : TraceIn I O w2.trace := by rw [← hw2]; exact ht1.input hi
  clear hw2
  rw [hm2, Cmd.bind_ok (ldBlock_at hf _ _ fun j hj => (hm j hj).1), hB, Cmd.bind_ok (updateWork_apply _ _),
    State.at_workNow, State.at_withWork]
  generalize hw3 : ({ addTouch w2 .input w.mc 16 with latchB := B } : Work) = w3
  have hm3 : w3.mc = w.mc := by rw [← hw3]; exact hm2
  have hl3 : w3.lc = w.lc + 1 := by rw [← hw3]; exact hl2
  have hd3 : w3.dot = w.dot := by rw [← hw3]; exact hd2
  have hA3 : w3.latchA = A := by rw [← hw3]; exact hA2
  have hB3 : w3.latchB = B := by rw [← hw3]
  have ht3 : TraceIn I O w3.trace := by rw [← hw3]; exact ht2.input hi'
  clear hw3
  obtain ⟨w4, h4, hs4, -, hl4, hm4⟩ := blockTail_at (s := s) (p := p) (site := fun w => .sblk w.r w.k) hA3 hB3 hd3
    (rfl : w3.rowSum = _) ht3 ho
  have h5 := Cmd.bind_ok (f := fun _ => updateWork fun w => { w with mc := w.mc + 16 }) h4
  simp only [bind_assoc] at h5
  refine ⟨{ w4 with mc := w4.mc + 16 }, h5, ⟨hs4.dot, hl4.trans hl3, ?_, hs4.trace⟩⟩
  show w4.mc + 16 = _
  rw [hm4, hm3]

/-- A row's running sum is that of the entries so far. -/
theorem sparseTerm_block (c : Config) (m : Memory) (a : SparseArgs) (r i : Nat) :
    sumTo (sparseTerm c m a r i) 16 = lanesDot c.dotMode
      (m.read128 (a.vector + 16 * blockIndex m a.ledger r i)) (m.read128 (packedAt m a.matrix a.ledger r + 16 * i)) := by
  rw [lanesDot_read128]
  rfl

/-- A row has at most 255 blocks (R171). -/
theorem blockCountOf_le (m : Memory) (ledger r : Nat) : blockCountOf m ledger r ≤ 255 := by
  have := (m.read (ledgerAt m ledger r)).isLt
  unfold blockCountOf
  omega

/-- The running sum of a row never leaves int32, in either mode (R177). -/
theorem sparse_in32 (c : Config) (m : Memory) (a : SparseArgs) (r : Nat) {n : Nat} (hn : n ≤ 255) :
    in32 (sumTo (fun i => sumTo (sparseTerm c m a r i) 16) n) = true := by
  have hb := sumTo_bounds (f := fun i => sumTo (sparseTerm c m a r i) 16) (lo := -262144) (hi := 262144) (n := n)
    (fun j _ => by
      rw [sparseTerm_block]
      exact lanesDot_bounds _ _ _)
  simp only [in32, Bool.and_eq_true, decide_eq_true_eq]
  omega

theorem sparseInput_ledger {m : Memory} {r i : Nat} (hr : r < a.rows) (hi : i ≤ blockCountOf m a.ledger r) :
    sparseInputByte m a (ledgerAt m a.ledger r + i) := ⟨r, hr, .inl ⟨i, hi, rfl⟩⟩

/-- One row of the walk: the row's sum times the scale is added into the row's result element, and both cursors stand at
the next row's segment and blocks (R176). -/
theorem sparseRow_at (hf : s.foreign = []) {m : Memory} {r : Nat} (hr : r < a.rows)
    (hsame : ∀ x, sparseInputByte m a x → p.1.read x = m.read x) (hready : SparseReady s.cfg m a)
    (hlc : w.lc = ledgerAt m a.ledger r) (hmc : w.mc = packedAt m a.matrix a.ledger r)
    (hI : ∀ x, sparseInputByte m a x → I x) (hO : ∀ x, inElement x (a.resAddr r) → O x) (ht : TraceIn I O w.trace) :
    ∃ w', sparseRow a r (s.at p w) =
        .ok () (s.at (addTo s.inst.running (a.resAddr r).toNat
          (valueOrDraw s.inst.running (fMul? (fOfInt (sparseDot s.cfg m a r)) a.scale) p.2) p.1) w') ∧
      w'.lc = ledgerAt m a.ledger (r + 1) ∧ w'.mc = packedAt m a.matrix a.ledger (r + 1) ∧ TraceIn I O w'.trace := by
  have hin : ∀ x, sparseInputByte m a x → readable s.cfg x ∧ I x := fun x hx => ⟨hready.inputs x hx, hI x hx⟩
  have hcount : sparseInputByte m a w.lc := by
    rw [hlc]
    exact sparseInput_ledger hr (Nat.zero_le _)
  obtain ⟨w1, h1, hs1, -, -⟩ := nextLedgerByte_at (s := s) (p := p) (w := { w with r := r }) (I := I) (O := O) hf
    (hin _ hcount).1 (hin _ hcount).2 ht
  have hn : (p.1.read w.lc).toNat = blockCountOf m a.ledger r := by
    rw [hsame _ hcount, hlc]
    rfl
  have hl1 : w1.lc = w.lc + 1 := hs1.lc
  have hm1 : w1.mc = w.mc := hs1.mc
  have ht1 := hs1.trace
  clear hs1
  unfold sparseRow
  rw [Cmd.bind_ok (updateWork_apply _ _), State.at_workNow, State.at_withWork, Cmd.bind_ok h1,
    Cmd.bind_ok (updateWork_apply _ _), State.at_workNow, State.at_withWork]
  dsimp only
  rw [hn]
  obtain ⟨u, hu, w2, rfl, hs2⟩ := loop_completes
    (fun i t => ∃ w, t = s.at p w ∧ WalkStep I O w (bits32 (sumTo (fun i => sumTo (sparseTerm s.cfg m a r i) 16) i))
      (ledgerAt m a.ledger r + 1 + i) (packedAt m a.matrix a.ledger r + 16 * i))
    (n := blockCountOf m a.ledger r) (lo := 0) (s := s.at p { w1 with dot := 0 }) (body := fun i => sparseEntry a r i)
    ⟨_, rfl, rfl, by rw [← hlc]; exact hl1, by rw [← hmc]; exact hm1, ht1⟩
    (fun i t _ hi ⟨w, ht, hs⟩ => by
      rw [Nat.zero_add] at hi
      have hle := blockCountOf_le m a.ledger r
      have hidx : sparseInputByte m a w.lc := by
        rw [hs.lc, Nat.add_assoc]
        exact sparseInput_ledger hr (by omega)
      have hbi : (p.1.read w.lc).toNat = blockIndex m a.ledger r i := by
        rw [hsame _ hidx, hs.lc]
        rfl
      have hvec : ∀ j < 16, sparseInputByte m a (a.vector + 16 * (p.1.read w.lc).toNat + j) := fun j hj => by
        rw [hbi]
        exact ⟨r, hr, .inr ⟨i, hi, j, hj, .inl rfl⟩⟩
      have hmat : ∀ j < 16, sparseInputByte m a (w.mc + j) := fun j hj => by
        rw [hs.mc]
        exact ⟨r, hr, .inr ⟨i, hi, j, hj, .inr rfl⟩⟩
      have hA : p.1.read128 (a.vector + 16 * (p.1.read w.lc).toNat) =
          m.read128 (a.vector + 16 * blockIndex m a.ledger r i) := by
        unfold Memory.read128
        rw [Memory.readList_congr (m' := m) fun x h1 h2 => by
          have := hsame _ (hvec (x - (a.vector + 16 * (p.1.read w.lc).toNat)) (by omega))
          rwa [Nat.add_sub_cancel' h1] at this]
        rw [hbi]
      have hB : p.1.read128 w.mc = m.read128 (packedAt m a.matrix a.ledger r + 16 * i) := by
        unfold Memory.read128
        rw [Memory.readList_congr (m' := m) fun x h1 h2 => by
          have := hsame _ (hmat (x - w.mc) (by omega))
          rwa [Nat.add_sub_cancel' h1] at this]
        rw [hs.mc]
      have hz : sumTo (fun i => sumTo (sparseTerm s.cfg m a r i) 16) (i + 1) =
          sumTo (fun i => sumTo (sparseTerm s.cfg m a r i) 16) i +
            lanesDot s.cfg.dotMode (p.1.read128 (a.vector + 16 * (p.1.read w.lc).toNat)) (p.1.read128 w.mc) := by
        rw [hA, hB, ← sparseTerm_block]
        rfl
      obtain ⟨ho, he⟩ := narrow_step (c := s.cfg) hs.dot hz (.inr (sparse_in32 s.cfg m a r (by omega)))
        (.inr (sparse_in32 s.cfg m a r (by omega)))
      obtain ⟨w', hw', hs'⟩ := sparseEntry_at (s := s) (a := a) (p := p) (w := w) (r := r) (i := i) (I := I) (O := O) hf
        (hin _ hidx) (by rw [hbi]; exact hready.index r hr i hi) (fun j hj => hin _ (hvec j hj))
        (fun j hj => hin _ (hmat j hj)) hs.trace ho
      exact ⟨_, by rw [ht]; exact hw', w', rfl, hs'.dot.trans he, by rw [hs'.lc, hs.lc]; omega,
        by rw [hs'.mc, hs.mc]; omega, hs'.trace⟩)
  rw [Nat.zero_add] at hs2
  rw [Cmd.bind_ok hu, Cmd.bind_ok (work_apply _), State.at_workNow, hs2.dot,
    toInt_bits32_of_in32 (sparse_in32 s.cfg m a r (blockCountOf_le m a.ledger r))]
  unfold fMul
  rw [Cmd.bind_ok (orNaN_at _ _ _), accumulate_mk hf _ _ _ (hready.result r hr).1 (hready.result r hr).2]
  refine ⟨_, rfl, ?_, ?_, ?_⟩
  · dsimp only [addTouch]
    rw [hs2.lc, ledgerAt]
    unfold blockCountOf
    omega
  · dsimp only [addTouch]
    rw [hs2.mc, packedAt]
  · dsimp only [addTouch]
    exact (hs2.trace.result _ _).written fun x h1 h2 => hO x ⟨h1, h2⟩

end Sys2Proof.Machine
end

