-- ==== Sys2Proof/Laws/Step.lean ====
section
/-! SUPPORT. What one step of the machine can do, said once (70_reset_and_hazards.md R252): a step that answers a next state
is idle, or it is one interaction of the host, and each of those has its one effect. -/

namespace Sys2Proof.Machine

/-- Decoding refuses exactly the words that are not legal (R83). -/
theorem decode_error {w : Word32} {e : DecodeError} (h : decode w = .error e) :
    e = .illegalCmd w ∧ legalWord w = false := by
  unfold decode at h
  unfold legalWord
  split at h
  · next hr =>
    cases hi : instrOfOpc (opcField w) with
    | some i => rw [hi] at h; cases h
    | none =>
      rw [hi] at h
      cases h
      refine ⟨rfl, ?_⟩
      unfold instrOfOpc at hi
      unfold opcField at hi
      simp only [ite_eq_iff, reduceCtorEq, and_false, false_or, and_true] at hi
      simp_all
  · next hr =>
    cases h
    refine ⟨rfl, ?_⟩
    unfold rsvField at hr
    rw [Bool.and_eq_false_iff]
    exact .inl (beq_eq_false_iff_ne.2 hr)

/-- A CMD write that answers a next state: the block accepted it, and the command ran to its end, or the word was not
legal. -/
theorem writeCmd_next {w : Word32} {s t : State} (h : writeCmd w s = .next t) :
    s.accepts ∧ ((∃ i, decode w = .ok i ∧ t = finish i.opc (runBody i.opc (bodyOf i) s)) ∨
      (legalWord w = false ∧ t = finish 0x00 (runBody 0x00 (raise (.illegalCmd w)) s))) := by
  unfold writeCmd at h
  cases hd : decode w with
  | ok i =>
    rw [hd] at h
    obtain ⟨ha, ht⟩ := exec_next h
    exact ⟨ha, .inl ⟨i, rfl, ht⟩⟩
  | error e =>
    rw [hd] at h
    obtain ⟨rfl, hl⟩ := decode_error hd
    obtain ⟨ha, ht⟩ := runCommand_next h
    exact ⟨ha, .inr ⟨hl, ht⟩⟩

/-- The effect of each interaction that answers a next state. -/
inductive Performs : HostAct → State → State → Prop where
  | argWrite (i : Fin 10) (v : Word64) (s : State) : Performs (.argWrite i v) s (writeArg i v s)
  | argRead (i : Fin 10) (s : State) : Performs (.argRead i) s (callerReadArg i s)
  | command (w : Word32) (i : Instr) (s : State) : s.accepts → decode w = .ok i →
      Performs (.cmdWrite w) s (finish i.opc (runBody i.opc (bodyOf i) s))
  | illegal (w : Word32) (s : State) : s.accepts → legalWord w = false →
      Performs (.cmdWrite w) s (finish 0x00 (runBody 0x00 (raise (.illegalCmd w)) s))
  | memWrite (a : Nat) (data : List Byte) (s : State) : a + data.length ≤ 2 ^ s.cfg.addrW →
      Performs (.memWrite a data) s { s with mem := s.mem.writeList a data }
  | memRead (a n : Nat) (s : State) : Performs (.memRead a n) s { s with reply := some (.bytes (s.mem.readList a n)) }
  | during (f : ForeignAccess) (s : State) : f.addr + f.len ≤ 2 ^ s.cfg.addrW →
      Performs (.during f) s { s with foreign := s.foreign ++ [f] }
  | select (n : Nat) (b : Instance) (s : State) : s.others[n]? = some b →
      Performs (.select n) s { s with inst := b, others := s.others.set n s.inst }
  | reset (s : State) : Performs .reset s (platformReset s)

theorem perform_next {a : HostAct} {s t : State} (h : perform a s = .next t) : Performs a s t := by
  cases a with
  | argWrite i v => cases h; exact .argWrite i v s
  | argRead i => cases h; exact .argRead i s
  | cmdWrite w =>
    obtain ⟨ha, ⟨i, hd, rfl⟩ | ⟨hl, rfl⟩⟩ := writeCmd_next h
    · exact .command w i s ha hd
    · exact .illegal w s ha hl
  | cmdRead => cases h
  | memWrite a data =>
    simp only [perform, callerWrite, inSpace, decide_eq_true_eq] at h
    split at h
    · next hs => cases h; exact .memWrite a data s hs
    · cases h
  | memRead a n =>
    simp only [perform, callerRead] at h
    split at h
    · cases h; exact .memRead a n s
    · cases h
  | during f =>
    simp only [perform, announce, inSpace, decide_eq_true_eq] at h
    split at h
    · next hs => cases h; exact .during f s hs
    · cases h
  | select n =>
    simp only [perform, selectBlock] at h
    split at h
    · next b hb => cases h; exact .select n b s hb
    · cases h
  | reset => cases h; exact .reset s

/-- What a step can do: nothing, or the caller's next interaction. -/
theorem step_next {s t : State} (h : step s = .next t) :
    (s.caller = [] ∧ t = s) ∨
      ∃ a rest, s.caller = a :: rest ∧ s.inst.busy = false ∧ Performs a { s with caller := rest } t := by
  unfold step nextInteraction at h
  cases hc : s.caller with
  | nil =>
    rw [hc] at h
    cases h
    exact .inl ⟨rfl, rfl⟩
  | cons a rest =>
    rw [hc] at h
    dsimp only at h
    cases hb : s.inst.busy with
    | true => rw [hb] at h; cases h
    | false =>
      rw [hb] at h
      exact .inr ⟨a, rest, rfl, rfl, perform_next h⟩

end Sys2Proof.Machine
end

