-- ==== Sys2Proof/Tests/Slice0.lean ====
section
/-! SUPPORT. Tests of the model against the worked values of spec/95_test_vectors.md and of the rules, and for each statement
of Certificates/Slice0/Obligations.lean that has hypotheses a state and operands that meet them (`witness_…`). -/

namespace Sys2Proof.Tests

set_option Elab.async false

open Sys2Proof Sys2Proof.Machine

/-! ### States for tests -/

/-- The launch of the test programs of 95_test_vectors.md: bytes 0x000 to 0xFFF are available. -/
def small : Config := { Config.default with windows := [⟨0, 0x1000, true, true⟩] }

def bytes (l : List Nat) : List Byte := l.map (BitVec.ofNat 8)

/-- A memory with bytes put at addresses. -/
def memory (l : List (Nat × List Nat)) : Memory := l.foldl (fun m p => m.writeList p.1 (bytes p.2)) []

/-- Argument registers written from ARG0 on. -/
def registers (l : List Nat) : Vector (Option Word64) 10 :=
  Vector.ofFn (fun i : Fin 10 => (l[i.val]?).map (BitVec.ofNat 64))

/-- A block after reset with argument registers written and buffers filled. -/
def start (c : Config) (args : List Nat) (m : Memory) : State :=
  { State.launch c m with inst := { Instance.reset with args := registers args } }

/-- An outcome is a next state of which `f` holds. -/
def holds (o : Host.Outcome State Fault Refusal) (f : State → Bool) : Bool :=
  match o with
  | .next t => f t
  | _ => false

theorem holds_next {o : Host.Outcome State Fault Refusal} {f : State → Bool} (h : holds o f = true) :
    ∃ t, o = .next t ∧ f t = true := by
  cases o with
  | next t => exact ⟨t, rfl, h⟩
  | fault e => cases h
  | refused r => cases h

theorem readable_small {x : Nat} (h : x < 0x1000) : readable small x := by
  refine ⟨?_, ?_⟩
  · show x < 2 ^ 64
    omega
  · simp [admitsByte, windowCovers, small, h]

/-! ### What is written down: each check refuses an ill-formed term -/

theorem test_config_wellFormed : Config.default.wellFormed = true := by decide
theorem test_config_no_block_refused : Config.wellFormed { Config.default with nInst := 0 } = false := by decide
theorem test_word_reserved_bit_refused : legalWord 0x00000110 = false := by decide
theorem test_word_opcode_refused : legalWord 0x00000012 = false := by decide
theorem test_line_operand_count_refused :
    Line.arityOk ⟨['h', 'r', 'e', 'd'], [.hex 0x200]⟩ Instr.hred.views = false := by decide
theorem test_line_too_long_refused :
    Line.arityOk ⟨['x'], List.replicate 11 (.hex 0)⟩ (List.replicate 11 .addr) = false := by decide

/-! ### Decoding: words written out from R81 and R82, RSV and then OPC -/

theorem test_decode_dot16 : decode 0b00000000_00000000_00000000_00000001 = .ok .dot16 := by decide
theorem test_decode_hred : decode 0b00000000_00000000_00000000_00000010 = .ok .hred := by decide
theorem test_decode_dmmaS : decode 0b00000000_00000000_00000000_00010000 = .ok .dmmaS := by decide
theorem test_decode_dmmaA : decode 0b00000000_00000000_00000000_00010001 = .ok .dmmaA := by decide
theorem test_decode_smma : decode 0b00000000_00000000_00000000_00100000 = .ok .smma := by decide
theorem test_decode_smmaB : decode 0b00000000_00000000_00000000_00100001 = .ok .smmaB := by decide
theorem test_decode_zero : decode 0x00000000 = .error (.illegalCmd 0x00000000) := by decide
theorem test_decode_three : decode 0x00000003 = .error (.illegalCmd 0x00000003) := by decide
theorem test_decode_ff : decode 0x000000FF = .error (.illegalCmd 0x000000FF) := by decide
theorem test_decode_reserved : decode 0x80000010 = .error (.illegalCmd 0x80000010) := by decide
theorem test_encode_dmmaA : encode .dmmaA = 0x00000011 := by decide
theorem test_table_word : decodeTableWord 32 0x21 = some .smmaB := by decide
theorem test_table_word_short : decodeTableWord 8 0x02 = some .hred := by decide

/-! ### Operand views: the table of 95_test_vectors.md -/

theorem test_int_views :
    viewInt 0x0000000000000010 = some 16 ∧ viewInt 0xFFFFFFFFFFFFFFFF = some (-1) ∧
    viewInt 0x00000000FFFFFFFF = none ∧ viewInt 0x0000000080000000 = none ∧
    viewInt 0xFFFFFFFF80000000 = some (-2147483648) ∧ viewInt 0x0000000100000000 = none := by decide
theorem test_dim_views :
    viewDim 0x0000000000000010 = some 16 ∧ viewDim 0xFFFFFFFFFFFFFFFF = none ∧ viewDim 0xFFFFFFFF80000000 = none ∧
    viewDim 0x000000003F800000 = some 1065353216 := by decide
theorem test_f32_views :
    viewF32 0x0000000000000010 = some 0x00000010 ∧ viewF32 0xFFFFFFFFFFFFFFFF = none ∧
    viewF32 0x00000000FFFFFFFF = some 0xFFFFFFFF ∧ viewF32 0x0000000100000000 = none := by decide
theorem test_addr_views : viewAddr 64 0xFFFFFFFFFFFFFFFF = some 0xFFFFFFFFFFFFFFFF ∧
    viewAddr 32 0x00000000FFFFFFFF = some 0xFFFFFFFF ∧ viewAddr 32 0x0000000100000000 = none := by decide

/-! ### Numbers: the tables of 95_test_vectors.md -/

theorem test_int_to_float :
    fOfInt 1 = 0x3F800000 ∧ fOfInt (-1) = 0xBF800000 ∧ fOfInt 16777217 = 0x4B800000 ∧ fOfInt 16777219 = 0x4B800002 ∧
    fOfInt (-16777217) = 0xCB800000 ∧ fOfInt 2147483520 = 0x4EFFFFFF ∧ fOfInt 2147483584 = 0x4F000000 ∧
    fOfInt (-2147483648) = 0xCF000000 := by decide +kernel
/-- DS8: 3 times 0x3EAAAAAB is 1.0; 16777216.0 plus 1.0 stays, plus 3.0 is 16777220.0. -/
theorem test_float_rounding :
    fMul? (fOfInt 3) 0x3EAAAAAB = some 0x3F800000 ∧ fAdd? 0x4B800000 0x3F800000 = some 0x4B800000 ∧
    fAdd? 0x4B800000 0x40400000 = some 0x4B800002 := by decide +kernel
/-- DA5: the two orders of the three-factor scale round differently. -/
theorem test_scale_orders :
    (scaleOrDraw 0x11 .leftToRight 3 0x3EAAAAAB 0x3DCCCCCD 0).1 = 0x3DCCCCCD ∧
    (scaleOrDraw 0x11 .scaleFirst 3 0x3EAAAAAB 0x3DCCCCCD 0).1 = 0x3DCCCCCE := by decide +kernel

/-! ### The commands -/

/-- V7 of 95_test_vectors.md: A at 0x100, B at 0x110. -/
def v7 : Memory :=
  memory [(0x100, [0x01, 0xFE, 0x03, 0xFC, 0x05, 0xFA, 0x07, 0xF8, 0x09, 0xF6, 0x0B, 0xF4, 0x0D, 0xF2, 0x0F, 0xF0]),
    (0x110, [5, 6, 7, 8, 9, 10, 11, 12, 13, 14, 15, 16, 17, 18, 19, 20])]

def dotState : State := start small [0x100, 0x110, 0x200] v7

theorem test_dot16_v7 : holds (exec .dot16 dotState) (fun t =>
    t.mem.readList 0x200 16 == bytes [0xEE, 0xFF, 0xFF, 0xFF, 0xDE, 0xFF, 0xFF, 0xFF, 0xCE, 0xFF, 0xFF, 0xFF, 0xBE,
      0xFF, 0xFF, 0xFF] && t.inst.fault == none) = true := by decide +kernel

/-- V8 in SIGN_TRANSFER mode: every partial sum is -65280. -/
theorem test_dot16_v8_sign_transfer :
    holds (exec .dot16 (start { small with dotMode := .signTransfer } [0x100, 0x110, 0x100]
      (memory [(0x100, [128, 128, 127, 127, 128, 128, 127, 127, 128, 128, 127, 127, 128, 128, 127, 127]),
        (0x110, List.replicate 16 128)]))) (fun t =>
      (t.mem.read32 0x100).toInt == -65280 && (t.mem.read32 0x10C).toInt == -65280) = true := by decide +kernel

def hredState : State :=
  start small [0x200, 0x208] (memory [(0x200, [0xFF, 0xFF, 0xFF, 0x7F, 0x01, 0x00, 0x00, 0x00])])

/-- The reducer wraps, and its destination may lie inside its source (R108). -/
theorem test_hred_wraps : holds (exec .hred hredState) (fun t => t.mem.read32 0x208 == 0x80000000) = true := by
  decide +kernel

/-- P6: only ARG0 is written. -/
theorem test_hred_unwritten :
    holds (exec .hred (start small [0x200] [])) (fun t => t.inst.fault == some ⟨0x02, .unwrittenArg 1⟩) = true := by
  decide +kernel

/-- DS10: one block and one remainder column; the vector is all -1 and the row all -128. -/
def ds10 (mode : DotMode) : State :=
  start { small with dotMode := mode } [0x100, 1, 17, 0x200, 0x300, 1, 0x400, 1]
    (memory [(0x100, List.replicate 17 0x80), (0x200, List.replicate 17 0xFF), (0x300, [0, 0, 0x80, 0x3F])])

/-- 2176.0 in EXACT mode and -1920.0 in SIGN_TRANSFER mode. -/
theorem test_dmmaS_ds10 :
    holds (exec .dmmaS (ds10 .exact)) (fun t => t.mem.read32 0x400 == 0x45080000) = true ∧
    holds (exec .dmmaS (ds10 .signTransfer)) (fun t => t.mem.read32 0x400 == 0xC4F00000) = true := by decide +kernel

/-- DS9: the result is the matrix. -/
theorem test_dmmaS_overlap :
    holds (exec .dmmaS (start small [0x100, 1, 16, 0x200, 0x300, 1, 0x100, 1] []))
      (fun t => t.inst.fault == some ⟨0x10, .aliased 0x100⟩) = true := by decide +kernel

/-- DA2: two rows of five columns. -/
def da2 : State :=
  start small [0x100, 2, 5, 0x200, 0x300, 1, 0x400, 1, 0x340, 0x380]
    (memory [(0x100, [1, 2, 3, 4, 5, 0xFF, 0xFF, 0xFF, 0xFF, 0xFF]), (0x200, [2, 2, 2, 2, 2]),
      (0x300, [0, 0, 0, 0x3F]), (0x340, [0, 0, 0, 0x40, 0, 0, 0x80, 0xBF]), (0x380, [1])])

theorem test_dmmaA_da2 :
    holds (exec .dmmaA da2) (fun t => t.mem.read32 0x400 == 0x41700000 && t.mem.read32 0x404 == 0x40200000) = true := by
  decide +kernel

/-- DA4: the product of the row sum and the offset leaves int32. -/
theorem test_dmmaA_da4 :
    holds (exec .dmmaA (start small [0x100, 1, 16, 0x200, 0x300, 1, 0x400, 1, 0x340, 0x380]
      (memory [(0x100, List.replicate 16 127), (0x380, [0, 0, 0x20])])))
      (fun t => t.inst.fault == some ⟨0x11, .intOverflow (.prod 0 0)⟩) = true := by decide +kernel

/-- SP1 of 95_test_vectors.md. -/
def sp1 : State :=
  start small [0x100, 0x180, 3, 48, 0x200, 0x3F000000, 0x400, 1]
    (memory [(0x100, List.replicate 16 1), (0x110, [255, 0, 1, 2, 255, 0, 1, 2, 255, 0, 1, 2, 255, 0, 1, 2]),
      (0x120, List.replicate 16 128), (0x180, [2, 0, 2, 0, 1, 1]), (0x200, (List.range 48).map (fun i => (i + 232) % 256)),
      (0x404, [0, 0, 0, 0x80])])

theorem test_smma_sp1 : holds (exec .smma sp1) (fun t =>
    t.mem.read32 0x400 == 0xC2700000 && t.mem.read32 0x404 == 0x00000000 && t.mem.read32 0x408 == 0x44000000) =
      true := by decide +kernel

/-- SP2: the ledger names block 2 of a row of two. -/
def sp2 : State :=
  start small [0x100, 0x180, 1, 32, 0x200, 0x3F800000, 0x400, 1] (memory [(0x180, [1, 2]), (0x300, [0, 0, 0x80, 0x3F])])

/-- The same walk as the first batch of SMMA.B. -/
def sp2Batch : State := start small [0x100, 0x180, 1, 32, 0x200, 0x300, 1, 0x400, 1] sp2.mem

theorem test_smma_sp2 :
    holds (exec .smma sp2) (fun t => t.inst.fault == some ⟨0x20, .ledgerRange 0 0 2⟩) = true := by decide +kernel

/-- SP9, program P3. -/
def sp9 : State :=
  start small [0x100, 0x180, 2, 16, 0x200, 0x300, 2, 0x400, 1]
    (memory [(0x100, List.replicate 16 2), (0x110, List.replicate 16 0xFF), (0x180, [1, 0, 1, 0]),
      (0x200, List.replicate 16 1), (0x210, List.range 16), (0x300, [0, 0, 0x80, 0x3F, 0, 0, 0, 0x40])])

theorem test_smmaB_sp9 : holds (exec .smmaB sp9) (fun t =>
    t.mem.read32 0x400 == 0x42000000 && t.mem.read32 0x404 == 0xC1800000 && t.mem.read32 0x408 == 0x43F00000 &&
      t.mem.read32 0x40C == 0xC3700000) = true := by decide +kernel

/-- SP11: the precondition is checked even with no batch. -/
theorem test_smmaB_sp11 :
    holds (exec .smmaB (start small [0x100, 0x180, 2, 20, 0x200, 0x300, 0, 0x400, 1] []))
      (fun t => t.inst.fault == some ⟨0x21, .precondBlock 20⟩) = true := by decide +kernel

/-! ### Steps and the assembler -/

theorem test_first_step_runs_the_word :
    holds (step (State.reset.withFetchWord 32 0x21)) (fun t => t.inst.fault == some ⟨0x21, .unwrittenArg 0⟩) = true := by
  decide

theorem test_assemble_p1 :
    assembleText 64 ["dot16  0x100, 0x110, 0x200 ; P1".toList, "; a comment".toList, "HRED 0x200, 0x210".toList] =
      some [.argWrite 0 0x100, .argWrite 1 0x110, .argWrite 2 0x200, .cmdWrite 0x01, .argWrite 0 0x200,
        .argWrite 1 0x210, .cmdWrite 0x02] := by decide +kernel

/-- A scale as a decimal fraction; a negative stride is sign-extended; a fraction that binary32 does not have is refused. -/
theorem test_assemble_smma :
    assembleText 64 ["smma 0x100, 0x180, 3, 48, 0x200, 0.5, 0x400, -1".toList] =
      some [.argWrite 0 0x100, .argWrite 1 0x180, .argWrite 2 3, .argWrite 3 48, .argWrite 4 0x200,
        .argWrite 5 0x3F000000, .argWrite 6 0x400, .argWrite 7 0xFFFFFFFFFFFFFFFF, .cmdWrite 0x20] ∧
    assembleText 64 ["smma 0x100, 0x180, 3, 48, 0x200, 0.1, 0x400, -1".toList] = none ∧
    assembleText 64 ["hred 0x200".toList] = none ∧ assembleText 64 ["nop".toList] = none := by decide +kernel

/-- The calls of R92 as it writes them: each is the line of its command, the overloaded name by its number of arguments. -/
theorem test_calls :
    assembleText 64 ["SparseMultiplyAccumulate(0x100, 0x180, 3, 48, 0x200, 0.5, 0x400, 1) ; SP1".toList] =
      assembleText 64 ["smma 0x100, 0x180, 3, 48, 0x200, 0.5, 0x400, 1".toList] ∧
    assembleText 64 ["BatchedSparseMultiplyAccumulate(0x100, 0x180, 3, 48, 0x200, 0x300, 2, 0x400, 1)".toList] =
      assembleText 64 ["smma.b 0x100, 0x180, 3, 48, 0x200, 0x300, 2, 0x400, 1".toList] ∧
    assembleText 64 ["DenseMultiplyAccumulate(0x100, 2, 17, 0x200, 0x300, 1, 0x400, 1)".toList] =
      assembleText 64 ["dmma.s 0x100, 2, 17, 0x200, 0x300, 1, 0x400, 1".toList] ∧
    assembleText 64 ["MatrixBatchVectorMultiplyAccumulate(0x100, 2, 17, 0x200, 0x300, 1, 0x400, 1)".toList] =
      assembleText 64 ["dmma.s 0x100, 2, 17, 0x200, 0x300, 1, 0x400, 1".toList] ∧
    assembleText 64 ["DenseMultiplyAccumulate(0x100, 2, 17, 0x200, 0x300, 1, 0x400, 1, 0x340, 0x380)".toList] =
      assembleText 64 ["dmma.a 0x100, 2, 17, 0x200, 0x300, 1, 0x400, 1, 0x340, 0x380".toList] ∧
    (assembleText 64 ["SparseMultiplyAccumulate(0x100, 0x180, 3, 48, 0x200, 0.5, 0x400, 1)".toList]).isSome ∧
    (assembleText 64 ["BatchedSparseMultiplyAccumulate(0x100, 0x180, 3, 48, 0x200, 0x300, 2, 0x400, 1)".toList]).isSome ∧
    (assembleText 64 ["DenseMultiplyAccumulate(0x100, 2, 17, 0x200, 0x300, 1, 0x400, 1)".toList]).isSome ∧
    (assembleText 64 ["DenseMultiplyAccumulate(0x100, 2, 17, 0x200, 0x300, 1, 0x400, 1, 0x340, 0x380)".toList]).isSome := by
  decide +kernel

/-- No call: an argument short, no closing parenthesis, text behind it, a mnemonic in parentheses. -/
theorem test_calls_refused :
    assembleText 64 ["SparseMultiplyAccumulate(0x100, 0x180, 3, 48, 0x200, 0.5, 0x400)".toList] = none ∧
    assembleText 64 ["SparseMultiplyAccumulate(0x100, 0x180, 3, 48, 0x200, 0.5, 0x400, 1".toList] = none ∧
    assembleText 64 ["SparseMultiplyAccumulate(0x100, 0x180, 3, 48, 0x200, 0.5, 0x400, 1) 2".toList] = none ∧
    assembleText 64 ["hred(0x200, 0x210)".toList] = none := by decide +kernel

/-! ### The hypotheses of the statements can be met: command words and steps -/

/-- The neighbour of an operation code, an operation code with the lowest reserved bit, and all ones. -/
theorem witness_IllegalWordFaults :
    dotState.accepts ∧ dotState.inst.work = none ∧ dotState.foreign = [] ∧ legalWord 0x03 = false ∧
      legalWord 0x101 = false ∧ legalWord 0xFFFFFFFF = false := by decide

/-- A caller with a CMD write to do, and a caller with none. -/
theorem witness_StepRunsCommand :
    ({ dotState with caller := [.cmdWrite 0x01] }).inst.busy = false ∧ decode 0x01 = .ok .dot16 ∧
      decodeTableWord 32 0x20 = some .smma ∧ decodeTableWord 8 0x21 = some .smmaB := by decide

theorem witness_CommandEnds : State.reset.accepts ∧ sp1.accepts := by decide

/-- A block with a fault recorded. -/
def faulted (caller : List HostAct) : State :=
  { State.reset.recordFault 0x20 (.precondBlock 20) with caller := caller }

theorem witness_InteractionsWithoutStep :
    (faulted [.cmdWrite 0x01]).inst.busy = false ∧
      (faulted [.cmdWrite 0x01]).inst.fault = some ⟨0x20, .precondBlock 20⟩ ∧
      ({ State.reset with caller := [.cmdRead] }).inst.busy = false := by decide

/-- A faulted block under an ARG write, under a choice of another block, and under a reset. -/
theorem witness_FaultsAreKept :
    holds (step (faulted [.argWrite 0 7])) (fun t => t.inst.fault == some ⟨0x20, .precondBlock 20⟩) = true ∧
    holds (step { faulted [.select 0] with others := [Instance.reset] })
      (fun t => t.inst == Instance.reset && t.others == [(faulted []).inst]) = true ∧
    holds (step (faulted [.reset])) (fun t => t.inst.fault == none && t.allFaults == (faulted []).allFaults) = true ∧
    (⟨0x20, .precondBlock 20⟩ : FaultRecord) ∈ (faulted [.reset]).allFaults := by decide

/-- An illegal word on a machine that has the record of a run before. -/
theorem witness_RecordsStayAllowed :
    (∀ r ∈ ({ State.reset with caller := [.cmdWrite 0x03], pastFaults := [⟨0x20, .precondBlock 20⟩] } : State).allFaults,
      r.allowed) ∧
    holds (step { State.reset with caller := [.cmdWrite 0x03], pastFaults := [⟨0x20, .precondBlock 20⟩] })
      (fun t => t.inst.fault == some ⟨0x00, .illegalCmd 0x03⟩) = true := by
  refine ⟨fun r h => ?_, by decide⟩
  cases List.mem_singleton.mp h
  exact .inl ⟨.smma, rfl, rfl⟩

/-- The caller writes the byte at the highest address. -/
theorem witness_MemoryStaysWellFormed :
    ({ State.reset with caller := [.memWrite 0xFFFFFFFFFFFFFFFF [7]] } : State).memoryOk ∧
    ({ State.reset with caller := [.memWrite 0xFFFFFFFFFFFFFFFF [7]] } : State).foreignInSpace ∧
    holds (step { State.reset with caller := [.memWrite 0xFFFFFFFFFFFFFFFF [7]] })
      (fun t => t.mem == [(0xFFFFFFFFFFFFFFFF, 7)]) = true := by decide

theorem witness_StepsLeaveBlocksIdle :
    State.quiet { dotState with others := [Instance.reset], caller := [.cmdWrite 0x01] } ∧
    holds (step { dotState with others := [Instance.reset], caller := [.cmdWrite 0x01] })
      (fun t => t.inst.fault == none) = true := by decide +kernel

/-- A choice of another block. -/
theorem witness_LaunchParametersFixed :
    holds (step { dotState with others := [Instance.reset], caller := [.select 0] })
      (fun t => t.inst == Instance.reset) = true := by decide +kernel

theorem witness_ResetState :
    Config.wellFormed { Config.default with nInst := 3 } = true ∧ Config.default.wellFormed = true := by decide

theorem witness_ResetEvent : (faulted [.reset, .cmdWrite 0x01]).inst.busy = false ∧
    (faulted [.reset, .cmdWrite 0x01]).caller = .reset :: [.cmdWrite 0x01] := by decide

/-! ### Argument registers -/

/-- The last register holds no value; a command that answers a next state. -/
theorem witness_ArgReadsBack :
    dotState.inst.args[(9 : Fin 10)] = none ∧ dotState.inst.fault = none ∧ (∃ t, exec .dot16 dotState = .next t) :=
  ⟨by decide, by decide, _, rfl⟩

/-- The patterns of the operand views' table, one to a register, with the ends of the ranges. -/
def patterns : State :=
  start { small with addrW := 32 }
    [0x7FFFFFFF, 0xFFFFFFFF80000000, 0x80000000, 0xFFFFFFFF, 0x100000000, 0xFFFFFFFFFFFFFFFF, 0xFFFFFFFF7FFFFFFF, 0] []

theorem witness_OperandViews :
    patterns.inst.args[(8 : Fin 10)] = none ∧
    -- an int32 and a dimension, the largest of both
    (in32 2147483647 = true ∧ patterns.inst.args[(0 : Fin 10)] = some (BitVec.ofInt 64 2147483647)) ∧
    -- the least int32, which is no dimension
    (in32 (-2147483648) = true ∧ patterns.inst.args[(1 : Fin 10)] = some (BitVec.ofInt 64 (-2147483648))) ∧
    -- no int32; the largest address of 32 bits and the largest binary32 pattern; and one past it
    patterns.inst.args[(2 : Fin 10)] = some 0x80000000 ∧
    (patterns.inst.args[(3 : Fin 10)] = some ((0 : BitVec 32) ++ (0xFFFFFFFF : Word32)) ∧ (0xFFFFFFFF : Word64).toNat < 2 ^ 32) ∧
    (patterns.inst.args[(4 : Fin 10)] = some 0x100000000 ∧ ¬ (0x100000000 : Word64).toNat < 2 ^ 32) ∧
    patterns.inst.args[(7 : Fin 10)] = some (BitVec.ofNat 64 0) := by decide

/-- 0x80000000 is no int32 and no dimension, and 0x100000000 no binary32 pattern. -/
theorem witness_OperandViews_refused :
    (∀ x : Int, in32 x = true → (0x80000000 : Word64) ≠ BitVec.ofInt 64 x) ∧
    (∀ n : Nat, n < 2147483648 → (0x80000000 : Word64) ≠ BitVec.ofNat 64 n) ∧
    ∀ f : Word32, (0x100000000 : Word64) ≠ (0 : BitVec 32) ++ f := by
  refine ⟨fun x hx h => ?_, fun n hn h => ?_, fun f h => ?_⟩
  · have h' := congrArg BitVec.toInt h
    rw [BitVec.toInt_ofInt] at h'
    simp [in32] at hx
    rw [Int.bmod_eq_of_le (by omega) (by omega)] at h'
    change (2147483648 : Int) = x at h'
    omega
  · have h' := congrArg BitVec.toNat h
    rw [BitVec.toNat_ofNat, Nat.mod_eq_of_lt (by omega)] at h'
    change (2147483648 : Nat) = n at h'
    omega
  · have h' := congrArg BitVec.toNat h
    have hf := f.isLt
    rw [BitVec.toNat_append] at h'
    change (4294967296 : Nat) = 0 <<< 32 ||| f.toNat at h'
    simp at h'
    omega

/-- P6 and SP7 of 95_test_vectors.md raise; V7 does not. -/
theorem witness_OperandFaultsInOrder :
    (start small [0x200] []).accepts ∧ (start small [0x200] []).inst.work = none ∧
    operandFault 64 (start small [0x200] []).inst.args 0 Instr.hred.views = some (.unwrittenArg 1) ∧
    operandFault 64 (registers [0x100, 0x180, 1, 16, 0x200, 0x13F800000, 0x400, 1]) 0 Instr.smma.views =
      some (.badArg 5 (BitVec.ofNat 64 0x13F800000)) ∧
    operandFault 64 (registers [0x100, 0x180, 1, 0xFFFFFFFFFFFFFFFF, 0x200, 0x3F800000, 0x400]) 0 Instr.smma.views =
      some (.badArg 3 0xFFFFFFFFFFFFFFFF) ∧
    operandFault 64 dotState.inst.args 0 Instr.dot16.views = none := by decide

/-! ### Frames and memory -/

/-- Each command on a state of its own; byte 0x800 is none of its destination, and no other agent is at work. -/
theorem witness_CommandFrame :
    (∃ t, exec .dot16 dotState = .next t) ∧ (∃ t, exec .hred hredState = .next t) ∧
    (∃ t, exec .dmmaS (ds10 .exact) = .next t) ∧ (∃ t, exec .dmmaA da2 = .next t) ∧
    (∃ t, exec .smma sp1 = .next t) ∧ ∃ t, exec .smmaB sp9 = .next t :=
  ⟨⟨_, rfl⟩, ⟨_, rfl⟩, ⟨_, rfl⟩, ⟨_, rfl⟩, ⟨_, rfl⟩, ⟨_, rfl⟩⟩

/-- The bytes next to the destinations, 0x210 and 0x20C, and the last before them. -/
theorem witness_PrimitiveMemoryFrame :
    (¬ storedByte .dot16 dotState 0x210 ∧ ¬ storedByte .dot16 dotState 0x1FF ∧ ¬ dotState.foreignWrites 0x210) ∧
    (¬ storedByte .hred hredState 0x20C ∧ ¬ storedByte .hred hredState 0x207 ∧ ¬ hredState.foreignWrites 0x20C) := by
  have hd : operandsOf (argAddr 2) dotState = some 0x200 := by decide
  have hh : operandsOf (argAddr 1) hredState = some 0x208 := by decide
  refine ⟨⟨fun ⟨d, h, h1, h2⟩ => ?_, fun ⟨d, h, h1, h2⟩ => ?_, by decide⟩,
    fun ⟨d, h, h1, h2⟩ => ?_, fun ⟨d, h, h1, h2⟩ => ?_, by decide⟩
  · cases hd.symm.trans h; omega
  · cases hd.symm.trans h; omega
  · cases hh.symm.trans h; omega
  · cases hh.symm.trans h; omega

def ds10Args : DenseArgs := ⟨0x100, 1, 17, 0x200, 0x300, 1, 0x400, 1⟩

def da2Args : DenseArgs := ⟨0x100, 2, 5, 0x200, 0x300, 1, 0x400, 1⟩

theorem ds10_operands : operandsOf denseArgs (ds10 .exact) = some ds10Args := by decide +kernel
theorem da2_operands : operandsOf denseArgs da2 = some da2Args := by decide +kernel

/-- The byte after the last result element. -/
theorem witness_DenseMemoryFrame :
    (¬ storedByte .dmmaS (ds10 .exact) 0x404 ∧ ¬ (ds10 .exact).foreignWrites 0x404) ∧
    (¬ storedByte .dmmaA da2 0x408 ∧ ¬ da2.foreignWrites 0x408) := by
  have h1 : ∀ b < ds10Args.batch, ∀ r < ds10Args.rows, ¬ (0 ≤ ds10Args.resAddr b r ∧
    ds10Args.resAddr b r ≤ (0x404 : Nat) ∧ ((0x404 : Nat) : Int) < ds10Args.resAddr b r + 4) := by decide
  have h2 : ∀ b < da2Args.batch, ∀ r < da2Args.rows, ¬ (0 ≤ da2Args.resAddr b r ∧
    da2Args.resAddr b r ≤ (0x408 : Nat) ∧ ((0x408 : Nat) : Int) < da2Args.resAddr b r + 4) := by decide
  refine ⟨⟨fun ⟨d, h, b, hb, r, hr, hx⟩ => ?_, by decide⟩, fun ⟨d, h, b, hb, r, hr, hx⟩ => ?_, by decide⟩
  · cases ds10_operands.symm.trans h; exact h1 b hb r hr hx
  · cases da2_operands.symm.trans h; exact h2 b hb r hr hx

def sp1Args : SparseArgs := ⟨0x100, 0x180, 3, 48, 0x200, 0x3F000000, 0x400, 1⟩

def sp9Args : SparseBatchArgs := ⟨0x100, 0x180, 2, 16, 0x200, 0x300, 2, 0x400, 1⟩

theorem sp1_operands : operandsOf sparseArgs sp1 = some sp1Args := by decide +kernel
theorem sp9_operands : operandsOf sparseBatchArgs sp9 = some sp9Args := by decide +kernel

theorem witness_SparseMemoryFrame :
    (¬ storedByte .smma sp1 0x40C ∧ ¬ sp1.foreignWrites 0x40C) ∧
    (¬ storedByte .smmaB sp9 0x410 ∧ ¬ sp9.foreignWrites 0x410) := by
  have h1 : ∀ r < sp1Args.rows, ¬ (0 ≤ sp1Args.resAddr r ∧ sp1Args.resAddr r ≤ (0x40C : Nat) ∧
    ((0x40C : Nat) : Int) < sp1Args.resAddr r + 4) := by decide
  have h2 : ∀ b < sp9Args.batch, ∀ r < sp9Args.rows, ¬ (0 ≤ (sp9Args.walk b 0).resAddr r ∧
    (sp9Args.walk b 0).resAddr r ≤ (0x410 : Nat) ∧ ((0x410 : Nat) : Int) < (sp9Args.walk b 0).resAddr r + 4) := by
    decide
  refine ⟨⟨fun ⟨a, h, r, hr, hx⟩ => ?_, by decide⟩, fun ⟨a, h, b, hb, r, hr, hx⟩ => ?_, by decide⟩
  · cases sp1_operands.symm.trans h; exact h1 r hr hx
  · cases sp9_operands.symm.trans h; exact h2 b hb r hr hx

theorem witness_LittleEndian : v7.wf = true ∧ Memory.wf [] = true := by decide +kernel

/-- The last element of the space of 64 bits is in range, the one across its end is not, nor is one below 0; an odd
address is misaligned; the last byte of the window is admitted and the one after it is not. -/
theorem witness_AccessChecks :
    State.reset.foreign = [] ∧ (bytes [1, 2, 3, 4]).length = 4 ∧
    ((0 : Int) ≤ 0xFFFFFFFFFFFFFFFC ∧ (0xFFFFFFFFFFFFFFFC : Int) + (4 : Nat) ≤ 2 ^ 64) ∧
    ¬ (0 ≤ (0xFFFFFFFFFFFFFFFD : Int) ∧ (0xFFFFFFFFFFFFFFFD : Int) + (4 : Nat) ≤ 2 ^ 64) ∧
    ¬ (0 ≤ (-4 : Int) ∧ (-4 : Int) + (4 : Nat) ≤ 2 ^ 64) ∧
    (true = true ∧ (0x402 : Int) % 4 ≠ 0) ∧ ¬ (true = true ∧ (0xFFC : Int) % 4 ≠ 0) ∧
    (∃ j < 4, admitsByte small .read ((0xFFD : Int).toNat + j) = false) ∧
    (∃ j < 4, admitsByte small .write ((0xFFD : Int).toNat + j) = false) ∧
    (∀ j < 4, admitsByte small .read ((0xFFC : Int).toNat + j) = true) ∧
    (∀ j < 4, admitsByte small .write ((0xFFC : Int).toNat + j) = true) := by decide

/-- A trace whose written element and input block have two bytes in common, and one with the two next to each other. -/
theorem witness_LowestAlias :
    lowestAlias [⟨.written, 0x10E, 4⟩, ⟨.input, 0x100, 16⟩] = some 0x10E ∧
    (inTrace [⟨.written, 0x10E, 4⟩, ⟨.input, 0x100, 16⟩] .written 0x10E = true ∧
      inTrace [⟨.written, 0x10E, 4⟩, ⟨.input, 0x100, 16⟩] .input 0x10E = true) ∧
    lowestAlias [⟨.written, 0x110, 4⟩, ⟨.input, 0x100, 16⟩] = none := by decide

/-- Each kernel on a state of its own, in which it completes. -/
theorem witness_CompletedKernelsAreDisjoint :
    (holds (exec .dmmaS (ds10 .exact)) (fun t => t.inst.fault == none) = true ∧
      operandsOf denseArgs (ds10 .exact) = some ds10Args) ∧
    (holds (exec .dmmaA da2) (fun t => t.inst.fault == none) = true ∧ operandsOf denseArgs da2 = some da2Args ∧
      operandsOf (argAddr 8) da2 = some 0x340 ∧ operandsOf (argAddr 9) da2 = some 0x380) ∧
    (holds (exec .smma sp1) (fun t => t.inst.fault == none) = true ∧ sp1.foreign = [] ∧
      operandsOf sparseArgs sp1 = some sp1Args) ∧
    holds (exec .smmaB sp9) (fun t => t.inst.fault == none) = true ∧ sp9.foreign = [] ∧
      operandsOf sparseBatchArgs sp9 = some sp9Args := by decide +kernel

/-! ### Other agents -/

/-- While DOT16 runs, another agent writes four bytes at `y`. -/
def disturbed (y : Nat) : State := { dotState with foreign := [⟨1, y, .write [1, 2, 3, 4]⟩] }

/-- DOT16 to 0x200, with another agent that writes at 0x100 and one that reads the destination's last byte, in a run that
writes the destination: the bytes written and the whole destination race, and the bytes next to them do not. -/
def racingState : State :=
  { dotState with foreign := [⟨1, 0x100, .write [1, 2, 3, 4]⟩, ⟨2, 0x20F, .read 1⟩] }.startCommand 0x01 [(0x200, 16)]

theorem witness_RacingReadsAreDraws :
    racingState.racesAt 0x103 ∧ ¬ racingState.racesAt 0x104 ∧ racingState.racesAt 0x200 ∧ racingState.racesAt 0x20F ∧
    ¬ racingState.racesAt 0x1FF ∧ ¬ racingState.racesAt 0x210 := by decide

/-- Another agent reads operand A of DOT16: no byte that DOT16 can store to. -/
theorem witness_RacingReadsAreDraws_readers :
    ∃ t, exec .dot16 { dotState with foreign := [⟨1, 0x100, .read 16⟩] } = .next t ∧
      ∀ x, (⟨1, 0x100, .read 16⟩ : ForeignAccess).touches x 1 = true →
        ¬ storedByte .dot16 { dotState with foreign := [⟨1, 0x100, .read 16⟩] } x := by
  refine ⟨_, rfl, ?_⟩
  rintro x hx ⟨d, hd, h1, h2⟩
  cases (show some 0x200 = some d from hd)
  simp only [ForeignAccess.touches, overlap, Bool.and_eq_true, decide_eq_true_eq] at hx
  have h3 : x < 0x100 + 16 := hx.2
  omega

/-- SMMA with 20 columns, while another agent reads its result element: the fault comes before anything is written. -/
theorem witness_RacingReadsAreDraws_fault :
    ∃ t, exec .smma { start small [0x100, 0x180, 1, 20, 0x200, 0, 0x400, 1] [] with foreign := [⟨1, 0x400, .read 4⟩] } =
        .next t ∧ t.inst.fault = some ⟨0x20, .precondBlock 20⟩ ∧ (Cause.precondBlock 20).beforeAnyWrite .smma = true := by
  obtain ⟨n, foreseen, -, h, -⟩ := runBody_cases 0x20 smmaBody
    { start small [0x100, 0x180, 1, 20, 0x200, 0, 0x400, 1] [] with foreign := [⟨1, 0x400, .read 4⟩] }
  refine ⟨_, rfl, ?_, rfl⟩
  rw [h]
  rfl

/-- The run of SP2's row with the ledger at 0x400, in the result element that another agent reads meanwhile: nothing has
been written when the fault is raised, so no ranges that the run writes are foreseen but none, and the ledger reads as
memory holds it. -/
theorem test_fault_before_write_reads_memory :
    (let s : State := { start small [0x100, 0x400, 1, 32, 0x200, 0x3F800000, 0x400, 1] (memory [(0x400, [1, 2])]) with
        foreign := [⟨1, 0x400, .read 4⟩] }
      let run := smmaBody (s.startCommand 0x20 [])
      (finish 0x20 run).inst.fault == some ⟨0x20, .ledgerRange 0 0 2⟩ && (endState run).racedSoFar == []) = true := by
  decide +kernel

/-- Another agent writes right after the destination, and reads operand A. -/
def neighbours : State :=
  { dotState with foreign := [⟨1, 0x210, .write [1, 2, 3, 4]⟩, ⟨2, 0x100, .read 16⟩] }

theorem witness_ConflictFreeDot16 :
    neighbours.accepts ∧ operandsOf (argAddr 0) neighbours = some 0x100 ∧
    operandsOf (argAddr 1) neighbours = some 0x110 ∧ operandsOf (argAddr 2) neighbours = some 0x200 ∧
    checkAccess neighbours.cfg .read false 0x100 16 = none ∧ checkAccess neighbours.cfg .read false 0x110 16 = none ∧
    checkAccess neighbours.cfg .write true 0x200 16 = none ∧
    ∀ f ∈ neighbours.foreign, f.touches 0x200 16 = false ∧
      (f.isWrite = true → f.touches 0x100 16 = false ∧ f.touches 0x110 16 = false) ∧
      ∀ g ∈ neighbours.foreign, f.conflicts g = false := by decide

/-- Another agent writes across the end of the destination, or reads across it, with its last byte outside. -/
theorem witness_ConflictingWritesAreDraws :
    (disturbed 0x20D).accepts ∧ (disturbed 0x20D).mem.wf = true ∧
    operandsOf (argAddr 0) (disturbed 0x20D) = some 0x100 ∧ operandsOf (argAddr 1) (disturbed 0x20D) = some 0x110 ∧
    operandsOf (argAddr 2) (disturbed 0x20D) = some 0x200 ∧
    checkAccess (disturbed 0x20D).cfg .read false 0x100 16 = none ∧
    checkAccess (disturbed 0x20D).cfg .read false 0x110 16 = none ∧
    checkAccess (disturbed 0x20D).cfg .write true 0x200 16 = none ∧
    (disturbed 0x20D).foreign = [⟨1, 0x20D, .write [1, 2, 3, 4]⟩] ∧
    overlap 0x20D ([1, 2, 3, 4] : List Byte).length 0x200 16 = true ∧
    ({ dotState with foreign := [⟨0, 0x20D, .read 4⟩] } : State).accepts ∧ overlap 0x20D 4 0x200 16 = true ∧
    (0x200 ≤ 0x20D + 2 ∧ 0x20D + 2 < 0x200 + 16) ∧ ¬ (0x200 ≤ 0x20D + 3 ∧ 0x20D + 3 < 0x200 + 16) := by decide +kernel

/-- The host reads its own buffer while another block runs DOT16 (R252): it gets the bytes, and the replies are kept in
order. -/
theorem test_host_reads_during_command :
    (let s : State :=
        { dotState with foreign := [⟨0, 0x110, .read 2⟩, ⟨1, 0x300, .write [9]⟩, ⟨1, 0x300, .read 1⟩] }
      let t := finish 0x01 (dot16Body (s.startCommand 0x01 []))
      t.foreignReplies == [⟨0, 0x110, [5, 6]⟩, ⟨1, 0x300, [9]⟩] && t.mem.read 0x300 == 9) = true := by
  decide +kernel

/-! ### Numbers -/

theorem witness_WrapIsUnique :
    (-2147483648 ≤ (2147483647 : Int) ∧ (2147483647 : Int) ≤ 2147483647 ∧
      (4294967296 : Int) ∣ 2147483647 - (-2147483649)) ∧ wrap32 (-2147483649) = 2147483647 := by decide

theorem witness_AccNarrows :
    State.reset.cfg.intOvf = .fault ∧ in32 2147483647 = true ∧ in32 (-2147483648) = true ∧ in32 2147483648 = false ∧
    in32 (-2147483649) = false ∧
    ({ State.reset with cfg := { Config.default with intOvf := .wrap } }).cfg.intOvf = .wrap := by decide

theorem witness_IntToFloatNearest :
    in32 2147483647 = true ∧ in32 (-2147483648) = true ∧ fIsFinite 0x7F7FFFFF = true ∧ (16777216 : Int).natAbs ≤ 2 ^ 24 ∧
    (-16777216 : Int).natAbs ≤ 2 ^ 24 := by decide

/-- A NaN operand, an infinity times a zero, an infinity times a number, finite operands, and finite operands whose
product is past the largest finite value. -/
theorem witness_ProductNearest :
    (fMul? 0x7FC00000 0x3F800000 = none ∧ fIsNaN 0x7FC00000 = true) ∧
    (fMul? 0x7F800000 0x80000000 = none ∧ fIsInf 0x7F800000 = true ∧ fIsZero 0x80000000 = true) ∧
    fMul? 0x7F800000 0xBF800000 = some 0xFF800000 ∧
    (fMul? 0x7F7FFFFF 0x3F800000 = some 0x7F7FFFFF ∧ fIsFinite 0x7F7FFFFF = true ∧ fIsFinite 0x3F800000 = true) ∧
    fMul? 0x7F7FFFFF 0x3F800001 = some 0x7F800000 ∧ fMul? 0x00000001 0x3F000000 = some 0x00000000 := by decide +kernel

/-- A NaN operand, infinities of opposite signs, one infinity, a zero sum of each sign, and finite operands whose sum is
just below and just at the border to an infinity. -/
theorem witness_SumNearest :
    (fAdd? 0x7FC00000 0x3F800000 = none ∧ fIsNaN 0x7FC00000 = true) ∧
    (fAdd? 0x7F800000 0xFF800000 = none ∧ fIsInf 0xFF800000 = true ∧ fSign 0x7F800000 ≠ fSign 0xFF800000) ∧
    fAdd? 0x3F800000 0xFF800000 = some 0xFF800000 ∧
    (fUnits 0x3F800000 + fUnits 0xBF800000 = 0 ∧ fAdd? 0x3F800000 0xBF800000 = some 0x00000000) ∧
    fAdd? 0x80000000 0x80000000 = some 0x80000000 ∧
    (fAdd? 0x7F7FFFFF 0x72FFFFFF = some 0x7F7FFFFF ∧ fIsFinite 0x7F7FFFFF = true ∧ fIsFinite 0x72FFFFFF = true) ∧
    fAdd? 0x7F7FFFFF 0x73000000 = some 0x7F800000 := by decide +kernel

theorem witness_NaNsAreDraws :
    fMul? 0x7F800000 0x00000000 = none ∧ fAdd? 0x7F800000 0xFF800000 = none ∧
    fMul? 0x40000000 0x40400000 = some 0x40C00000 ∧ fAdd? 0x40000000 0x40400000 = some 0x40A00000 := by decide +kernel

theorem witness_PreZero : fIsNaN 0x00000001 = false ∧ (0x00000001 : Word32) ≠ 0x80000000 := by decide

/-! ### Lanes and the lane commands -/

/-- The one product that SIGN_TRANSFER inverts, at the least A lane and at A lane -1, and the ones next to it. -/
theorem witness_SignTransferProducts :
    (s8 0x80 < 0 ∧ s8 0x80 = -128) ∧ (s8 0xFF < 0 ∧ s8 0x80 = -128) ∧ ¬ (s8 0x00 < 0 ∧ s8 0x80 = -128) ∧
      ¬ (s8 0x80 < 0 ∧ s8 0x81 = -128) := by decide

/-- Lanes that add up to 2^31 - 1, and not to 2^31. -/
theorem witness_ReducerSums :
    ((lane32 0x000000007FFFFFFF 0).toInt + (lane32 0x000000007FFFFFFF 1).toInt + (lane32 0x000000007FFFFFFF 2).toInt +
      (lane32 0x000000007FFFFFFF 3).toInt).natAbs < 2147483648 ∧
    ¬ ((lane32 0x000000017FFFFFFF 0).toInt + (lane32 0x000000017FFFFFFF 1).toInt + (lane32 0x000000017FFFFFFF 2).toInt +
      (lane32 0x000000017FFFFFFF 3).toInt).natAbs < 2147483648 := by decide

theorem witness_Dot16Result :
    dotState.accepts ∧ dotState.foreign = [] ∧
    operandsOf (argAddr 0) dotState = some 0x100 ∧ operandsOf (argAddr 1) dotState = some 0x110 ∧
    operandsOf (argAddr 2) dotState = some 0x200 ∧ checkAccess dotState.cfg .read false 0x100 16 = none ∧
    checkAccess dotState.cfg .read false 0x110 16 = none ∧ checkAccess dotState.cfg .write true 0x200 16 = none := by
  decide

/-- The destination is the third lane of the source. -/
theorem witness_HredResult :
    hredState.accepts ∧ hredState.foreign = [] ∧ operandsOf (argAddr 0) hredState = some 0x200 ∧
    operandsOf (argAddr 1) hredState = some 0x208 ∧ checkAccess hredState.cfg .read true 0x200 16 = none ∧
    checkAccess hredState.cfg .write true 0x208 4 = none := by decide

/-- The three addresses of DOT16: the accesses at `a` and `b` and `d` are checked in this order. -/
theorem witness_PrimitiveFaults :
    (start small [0xFF1, 0x110, 0x202] []).accepts ∧ (start small [0xFF1, 0x110, 0x202] []).inst.work = none ∧
    (start small [0xFF1, 0x110, 0x202] []).foreign = [] ∧
    operandsOf (argAddr 0) (start small [0xFF1, 0x110, 0x202] []) = some 0xFF1 ∧
    operandsOf (argAddr 1) (start small [0xFF1, 0x110, 0x202] []) = some 0x110 ∧
    operandsOf (argAddr 2) (start small [0xFF1, 0x110, 0x202] []) = some 0x202 ∧
    (((checkAccess small .read false 0xFF1 16).or (checkAccess small .read false 0x110 16)).or
      (checkAccess small .write true 0x202 16)) = some (.memUnadmitted 0xFF1 16 .read) ∧
    (((checkAccess small .read false 0xFF0 16).or (checkAccess small .read false 0xFF1 16)).or
      (checkAccess small .write true 0x202 16)) = some (.memUnadmitted 0xFF1 16 .read) ∧
    (((checkAccess small .read false 0xFF0 16).or (checkAccess small .read false 0x110 16)).or
      (checkAccess small .write true 0x202 16)) = some (.misaligned 0x202 16) := by decide

theorem witness_PrimitiveFaults_hred :
    operandsOf (argAddr 0) (start small [0x201, 0x210] []) = some 0x201 ∧
    operandsOf (argAddr 1) (start small [0x201, 0x210] []) = some 0x210 ∧
    ((checkAccess small .read true 0x201 16).or (checkAccess small .write true 0x210 4)) = some (.misaligned 0x201 16) ∧
    ((checkAccess small .read true 0x200 16).or (checkAccess small .write true 0x1000 4)) =
      some (.memUnadmitted 0x1000 4 .write) := by decide

/-- V7, and then the reducer to 0x210. -/
theorem witness_DotThenReduce :
    dotState.accepts ∧ dotState.foreign = [] ∧ dotState.mem.wf = true ∧ dotState.cfg.dotMode = .exact ∧
    0x200 < 2 ^ 64 ∧ 0x210 < 2 ^ 64 ∧
    operandsOf (argAddr 0) dotState = some 0x100 ∧ operandsOf (argAddr 1) dotState = some 0x110 ∧
    operandsOf (argAddr 2) dotState = some 0x200 ∧ checkAccess dotState.cfg .read false 0x100 16 = none ∧
    checkAccess dotState.cfg .read false 0x110 16 = none ∧ checkAccess dotState.cfg .write true 0x200 16 = none ∧
    checkAccess dotState.cfg .read true 0x200 16 = none ∧ checkAccess dotState.cfg .write true 0x210 4 = none := by
  decide +kernel

/-! ### The dense kernels -/

theorem ds10_ready (m : DotMode) : DenseReady (ds10 m).cfg ds10Args where
  scales := by cases m <;> decide
  matrix := by cases m <;> decide
  vectors := by cases m <;> decide
  result := by cases m <;> decide

theorem ds10_fits (m : DotMode) : denseFits (ds10 m).cfg (ds10 m).mem ds10Args := by
  have h : ∀ b < 1, ∀ r < 1, ∀ n < 18,
      in32 (sumTo (denseTerm (ds10 m).cfg (ds10 m).mem ds10Args b r) n) = true := by cases m <;> decide +kernel
  exact .inr fun b hb r hr n hn => h b hb r hr n (Nat.lt_succ_of_le hn.1)

theorem ds10_disjoint : ∀ b < ds10Args.batch, ∀ r < ds10Args.rows, ∀ x, inElement x (ds10Args.resAddr b r) →
    ¬ ds10Args.inputByte x := by
  intro b hb r hr x hx h
  simp only [ds10Args, DenseArgs.resAddr, DenseArgs.inputByte, DenseArgs.matrixAt, DenseArgs.vectorAt, inElement]
    at hb hr hx h
  obtain rfl : b = 0 := by omega
  obtain rfl : r = 0 := by omega
  rcases h with ⟨b, hb, h⟩ | ⟨r, hr, j, hj, h⟩ | ⟨b, hb, j, hj, h⟩
  · omega
  · obtain rfl : r = 0 := by omega
    omega
  · obtain rfl : b = 0 := by omega
    omega

/-- One block and one remainder column, in SIGN_TRANSFER mode. -/
theorem witness_DmmaSResult :
    (ds10 .signTransfer).accepts ∧ (ds10 .signTransfer).foreign = [] ∧
    operandsOf denseArgs (ds10 .signTransfer) = some ds10Args ∧ DenseReady (ds10 .signTransfer).cfg ds10Args ∧
    denseFits (ds10 .signTransfer).cfg (ds10 .signTransfer).mem ds10Args ∧
    ∀ b < ds10Args.batch, ∀ r < ds10Args.rows, ∀ x, inElement x (ds10Args.resAddr b r) → ¬ ds10Args.inputByte x :=
  ⟨by decide, rfl, by decide +kernel, ds10_ready _, ds10_fits _, ds10_disjoint⟩

/-- DS9: the result is the start of the matrix. -/
def ds9 : State := start small [0x100, 1, 16, 0x200, 0x300, 1, 0x100, 1] []

def ds9Args : DenseArgs := ⟨0x100, 1, 16, 0x200, 0x300, 1, 0x100, 1⟩

theorem ds9_ready : DenseReady small ds9Args := ⟨by decide, by decide, by decide, by decide⟩

theorem ds9_fits (m : Memory) : denseFits small m ds9Args := by
  refine .inr fun b _ r _ n hn => ?_
  have hn : n ≤ 16 := hn.1
  have h := sumTo_bounds (f := denseTerm small m ds9Args b r) (lo := -16384) (hi := 16384) (n := n) (fun j hj => by
    unfold denseTerm
    rw [if_pos (show j < 16 * ds9Args.nblk by show j < 16; omega)]
    exact product_bounds _ _ _)
  simp only [in32, Bool.and_eq_true, decide_eq_true_eq]
  omega

/-- The first byte of the matrix is one of the result element, and no lower byte is. -/
theorem witness_LowestAlias_dense :
    (ds9.accepts ∧ ds9.foreign = [] ∧ operandsOf denseArgs ds9 = some ds9Args) ∧ DenseReady ds9.cfg ds9Args ∧
    (∀ m, sameOutside ds9Args.element ds9.mem m → denseFits ds9.cfg m ds9Args) ∧
    ((∃ e, ds9Args.element e ∧ inElement 0x100 e) ∧ ds9Args.inputByte 0x100) ∧
    ∀ y, (∃ e, ds9Args.element e ∧ inElement y e) → ds9Args.inputByte y → 0x100 ≤ y := by
  refine ⟨⟨by decide, rfl, by decide⟩, ds9_ready, fun m _ => ds9_fits m,
    ⟨⟨0x100, ⟨0, by decide, 0, by decide, rfl⟩, by decide⟩, .inr (.inl ⟨0, by decide, 0, by decide, rfl⟩)⟩, ?_⟩
  rintro y ⟨e, ⟨b, hb, r, hr, rfl⟩, hy⟩ -
  have hb : b < 1 := hb
  have hr : r < 1 := hr
  obtain rfl : b = 0 := by omega
  obtain rfl : r = 0 := by omega
  exact hy.1

theorem da2_ready : AsymReady small da2Args 0x340 0x380 where
  scales := by decide
  matrix := by decide
  vectors := by decide
  result := by decide
  offsets := by decide
  perChannel := by decide

/-- No result element of DA2's operands is an input byte, wherever the two arrays of DMMA.A stand below 0x400. -/
theorem da2_disjoint {pcs offsets : Nat} (hp : pcs + 8 ≤ 0x400) (ho : offsets + 4 ≤ 0x400) :
    ∀ b < da2Args.batch, ∀ r < da2Args.rows, ∀ x, inElement x (da2Args.resAddr b r) →
      ¬ asymInputByte da2Args pcs offsets x := by
  intro b hb r hr x hx h
  simp only [da2Args, DenseArgs.resAddr, asymInputByte, DenseArgs.inputByte, DenseArgs.matrixAt, DenseArgs.vectorAt,
    inElement] at hb hr hx h
  obtain rfl : b = 0 := by omega
  rcases h with (⟨b, hb, h⟩ | ⟨q, hq, j, hj, h⟩ | ⟨b, hb, j, hj, h⟩) | ⟨b, hb, h⟩ | ⟨q, hq, h⟩
  · omega
  · omega
  · obtain rfl : b = 0 := by omega
    omega
  · omega
  · omega

theorem da2_fits : asymFits da2.cfg da2.mem da2Args 0x380 := by
  have h : ∀ b < 1, ∀ r < 2, (∀ n < 6, in32 (sumTo (denseTerm da2.cfg da2.mem da2Args b r) n) = true ∧
      in32 (sumTo (fun j => s8 (da2.mem.read (da2Args.matrixAt r j))) n) = true) ∧
      in32 (denseRowSum da2.mem da2Args r * offsetAt da2.mem 0x380 b) = true ∧
      in32 (denseAdjusted da2.cfg da2.mem da2Args 0x380 b r) = true := by decide +kernel
  exact .inr fun b hb r hr => ⟨fun n hn => (h b hb r hr).1 n (Nat.lt_succ_of_le hn.1), (h b hb r hr).2⟩

theorem witness_DmmaAResult :
    da2.accepts ∧ da2.foreign = [] ∧ operandsOf denseArgs da2 = some da2Args ∧
    operandsOf (argAddr 8) da2 = some 0x340 ∧ operandsOf (argAddr 9) da2 = some 0x380 ∧
    AsymReady da2.cfg da2Args 0x340 0x380 ∧ asymFits da2.cfg da2.mem da2Args 0x380 ∧
    ∀ b < da2Args.batch, ∀ r < da2Args.rows, ∀ x, inElement x (da2Args.resAddr b r) →
      ¬ asymInputByte da2Args 0x340 0x380 x :=
  ⟨by decide, rfl, da2_operands, by decide, by decide, da2_ready, da2_fits, da2_disjoint (by omega) (by omega)⟩

/-- DA2 under `WRAP` with its result on the offset. -/
def da2Over : State :=
  start { small with intOvf := .wrap } [0x100, 2, 5, 0x200, 0x300, 1, 0x400, 1, 0x340, 0x404] []

theorem witness_LowestAlias_asym :
    (da2Over.accepts ∧ da2Over.foreign = [] ∧ operandsOf denseArgs da2Over = some da2Args ∧
    operandsOf (argAddr 8) da2Over = some 0x340 ∧ operandsOf (argAddr 9) da2Over = some 0x404) ∧
    AsymReady da2Over.cfg da2Args 0x340 0x404 ∧ da2Over.cfg.intOvf = .wrap ∧
    ((∃ e, da2Args.element e ∧ inElement 0x404 e) ∧ asymInputByte da2Args 0x340 0x404 0x404) ∧
    ∀ y, (∃ e, da2Args.element e ∧ inElement y e) → asymInputByte da2Args 0x340 0x404 y → 0x404 ≤ y := by
  refine ⟨by decide, ⟨⟨by decide, by decide, by decide, by decide⟩, by decide, by decide⟩, rfl,
    ⟨⟨0x404, ⟨0, by decide, 1, by decide, rfl⟩, by decide⟩, .inr (.inl ⟨0, by decide, by decide⟩)⟩, ?_⟩
  rintro y ⟨e, ⟨b, hb, r, hr, rfl⟩, hy⟩ h
  simp only [da2Args, DenseArgs.resAddr, asymInputByte, DenseArgs.inputByte, DenseArgs.matrixAt, DenseArgs.vectorAt,
    inElement] at hb hr hy h
  obtain rfl : b = 0 := by omega
  rcases h with (⟨b, hb, h⟩ | ⟨q, hq, j, hj, h⟩ | ⟨b, hb, j, hj, h⟩) | ⟨b, hb, h⟩ | ⟨q, hq, h⟩
  · omega
  · omega
  · obtain rfl : b = 0 := by omega
    omega
  · omega
  · omega

theorem witness_AffineFormula : da2.cfg.dotMode = .exact := rfl

/-- A memory whose first `n` bytes are -128. -/
def filled (n : Nat) : Memory := (List.range' 0 n).map (fun a => (a, 0x80))

theorem read_filled_from : ∀ (n lo x : Nat), lo ≤ x → x < lo + n →
    Memory.read ((List.range' lo n).map (fun a => (a, (0x80 : Byte)))) x = 0x80
  | 0, _, _, h1, h2 => absurd h2 (by omega)
  | n + 1, lo, x, h1, h2 => by
    simp only [List.range'_succ, List.map_cons, Memory.read]
    split
    · rfl
    · next h => exact read_filled_from n (lo + 1) x (by omega) (by omega)

theorem read_filled {n x : Nat} (h : x < n) : (filled n).read x = 0x80 :=
  read_filled_from n 0 x (Nat.zero_le x) (by omega)

/-- One row and one vector of 131072 elements, all -128: the row is the vector. -/
def wideArgs : DenseArgs := ⟨0, 1, 131072, 0, 0x40000, 1, 0x50000, 1⟩

def wide : State := start Config.default [0, 1, 131072, 0, 0x40000, 1, 0x50000, 1] (filled 131072)

theorem wide_terms : ∀ j < wideArgs.cols, denseTerm Config.default (filled 131072) wideArgs 0 0 j = 16384 := by
  intro j hj
  have hj : j < 131072 := hj
  have h : (filled 131072).read (wideArgs.matrixAt 0 j) = 0x80 := read_filled (by
    simp only [DenseArgs.matrixAt, wideArgs]; omega)
  have h' : (filled 131072).read (wideArgs.vectorAt 0 j) = 0x80 := read_filled (by
    simp only [DenseArgs.vectorAt, wideArgs]; omega)
  unfold denseTerm
  rw [h, h']
  split <;> decide

theorem sumTo_same {f : Nat → Int} {v : Int} : ∀ {n : Nat}, (∀ j < n, f j = v) → sumTo f n = n * v
  | 0, _ => by simp [sumTo]
  | n + 1, h => by
    rw [sumTo, sumTo_same (fun j hj => h j (by omega)), h n (by omega)]
    push_cast
    ring

/-- The clauses of the budget, each at its border: 131071 columns, 131072 columns with every product 16384, and 65535
columns with an offset of 128. -/
theorem witness_OverflowBudget :
    ({ wideArgs with cols := 131071 } : DenseArgs).cols ≤ 131071 ∧
    (wideArgs.cols = 131072 ∧ 0 < wideArgs.batch ∧ 0 < wideArgs.rows ∧ Config.default.intOvf = .fault ∧
      ∀ j < wideArgs.cols, denseTerm Config.default (filled 131072) wideArgs 0 0 j = 16384) ∧
    (∀ b < da2Args.batch, 128 * da2Args.cols * (128 + (offsetAt da2.mem 0x380 b).natAbs) ≤ 2147483647) ∧
    65535 ≤ 65535 ∧ 128 ≤ 128 :=
  ⟨by decide, ⟨rfl, by decide, by decide, rfl, wide_terms⟩, by decide +kernel, by decide, by decide⟩

theorem wide_admits {kind : Kind} {x : Nat} (h : x < 2 ^ 64) : admitsByte Config.default kind x = true := by
  cases kind <;> simp [admitsByte, windowCovers, Config.default] <;> omega

theorem wide_ready : DenseReady Config.default wideArgs where
  scales := by decide
  matrix := fun _ _ r hr j hj => by
    have hr : r < 1 := hr
    have hj : j < 131072 := hj
    have h : wideArgs.matrixAt r j < 2 ^ 64 := by simp only [DenseArgs.matrixAt, wideArgs]; omega
    exact ⟨h, wide_admits h⟩
  vectors := fun b hb _ _ j hj => by
    have hb : b < 1 := hb
    have hj : j < 131072 := hj
    have h : wideArgs.vectorAt b j < 2 ^ 64 := by simp only [DenseArgs.vectorAt, wideArgs]; omega
    exact ⟨h, wide_admits h⟩
  result := by decide

theorem wide_overflows : ¬ denseFits Config.default (filled 131072) wideArgs := by
  intro h
  rcases h with h | h
  · exact absurd h (by decide)
  · have := h 0 (by decide) 0 (by decide) 131072 ⟨Nat.le_refl _, .inl rfl⟩
    have hs : sumTo (denseTerm Config.default (filled 131072) wideArgs 0 0) 131072 = (131072 : Nat) * 16384 :=
      sumTo_same wide_terms
    rw [hs] at this
    exact absurd this (by decide)

theorem witness_DenseOverflowFaults :
    wide.accepts ∧ wide.foreign = [] ∧ operandsOf denseArgs wide = some wideArgs ∧
    DenseReady wide.cfg wideArgs ∧ ¬ denseFits wide.cfg wide.mem wideArgs ∧
    ∀ b < wideArgs.batch, ∀ r < wideArgs.rows, ∀ x, inElement x (wideArgs.resAddr b r) → ¬ wideArgs.inputByte x := by
  refine ⟨⟨rfl, rfl⟩, rfl, rfl, wide_ready, wide_overflows, fun b hb r hr x hx h => ?_⟩
  simp only [wideArgs, DenseArgs.resAddr, DenseArgs.inputByte, DenseArgs.matrixAt, DenseArgs.vectorAt, inElement]
    at hb hr hx h
  obtain rfl : b = 0 := by omega
  obtain rfl : r = 0 := by omega
  rcases h with ⟨b, hb, h⟩ | ⟨r, hr, j, hj, h⟩ | ⟨b, hb, j, hj, h⟩ <;> omega

/-- DA2 with the offset 2^30: the product of a row sum, 15, and the offset leaves int32. -/
def da2Big : State := { da2 with mem := memory [(0x100, [1, 2, 3, 4, 5]), (0x383, [0x40])] }

theorem witness_DenseOverflowFaults_asym :
    (da2Big.accepts ∧ da2Big.foreign = [] ∧ operandsOf denseArgs da2Big = some da2Args ∧
    operandsOf (argAddr 8) da2Big = some 0x340 ∧ operandsOf (argAddr 9) da2Big = some 0x380) ∧
    AsymReady da2Big.cfg da2Args 0x340 0x380 ∧ ¬ asymFits da2Big.cfg da2Big.mem da2Args 0x380 ∧
    ∀ b < da2Args.batch, ∀ r < da2Args.rows, ∀ x, inElement x (da2Args.resAddr b r) →
      ¬ asymInputByte da2Args 0x340 0x380 x := by
  refine ⟨by decide, da2_ready, fun h => ?_, da2_disjoint (by omega) (by omega)⟩
  rcases h with h | h
  · exact absurd h (by decide)
  · have h1 : in32 (denseRowSum da2Big.mem da2Args 0 * offsetAt da2Big.mem 0x380 0) = false := by decide +kernel
    have h2 := (h 0 (by decide) 0 (by decide)).2.1
    rw [h1] at h2
    cases h2

/-- Scales that are misaligned, and scales past the window, for the dense kernels and for SMMA.B. -/
theorem witness_FirstScaleFaults :
    (start small [0x100, 2, 5, 0x200, 0x302, 1, 0x400, 1, 0x340, 0x380] []).accepts ∧
    (start small [0x100, 2, 5, 0x200, 0x302, 1, 0x400, 1, 0x340, 0x380] []).inst.work = none ∧
    operandsOf denseArgs (start small [0x100, 2, 5, 0x200, 0x302, 1, 0x400, 1, 0x340, 0x380] []) =
      some { da2Args with scales := 0x302 } ∧
    operandsOf (argAddr 8) (start small [0x100, 2, 5, 0x200, 0x302, 1, 0x400, 1, 0x340, 0x380] []) = some 0x340 ∧
    operandsOf (argAddr 9) (start small [0x100, 2, 5, 0x200, 0x302, 1, 0x400, 1, 0x340, 0x380] []) = some 0x380 ∧
    checkAccess small .read true 0x302 4 = some (.misaligned 0x302 4) ∧
    operandsOf sparseBatchArgs (start small [0x100, 0x180, 2, 16, 0x200, 0x1000, 2, 0x400, 1] []) =
      some { sp9Args with scales := 0x1000 } ∧ sp9Args.cols % 16 = 0 ∧ 0 < sp9Args.batch ∧
    checkAccess small .read true 0x1000 4 = some (.memUnadmitted 0x1000 4 .read) := by decide

/-- No batch for the batched kernels, and no row for SMMA, with addresses that are not admitted; no row with a batch, and
scales and offsets that can be read; and no column. -/
theorem witness_ZeroDimensions :
    (∃ d, operandsOf denseArgs (start small [0x1000, 2, 5, 0x1000, 0x1000, 0, 0x1000, 1, 0x1000, 0x1000] []) = some d ∧
      d.batch = 0) ∧
    operandsOf (argAddr 8) (start small [0x1000, 2, 5, 0x1000, 0x1000, 0, 0x1000, 1, 0x1000, 0x1000] []) = some 0x1000 ∧
    operandsOf (argAddr 9) (start small [0x1000, 2, 5, 0x1000, 0x1000, 0, 0x1000, 1, 0x1000, 0x1000] []) = some 0x1000 ∧
    (∃ a, operandsOf sparseArgs (start small [0x1000, 0x1000, 0, 48, 0x1000, 0, 0x1000, 1] []) = some a ∧
      a.cols % 16 = 0 ∧ a.rows = 0) ∧
    (∃ a, operandsOf sparseBatchArgs (start small [0x1000, 0x1000, 2, 0, 0x1000, 0x1000, 0, 0x1000, 1] []) = some a ∧
      a.cols % 16 = 0 ∧ a.batch = 0) ∧
    (start small [0x1000, 2, 5, 0x1000, 0x1000, 0, 0x1000, 1, 0x1000, 0x1000] []).accepts :=
  ⟨⟨⟨0x1000, 2, 5, 0x1000, 0x1000, 0, 0x1000, 1⟩, by decide, rfl⟩, by decide, by decide,
    ⟨⟨0x1000, 0x1000, 0, 48, 0x1000, 0, 0x1000, 1⟩, by decide, rfl, rfl⟩,
    ⟨⟨0x1000, 0x1000, 2, 0, 0x1000, 0x1000, 0, 0x1000, 1⟩, by decide, rfl, rfl⟩, by decide⟩

theorem witness_ZeroDimensions_rows :
    (∃ d, operandsOf denseArgs (start small [0x1000, 0, 5, 0x1000, 0xFF8, 2, 0x1000, 1, 0x1000, 0xFF8] []) = some d ∧
      d.rows = 0 ∧ d.batch = 2 ∧ (∀ b < 2, readable32 small (d.scales + 4 * b : Nat)) ∧
      ∀ b < 2, readable32 small ((0xFF8 : Nat) + 4 * b : Nat)) ∧
    (∃ a, operandsOf sparseBatchArgs (start small [0x1000, 0x1000, 0, 16, 0x1000, 0xFF8, 2, 0x1000, 1] []) = some a ∧
      a.cols % 16 = 0 ∧ a.rows = 0 ∧ a.batch = 2 ∧ ∀ b < 2, readable32 small (a.scales + 4 * b : Nat)) :=
  ⟨⟨⟨0x1000, 0, 5, 0x1000, 0xFF8, 2, 0x1000, 1⟩, by decide, by decide⟩,
    ⟨⟨0x1000, 0x1000, 0, 16, 0x1000, 0xFF8, 2, 0x1000, 1⟩, by decide, by decide⟩⟩

theorem witness_ZeroDimensions_columns :
    ∃ d, operandsOf denseArgs (start small [0x1000, 1, 0, 0x1000, 0x300, 1, 0x400, 1] []) = some d ∧ d.cols = 0 ∧
      DenseReady small d ∧
      ∀ b < d.batch, ∀ r < d.rows, ∀ x, inElement x (d.resAddr b r) → ¬ d.inputByte x := by
  refine ⟨⟨0x1000, 1, 0, 0x1000, 0x300, 1, 0x400, 1⟩, by decide, rfl, ⟨by decide, by decide, by decide, by decide⟩,
    fun b hb r hr x hx h => ?_⟩
  simp only [DenseArgs.resAddr, DenseArgs.inputByte, inElement] at hb hr hx h
  obtain rfl : b = 0 := by omega
  obtain rfl : r = 0 := by omega
  rcases h with ⟨b, hb, h⟩ | ⟨r, hr, j, hj, h⟩ | ⟨b, hb, j, hj, h⟩ <;> omega

/-- DA2 with per-channel scales 1.0 and the offset 0. -/
def plain : State :=
  start small [0x100, 2, 5, 0x200, 0x300, 1, 0x400, 1, 0x340, 0x380]
    (memory [(0x100, [1, 2, 3, 4, 5, 0xFF, 0xFF, 0xFF, 0xFF, 0xFF]), (0x200, [2, 2, 2, 2, 2]),
      (0x300, [0, 0, 0, 0x3F]), (0x340, [0, 0, 0x80, 0x3F, 0, 0, 0x80, 0x3F])])

theorem plain_fits : asymFits plain.cfg plain.mem da2Args 0x380 := by
  have h : ∀ b < 1, ∀ r < 2, (∀ n < 6, in32 (sumTo (denseTerm plain.cfg plain.mem da2Args b r) n) = true ∧
      in32 (sumTo (fun j => s8 (plain.mem.read (da2Args.matrixAt r j))) n) = true) ∧
      in32 (denseRowSum plain.mem da2Args r * offsetAt plain.mem 0x380 b) = true ∧
      in32 (denseAdjusted plain.cfg plain.mem da2Args 0x380 b r) = true := by decide +kernel
  exact .inr fun b hb r hr => ⟨fun n hn => (h b hb r hr).1 n (Nat.lt_succ_of_le hn.1), (h b hb r hr).2⟩

/-- Two elements that are no NaN. -/
theorem noNaN_pair {element : Int → Prop} {m : Memory} (h : ∀ e, element e → e = 0x400 ∨ e = 0x404)
    (h0 : fIsNaN (m.read32 0x400) = false) (h1 : fIsNaN (m.read32 0x404) = false) : noNaN element m := by
  intro e he
  rcases h e he with rfl | rfl
  · exact h0
  · exact h1

theorem da2_element {e : Int} (h : da2Args.element e) : e = 0x400 ∨ e = 0x404 := by
  obtain ⟨b, hb, r, hr, rfl⟩ := h
  exact (by decide : ∀ b < 1, ∀ r < 2, da2Args.resAddr b r = 0x400 ∨ da2Args.resAddr b r = 0x404) b hb r hr

theorem witness_AsymmetricIsSymmetric :
    (plain.accepts ∧ plain.foreign = [] ∧ plain.mem.wf = true ∧ operandsOf denseArgs plain = some da2Args ∧
    operandsOf (argAddr 8) plain = some 0x340 ∧ operandsOf (argAddr 9) plain = some 0x380 ∧
    plain.cfg.asymOrder = .leftToRight ∧ (∀ r < da2Args.rows, plain.mem.read32 (0x340 + 4 * r) = 0x3F800000) ∧
    (∀ b < da2Args.batch, plain.mem.read32 (0x380 + 4 * b) = 0)) ∧
    AsymReady plain.cfg da2Args 0x340 0x380 ∧ asymFits plain.cfg plain.mem da2Args 0x380 ∧
    (∀ b < da2Args.batch, ∀ r < da2Args.rows, ∀ x, inElement x (da2Args.resAddr b r) →
      ¬ asymInputByte da2Args 0x340 0x380 x) ∧
    (∃ t, exec .dmmaS plain = .next t ∧ noNaN da2Args.element t.mem) ∧ ∃ u, exec .dmmaA plain = .next u := by
  refine ⟨by decide +kernel, da2_ready, plain_fits, da2_disjoint (by omega) (by omega), ?_, ⟨_, rfl⟩⟩
  obtain ⟨t, h, hf⟩ := holds_next (o := exec .dmmaS plain)
    (f := fun t => fIsNaN (t.mem.read32 0x400) == false && fIsNaN (t.mem.read32 0x404) == false) (by decide +kernel)
  simp only [Bool.and_eq_true, beq_iff_eq] at hf
  exact ⟨t, h, noNaN_pair (fun _ => da2_element) hf.1 hf.2⟩

/-! ### The sparse kernels -/

/-- SP3: 20 columns, in both builds. -/
theorem witness_BlockPrecondition :
    (start small [0x100, 0x180, 1, 20, 0x200, 0, 0x400, 1] []).accepts ∧
    (start small [0x100, 0x180, 1, 20, 0x200, 0, 0x400, 1] []).inst.work = none ∧
    operandsOf sparseArgs (start small [0x100, 0x180, 1, 20, 0x200, 0, 0x400, 1] []) =
      some ⟨0x100, 0x180, 1, 20, 0x200, 0, 0x400, 1⟩ ∧ 20 % 16 ≠ 0 ∧
    operandsOf sparseBatchArgs (start { small with debugChecks := true } [0x100, 0x180, 2, 15, 0x200, 0x300, 0, 0x400, 1] []) =
      some ⟨0x100, 0x180, 2, 15, 0x200, 0x300, 0, 0x400, 1⟩ ∧ 15 % 16 ≠ 0 := by decide

/-- SP1 reads the packed blocks at 0x100, the ledger at 0x180 and the vector at 0x200, all below 0x230. -/
theorem sp1_input {x : Nat} (h : sparseInputByte sp1.mem sp1Args x) : x < 0x230 := by
  obtain ⟨r, hr, h⟩ := h
  have hl : ∀ r < 3, ledgerAt sp1.mem 0x180 r + blockCountOf sp1.mem 0x180 r < 0x230 ∧
      (∀ i < blockCountOf sp1.mem 0x180 r, 0x200 + 16 * blockIndex sp1.mem 0x180 r i + 16 ≤ 0x230) ∧
      packedAt sp1.mem 0x100 0x180 r + 16 * blockCountOf sp1.mem 0x180 r < 0x230 := by decide +kernel
  obtain ⟨h1, h2, h3⟩ := hl r hr
  simp only [sp1Args] at h
  rcases h with ⟨i, hi, rfl⟩ | ⟨i, hi, j, hj, h⟩
  · omega
  · have := h2 i hi
    omega

theorem sp1_ready : SparseReady small sp1.mem sp1Args where
  index := by decide +kernel
  inputs := fun _ h => readable_small (by have := sp1_input h; omega)
  result := by decide

theorem sp1_disjoint : ∀ r < sp1Args.rows, ∀ x, inElement x (sp1Args.resAddr r) → ¬ sparseInputByte sp1.mem sp1Args x := by
  intro r hr x hx h
  have := sp1_input h
  simp only [inElement, SparseArgs.resAddr, sp1Args] at hx
  omega

theorem witness_SmmaResult :
    sp1.accepts ∧ sp1.foreign = [] ∧ operandsOf sparseArgs sp1 = some sp1Args ∧ sp1Args.cols % 16 = 0 ∧
    SparseReady sp1.cfg sp1.mem sp1Args ∧
    ∀ r < sp1Args.rows, ∀ x, inElement x (sp1Args.resAddr r) → ¬ sparseInputByte sp1.mem sp1Args x :=
  ⟨by decide, rfl, sp1_operands, rfl, sp1_ready, sp1_disjoint⟩

/-- Both walks of SP9 read below 0x310. -/
theorem sp9_input {b : Nat} (hb : b < 2) {x : Nat} (h : sparseInputByte sp9.mem (sp9Args.walkAt sp9.mem b) x) :
    x < 0x310 := by
  obtain ⟨r, hr, h⟩ := h
  have hl : ∀ r < 2, ledgerAt sp9.mem 0x180 r + blockCountOf sp9.mem 0x180 r < 0x310 ∧
      (∀ i < blockCountOf sp9.mem 0x180 r, 0x210 + 16 * blockIndex sp9.mem 0x180 r i + 16 ≤ 0x310) ∧
      packedAt sp9.mem 0x100 0x180 r + 16 * blockCountOf sp9.mem 0x180 r < 0x310 := by decide +kernel
  obtain ⟨h1, h2, h3⟩ := hl r hr
  simp only [sp9Args, SparseBatchArgs.walkAt, SparseBatchArgs.walk] at h
  rcases h with ⟨i, hi, rfl⟩ | ⟨i, hi, j, hj, h⟩
  · omega
  · have := h2 i hi
    omega

theorem sp9_ready : ∀ b < sp9Args.batch, SparseReady small sp9.mem (sp9Args.walkAt sp9.mem b) := fun b hb =>
  { index := (by decide +kernel : ∀ b < 2, ∀ r < (sp9Args.walkAt sp9.mem b).rows,
      ∀ i < blockCountOf sp9.mem (sp9Args.walkAt sp9.mem b).ledger r,
        16 * blockIndex sp9.mem (sp9Args.walkAt sp9.mem b).ledger r i + 16 ≤ (sp9Args.walkAt sp9.mem b).cols) b hb
    inputs := fun _ h => readable_small (by have := sp9_input hb h; omega)
    result := (by decide +kernel : ∀ b < 2, ∀ r < (sp9Args.walkAt sp9.mem b).rows,
      readable32 small ((sp9Args.walkAt sp9.mem b).resAddr r) ∧
        writable32 small ((sp9Args.walkAt sp9.mem b).resAddr r)) b hb }

theorem sp9_disjoint : ∀ b < sp9Args.batch, ∀ r < sp9Args.rows, ∀ x,
    inElement x ((sp9Args.walkAt sp9.mem b).resAddr r) → ¬ sparseBatchInputByte sp9.mem sp9Args x := by
  intro b hb r hr x hx h
  have hlow : ∀ b < 2, ∀ r < 2, 0x400 ≤ ((sp9Args.walkAt sp9.mem b).resAddr r).toNat := by decide +kernel
  have := hlow b hb r hr
  obtain ⟨b', hb', h | h⟩ := h
  · simp only [inElement, sp9Args] at h hx hb'
    simp only [sp9Args] at this
    omega
  · have := sp9_input hb' h
    simp only [inElement] at hx
    omega

theorem witness_SmmaBResult :
    sp9.accepts ∧ sp9.foreign = [] ∧ operandsOf sparseBatchArgs sp9 = some sp9Args ∧ sp9Args.cols % 16 = 0 ∧
    (∀ b < sp9Args.batch, readable32 sp9.cfg (sp9Args.scales + 4 * b : Nat)) ∧
    (∀ b < sp9Args.batch, SparseReady sp9.cfg sp9.mem (sp9Args.walkAt sp9.mem b)) ∧
    ∀ b < sp9Args.batch, ∀ r < sp9Args.rows, ∀ x, inElement x ((sp9Args.walkAt sp9.mem b).resAddr r) →
      ¬ sparseBatchInputByte sp9.mem sp9Args x :=
  ⟨by decide, rfl, sp9_operands, rfl, by decide, sp9_ready, sp9_disjoint⟩

/-- SP1 with its results on the vector, all of whose bytes up to 0x230 are read. -/
def sp1Over : State := { sp1 with inst := { sp1.inst with args := registers [0x100, 0x180, 3, 48, 0x200, 0, 0x20C, 1] } }

def sp1OverArgs : SparseArgs := ⟨0x100, 0x180, 3, 48, 0x200, 0, 0x20C, 1⟩

theorem witness_LowestAlias_sparse :
    (sp1Over.accepts ∧ sp1Over.foreign = [] ∧ operandsOf sparseArgs sp1Over = some sp1OverArgs ∧
    sp1OverArgs.cols % 16 = 0) ∧ SparseReady sp1Over.cfg sp1Over.mem sp1OverArgs ∧
    (∀ r < sp1OverArgs.rows, ∀ q < r, ∀ i ≤ blockCountOf sp1Over.mem sp1OverArgs.ledger r,
      ¬ inElement (ledgerAt sp1Over.mem sp1OverArgs.ledger r + i) (sp1OverArgs.resAddr q)) ∧
    ((∃ e, sp1OverArgs.element e ∧ inElement 0x20C e) ∧ sparseInputByte sp1Over.mem sp1OverArgs 0x20C) ∧
    ∀ y, (∃ e, sp1OverArgs.element e ∧ inElement y e) → sparseInputByte sp1Over.mem sp1OverArgs y → 0x20C ≤ y := by
  refine ⟨by decide +kernel, ⟨by decide +kernel, fun x h => readable_small (by
      have := sp1_input (x := x) h; omega), by decide +kernel⟩, by decide +kernel,
    ⟨⟨0x20C, ⟨0, by decide, rfl⟩, by decide⟩, ⟨0, by decide, .inr ⟨0, by decide +kernel, 12, by decide, .inl ?_⟩⟩⟩, ?_⟩
  · decide +kernel
  · rintro y ⟨e, ⟨r, hr, rfl⟩, hy⟩ -
    have := (by decide : ∀ r < 3, 0x20C ≤ (sp1OverArgs.resAddr r).toNat) r hr
    exact Nat.le_trans this hy.1

/-- SP9 with its results on the vectors. -/
def sp9Over : State :=
  { sp9 with inst := { sp9.inst with args := registers [0x100, 0x180, 2, 16, 0x200, 0x300, 2, 0x200, 1] } }

def sp9OverArgs : SparseBatchArgs := ⟨0x100, 0x180, 2, 16, 0x200, 0x300, 2, 0x200, 1⟩

theorem witness_LowestAlias_batch :
    (sp9Over.accepts ∧ sp9Over.foreign = [] ∧ operandsOf sparseBatchArgs sp9Over = some sp9OverArgs ∧
    sp9OverArgs.cols % 16 = 0 ∧ (∀ b < sp9OverArgs.batch, readable32 sp9Over.cfg (sp9OverArgs.scales + 4 * b : Nat))) ∧
    (∀ b < sp9OverArgs.batch, SparseReady sp9Over.cfg sp9Over.mem (sp9OverArgs.walkAt sp9Over.mem b)) ∧
    (∀ r < sp9OverArgs.rows, ∀ i ≤ blockCountOf sp9Over.mem sp9OverArgs.ledger r, ∀ e, sp9OverArgs.element e →
      ¬ inElement (ledgerAt sp9Over.mem sp9OverArgs.ledger r + i) e) ∧
    ((∃ e, sp9OverArgs.element e ∧ inElement 0x200 e) ∧ sparseBatchInputByte sp9Over.mem sp9OverArgs 0x200) ∧
    ∀ y, (∃ e, sp9OverArgs.element e ∧ inElement y e) → sparseBatchInputByte sp9Over.mem sp9OverArgs y → 0x200 ≤ y := by
  have hlow : ∀ b < 2, ∀ r < 2, 0x200 ≤ ((sp9OverArgs.walk b 0).resAddr r).toNat := by decide
  refine ⟨by decide +kernel, fun b hb => ⟨?_, fun x h => readable_small (by
      have := sp9_input (x := x) hb h; omega), ?_⟩, ?_,
    ⟨⟨0x200, ⟨0, by decide, 0, by decide, rfl⟩, by decide⟩,
      ⟨0, by decide, .inr ⟨0, by decide, .inr ⟨0, by decide +kernel, 0, by decide, .inl ?_⟩⟩⟩⟩, ?_⟩
  · exact (by decide +kernel : ∀ b < 2, ∀ r < (sp9OverArgs.walkAt sp9Over.mem b).rows,
      ∀ i < blockCountOf sp9Over.mem (sp9OverArgs.walkAt sp9Over.mem b).ledger r,
        16 * blockIndex sp9Over.mem (sp9OverArgs.walkAt sp9Over.mem b).ledger r i + 16 ≤
          (sp9OverArgs.walkAt sp9Over.mem b).cols) b hb
  · exact (by decide +kernel : ∀ b < 2, ∀ r < (sp9OverArgs.walkAt sp9Over.mem b).rows,
      readable32 small ((sp9OverArgs.walkAt sp9Over.mem b).resAddr r) ∧
        writable32 small ((sp9OverArgs.walkAt sp9Over.mem b).resAddr r)) b hb
  · rintro r hr i hi e ⟨b, hb, q, hq, rfl⟩ h
    have := hlow b hb q hq
    have hl : ∀ r < 2, ledgerAt sp9Over.mem 0x180 r + blockCountOf sp9Over.mem 0x180 r < 0x200 := by decide +kernel
    have := hl r hr
    simp only [inElement, sp9OverArgs] at h hi this
    simp only [sp9OverArgs] at *
    omega
  · decide +kernel
  · rintro y ⟨e, ⟨b, hb, q, hq, rfl⟩, hy⟩ -
    exact Nat.le_trans (hlow b hb q hq) hy.1

/-- The registers of the SMMA commands that stand for SP9's SMMA.B. -/
def sp9Walks (b : Nat) : Vector (Option Word64) 10 :=
  registers [0x100, 0x180, 2, 16, 0x200 + 16 * b, 0x3F800000 + 0x800000 * b, 0x400 + 8 * b, 1]

theorem witness_BatchIsWalksInTurn :
    sp9.mem.wf = true ∧ (∃ t, exec .smmaB sp9 = .next t ∧ noNaN sp9Args.element t.mem) ∧
    (sp9.accepts ∧ sp9.foreign = [] ∧ operandsOf sparseBatchArgs sp9 = some sp9Args ∧ sp9Args.cols % 16 = 0 ∧
    (∀ b < sp9Args.batch, readable32 sp9.cfg (sp9Args.scales + 4 * b : Nat)) ∧
    (∀ b < sp9Args.batch, SparseReady sp9.cfg sp9.mem (sp9Args.walkAt sp9.mem b)) ∧
    ∀ b < sp9Args.batch, ∀ r < sp9Args.rows, ∀ x, inElement x ((sp9Args.walkAt sp9.mem b).resAddr r) →
      ¬ sparseBatchInputByte sp9.mem sp9Args x) ∧
    ∀ b < sp9Args.batch,
      operandsOf sparseArgs { sp9 with inst := { sp9.inst with args := sp9Walks b } } = some (sp9Args.walkAt sp9.mem b) := by
  refine ⟨by decide +kernel, ?_, witness_SmmaBResult, by decide +kernel⟩
  obtain ⟨t, h, hf⟩ := holds_next (o := exec .smmaB sp9)
    (f := fun t => (List.range 4).all (fun i => fIsNaN (t.mem.read32 (0x400 + 4 * i)) == false)) (by decide +kernel)
  refine ⟨t, h, fun e ⟨b, hb, r, hr, he⟩ => ?_⟩
  have hi := (by decide : ∀ b < 2, ∀ r < 2, ∃ i < 4, ((sp9Args.walk b 0).resAddr r).toNat = 0x400 + 4 * i) b hb r hr
  obtain ⟨i, hi, h'⟩ := hi
  rw [he, h']
  simpa using List.all_eq_true.1 hf i (List.mem_range.2 hi)

/-- A command that answers a next state, for each of the two, and the first row of SP1, which has two blocks. -/
theorem witness_SparseCannotOverflow :
    (∃ t, exec .smma sp1 = .next t) ∧ (∃ t, exec .smmaB sp9 = .next t) ∧ 2 ≤ blockCountOf sp1.mem sp1Args.ledger 0 :=
  ⟨⟨_, rfl⟩, ⟨_, rfl⟩, by decide +kernel⟩

def sp2Args : SparseArgs := ⟨0x100, 0x180, 1, 32, 0x200, 0x3F800000, 0x400, 1⟩

/-- SP2: the first entry of the first row names the block right after the row's two. -/
theorem witness_LedgerRangeFaults :
    sp2.accepts ∧ sp2.foreign = [] ∧ operandsOf sparseArgs sp2 = some sp2Args ∧ sp2Args.cols % 16 = 0 ∧
    0 < sp2Args.rows ∧ 0 < blockCountOf sp2.mem sp2Args.ledger 0 ∧ SparseReady sp2.cfg sp2.mem { sp2Args with rows := 0 } ∧
    (∀ k ≤ 0 + 1, readable sp2.cfg (ledgerAt sp2.mem sp2Args.ledger 0 + k)) ∧
    (∀ k < 0, 16 * blockIndex sp2.mem sp2Args.ledger 0 k + 16 ≤ sp2Args.cols ∧
      ∀ j < 16, readable sp2.cfg (sp2Args.vector + 16 * blockIndex sp2.mem sp2Args.ledger 0 k + j) ∧
        readable sp2.cfg (packedAt sp2.mem sp2Args.matrix sp2Args.ledger 0 + 16 * k + j)) ∧
    sp2Args.cols < 16 * blockIndex sp2.mem sp2Args.ledger 0 0 + 16 ∧
    ∀ q < 0, ∀ x, inElement x (sp2Args.resAddr q) → ¬ sparseInputByte sp2.mem { sp2Args with rows := 0 + 1 } x := by
  refine ⟨by decide, rfl, by decide +kernel, rfl, by decide, by decide +kernel, ⟨?_, ?_, ?_⟩, ?_, ?_, by decide +kernel, ?_⟩
  · exact fun r hr => absurd hr (Nat.not_lt_zero r)
  · exact fun x ⟨r, hr, _⟩ => absurd hr (Nat.not_lt_zero r)
  · exact fun r hr => absurd hr (Nat.not_lt_zero r)
  · exact fun k hk => readable_small (by
      have : ledgerAt sp2.mem sp2Args.ledger 0 = 0x180 := rfl
      omega)
  · exact fun k hk => absurd hk (Nat.not_lt_zero k)
  · exact fun q hq => absurd hq (Nat.not_lt_zero q)

theorem witness_LedgerRangeFaults_batch :
    sp2Batch.accepts ∧ sp2Batch.mem = sp2.mem ∧ sp2Batch.cfg = sp2.cfg ∧ sp2Batch.foreign = [] ∧
    operandsOf sparseBatchArgs sp2Batch = some ⟨0x100, 0x180, 1, 32, 0x200, 0x300, 1, 0x400, 1⟩ ∧
    readable32 sp2Batch.cfg (0x300 : Nat) ∧
    sp2Args = (⟨0x100, 0x180, 1, 32, 0x200, 0x300, 1, 0x400, 1⟩ : SparseBatchArgs).walkAt sp2Batch.mem 0 :=
  ⟨by decide, rfl, rfl, rfl, by decide +kernel, by decide, by decide +kernel⟩

/-- SP2 under SMMA.B ends with its own operation code. -/
theorem test_smmaB_sp2 :
    holds (exec .smmaB sp2Batch) (fun t => t.inst.fault == some ⟨0x21, .ledgerRange 0 0 2⟩) = true := by decide +kernel

/-- One row of one block, as a ledger and as a matrix. -/
def oneBlock (args : List Nat) : State :=
  start small args (memory [(0x100, List.range 16), (0x180, [1, 0]), (0x200, List.replicate 16 3),
    (0x300, [0, 0, 0, 0x3F])])

def oneSparse : SparseArgs := ⟨0x100, 0x180, 1, 16, 0x200, 0x3F000000, 0x400, 1⟩

def oneDense : DenseArgs := ⟨0x100, 1, 16, 0x200, 0x300, 1, 0x400, 1⟩

def oneSparseState : State := oneBlock [0x100, 0x180, 1, 16, 0x200, 0x3F000000, 0x400, 1]

def oneDenseState : State := oneBlock [0x100, 1, 16, 0x200, 0x300, 1, 0x400, 1]

theorem one_isDense : DenseOf oneSparseState.mem oneSparse oneDense.matrix where
  whole := rfl
  inside := by decide +kernel
  once := by decide +kernel
  listed := by decide +kernel
  zero := by decide +kernel

theorem one_input {x : Nat} (h : sparseInputByte oneSparseState.mem oneSparse x) : x < 0x400 := by
  obtain ⟨r, hr, h⟩ := h
  have hl : ∀ r < 1, ledgerAt oneSparseState.mem 0x180 r + blockCountOf oneSparseState.mem 0x180 r < 0x400 ∧
      (∀ i < blockCountOf oneSparseState.mem 0x180 r,
        0x200 + 16 * blockIndex oneSparseState.mem 0x180 r i + 16 ≤ 0x400) ∧
      packedAt oneSparseState.mem 0x100 0x180 r + 16 * blockCountOf oneSparseState.mem 0x180 r < 0x400 := by
    decide +kernel
  obtain ⟨h1, h2, h3⟩ := hl r hr
  simp only [oneSparse] at h
  rcases h with ⟨i, hi, rfl⟩ | ⟨i, hi, j, hj, h⟩
  · omega
  · have := h2 i hi
    omega

theorem one_dense_input {x : Nat} (h : oneDense.inputByte x) : x < 0x400 := by
  simp only [oneDense, DenseArgs.inputByte, DenseArgs.matrixAt, DenseArgs.vectorAt, inElement] at h
  rcases h with ⟨b, hb, h⟩ | ⟨r, hr, j, hj, h⟩ | ⟨b, hb, j, hj, h⟩ <;> omega

theorem one_fits : denseFits oneSparseState.cfg oneSparseState.mem oneDense := by
  have h : ∀ b < 1, ∀ r < 1, ∀ n < 17,
      in32 (sumTo (denseTerm oneSparseState.cfg oneSparseState.mem oneDense b r) n) = true := by decide +kernel
  exact .inr fun b hb r hr n hn => h b hb r hr n (Nat.lt_succ_of_le hn.1)

theorem witness_SparseIsDense :
    (oneSparseState.accepts ∧ oneDenseState.accepts ∧ oneSparseState.foreign = [] ∧ oneDenseState.foreign = [] ∧
    oneSparseState.mem.wf = true ∧ oneDenseState.mem = oneSparseState.mem ∧ oneDenseState.cfg = oneSparseState.cfg ∧
    oneSparseState.cfg.dotMode = .exact) ∧
    holds (exec .smma oneSparseState) (fun t => fIsNaN (t.mem.read32 0x400) == false) = true ∧
    (operandsOf sparseArgs oneSparseState = some oneSparse ∧ operandsOf denseArgs oneDenseState = some oneDense) ∧
    (oneDense.rows = oneSparse.rows ∧ oneDense.cols = oneSparse.cols ∧ oneDense.batch = 1 ∧
    oneDense.vectors = oneSparse.vector ∧ (oneDense.result : Int) = oneSparse.result ∧
    oneDense.stride = oneSparse.stride ∧ oneSparseState.mem.read32 oneDense.scales = oneSparse.scale) ∧
    DenseOf oneSparseState.mem oneSparse oneDense.matrix ∧
    SparseReady oneSparseState.cfg oneSparseState.mem oneSparse ∧ DenseReady oneSparseState.cfg oneDense ∧
    denseFits oneSparseState.cfg oneSparseState.mem oneDense ∧
    ∀ r < oneSparse.rows, ∀ x, inElement x (oneSparse.resAddr r) →
      ¬ sparseInputByte oneSparseState.mem oneSparse x ∧ ¬ oneDense.inputByte x := by
  refine ⟨⟨by decide, by decide, rfl, rfl, by decide +kernel, rfl, rfl, rfl⟩, by decide +kernel, ⟨by decide +kernel, by decide +kernel⟩,
    by decide +kernel, one_isDense, ⟨by decide +kernel, fun _ h => readable_small (by have := one_input h; omega), by decide⟩,
    ⟨by decide, by decide, by decide, by decide⟩, one_fits, fun r hr x hx => ?_⟩
  have hr : r < 1 := hr
  simp only [inElement, SparseArgs.resAddr, oneSparse] at hx
  exact ⟨fun h => by have := one_input h; omega, fun h => by have := one_dense_input h; omega⟩

/-! ### The assembler -/

/-- The line `hred 0x200, 0x210`, one with an operand too few, and one that names no command. -/
theorem witness_AssembledLine :
    assembleLine 64 ⟨['h', 'r', 'e', 'd'], [.hex 0x200, .hex 0x210]⟩ =
      some [.argWrite 0 0x200, .argWrite 1 0x210, .cmdWrite 0x02] ∧
    (lineCommand ⟨['h', 'r', 'e', 'd'], [.hex 0x200]⟩ = some .hred ∧
      ([.hex 0x200] : List Literal).length ≠ Instr.hred.views.length) ∧
    lineCommand ⟨['n', 'o', 'p'], []⟩ = none := by decide

/-- Literals at the ends of the ranges of their views fit, and the ones past them do not. -/
theorem witness_AssembledLine_literals :
    literalFits 64 .addr (.hex 0xFFFFFFFFFFFFFFFF) ∧ ¬ literalFits 64 .addr (.hex 0x10000000000000000) ∧
    literalFits 64 .dim (.dec 2147483647) ∧ ¬ literalFits 64 .dim (.dec (-1)) ∧
    literalFits 64 .int (.dec (-2147483648)) ∧ ¬ literalFits 64 .int (.dec 2147483648) ∧
    literalFits 64 .f32 (.hex 0xFFFFFFFF) ∧ ¬ literalFits 64 .f32 (.hex 0x100000000) ∧
    literalFits 64 .f32 (.frac true 5 1) ∧ literalFits 64 .f32 (.dec (-3)) ∧ ¬ literalFits 64 .addr (.dec 0) :=
  ⟨by simp only [literalFits]; decide, by simp only [literalFits]; decide, by simp only [literalFits]; decide,
    by simp only [literalFits]; decide, by simp only [literalFits]; decide, by simp only [literalFits]; decide,
    by simp only [literalFits]; decide, by simp only [literalFits]; decide,
    ⟨0xBF000000, by decide +kernel⟩, ⟨0xC0400000, by decide +kernel⟩, by simp [literalFits]⟩

/-- The choices of assumption log 17: `-0` is the integer 0, `-0.0` the negative zero, and `+1` is refused. -/
theorem test_literal_choices :
    literalBits 64 .f32 (.dec 0) = some 0x00000000 ∧ parseLiteral ['-', '0'] = some (.dec 0) ∧
    (parseLiteral "-0.0".toList).bind (literalBits 64 .f32) = some 0x80000000 ∧ parseLiteral ['+', '1'] = none := by
  decide +kernel

/-- A line of every kind of operand: `smma 0x100, 0x180, 3, 48, 0x200, -0.5, 0x400, -1`. -/
def smmaLine : Line :=
  ⟨['s', 'm', 'm', 'a'],
    [.hex 0x100, .hex 0x180, .dec 3, .dec 48, .hex 0x200, .frac true 5 1, .hex 0x400, .dec (-1)]⟩

theorem witness_LineRoundTrip :
    lineCommand smmaLine = some .smma ∧
    assembleLine State.reset.cfg.addrW smmaLine =
      some [.argWrite 0 0x100, .argWrite 1 0x180, .argWrite 2 3, .argWrite 3 48, .argWrite 4 0x200,
        .argWrite 5 0xBF000000, .argWrite 6 0x400, .argWrite 7 0xFFFFFFFFFFFFFFFF, .cmdWrite 0x20] ∧
    State.reset.inst.busy = false := by decide +kernel

end Sys2Proof.Tests
end

section
/-! PROOFS. What every step leaves alone of the launch, and the numbers of 00_scope.md: narrowing to int32, and binary32. -/

namespace Sys2Proof.Machine

/-! ### The launch parameters and the number of blocks -/

/-- A command whose pseudocode disturbs nothing but its own leaves the launch parameters and the other blocks alone. -/
theorem finish_runBody_launch {body : Cmd Unit} (h : ∀ s, Undisturbed s (endState (body s))) (opc : BitVec 8)
    (s : State) :
    (finish opc (runBody opc body s)).cfg = s.cfg ∧ (finish opc (runBody opc body s)).others = s.others := by
  obtain ⟨n, foreseen, -, hrun, -⟩ := runBody_cases opc body s
  have hbody := h ({ s with draws := n }.startCommand opc foreseen)
  obtain ⟨hcfg, -, -, hothers, -⟩ := finish_same opc (runBody opc body s)
  rw [hrun] at hcfg hothers ⊢
  exact ⟨hcfg.trans hbody.cfg, hothers.trans hbody.others⟩

theorem callerReadArg_launch (i : Fin 10) (s : State) :
    (callerReadArg i s).cfg = s.cfg ∧ (callerReadArg i s).others = s.others := by
  unfold callerReadArg
  split <;> exact ⟨rfl, rfl⟩

/-- No interaction changes the launch parameters or the number of blocks (R6, R221). -/
theorem Performs.launch {a : HostAct} {s t : State} (h : Performs a s t) :
    t.cfg = s.cfg ∧ t.others.length = s.others.length := by
  cases h with
  | argWrite i v => exact ⟨rfl, rfl⟩
  | argRead i =>
    obtain ⟨hcfg, hothers⟩ := callerReadArg_launch i s
    exact ⟨hcfg, congrArg List.length hothers⟩
  | command w i _ _ =>
    obtain ⟨hcfg, hothers⟩ := finish_runBody_launch (bodyOf_undisturbed i) i.opc s
    exact ⟨hcfg, congrArg List.length hothers⟩
  | illegal w _ _ =>
    obtain ⟨hcfg, hothers⟩ := finish_runBody_launch (body := raise (.illegalCmd w))
      (fun s => Undisturbed.neutral.refl s) 0x00 s
    exact ⟨hcfg, congrArg List.length hothers⟩
  | memWrite a data _ => exact ⟨rfl, rfl⟩
  | memRead a n => exact ⟨rfl, rfl⟩
  | during f _ => exact ⟨rfl, rfl⟩
  | select n b _ => exact ⟨rfl, List.length_set⟩
  | reset => exact ⟨rfl, List.length_map _⟩

/-- Settles O11: a step is idle or one interaction, and no interaction changes the launch. -/
theorem launchParametersFixed : Obligations.LaunchParametersFixed := by
  intro s t h
  rcases step_next h with ⟨-, rfl⟩ | ⟨a, rest, -, -, hp⟩
  · exact ⟨rfl, rfl⟩
  · exact hp.launch

/-! ### Narrowing to int32 -/

theorem in32_iff (x : Int) : in32 x = true ↔ -2147483648 ≤ x ∧ x ≤ 2147483647 := by
  simp [in32]

/-- Settles O28, from the definition of the balanced remainder. -/
theorem wrapIsUnique : Obligations.WrapIsUnique := by
  intro x
  refine ⟨?_, fun y hlo hhi hdvd => ?_, in32_iff x⟩
  · unfold wrap32
    rw [Int.bmod_def]
    omega
  · unfold wrap32
    rw [Int.bmod_def]
    omega

/-- Settles O29: the two treatments of overflow, and a narrowed value reads back by `toInt_bits32`. -/
theorem accNarrows : Obligations.AccNarrows := by
  intro s x site
  refine ⟨fun hfault => ⟨fun hfit => ⟨bits32 x, ?_, toInt_bits32_of_in32 hfit⟩, fun hout => ?_⟩,
    fun hwrap => ⟨bits32 x, ?_, toInt_bits32 x⟩⟩
  · simp [acc32, hfault, hfit]
  · simp [acc32, hfault, hout]
  · simp [acc32, hwrap]

/-! ### The three kinds of a binary32 pattern -/

/-- A finite pattern is one that is no NaN and no infinity (R16, R20). -/
theorem fIsFinite_eq_true_iff (x : Word32) : fIsFinite x = true ↔ fIsNaN x = false ∧ fIsInf x = false := by
  unfold fIsNaN fIsInf fIsFinite
  by_cases he : fExp x = 255 <;> by_cases hf : fFrac x = 0 <;> simp [he, hf]

/-- An infinity is no NaN. -/
theorem fIsNaN_of_fIsInf {x : Word32} (h : fIsInf x = true) : fIsNaN x = false := by
  simp only [fIsInf, Bool.and_eq_true, beq_iff_eq] at h
  simp [fIsNaN, h.2]

/-- An infinity is no zero. -/
theorem fIsZero_of_fIsInf {x : Word32} (h : fIsInf x = true) : fIsZero x = false := by
  simp only [fIsInf, Bool.and_eq_true, beq_iff_eq] at h
  simp [fIsZero, h.1]

/-- The value zero is the pattern of a zero of either sign. -/
theorem magValue_eq_zero {mag : Nat} (h : magValue mag = 0) : mag = 0 := by
  unfold magValue at h
  split at h
  · omega
  · have hpos : 0 < (8388608 + mag % 8388608) * 2 ^ (mag / 8388608 - 1) := by positivity
    omega

/-- A pattern is its sign above its magnitude bits. -/
theorem withSign_fSign (x : Word32) : withSign (fSign x) (x.toNat % 2147483648) = x := by
  apply BitVec.eq_of_toNat_eq
  have hx : x.toNat < 4294967296 := x.isLt
  rw [toNat_withSign (by omega), fSign_eq]
  by_cases h : 2147483648 ≤ x.toNat <;> simp only [h, decide_true, decide_false, if_true, Bool.false_eq_true, if_false]
    <;> omega

theorem eq_fZero_of_fUnits_eq_zero {x : Word32} (h : fUnits x = 0) : x = fZero (fSign x) := by
  have hmag : magValue (x.toNat % 2147483648) = 0 := by
    rw [← fMag_eq_magValue, ← natAbs_fUnits, h]
    rfl
  rw [fZero, ← magValue_eq_zero hmag, withSign_fSign]

theorem roundMag_le (m t : Nat) : roundMag m t ≤ 255 * 8388608 := Nat.min_le_right _ _

theorem roundMag_zero : roundMag 0 0 = 0 := by
  decide

theorem fSign_roundMag (neg : Bool) (m t : Nat) : fSign (withSign neg (roundMag m t)) = neg :=
  fSign_withSign (by have := roundMag_le m t; omega)

theorem fIsInf_fInf (neg : Bool) : fIsInf (fInf neg) = true := (fIsInf_withSign (Nat.le_refl _)).2 rfl

theorem fIsNaN_fInf (neg : Bool) : fIsNaN (fInf neg) = false := fIsNaN_of_fIsInf (fIsInf_fInf neg)

theorem fSign_fInf (neg : Bool) : fSign (fInf neg) = neg := fSign_withSign (by omega)

/-- An infinity has no more than its sign. -/
theorem eq_fInf_of_fIsInf {x : Word32} (h : fIsInf x = true) : x = fInf (fSign x) := by
  simp only [fIsInf, Bool.and_eq_true, beq_iff_eq, fExp_eq, fFrac_eq] at h
  have hmag : x.toNat % 2147483648 = 255 * 8388608 := by
    have hx : x.toNat < 4294967296 := x.isLt
    omega
  rw [fInf, ← hmag, withSign_fSign]

/-! ### The conversion of an int32 -/

/-- Rounding a multiple of the place keeps it. -/
theorem roundShift_mul_of_dvd {m q : Nat} (h : 2 ^ q ∣ m) : roundShift m q * 2 ^ q = m := by
  have hrest : m % 2 ^ q = 0 := Nat.mod_eq_zero_of_dvd h
  have hpos : 0 < 2 ^ q := Nat.two_pow_pos q
  unfold roundShift
  dsimp only
  rw [hrest, if_neg (by omega), Nat.div_mul_cancel h]

/-- The place at which an integer of magnitude at most 2^24 is rounded divides it, in units of 2^-149. -/
theorem two_pow_roundPlace_dvd {n : Nat} (h : n ≤ 2 ^ 24) : 2 ^ roundPlace (n * 2 ^ 149) 0 ∣ n * 2 ^ 149 := by
  have hlog : Nat.log2 (n * 2 ^ 149) ≤ 173 := by
    rcases Nat.eq_zero_or_pos n with rfl | hn
    · simp
    · have hlt : n * 2 ^ 149 < 2 ^ 174 := by omega
      have := (Nat.log2_lt (by omega)).2 hlt
      omega
  rcases Nat.lt_or_eq_of_le h with hlt | rfl
  · refine Dvd.dvd.mul_left (Nat.pow_dvd_pow 2 ?_) n
    rcases Nat.eq_zero_or_pos n with rfl | hn
    · simp [roundPlace]
    · have hlt' : n * 2 ^ 149 < 2 ^ 173 := by omega
      have := (Nat.log2_lt (by omega)).2 hlt'
      unfold roundPlace
      omega
  · rw [← Nat.pow_add]
    refine Nat.pow_dvd_pow 2 ?_
    rw [← Nat.pow_add] at hlog
    unfold roundPlace
    omega

/-- The magnitude of an integer is far from an overflow. -/
theorem fIsFinite_fOfInt {x : Int} (h : in32 x = true) : fIsFinite (fOfInt x) = true := by
  obtain ⟨hlo, hhi⟩ := (in32_iff x).1 h
  unfold fOfInt
  rw [fIsFinite_roundMag, Bool.not_eq_true', ← Bool.not_eq_true, fIsInf_roundMag]
  have : x.natAbs ≤ 2147483648 := by omega
  omega

/-- The integer as a sign and a magnitude, in units of 2^-149. -/
theorem int_units (x : Int) : x * 2 ^ 149 =
    if decide (x < 0) then -((x.natAbs * 2 ^ 149 : Nat) : Int) else ((x.natAbs * 2 ^ 149 : Nat) : Int) := by
  by_cases h : x < 0 <;> simp only [h, decide_true, decide_false, if_true, Bool.false_eq_true, if_false] <;> omega

theorem fUnits_fOfInt_of_le {x : Int} (h : x.natAbs ≤ 2 ^ 24) : fUnits (fOfInt x) = x * 2 ^ 149 := by
  have hin : in32 x = true := (in32_iff x).2 (by omega)
  have hfin := fIsFinite_fOfInt hin
  have hle := roundMag_le (x.natAbs * 2 ^ 149) 0
  have hlt := (fIsFinite_withSign (by omega)).1 hfin
  have hbits : roundMag (x.natAbs * 2 ^ 149) 0 = roundBits (x.natAbs * 2 ^ 149) 0 := by
    rw [roundMag_eq] at hlt ⊢
    omega
  have hval := magValue_roundBits (x.natAbs * 2 ^ 149) 0
  rw [roundShift_mul_of_dvd (two_pow_roundPlace_dvd h), Nat.pow_zero, Nat.mul_one] at hval
  unfold fUnits
  rw [int_units x]
  unfold fOfInt
  rw [fSign_roundMag, fMag_withSign (by omega), hbits, hval]

/-- Settles O30: rounding to nearest, far from an overflow, and exact where the place divides the integer. -/
theorem intToFloatNearest : Obligations.IntToFloatNearest := by
  refine ⟨fun x hx => ⟨fIsFinite_fOfInt hx, fun z _ => ?_, fUnits_fOfInt_of_le⟩, ?_⟩
  · have h := nearest_withSign (t := 0) (int_units x) (fIsFinite_fOfInt hx) (z := z)
    rw [pow_zero, mul_one, mul_one] at h
    exact h
  · decide +kernel

/-! ### The product -/

/-- When a product is a NaN (R18). -/
theorem fMul?_eq_none_iff (x y : Word32) : fMul? x y = none ↔
    (fIsNaN x = true ∨ fIsNaN y = true ∨ (fIsInf x = true ∧ fIsZero y = true) ∨
      (fIsZero x = true ∧ fIsInf y = true)) := by
  unfold fMul?
  dsimp only
  cases hnx : fIsNaN x with
  | true => simp
  | false =>
    cases hny : fIsNaN y with
    | true => simp
    | false =>
      cases hix : fIsInf x with
      | true => simp [fIsZero_of_fIsInf hix]
      | false => cases hiy : fIsInf y <;> simp

/-- A product with an infinity that is no NaN is an infinity (R18). -/
theorem fMul?_of_inf {x y r : Word32} (h : fIsInf x = true ∨ fIsInf y = true) (hr : fMul? x y = some r) :
    r = fInf (fSign x != fSign y) := by
  unfold fMul? at hr
  split at hr
  · cases hr
  · dsimp only at hr
    split at hr
    · split at hr
      · cases hr
      · exact (Option.some.inj hr).symm
    · next hx =>
      rw [if_pos (h.resolve_left hx)] at hr
      split at hr
      · cases hr
      · exact (Option.some.inj hr).symm

/-- A product of finite values is the exact product rounded once (R18). -/
theorem fMul?_of_finite {x y : Word32} (hx : fIsFinite x = true) (hy : fIsFinite y = true) :
    fMul? x y = some (withSign (fSign x != fSign y) (roundMag (fMag x * fMag y) 149)) := by
  obtain ⟨hnx, hix⟩ := (fIsFinite_eq_true_iff x).1 hx
  obtain ⟨hny, hiy⟩ := (fIsFinite_eq_true_iff y).1 hy
  simp [fMul?, hnx, hix, hny, hiy]

/-- The exact product as a sign and a magnitude. -/
theorem fUnits_mul (x y : Word32) : fUnits x * fUnits y =
    if (fSign x != fSign y) then -((fMag x * fMag y : Nat) : Int) else ((fMag x * fMag y : Nat) : Int) := by
  unfold fUnits
  cases fSign x <;> cases fSign y <;> simp

/-- Settles O31: a product that is no NaN is an infinity's or the exact product of finite values rounded once. -/
theorem productNearest : Obligations.ProductNearest := by
  intro x y
  refine ⟨fMul?_eq_none_iff x y, fun r hr => ?_⟩
  by_cases hinf : fIsInf x = true ∨ fIsInf y = true
  · obtain rfl := fMul?_of_inf hinf hr
    refine ⟨fIsNaN_fInf _, fSign_fInf _, fun _ => fIsInf_fInf _, fun hx hy => ?_⟩
    have hix := ((fIsFinite_eq_true_iff x).1 hx).2
    have hiy := ((fIsFinite_eq_true_iff y).1 hy).2
    simp [hix, hiy] at hinf
  · have hnone := mt (fMul?_eq_none_iff x y).2 (by simp [hr])
    simp only [not_or, Bool.not_eq_true] at hinf hnone
    have hx : fIsFinite x = true := (fIsFinite_eq_true_iff x).2 ⟨hnone.1, hinf.1⟩
    have hy : fIsFinite y = true := (fIsFinite_eq_true_iff y).2 ⟨hnone.2.1, hinf.2⟩
    rw [fMul?_of_finite hx hy] at hr
    obtain rfl := Option.some.inj hr
    refine ⟨fIsNaN_roundMag, fSign_roundMag _ _ _, fun h => by simp [hinf] at h, fun _ _ => ⟨?_, fun hfin z _ => ?_⟩⟩
    · rw [fIsInf_roundMag, Int.natAbs_mul, natAbs_fUnits, natAbs_fUnits]
    · exact nearest_withSign (fUnits_mul x y) hfin

/-! ### The sum -/

/-- When a sum is a NaN (R19). -/
theorem fAdd?_eq_none_iff (x y : Word32) : fAdd? x y = none ↔
    (fIsNaN x = true ∨ fIsNaN y = true ∨ (fIsInf x = true ∧ fIsInf y = true ∧ fSign x ≠ fSign y)) := by
  unfold fAdd?
  dsimp only
  cases fIsNaN x with
  | true => simp
  | false =>
    cases fIsNaN y with
    | true => simp
    | false =>
      cases fIsInf x with
      | true => cases fIsInf y <;> simp
      | false =>
        cases fIsInf y with
        | true => simp
        | false =>
          simp only [Bool.or_self, Bool.false_eq_true, if_false]
          split <;> simp

/-- A sum with an infinity that is no NaN is that infinity (R19). -/
theorem fAdd?_of_inf_left {x y r : Word32} (hx : fIsInf x = true) (hr : fAdd? x y = some r) : r = x := by
  unfold fAdd? at hr
  simp only [hx, if_true] at hr
  split at hr
  · cases hr
  · split at hr
    · cases hr
    · exact (Option.some.inj hr).symm

/-- The same of the second summand: infinities of one sign are one pattern. -/
theorem fAdd?_of_inf_right {x y r : Word32} (hy : fIsInf y = true) (hr : fAdd? x y = some r) : r = y := by
  by_cases hx : fIsInf x = true
  · have hsome : fAdd? x y ≠ none := by simp [hr]
    have hsign : fSign x = fSign y := by
      by_contra hne
      exact hsome ((fAdd?_eq_none_iff x y).2 (.inr (.inr ⟨hx, hy, hne⟩)))
    rw [fAdd?_of_inf_left hx hr, eq_fInf_of_fIsInf hx, hsign, ← eq_fInf_of_fIsInf hy]
  · unfold fAdd? at hr
    rw [if_neg hx, if_pos hy] at hr
    split at hr
    · cases hr
    · exact (Option.some.inj hr).symm

theorem fAdd?_finite_inf {x y : Word32} (hx : fIsFinite x = true) (hy : fIsInf y = true) : fAdd? x y = some y := by
  obtain ⟨hnx, hix⟩ := (fIsFinite_eq_true_iff x).1 hx
  simp [fAdd?, hnx, hix, hy, fIsNaN_of_fIsInf hy]

/-- The sign of a sum of finite values; an exact zero sum is positive, but for (-0) + (-0) (R19). -/
def sumSign (x y : Word32) : Bool :=
  if fUnits x + fUnits y = 0 then fSign x && fSign y else decide (fUnits x + fUnits y < 0)

/-- A sum of finite values is the exact sum rounded once (R19). -/
theorem fAdd?_of_finite {x y : Word32} (hx : fIsFinite x = true) (hy : fIsFinite y = true) :
    fAdd? x y = some (withSign (sumSign x y) (roundMag (fUnits x + fUnits y).natAbs 0)) := by
  obtain ⟨hnx, hix⟩ := (fIsFinite_eq_true_iff x).1 hx
  obtain ⟨hny, hiy⟩ := (fIsFinite_eq_true_iff y).1 hy
  unfold fAdd? sumSign
  by_cases h : fUnits x + fUnits y = 0
  · simp [hnx, hix, hny, hiy, h, roundMag_zero, fZero]
  · simp [hnx, hix, hny, hiy, h]

/-- The exact sum as a sign and a magnitude. -/
theorem fUnits_add (x y : Word32) : fUnits x + fUnits y =
    if sumSign x y then -((fUnits x + fUnits y).natAbs : Int) else ((fUnits x + fUnits y).natAbs : Int) := by
  unfold sumSign
  by_cases h : fUnits x + fUnits y = 0
  · simp [h]
  · by_cases hneg : fUnits x + fUnits y < 0 <;>
      simp only [h, hneg, decide_true, decide_false, if_true, if_false, Bool.false_eq_true] <;> omega

/-- An exact zero sum (R19). -/
theorem withSign_sumSign_zero {x y : Word32} (h : fUnits x + fUnits y = 0) :
    withSign (sumSign x y) (roundMag (fUnits x + fUnits y).natAbs 0) =
      if fSign x && fSign y then 0x80000000 else 0x00000000 := by
  rw [sumSign, if_pos h, h, Int.natAbs_zero, roundMag_zero]
  cases fSign x && fSign y <;> rfl

/-- Settles O32: a sum that is no NaN is an infinity's or the exact sum of finite values rounded once. -/
theorem sumNearest : Obligations.SumNearest := by
  intro x y
  refine ⟨fAdd?_eq_none_iff x y, fun r hr => ?_⟩
  have hinfx : fIsInf x = true → r = x := fun hx => fAdd?_of_inf_left hx hr
  have hinfy : fIsInf y = true → r = y := fun hy => fAdd?_of_inf_right hy hr
  have hnone := mt (fAdd?_eq_none_iff x y).2 (by simp [hr])
  simp only [not_or, Bool.not_eq_true] at hnone
  by_cases hfin : fIsFinite x = true ∧ fIsFinite y = true
  · rw [fAdd?_of_finite hfin.1 hfin.2] at hr
    obtain rfl := Option.some.inj hr
    refine ⟨fIsNaN_roundMag, hinfx, hinfy, fun _ _ =>
      ⟨withSign_sumSign_zero, fun hne => ?_, ?_, fun hr z _ => ?_⟩⟩
    · rw [fSign_roundMag, sumSign, if_neg hne]
    · rw [fIsInf_roundMag, pow_zero, mul_one]
    · have h := nearest_withSign (t := 0) (fUnits_add x y) hr (z := z)
      rw [pow_zero, mul_one, mul_one] at h
      exact h
  · have hnan : fIsNaN r = false := by
      cases hix : fIsInf x with
      | true => exact hinfx hix ▸ hnone.1
      | false =>
        cases hiy : fIsInf y with
        | true => exact hinfy hiy ▸ hnone.2.1
        | false =>
          exact absurd ⟨(fIsFinite_eq_true_iff x).2 ⟨hnone.1, hix⟩, (fIsFinite_eq_true_iff y).2 ⟨hnone.2.1, hiy⟩⟩ hfin
    exact ⟨hnan, hinfx, hinfy, fun hx hy => absurd ⟨hx, hy⟩ hfin⟩

/-! ### NaNs and zeros -/

theorem nanPattern_bits_lt (opc : BitVec 8) (n : Nat) :
    255 * 8388608 + 1 + (Config.freeNaNFraction opc n).val < 2147483648 := by
  have := (Config.freeNaNFraction opc n).isLt
  omega

/-- A draw is a NaN (R20). -/
theorem fIsNaN_nanPattern (opc : BitVec 8) (n : Nat) : fIsNaN (nanPattern opc n) = true := by
  have h := nanPattern_bits_lt opc n
  unfold fIsNaN nanPattern
  rw [fExp_withSign h, fFrac_withSign h, Bool.and_eq_true, beq_iff_eq, bne_iff_ne]
  omega

/-- A float result with a value draws nothing (R20). -/
theorem orNaN_some (f : Word32) (s : State) : orNaN (some f) s = .ok f s := rfl

/-- A float result without a value is the next NaN pattern (R20). -/
theorem orNaN_none (s : State) :
    orNaN none s = .ok (nanPattern s.inst.running s.draws) { s with draws := s.draws + 1 } := rfl

/-- Settles O33: the fields of a drawn pattern, and what a float result draws. -/
theorem naNsAreDraws : Obligations.NaNsAreDraws := by
  refine ⟨fun opc n => ⟨fIsNaN_nanPattern opc n, fSign_withSign (nanPattern_bits_lt opc n), ?_⟩, fun s x y =>
    ⟨fun h => ?_, fun h => ?_, fun r h => ?_, fun r h => ?_⟩⟩
  · have h := nanPattern_bits_lt opc n
    rw [nanPattern, fFrac_withSign h]
    omega
  · rw [fMul, h, orNaN_none]
  · rw [fAdd, h, orNaN_none]
  · rw [fMul, h, orNaN_some]
  · rw [fAdd, h, orNaN_some]

/-- A zero of either sign and a finite value that is not -0.0 have one sum, whatever the sign of the zero (R19). -/
theorem sumSign_zero {c : Word32} (hc : c ≠ 0x80000000) : sumSign 0x80000000 c = sumSign 0x00000000 c := by
  have hminus : fUnits 0x80000000 = 0 := by decide
  have hplus : fUnits 0x00000000 = 0 := by decide
  unfold sumSign
  rw [hminus, hplus, zero_add]
  by_cases h : fUnits c = 0
  · have hsign : fSign c = false := by
      by_contra hs
      rw [Bool.not_eq_false] at hs
      exact hc ((eq_fZero_of_fUnits_eq_zero h).trans (by rw [hs]; rfl))
    simp [h, hsign]
  · simp [h]

/-- Settles O34: only a contribution that is itself a zero meets the sign of the zero it starts from. -/
theorem preZero : Obligations.PreZero := by
  refine ⟨fun c hnan hc => ?_, by decide, by decide⟩
  have hminus : fIsFinite 0x80000000 = true := by decide
  have hplus : fIsFinite 0x00000000 = true := by decide
  cases hinf : fIsInf c with
  | true => rw [fAdd?_finite_inf hminus hinf, fAdd?_finite_inf hplus hinf]
  | false =>
    have hfin := (fIsFinite_eq_true_iff c).2 ⟨hnan, hinf⟩
    rw [fAdd?_of_finite hminus hfin, fAdd?_of_finite hplus hfin, sumSign_zero hc]
    rfl

end Sys2Proof.Machine
end

section
/-! PROOFS. The kernels against their references, where no other agent is at work and no running value leaves int32: each
completes, and memory and draws are those of the reference (41_dense_kernels.md R137, R142; 42_sparse_kernels.md R176, R178). -/

namespace Sys2Proof.Machine

/-! ### A command whose pseudocode is known -/

/-- A command whose pseudocode completes ends so, where no other agent is at work (R38). -/
theorem exec_of_ok {i : Instr} {s : State} {p : Progress} {w : Work} (ha : s.accepts) (hf : s.foreign = [])
    (h : bodyOf i ((s.busyWith i.opc).at (s.mem, s.draws) Work.fresh) = .ok () ((s.busyWith i.opc).at p w)) :
    exec i s = .next (s.afterCommand p.1 p.2) := by
  rw [exec_eq_runCommand, runCommand_of_accepts ha, runBody_of_nil hf, State.startCommand_eq_at, h, finish_ok_at hf]

/-- A command whose pseudocode raises ends with the cause recorded, where no other agent is at work (R201). -/
theorem exec_of_error {i : Instr} {s : State} {c : Cause} {p : Progress} {w : Work} (ha : s.accepts) (hf : s.foreign = [])
    (h : bodyOf i ((s.busyWith i.opc).at (s.mem, s.draws) Work.fresh) = .error c ((s.busyWith i.opc).at p w)) :
    exec i s = .next ((s.afterCommand p.1 p.2).recordFault i.opc c) := by
  rw [exec_eq_runCommand, runCommand_of_accepts ha, runBody_of_nil hf, State.startCommand_eq_at, h,
    finish_error_at hf ha.1]

/-- The operands that a command decodes in `s` are those it decodes as it runs. -/
theorem ArgReader.bind_at {α β : Type} {m : Cmd α} {f : α → Cmd β} (h : ArgReader m) {s : State} {a : α} {o : BitVec 8}
    {p : Progress} {w : Work} (hs : operandsOf m s = some a) :
    (m >>= f) ((s.busyWith o).at p w) = f a ((s.busyWith o).at p w) :=
  Cmd.bind_ok (h.ok_of_same hs rfl rfl)

/-! ### Memories that agree on the input bytes -/

/-- The two memories agree on the bytes of `I`. -/
def AgreeOn (I : Nat → Prop) (m m' : Memory) : Prop := ∀ x, I x → m.read x = m'.read x

theorem AgreeOn.refl (I : Nat → Prop) (m : Memory) : AgreeOn I m m := fun _ _ => rfl

theorem AgreeOn.mono {I J : Nat → Prop} {m m' : Memory} (h : AgreeOn I m m') (hJ : ∀ x, J x → I x) : AgreeOn J m m' :=
  fun x hx => h x (hJ x hx)

theorem AgreeOn.read32 {I : Nat → Prop} {m m' : Memory} {a : Nat} (h : AgreeOn I m m')
    (ha : ∀ x, inElement x (a : Int) → I x) : m.read32 a = m'.read32 a :=
  Memory.read32_congr fun x h1 h2 => h x (ha x ⟨h1, h2⟩)

/-- A contribution to an element that is no input leaves the input bytes alone. -/
theorem AgreeOn.addTo {I : Nat → Prop} {m m' : Memory} {o : BitVec 8} {e : Int} {c : Word32 × Nat}
    (h : AgreeOn I m m') (he : ∀ x, inElement x e → ¬ I x) : AgreeOn I (addTo o e.toNat c m).1 m' := fun x hx => by
  rw [addTo_read_other, h x hx]
  by_contra hin
  exact he x ⟨by omega, by omega⟩ hx

/-! ### The dense kernels -/

section Dense

variable {s : State} {d : DenseArgs} {m : Memory} {p : Progress} {w : Work} {I O : Nat → Prop} {b r : Nat}

theorem denseTerm_agree {c : Config} {m' : Memory} (h : AgreeOn d.inputByte m' m) (hb : b < d.batch) (hr : r < d.rows)
    {n : Nat} (hn : n ≤ d.cols) : sumTo (denseTerm c m' d b r) n = sumTo (denseTerm c m d b r) n :=
  sumTo_congr fun j hj => denseTerm_congr (h _ (.inr (.inr ⟨b, hb, j, by omega, rfl⟩)))
    (h _ (.inr (.inl ⟨r, hr, j, by omega, rfl⟩)))

theorem denseRowSum_agree {m' : Memory} (h : AgreeOn d.inputByte m' m) (hr : r < d.rows) {n : Nat} (hn : n ≤ d.cols) :
    sumTo (fun j => s8 (m'.read (d.matrixAt r j))) n = sumTo (fun j => s8 (m.read (d.matrixAt r j))) n :=
  sumTo_congr fun j hj => by rw [h _ (.inr (.inl ⟨r, hr, j, by omega, rfl⟩))]

/-- What the caller has made available holds for each row scan. -/
theorem DenseReady.rowInputs (h : DenseReady s.cfg d) (hI : ∀ x, d.inputByte x → I x) (hb : b < d.batch)
    (hr : r < d.rows) : RowInputs s d I b r where
  vector j hj := ⟨h.vectors b hb r hr j hj, hI _ (.inr (.inr ⟨b, hb, j, hj, rfl⟩))⟩
  matrix j hj := ⟨h.matrix b hb r hr j hj, hI _ (.inr (.inl ⟨r, hr, j, hj, rfl⟩))⟩

/-- The bytes of the result elements (R133). -/
def DenseArgs.resultByte (d : DenseArgs) (x : Nat) : Prop := ∃ b < d.batch, ∃ r < d.rows, inElement x (d.resAddr b r)

/-- What row `r` of batch `b` does to memory under DMMA.S (R137). -/
def dmmaSRow (c : Config) (m : Memory) (d : DenseArgs) (b r : Nat) (p : Progress) : Progress :=
  addTo 0x10 (d.resAddr b r).toNat
    (valueOrDraw 0x10 (fMul? (fOfInt (wrap32 (denseDot c m d b r))) (m.read32 (d.scales + 4 * b))) p.2) p.1

theorem dmmaSReference_eq (c : Config) (m : Memory) (d : DenseArgs) (p : Progress) :
    dmmaSReference c m d p = upTo (fun b => upTo (dmmaSRow c m d b) d.rows) d.batch p := rfl

/-- The row step of DMMA.S is the reference's, while the inputs are those of `m`. -/
theorem denseRow_reference (hf : s.foreign = []) (hrun : s.inst.running = 0x10) (hready : DenseReady s.cfg d)
    (hfit : denseFits s.cfg m d) (hdisj : ∀ x, d.resultByte x → ¬ d.inputByte x) (hb : b < d.batch) (hr : r < d.rows)
    (hp : AgreeOn d.inputByte p.1 m) (ht : TraceIn d.inputByte d.resultByte w.trace) :
    ∃ w', denseRow d b (m.read32 (d.scales + 4 * b)) r (s.at p w) = .ok () (s.at (dmmaSRow s.cfg m d b r p) w') ∧
      AgreeOn d.inputByte (dmmaSRow s.cfg m d b r p).1 m ∧ TraceIn d.inputByte d.resultByte w'.trace := by
  obtain ⟨hread, hwrite⟩ := hready.result b hb r hr
  have hO : ∀ x, inElement x (d.resAddr b r) → d.resultByte x := fun x hx => ⟨b, hb, r, hr, hx⟩
  obtain ⟨w', hrow, ht'⟩ := denseRow_at (p := p) (bs := m.read32 (d.scales + 4 * b)) hf
    (hready.rowInputs (fun _ h => h) hb hr) ht
    (fun n hn => hfit.imp id fun h => by rw [denseTerm_agree hp hb hr hn.1]; exact h b hb r hr n hn) hread hwrite hO
  rw [denseDot, denseTerm_agree hp hb hr (Nat.le_refl _), ← denseDot, hrun] at hrow
  exact ⟨w', hrow, hp.addTo fun x hx => hdisj x (hO x hx), ht'⟩

/-- The batch step of DMMA.S is the reference's, while the inputs are those of `m`. -/
theorem denseBatch_reference (hf : s.foreign = []) (hrun : s.inst.running = 0x10) (hready : DenseReady s.cfg d)
    (hfit : denseFits s.cfg m d) (hdisj : ∀ x, d.resultByte x → ¬ d.inputByte x) (hb : b < d.batch)
    (hp : AgreeOn d.inputByte p.1 m) (ht : TraceIn d.inputByte d.resultByte w.trace) :
    ∃ w', denseBatch d b (s.at p w) = .ok () (s.at (upTo (dmmaSRow s.cfg m d b) d.rows p) w') ∧
      AgreeOn d.inputByte (upTo (dmmaSRow s.cfg m d b) d.rows p).1 m ∧ TraceIn d.inputByte d.resultByte w'.trace := by
  have hI : ∀ x, inElement x (d.scales + 4 * b : Nat) → d.inputByte x := fun x hx => .inl ⟨b, hb, hx⟩
  unfold denseBatch
  rw [Cmd.bind_ok (updateWork_apply _ _), State.at_workNow, State.at_withWork,
    Cmd.bind_ok (ldInput32_at hf _ _ (hready.scales b hb)), hp.read32 hI]
  exact loop_at (fun p => AgreeOn d.inputByte p.1 m) (fun _ w => TraceIn d.inputByte d.resultByte w.trace) hp
    (ht.input fun x h1 h2 => hI x ⟨h1, h2⟩)
    fun r hr p w hp ht => denseRow_reference hf hrun hready hfit hdisj hb hr hp ht

/-- DMMA.S completes with the memory and the draws of its reference (R137, R138). -/
theorem exec_dmmaS (ha : s.accepts) (hf : s.foreign = []) (hd : operandsOf denseArgs s = some d)
    (hready : DenseReady s.cfg d) (hfit : denseFits s.cfg s.mem d) (hdisj : ∀ x, d.resultByte x → ¬ d.inputByte x) :
    exec .dmmaS s = .next (s.afterCommand
      (dmmaSReference s.cfg s.mem d (s.mem, s.draws)).1 (dmmaSReference s.cfg s.mem d (s.mem, s.draws)).2) := by
  obtain ⟨w, hloop, -, ht⟩ := loop_at (s := s.busyWith 0x10) (body := fun b => denseBatch d b)
    (f := fun b => upTo (dmmaSRow s.cfg s.mem d b) d.rows) (fun p => AgreeOn d.inputByte p.1 s.mem)
    (fun _ w => TraceIn d.inputByte d.resultByte w.trace) (n := d.batch) (p := (s.mem, s.draws)) (w := Work.fresh)
    (AgreeOn.refl _ _) (TraceIn.nil _ _)
    fun b hb p w hp ht => denseBatch_reference (s := s.busyWith 0x10) hf rfl hready hfit hdisj hb hp ht
  refine exec_of_ok ha hf (w := w) ?_
  show dmmaSBody ((s.busyWith 0x10).at (s.mem, s.draws) Work.fresh) = .ok () ((s.busyWith 0x10).at _ w)
  unfold dmmaSBody
  rw [ArgReader.denseArgs.bind_at hd, Cmd.bind_ok hloop, aliasCheck_at _ _ ht hdisj]
  rfl

/-- What row `r` of batch `b` does to memory under DMMA.A (R142). -/
def dmmaARow (c : Config) (m : Memory) (d : DenseArgs) (pcs offsets b r : Nat) (p : Progress) : Progress :=
  addTo 0x11 (d.resAddr b r).toNat
    (scaleOrDraw 0x11 c.asymOrder (wrap32 (denseAdjusted c m d offsets b r)) (m.read32 (d.scales + 4 * b))
      (m.read32 (pcs + 4 * r)) p.2) p.1

theorem dmmaAReference_eq (c : Config) (m : Memory) (d : DenseArgs) (pcs offsets : Nat) (p : Progress) :
    dmmaAReference c m d pcs offsets p = upTo (fun b => upTo (dmmaARow c m d pcs offsets b) d.rows) d.batch p := rfl

variable {pcs offsets : Nat}

/-- The row step of DMMA.A is the reference's, while the inputs are those of `m`. -/
theorem asymRow_reference (hf : s.foreign = []) (hrun : s.inst.running = 0x11) (hready : AsymReady s.cfg d pcs offsets)
    (hfit : asymFits s.cfg m d offsets) (hdisj : ∀ x, d.resultByte x → ¬ asymInputByte d pcs offsets x)
    (hb : b < d.batch) (hr : r < d.rows) (hp : AgreeOn (asymInputByte d pcs offsets) p.1 m)
    (ht : TraceIn (asymInputByte d pcs offsets) d.resultByte w.trace) :
    ∃ w', asymRow d pcs b (m.read32 (d.scales + 4 * b)) (m.read32 (offsets + 4 * b)) r (s.at p w) =
        .ok () (s.at (dmmaARow s.cfg m d pcs offsets b r p) w') ∧
      AgreeOn (asymInputByte d pcs offsets) (dmmaARow s.cfg m d pcs offsets b r p).1 m ∧
      TraceIn (asymInputByte d pcs offsets) d.resultByte w'.trace := by
  obtain ⟨hread, hwrite⟩ := hready.result b hb r hr
  have hO : ∀ x, inElement x (d.resAddr b r) → d.resultByte x := fun x hx => ⟨b, hb, r, hr, hx⟩
  have hcI : ∀ x, inElement x (pcs + 4 * r : Nat) → asymInputByte d pcs offsets x := fun x hx => .inr (.inr ⟨r, hr, hx⟩)
  have hoff : offsetAt p.1 offsets b = offsetAt m offsets b := by
    rw [offsetAt, hp.read32 fun x hx => .inr (.inl ⟨b, hb, hx⟩), offsetAt]
  have hpd : AgreeOn d.inputByte p.1 m := hp.mono fun x hx => .inl hx
  have hdot : denseDot s.cfg p.1 d b r = denseDot s.cfg m d b r := denseTerm_agree hpd hb hr (Nat.le_refl _)
  have hsum : denseRowSum p.1 d r = denseRowSum m d r := denseRowSum_agree hpd hr (Nat.le_refl _)
  have hadj : denseAdjusted s.cfg p.1 d offsets b r = denseAdjusted s.cfg m d offsets b r := by
    rw [denseAdjusted, hdot, hsum, hoff, denseAdjusted]
  obtain ⟨w', hrow, ht'⟩ := asymRow_at (p := p) (pcs := pcs) (offsets := offsets) (bs := m.read32 (d.scales + 4 * b))
    (off := m.read32 (offsets + 4 * b)) hf (hready.rowInputs (fun _ h => .inl h) hb hr) ht
    (by rw [hoff, offsetAt])
    (hfit.imp id fun h => by
      obtain ⟨hsums, hprod, hdiff⟩ := h b hb r hr
      rw [hsum, hoff, hadj]
      refine ⟨fun n hn => ?_, hprod, hdiff⟩
      rw [denseTerm_agree hpd hb hr hn.1, denseRowSum_agree hpd hr hn.1]
      exact hsums n hn)
    (hready.perChannel b hb r hr) hcI hread hwrite hO
  rw [hadj, hp.read32 hcI, hrun] at hrow
  exact ⟨w', hrow, hp.addTo fun x hx => hdisj x (hO x hx), ht'⟩

/-- The batch step of DMMA.A is the reference's, while the inputs are those of `m`. -/
theorem asymBatch_reference (hf : s.foreign = []) (hrun : s.inst.running = 0x11) (hready : AsymReady s.cfg d pcs offsets)
    (hfit : asymFits s.cfg m d offsets) (hdisj : ∀ x, d.resultByte x → ¬ asymInputByte d pcs offsets x)
    (hb : b < d.batch) (hp : AgreeOn (asymInputByte d pcs offsets) p.1 m)
    (ht : TraceIn (asymInputByte d pcs offsets) d.resultByte w.trace) :
    ∃ w', asymBatch d pcs offsets b (s.at p w) = .ok () (s.at (upTo (dmmaARow s.cfg m d pcs offsets b) d.rows p) w') ∧
      AgreeOn (asymInputByte d pcs offsets) (upTo (dmmaARow s.cfg m d pcs offsets b) d.rows p).1 m ∧
      TraceIn (asymInputByte d pcs offsets) d.resultByte w'.trace := by
  have hI : ∀ x, inElement x (d.scales + 4 * b : Nat) → asymInputByte d pcs offsets x := fun x hx => .inl (.inl ⟨b, hb, hx⟩)
  have hI' : ∀ x, inElement x (offsets + 4 * b : Nat) → asymInputByte d pcs offsets x := fun x hx => .inr (.inl ⟨b, hb, hx⟩)
  unfold asymBatch
  rw [Cmd.bind_ok (updateWork_apply _ _), State.at_workNow, State.at_withWork,
    Cmd.bind_ok (ldInput32_at hf _ _ (hready.scales b hb)), hp.read32 hI,
    Cmd.bind_ok (ldInput32_at hf _ _ (hready.offsets b hb)), hp.read32 hI']
  exact loop_at (fun p => AgreeOn (asymInputByte d pcs offsets) p.1 m)
    (fun _ w => TraceIn (asymInputByte d pcs offsets) d.resultByte w.trace) hp
    ((ht.input fun x h1 h2 => hI x ⟨h1, h2⟩).input fun x h1 h2 => hI' x ⟨h1, h2⟩)
    fun r hr p w hp ht => asymRow_reference hf hrun hready hfit hdisj hb hr hp ht

/-- DMMA.A completes with the memory and the draws of its reference (R142, R145). -/
theorem exec_dmmaA (ha : s.accepts) (hf : s.foreign = []) (hd : operandsOf denseArgs s = some d)
    (hpcs : operandsOf (argAddr 8) s = some pcs) (hoffs : operandsOf (argAddr 9) s = some offsets)
    (hready : AsymReady s.cfg d pcs offsets) (hfit : asymFits s.cfg s.mem d offsets)
    (hdisj : ∀ x, d.resultByte x → ¬ asymInputByte d pcs offsets x) :
    exec .dmmaA s = .next (s.afterCommand
      (dmmaAReference s.cfg s.mem d pcs offsets (s.mem, s.draws)).1
      (dmmaAReference s.cfg s.mem d pcs offsets (s.mem, s.draws)).2) := by
  obtain ⟨w, hloop, -, ht⟩ := loop_at (s := s.busyWith 0x11) (body := fun b => asymBatch d pcs offsets b)
    (f := fun b => upTo (dmmaARow s.cfg s.mem d pcs offsets b) d.rows)
    (fun p => AgreeOn (asymInputByte d pcs offsets) p.1 s.mem)
    (fun _ w => TraceIn (asymInputByte d pcs offsets) d.resultByte w.trace)
    (n := d.batch) (p := (s.mem, s.draws)) (w := Work.fresh) (AgreeOn.refl _ _) (TraceIn.nil _ _)
    fun b hb p w hp ht => asymBatch_reference (s := s.busyWith 0x11) hf rfl hready hfit hdisj hb hp ht
  refine exec_of_ok ha hf (w := w) ?_
  show dmmaABody ((s.busyWith 0x11).at (s.mem, s.draws) Work.fresh) = .ok () ((s.busyWith 0x11).at _ w)
  unfold dmmaABody
  rw [ArgReader.denseArgs.bind_at hd, (ArgReader.argAddr 8).bind_at hpcs, (ArgReader.argAddr 9).bind_at hoffs,
    Cmd.bind_ok hloop, aliasCheck_at _ _ ht hdisj]
  rfl

end Dense

/-! ### The sparse kernels -/

section Sparse

variable {s : State} {m : Memory} {p : Progress} {w : Work} {I O : Nat → Prop}

/-- The bytes of a walk's result elements (R176). -/
def SparseArgs.resultByte (a : SparseArgs) (x : Nat) : Prop := ∃ r < a.rows, inElement x (a.resAddr r)

/-- What row `r` of a walk does to memory (R176). -/
def sparseRowRef (opc : BitVec 8) (c : Config) (m : Memory) (a : SparseArgs) (r : Nat) (p : Progress) : Progress :=
  addTo opc (a.resAddr r).toNat (valueOrDraw opc (fMul? (fOfInt (sparseDot c m a r)) a.scale) p.2) p.1

theorem sparseReference_eq (opc : BitVec 8) (c : Config) (m : Memory) (a : SparseArgs) (p : Progress) :
    sparseReference opc c m a p = upTo (sparseRowRef opc c m a) a.rows p := rfl

/-- A walk is the reference's, while the inputs are those of `m` (R176). `I` and `O` are the input and the result bytes of
the command that the walk is part of. -/
theorem sparseBody_reference {a : SparseArgs} (hf : s.foreign = []) (hready : SparseReady s.cfg m a)
    (hI : ∀ x, sparseInputByte m a x → I x) (hO : ∀ x, a.resultByte x → O x) (hdisj : ∀ x, O x → ¬ I x)
    (hp : AgreeOn I p.1 m) (ht : TraceIn I O w.trace) :
    ∃ w', sparseBody a (s.at p w) = .ok () (s.at (sparseReference s.inst.running s.cfg m a p) w') ∧
      AgreeOn I (sparseReference s.inst.running s.cfg m a p).1 m ∧ TraceIn I O w'.trace := by
  unfold sparseBody
  rw [Cmd.bind_ok (updateWork_apply _ _), State.at_workNow, State.at_withWork]
  obtain ⟨w', hloop, hp', -, -, ht'⟩ := loop_at (s := s) (body := fun r => sparseRow a r)
    (f := sparseRowRef s.inst.running s.cfg m a) (fun p => AgreeOn I p.1 m)
    (fun r w => w.lc = ledgerAt m a.ledger r ∧ w.mc = packedAt m a.matrix a.ledger r ∧ TraceIn I O w.trace)
    (n := a.rows) (p := p) (w := { w with lc := a.ledger, mc := a.matrix }) hp ⟨rfl, rfl, ht⟩
    (fun r hr p w hp ⟨hlc, hmc, ht⟩ => by
      have hOr : ∀ x, inElement x (a.resAddr r) → O x := fun x hx => hO x ⟨r, hr, hx⟩
      obtain ⟨w', hrow, hrest⟩ := sparseRow_at hf hr (fun x hx => hp x (hI x hx)) hready hlc hmc hI hOr ht
      exact ⟨w', hrow, hp.addTo fun x hx => hdisj x (hOr x hx), hrest⟩)
  exact ⟨w', hloop, hp', ht'⟩

theorem blockPrecond_of_whole {cols : Nat} (h : cols % 16 = 0) (s : State) : blockPrecond cols s = .ok () s := by
  unfold blockPrecond
  rw [Cmd.bind_ok (config_apply _), if_pos h]
  rfl

/-- SMMA completes with the memory and the draws of its reference (R176, R182). -/
theorem exec_smma {a : SparseArgs} (ha : s.accepts) (hf : s.foreign = []) (hops : operandsOf sparseArgs s = some a)
    (hwhole : a.cols % 16 = 0) (hready : SparseReady s.cfg s.mem a)
    (hdisj : ∀ x, a.resultByte x → ¬ sparseInputByte s.mem a x) :
    exec .smma s = .next (s.afterCommand
      (sparseReference 0x20 s.cfg s.mem a (s.mem, s.draws)).1 (sparseReference 0x20 s.cfg s.mem a (s.mem, s.draws)).2) := by
  obtain ⟨w, hbody, -, ht⟩ := sparseBody_reference (s := s.busyWith 0x20) (p := (s.mem, s.draws)) (w := Work.fresh) hf
    hready (fun _ h => h) (fun _ h => h) hdisj (AgreeOn.refl _ _) (TraceIn.nil _ _)
  refine exec_of_ok ha hf (w := w) ?_
  show smmaBody ((s.busyWith 0x20).at (s.mem, s.draws) Work.fresh) = .ok () ((s.busyWith 0x20).at _ w)
  unfold smmaBody
  rw [ArgReader.sparseArgs.bind_at hops, Cmd.bind_ok (blockPrecond_of_whole hwhole _), Cmd.bind_ok hbody,
    aliasCheck_at _ _ ht hdisj]

/-- The bytes of SMMA.B's result elements (R178). -/
def SparseBatchArgs.resultByte (a : SparseBatchArgs) (m : Memory) (x : Nat) : Prop :=
  ∃ b < a.batch, (a.walkAt m b).resultByte x

/-- The batch step of SMMA.B is the reference's, while the inputs are those of `m` (R178). -/
theorem sparseBatch_reference {a : SparseBatchArgs} {b : Nat} (hf : s.foreign = []) (hb : b < a.batch)
    (hscale : readable32 s.cfg (a.scales + 4 * b : Nat)) (hready : SparseReady s.cfg m (a.walkAt m b))
    (hdisj : ∀ x, a.resultByte m x → ¬ sparseBatchInputByte m a x) (hp : AgreeOn (sparseBatchInputByte m a) p.1 m)
    (ht : TraceIn (sparseBatchInputByte m a) (a.resultByte m) w.trace) :
    ∃ w', sparseBatch a b (s.at p w) =
        .ok () (s.at (sparseReference s.inst.running s.cfg m (a.walkAt m b) p) w') ∧
      AgreeOn (sparseBatchInputByte m a) (sparseReference s.inst.running s.cfg m (a.walkAt m b) p).1 m ∧
      TraceIn (sparseBatchInputByte m a) (a.resultByte m) w'.trace := by
  have hI : ∀ x, inElement x (a.scales + 4 * b : Nat) → sparseBatchInputByte m a x := fun x hx => ⟨b, hb, .inl hx⟩
  unfold sparseBatch
  rw [Cmd.bind_ok (updateWork_apply _ _), State.at_workNow, State.at_withWork,
    Cmd.bind_ok (ldInput32_at hf _ _ hscale), hp.read32 hI]
  exact sparseBody_reference hf hready (fun x hx => ⟨b, hb, .inr hx⟩) (fun x hx => ⟨b, hb, hx⟩) hdisj hp
    (ht.input fun x h1 h2 => hI x ⟨h1, h2⟩)

/-- SMMA.B completes with the memory and the draws of its reference (R178). -/
theorem exec_smmaB {a : SparseBatchArgs} (ha : s.accepts) (hf : s.foreign = [])
    (hops : operandsOf sparseBatchArgs s = some a) (hwhole : a.cols % 16 = 0)
    (hscale : ∀ b < a.batch, readable32 s.cfg (a.scales + 4 * b : Nat))
    (hready : ∀ b < a.batch, SparseReady s.cfg s.mem (a.walkAt s.mem b))
    (hdisj : ∀ x, a.resultByte s.mem x → ¬ sparseBatchInputByte s.mem a x) :
    exec .smmaB s = .next (s.afterCommand
      (smmaBReference s.cfg s.mem a (s.mem, s.draws)).1 (smmaBReference s.cfg s.mem a (s.mem, s.draws)).2) := by
  obtain ⟨w, hloop, -, ht⟩ := loop_at (s := s.busyWith 0x21) (body := fun b => sparseBatch a b)
    (f := fun b => sparseReference 0x21 s.cfg s.mem (a.walkAt s.mem b))
    (fun p => AgreeOn (sparseBatchInputByte s.mem a) p.1 s.mem)
    (fun _ w => TraceIn (sparseBatchInputByte s.mem a) (a.resultByte s.mem) w.trace)
    (n := a.batch) (p := (s.mem, s.draws)) (w := Work.fresh) (AgreeOn.refl _ _) (TraceIn.nil _ _)
    fun b hb p w hp ht => sparseBatch_reference (s := s.busyWith 0x21) hf hb (hscale b hb) (hready b hb) hdisj hp ht
  refine exec_of_ok ha hf (w := w) ?_
  show smmaBBody ((s.busyWith 0x21).at (s.mem, s.draws) Work.fresh) = .ok () ((s.busyWith 0x21).at _ w)
  unfold smmaBBody
  rw [ArgReader.sparseBatchArgs.bind_at hops, Cmd.bind_ok (blockPrecond_of_whole hwhole _), Cmd.bind_ok hloop,
    aliasCheck_at _ _ ht hdisj]
  rfl

end Sparse

end Sys2Proof.Machine
end

section
/-! PROOFS. Two commands compared: the memories they leave are the same but for the patterns of NaNs, which are independent
draws (R20, R146, R179, R180). -/

namespace Sys2Proof.Machine

/-! ### The same value, or a NaN in both -/

/-- The patterns are equal, or both are NaNs (R20). -/
def SameOrNaN (x y : Word32) : Prop := x = y ∨ (fIsNaN x = true ∧ fIsNaN y = true)

theorem SameOrNaN.refl (x : Word32) : SameOrNaN x x := .inl rfl

/-- One float result under two commands: the value, or a draw of each (R20). -/
theorem SameOrNaN.valueOrDraw (o o' : BitVec 8) (v : Option Word32) (n n' : Nat) :
    SameOrNaN (valueOrDraw o v n).1 (valueOrDraw o' v n').1 := by
  cases v with
  | some f => exact .inl rfl
  | none => exact .inr ⟨fIsNaN_nanPattern _ _, fIsNaN_nanPattern _ _⟩

theorem fAdd?_of_nan {x y : Word32} (h : fIsNaN x = true ∨ fIsNaN y = true) : fAdd? x y = none :=
  (fAdd?_eq_none_iff x y).2 (h.imp id .inl)

/-- Sums of summands that are the same or NaNs are no sums, or one sum (R19). -/
theorem SameOrNaN.fAdd?_eq {x x' y y' : Word32} (hx : SameOrNaN x x') (hy : SameOrNaN y y') : fAdd? x y = fAdd? x' y' := by
  rcases hx with rfl | ⟨hx, hx'⟩
  · rcases hy with rfl | ⟨hy, hy'⟩
    · rfl
    · rw [fAdd?_of_nan (.inr hy), fAdd?_of_nan (.inr hy')]
  · rw [fAdd?_of_nan (.inl hx), fAdd?_of_nan (.inl hx')]

/-! ### Result elements -/

/-- The elements lie at or above address 0, a multiple of 4 apart: two of them are one or have no common byte. -/
def ElementsFrom (base : Int) (E : Int → Prop) : Prop := ∀ e, E e → 0 ≤ e ∧ (4 : Int) ∣ e - base

theorem ElementsFrom.apart {base : Int} {E : Int → Prop} (h : ElementsFrom base E) {e e' : Int} (he : E e) (he' : E e') :
    e = e' ∨ e.toNat + 4 ≤ e'.toNat ∨ e'.toNat + 4 ≤ e.toNat := by
  obtain ⟨hpos, hmul⟩ := h e he
  obtain ⟨hpos', hmul'⟩ := h e' he'
  omega

/-- A checked element lies at or above address 0 (R56). -/
theorem nonneg_of_writable32 {c : Config} {e : Int} (h : writable32 c e) : 0 ≤ e := by
  by_contra hneg
  have hrange : inRange c e 4 = false := by simp [inRange, hneg]
  simp [writable32, checkAccess, hrange] at h

theorem DenseReady.elementsFrom {c : Config} {d : DenseArgs} (h : DenseReady c d) :
    ElementsFrom d.result d.element := by
  rintro e ⟨b, hb, r, hr, rfl⟩
  refine ⟨nonneg_of_writable32 (h.result b hb r hr).2, ?_⟩
  rw [DenseArgs.resAddr, add_sub_cancel_left]
  exact dvd_mul_right _ _

/-- Two memories in canonical form are the same but for NaN patterns in the elements. -/
structure SameElements (E : Int → Prop) (m m' : Memory) : Prop where
  wf : m.wf = true
  wf' : m'.wf = true
  element : ∀ e, E e → SameOrNaN (m.read32 e.toNat) (m'.read32 e.toNat)
  outside : ∀ x, (∀ e, E e → ¬ inElement x e) → m.read x = m'.read x

theorem SameElements.refl (E : Int → Prop) {m : Memory} (h : m.wf = true) : SameElements E m m :=
  ⟨h, h, fun _ _ => .refl _, fun _ _ => rfl⟩

theorem addTo_read32_other {o : BitVec 8} {e a : Nat} {c : Word32 × Nat} {m : Memory} (h : a + 4 ≤ e ∨ e + 4 ≤ a) :
    (addTo o e c m).1.read32 a = m.read32 a :=
  Memory.read32_writeList_other (by rw [length_leBytes32]; exact h)

/-- Contributions to one element that are the same or NaNs keep memories the same but for NaN patterns (R136). -/
theorem SameElements.addTo {base : Int} {E : Int → Prop} (hE : ElementsFrom base E) {m m' : Memory} {o o' : BitVec 8}
    {e : Int} {c c' : Word32 × Nat} (h : SameElements E m m') (he : E e) (hc : SameOrNaN c.1 c'.1) :
    SameElements E (addTo o e.toNat c m).1 (addTo o' e.toNat c' m').1 where
  wf := addTo_wf h.wf
  wf' := addTo_wf h.wf'
  element e' he' := by
    rcases hE.apart he' he with rfl | hapart
    · rw [addTo_read32_same h.wf, addTo_read32_same h.wf', (h.element e' he').fAdd?_eq hc]
      exact .valueOrDraw _ _ _ _ _
    · rw [addTo_read32_other hapart, addTo_read32_other hapart]
      exact h.element e' he'
  outside x hx := by
    have hout := hx e he
    rw [addTo_read_other (by omega), addTo_read_other (by omega)]
    exact h.outside x hx

/-- Byte `j` of an element is byte `j` of its value (R50). -/
theorem toNat_read_of_read32 (m : Memory) (a : Nat) {j : Nat} (hj : j < 4) :
    (m.read (a + j)).toNat = (m.read32 a).toNat / 256 ^ j % 256 := by
  have hlt : leNat (m.readList a 4) < 2 ^ 32 := by
    have h := leNat_lt (m.readList a 4)
    rwa [Memory.length_readList] at h
  rw [Memory.read32, le32, BitVec.toNat_ofNat, Nat.mod_eq_of_lt hlt,
    leNat_div_mod _ j (by rwa [Memory.length_readList]), Memory.getD_readList m 4 a j hj]

/-- Elements of one value have the same bytes (R50). -/
theorem read_eq_of_read32_eq {m m' : Memory} {a x : Nat} (h : m.read32 a = m'.read32 a) (h1 : a ≤ x) (h2 : x < a + 4) :
    m.read x = m'.read x := by
  obtain ⟨j, rfl⟩ := Nat.exists_eq_add_of_le h1
  apply BitVec.eq_of_toNat_eq
  rw [toNat_read_of_read32 m a (by omega), toNat_read_of_read32 m' a (by omega), h]

/-- Memories that are the same but for NaN patterns are equal where no element is a NaN. -/
theorem SameElements.eq_of_noNaN {E : Int → Prop} {m m' : Memory} (h : SameElements E m m') (hn : noNaN E m) : m = m' := by
  refine Memory.ext_of_read h.wf h.wf' fun x => ?_
  by_cases hx : ∃ e, E e ∧ inElement x e
  · obtain ⟨e, he, h1, h2⟩ := hx
    rcases h.element e he with heq | ⟨hnan, -⟩
    · exact read_eq_of_read32_eq heq h1 h2
    · rw [hn e he] at hnan
      cases hnan
  · exact h.outside x fun e he hin => hx ⟨e, he, hin⟩

/-- The conclusion that the statements on two commands draw. -/
theorem SameElements.sameButNaN {E : Int → Prop} {m m' : Memory} (h : SameElements E m m') :
    sameButNaN E m m' ∧ (noNaN E m → m = m') := ⟨⟨h.element, h.outside⟩, h.eq_of_noNaN⟩

/-- Two sequences of rounds keep a relation that each pair of rounds keeps. -/
theorem upTo_related {α β : Type} {f : Nat → α → α} {g : Nat → β → β} {R : α → β → Prop} :
    ∀ {n : Nat} {x : α} {y : β}, R x y → (∀ i < n, ∀ x y, R x y → R (f i x) (g i y)) → R (upTo f n x) (upTo g n y)
  | 0, _, _, h, _ => h
  | n + 1, _, _, h, hstep => hstep n (by omega) _ _ (upTo_related h fun i hi => hstep i (by omega))

/-! ### DMMA.A with offsets 0 and per-channel scales 1.0 -/

/-- Multiplying by 1.0 changes nothing but the pattern of a NaN (R18). -/
theorem fMul?_one {x : Word32} (h : fIsNaN x = false) : fMul? x 0x3F800000 = some x := by
  have hone : fIsFinite 0x3F800000 = true := by decide
  have hsign : fSign 0x3F800000 = false := by decide
  cases hinf : fIsInf x with
  | true =>
    cases hr : fMul? x 0x3F800000 with
    | none =>
      rcases (fMul?_eq_none_iff _ _).1 hr with h' | h' | ⟨-, h'⟩ | ⟨-, h'⟩
      · rw [h] at h'; cases h'
      all_goals exact absurd h' (by decide)
    | some r => rw [fMul?_of_inf (.inl hinf) hr, hsign, Bool.bne_false, ← eq_fInf_of_fIsInf hinf]
  | false =>
    have hx := (fIsFinite_eq_true_iff x).2 ⟨h, hinf⟩
    have hmag : fMag 0x3F800000 = 2 ^ 149 := by decide
    have hlt := (fIsFinite_iff x).1 hx
    rw [fMul?_of_finite hx hone, hsign, Bool.bne_false, hmag, fMag_eq_magValue, roundMag_eq, roundBits_exact hlt,
      Nat.min_eq_left (Nat.le_of_lt hlt), withSign_fSign]

theorem fIsNaN_of_fMul?_some {x y r : Word32} (h : fMul? x y = some r) : fIsNaN r = false :=
  ((productNearest x y).2 r h).1

/-- The contribution of DMMA.A with a per-channel scale of 1.0 is that of DMMA.S, or both are NaNs (R144, R146). -/
theorem SameOrNaN.scaleOrDraw_one (o o' : BitVec 8) (adj : Int) (bs : Word32) (n n' : Nat) :
    SameOrNaN (Machine.valueOrDraw o (fMul? (fOfInt adj) bs) n).1
      (scaleOrDraw o' .leftToRight adj bs 0x3F800000 n').1 := by
  unfold scaleOrDraw
  dsimp only
  cases hprod : fMul? (fOfInt adj) bs with
  | some f =>
    dsimp only [Machine.valueOrDraw]
    rw [fMul?_one (fIsNaN_of_fMul?_some hprod)]
    exact .refl f
  | none =>
    dsimp only [Machine.valueOrDraw]
    rw [(fMul?_eq_none_iff _ _).2 (.inl (fIsNaN_nanPattern _ _))]
    exact .inr ⟨fIsNaN_nanPattern _ _, fIsNaN_nanPattern _ _⟩

/-- The references of DMMA.S and DMMA.A under offsets 0 and per-channel scales 1.0 (R146). -/
theorem dmmaReferences_same {c : Config} {m : Memory} {d : DenseArgs} {pcs offsets n n' : Nat} (hwf : m.wf = true)
    (hready : DenseReady c d) (horder : c.asymOrder = .leftToRight)
    (hpcs : ∀ r < d.rows, m.read32 (pcs + 4 * r) = 0x3F800000) (hoffs : ∀ b < d.batch, m.read32 (offsets + 4 * b) = 0) :
    SameElements d.element (dmmaSReference c m d (m, n)).1 (dmmaAReference c m d pcs offsets (m, n')).1 := by
  rw [dmmaSReference_eq, dmmaAReference_eq]
  refine upTo_related (R := fun p q : Progress => SameElements d.element p.1 q.1) (.refl _ hwf) fun b hb p q h =>
    upTo_related (R := fun p q : Progress => SameElements d.element p.1 q.1) h fun r hr p q h => ?_
  have hadj : denseAdjusted c m d offsets b r = denseDot c m d b r := by
    simp [denseAdjusted, offsetAt, hoffs b hb]
  unfold dmmaSRow dmmaARow
  rw [hadj, hpcs r hr, horder]
  exact h.addTo hready.elementsFrom ⟨b, hb, r, hr, rfl⟩ (.scaleOrDraw_one _ _ _ _ _ _)

theorem asymFits.denseFits {c : Config} {m : Memory} {d : DenseArgs} {offsets : Nat} (h : asymFits c m d offsets) :
    denseFits c m d := h.imp id fun h b hb r hr n hn => ((h b hb r hr).1 n hn).1

/-- Settles O51: both commands are their references, and the references differ in draws only. -/
theorem asymmetricIsSymmetric : Obligations.AsymmetricIsSymmetric := by
  intro s t u d pcs offsets ha hf hwf hd hpcs hoffs hready hfit hdisj horder hones hzeros ht hu
  have hdisjA : ∀ x, d.resultByte x → ¬ asymInputByte d pcs offsets x :=
    fun x ⟨b, hb, r, hr, hx⟩ => hdisj b hb r hr x hx
  rw [exec_dmmaS ha hf hd hready.toDenseReady hfit.denseFits fun x hx hin => hdisjA x hx (.inl hin)] at ht
  rw [exec_dmmaA ha hf hd hpcs hoffs hready hfit hdisjA] at hu
  cases ht
  cases hu
  exact ⟨ha.1, ha.1, (dmmaReferences_same hwf hready.toDenseReady horder hones hzeros).sameButNaN⟩

/-! ### SMMA and DMMA.S on the same matrix -/

section SparseDense

variable {c : Config} {m : Memory} {a : SparseArgs} {d : DenseArgs} {r : Nat}

theorem sumTo_eq_sum (f : Nat → Int) : ∀ n, sumTo f n = ∑ i ∈ Finset.range n, f i
  | 0 => rfl
  | n + 1 => by rw [sumTo, sumTo_eq_sum f n, Finset.sum_range_succ]

/-- A sum block by block. -/
theorem sumTo_in_blocks (f : Nat → Int) : ∀ n, sumTo f (16 * n) = sumTo (fun k => sumTo (fun j => f (16 * k + j)) 16) n
  | 0 => rfl
  | n + 1 => by
    rw [Nat.mul_succ, sumTo_add, sumTo_in_blocks f n]
    rfl

/-- A sum over positions that list each index at most once is the sum over the indices, if those not listed add 0. -/
theorem sumTo_listed {g : Nat → Int} {index : Nat → Nat} {count n : Nat} (hlt : ∀ i < count, index i < n)
    (honce : ∀ i < count, ∀ k < count, index i = index k → i = k)
    (hzero : ∀ k < n, (∀ i < count, index i ≠ k) → g k = 0) :
    sumTo (fun i => g (index i)) count = sumTo g n := by
  have hinj : Set.InjOn index (Finset.range count) := fun i hi k hk h =>
    honce i (Finset.mem_range.1 hi) k (Finset.mem_range.1 hk) h
  rw [sumTo_eq_sum, sumTo_eq_sum, ← Finset.sum_image hinj]
  refine Finset.sum_subset (fun k hk => ?_) fun k hk hnot => ?_
  · obtain ⟨i, hi, rfl⟩ := Finset.mem_image.1 hk
    exact Finset.mem_range.2 (hlt i (Finset.mem_range.1 hi))
  · refine hzero k (Finset.mem_range.1 hk) fun i hi h => hnot ?_
    exact Finset.mem_image.2 ⟨i, Finset.mem_range.2 hi, h⟩

/-- The dot product of block `k` of dense row `r` with the vector. -/
def denseBlockDot (c : Config) (m : Memory) (d : DenseArgs) (r k : Nat) : Int :=
  sumTo (fun j => denseTerm c m d 0 r (16 * k + j)) 16

theorem denseDot_in_blocks (hwhole : d.cols % 16 = 0) (r : Nat) :
    denseDot c m d 0 r = sumTo (denseBlockDot c m d r) d.nblk := by
  have hcols : d.cols = 16 * d.nblk := by
    unfold DenseArgs.nblk
    omega
  conv_lhs => rw [denseDot, hcols]
  exact sumTo_in_blocks _ _

/-- The sum of a ledger's row is the dot product of the dense row that holds its blocks (R172, R180). -/
theorem sparseDot_eq_denseDot (hmode : c.dotMode = .exact) (hof : DenseOf m a d.matrix) (hcols : d.cols = a.cols)
    (hvec : d.vectors = a.vector) (hr : r < a.rows) : sparseDot c m a r = denseDot c m d 0 r := by
  have hnblk : d.nblk = a.cols / 16 := by rw [DenseArgs.nblk, hcols]
  have hblock : ∀ k < d.nblk, denseBlockDot c m d r k =
      sumTo (fun j => exactProduct (m.read (a.vector + 16 * k + j)) (m.read (d.matrix + r * a.cols + 16 * k + j))) 16 :=
    fun k hk => sumTo_congr fun j hj => by
      rw [denseTerm, if_pos (by omega), hmode, product, DenseArgs.vectorAt, DenseArgs.matrixAt, hvec, hcols,
        Nat.zero_mul, Nat.add_zero, ← Nat.add_assoc, ← Nat.add_assoc]
  have hindex : ∀ i < blockCountOf m a.ledger r, blockIndex m a.ledger r i < d.nblk := fun i hi => by
    have := hof.inside r hr i hi
    omega
  rw [denseDot_in_blocks (hcols ▸ hof.whole), ← sumTo_listed hindex (hof.once r hr) fun k hk hnot => ?_, sparseDot]
  · refine sumTo_congr fun i hi => ?_
    rw [hblock _ (hindex i hi)]
    refine sumTo_congr fun j hj => ?_
    rw [sparseTerm, hmode, product, hof.listed r hr i hi j hj]
  · rw [hblock k hk]
    have hz : ∀ j < 16, exactProduct (m.read (a.vector + 16 * k + j)) (m.read (d.matrix + r * a.cols + 16 * k + j)) = 0 :=
      fun j hj => by
        rw [hof.zero r hr k (hnblk ▸ hk) hnot j hj]
        simp [exactProduct, s8]
    rw [sumTo_congr hz]
    rfl

theorem resAddr_zero_batch (hres : (d.result : Int) = a.result) (hstride : d.stride = a.stride) (r : Nat) :
    d.resAddr 0 r = a.resAddr r := by
  rw [DenseArgs.resAddr, SparseArgs.resAddr, hres, hstride, Nat.zero_mul, Nat.zero_add]

theorem SparseReady.elementsFrom (h : SparseReady c m a) : ElementsFrom a.result a.element := by
  rintro e ⟨r, hr, rfl⟩
  refine ⟨nonneg_of_writable32 (h.result r hr).2, ?_⟩
  rw [SparseArgs.resAddr, add_sub_cancel_left]
  exact dvd_mul_right _ _

theorem wrap32_sparseDot (r : Nat) : wrap32 (sparseDot c m a r) = sparseDot c m a r :=
  wrap32_of_in32 (sparse_in32 c m a r (blockCountOf_le m a.ledger r))

/-- The references of SMMA and DMMA.S for one matrix and one batch (R180). -/
theorem sparseDenseReferences_same {n n' : Nat} (hwf : m.wf = true) (hmode : c.dotMode = .exact)
    (hof : DenseOf m a d.matrix) (hrows : d.rows = a.rows) (hcols : d.cols = a.cols) (hbatch : d.batch = 1)
    (hvec : d.vectors = a.vector) (hres : (d.result : Int) = a.result) (hstride : d.stride = a.stride)
    (hscale : m.read32 d.scales = a.scale) (hready : SparseReady c m a) :
    SameElements a.element (sparseReference 0x20 c m a (m, n)).1 (dmmaSReference c m d (m, n')).1 := by
  rw [sparseReference_eq, dmmaSReference_eq, hbatch, upTo_succ, upTo_zero, hrows]
  refine upTo_related (R := fun p q : Progress => SameElements a.element p.1 q.1) (.refl _ hwf) fun r hr p q h => ?_
  unfold sparseRowRef dmmaSRow
  rw [resAddr_zero_batch hres hstride, ← sparseDot_eq_denseDot hmode hof hcols hvec hr, wrap32_sparseDot,
    Nat.mul_zero, Nat.add_zero, hscale]
  exact h.addTo hready.elementsFrom ⟨r, hr, rfl⟩ (.valueOrDraw _ _ _ _ _)

end SparseDense

/-- Settles O58: both commands are their references, and the references differ in draws only. -/
theorem sparseIsDense : Obligations.SparseIsDense := by
  intro s s' a d ha ha' hf hf' hwf hmem hcfg hmode hops hopd hof hrows hcols hbatch hvec hres hstride hscale hready
    hreadyD hfit hdisj
  have hdisjS : ∀ x, a.resultByte x → ¬ sparseInputByte s.mem a x := fun x ⟨r, hr, hx⟩ => (hdisj r hr x hx).1
  have hdisjD : ∀ x, d.resultByte x → ¬ d.inputByte x := fun x ⟨b, hb, r, hr, hx⟩ => by
    obtain rfl : b = 0 := by omega
    rw [resAddr_zero_batch hres hstride] at hx
    exact (hdisj r (hrows ▸ hr) x hx).2
  have hsame := sparseDenseReferences_same (n := s.draws) (n' := s'.draws) hwf hmode hof hrows hcols hbatch hvec hres
    hstride hscale hready
  refine ⟨_, _, exec_smma ha hf hops hof.whole hready hdisjS, exec_dmmaS ha' hf' hopd (hcfg ▸ hreadyD)
    (by rw [hcfg, hmem]; exact hfit) hdisjD, ha.1, ha'.1, ?_⟩
  show sameButNaN _ _ (dmmaSReference s'.cfg s'.mem d (s'.mem, s'.draws)).1 ∧ _
  rw [hcfg, hmem]
  exact hsame.sameButNaN

/-! ### SMMA.B and SMMA commands in turn -/

section Batches

variable {c : Config} {m m' : Memory} {a : SparseArgs}

theorem sparseInput_count {r : Nat} (hr : r < a.rows) : sparseInputByte m a (ledgerAt m a.ledger r) :=
  sparseInput_ledger (i := 0) hr (Nat.zero_le _)

/-- Ledgers that agree on the input bytes of a walk stand alike. -/
theorem ledgerAt_agree (h : AgreeOn (sparseInputByte m a) m' m) :
    ∀ {r : Nat}, r ≤ a.rows → ledgerAt m' a.ledger r = ledgerAt m a.ledger r
  | 0, _ => rfl
  | r + 1, hr => by
    have ih := ledgerAt_agree h (r := r) (by omega)
    rw [ledgerAt, ledgerAt, ih, h _ (sparseInput_count (by omega))]

theorem blockCountOf_agree (h : AgreeOn (sparseInputByte m a) m' m) {r : Nat} (hr : r < a.rows) :
    blockCountOf m' a.ledger r = blockCountOf m a.ledger r := by
  rw [blockCountOf, ledgerAt_agree h (by omega), h _ (sparseInput_count hr), blockCountOf]

theorem blockIndex_agree (h : AgreeOn (sparseInputByte m a) m' m) {r i : Nat} (hr : r < a.rows)
    (hi : i < blockCountOf m a.ledger r) : blockIndex m' a.ledger r i = blockIndex m a.ledger r i := by
  rw [blockIndex, ledgerAt_agree h (by omega), Nat.add_assoc, h _ (sparseInput_ledger hr (by omega)), blockIndex,
    Nat.add_assoc]

theorem packedAt_agree (h : AgreeOn (sparseInputByte m a) m' m) :
    ∀ {r : Nat}, r ≤ a.rows → packedAt m' a.matrix a.ledger r = packedAt m a.matrix a.ledger r
  | 0, _ => rfl
  | r + 1, hr => by
    rw [packedAt, packedAt, packedAt_agree h (r := r) (by omega), blockCountOf_agree h (by omega)]

/-- The input bytes of a walk are fixed by what they hold. -/
theorem sparseInputByte_agree (h : AgreeOn (sparseInputByte m a) m' m) {x : Nat} (hx : sparseInputByte m' a x) :
    sparseInputByte m a x := by
  obtain ⟨r, hr, hbyte⟩ := hx
  rw [blockCountOf_agree h hr, ledgerAt_agree h (by omega), packedAt_agree h (by omega)] at hbyte
  refine ⟨r, hr, hbyte.imp id ?_⟩
  rintro ⟨i, hi, j, hj, hx⟩
  rw [blockIndex_agree h hr hi] at hx
  exact ⟨i, hi, j, hj, hx⟩

theorem SparseReady.agree (hready : SparseReady c m a) (h : AgreeOn (sparseInputByte m a) m' m) :
    SparseReady c m' a where
  index r hr i hi := by
    rw [blockCountOf_agree h hr] at hi
    rw [blockIndex_agree h hr hi]
    exact hready.index r hr i hi
  inputs x hx := hready.inputs x (sparseInputByte_agree h hx)
  result := hready.result

theorem sparseDot_agree (h : AgreeOn (sparseInputByte m a) m' m) {r : Nat} (hr : r < a.rows) :
    sparseDot c m' a r = sparseDot c m a r := by
  rw [sparseDot, blockCountOf_agree h hr, sparseDot]
  refine sumTo_congr fun i hi => sumTo_congr fun j hj => ?_
  rw [sparseTerm, blockIndex_agree h hr hi, packedAt_agree h (by omega), h _ ⟨r, hr, .inr ⟨i, hi, j, hj, .inl rfl⟩⟩,
    h _ ⟨r, hr, .inr ⟨i, hi, j, hj, .inr rfl⟩⟩, sparseTerm]

/-- A walk's reference leaves the bytes of `I` alone, if none is a result byte. -/
theorem sparseReference_agree {I : Nat → Prop} {o : BitVec 8} {p : Progress} {m₀ : Memory}
    (hdisj : ∀ x, a.resultByte x → ¬ I x) (hp : AgreeOn I p.1 m₀) :
    AgreeOn I (sparseReference o c m a p).1 m₀ :=
  upTo_keeps (P := fun p : Progress => AgreeOn I p.1 m₀) hp fun r hr _ hp =>
    AgreeOn.addTo hp fun x hx => hdisj x ⟨r, hr, hx⟩

/-- Walks of one ledger under two commands, from memories that are the same but for NaN patterns (R179). -/
theorem sparseReference_same {base : Int} {E : Int → Prop} (hE : ElementsFrom base E) (hin : ∀ e, a.element e → E e)
    (h : AgreeOn (sparseInputByte m a) m' m) {o o' : BitVec 8} {p q : Progress} (hpq : SameElements E p.1 q.1) :
    SameElements E (sparseReference o c m a p).1 (sparseReference o' c m' a q).1 :=
  upTo_related (R := fun p q : Progress => SameElements E p.1 q.1) hpq fun r hr p q hpq => by
    rw [sparseDot_agree h hr]
    exact hpq.addTo hE (hin _ ⟨r, hr, rfl⟩) (.valueOrDraw _ _ _ _ _)

/-- The walks of SMMA.B, one after another (R178). -/
def walksReference (c : Config) (m : Memory) (a : SparseBatchArgs) (p : Progress) (n : Nat) : Progress :=
  upTo (fun b => sparseReference 0x21 c m (a.walkAt m b)) n p

theorem smmaBReference_eq (c : Config) (m : Memory) (a : SparseBatchArgs) (p : Progress) :
    smmaBReference c m a p = walksReference c m a p a.batch := rfl

theorem walksInTurn_succ {argv : Nat → Vector (Option Word64) 10} {s t u : State} {n : Nat}
    (ht : walksInTurn argv s n = some t) (hu : exec .smma { t with inst := { t.inst with args := argv n } } = .next u)
    (hfault : u.inst.fault = none) : walksInTurn argv s (n + 1) = some u := by
  simp [walksInTurn, ht, hu, hfault]

/-- The scale of a walk plays no part in where its results are. -/
theorem SparseBatchArgs.resAddr_walkAt (a : SparseBatchArgs) (m : Memory) (b r : Nat) :
    (a.walkAt m b).resAddr r = (a.walk b 0).resAddr r := by
  simp only [SparseArgs.resAddr, SparseBatchArgs.walkAt, SparseBatchArgs.walk]

theorem SparseBatchArgs.element_of_walkAt {a : SparseBatchArgs} {b : Nat} (hb : b < a.batch) (e : Int)
    (he : (a.walkAt m b).element e) : a.element e := by
  obtain ⟨r, hr, rfl⟩ := he
  exact ⟨b, hb, r, hr, a.resAddr_walkAt m b r⟩

theorem SparseBatchArgs.elementsFrom {a : SparseBatchArgs} (h : ∀ b < a.batch, SparseReady c m (a.walkAt m b)) :
    ElementsFrom a.results a.element := by
  rintro e ⟨b, hb, r, hr, rfl⟩
  refine ⟨a.resAddr_walkAt m b r ▸ nonneg_of_writable32 ((h b hb).result r hr).2, ?_⟩
  rw [SparseArgs.resAddr, SparseBatchArgs.walk, add_assoc, add_sub_cancel_left, ← mul_add]
  exact dvd_mul_right _ _

/-- Operands depend on the launch parameters and the argument registers alone. -/
theorem operandsOf_of_same {α : Type} {k : Cmd α} (h : ArgReader k) {s t : State} {x : α} (hs : operandsOf k s = some x)
    (hcfg : t.cfg = s.cfg) (hargs : t.inst.args = s.inst.args) : operandsOf k t = some x := by
  rw [operandsOf, h.ok_of_same hs hcfg hargs]

/-- Where `n` SMMA commands stand that SMMA.B's first `n` walks are (R179): no fault, the inputs as at the start, and memory
the same as SMMA.B's but for NaN patterns. -/
structure WalksStand (s : State) (a : SparseBatchArgs) (n : Nat) (t : State) : Prop where
  accepts : t.accepts
  foreign : t.foreign = []
  cfg : t.cfg = s.cfg
  inputs : AgreeOn (sparseBatchInputByte s.mem a) t.mem s.mem
  same : SameElements a.element (walksReference s.cfg s.mem a (s.mem, s.draws) n).1 t.mem

variable {s t : State} {a : SparseBatchArgs} {n : Nat}

theorem WalksStand.withArgs (h : WalksStand s a n t) (args : Vector (Option Word64) 10) :
    WalksStand s a n { t with inst := { t.inst with args := args } } :=
  ⟨h.accepts, h.foreign, h.cfg, h.inputs, h.same⟩

/-- A command that completes leaves the walks to the memory it leaves. -/
theorem WalksStand.afterCommand {q : Progress} (h : WalksStand s a n t)
    (hinputs : AgreeOn (sparseBatchInputByte s.mem a) q.1 s.mem)
    (hsame : SameElements a.element (walksReference s.cfg s.mem a (s.mem, s.draws) (n + 1)).1 q.1) :
    WalksStand s a (n + 1) (t.afterCommand q.1 q.2) :=
  ⟨⟨h.accepts.1, rfl⟩, rfl, h.cfg, hinputs, hsame⟩

/-- The next SMMA command takes its batch's walk (R178, R179). -/
theorem WalksStand.next (h : WalksStand s a n t) (hn : n < a.batch) (hwhole : a.cols % 16 = 0)
    (hready : ∀ b < a.batch, SparseReady s.cfg s.mem (a.walkAt s.mem b))
    (hdisj : ∀ x, a.resultByte s.mem x → ¬ sparseBatchInputByte s.mem a x)
    (hops : operandsOf sparseArgs t = some (a.walkAt s.mem n)) :
    ∃ u, exec .smma t = .next u ∧ WalksStand s a (n + 1) u := by
  have hagree : AgreeOn (sparseInputByte s.mem (a.walkAt s.mem n)) t.mem s.mem :=
    h.inputs.mono fun x hx => ⟨n, hn, .inr hx⟩
  have hout : ∀ x, (a.walkAt s.mem n).resultByte x → ¬ sparseBatchInputByte s.mem a x :=
    fun x hx => hdisj x ⟨n, hn, hx⟩
  refine ⟨_, exec_smma h.accepts h.foreign hops hwhole (by rw [h.cfg]; exact (hready n hn).agree hagree)
    fun x hx hin => hout x hx ⟨n, hn, .inr (sparseInputByte_agree hagree hin)⟩, h.afterCommand ?_ ?_⟩
  · exact sparseReference_agree hout h.inputs
  · rw [h.cfg, walksReference, upTo_succ, ← walksReference]
    exact sparseReference_same (SparseBatchArgs.elementsFrom hready) (SparseBatchArgs.element_of_walkAt hn) hagree
      h.same

end Batches

/-- Settles O55: SMMA.B is its reference, and the SMMA commands in turn follow it walk by walk. -/
theorem batchIsWalksInTurn : Obligations.BatchIsWalksInTurn := by
  intro s a argv ha hf hwf hops hwhole hscale hready hdisj hargv
  have hout : ∀ x, a.resultByte s.mem x → ¬ sparseBatchInputByte s.mem a x :=
    fun x ⟨b, hb, r, hr, hx⟩ => hdisj b hb r hr x hx
  have hwalks : ∀ n ≤ a.batch, ∃ u, walksInTurn argv s n = some u ∧ WalksStand s a n u := by
    intro n
    induction n with
    | zero => exact fun _ => ⟨s, rfl, ha, hf, rfl, AgreeOn.refl _ _, .refl _ hwf⟩
    | succ n ih =>
      intro hn
      obtain ⟨t, ht, hstand⟩ := ih (by omega)
      obtain ⟨u, hu, hstand'⟩ := (hstand.withArgs (argv n)).next hn hwhole hready hout
        (operandsOf_of_same ArgReader.sparseArgs (hargv n hn) hstand.cfg rfl)
      exact ⟨u, walksInTurn_succ ht hu hstand'.accepts.1, hstand'⟩
  obtain ⟨u, hu, hstand⟩ := hwalks a.batch (Nat.le_refl _)
  exact ⟨_, u, exec_smmaB ha hf hops hwhole hscale hready hout, hu, ha.1, hstand.same.sameButNaN⟩

end Sys2Proof.Machine
end

section
/-! PROOFS. Where a running value of a dense kernel leaves int32 under `FAULT`: the kernel ends with `IntOverflow` at a step
whose value leaves int32 (R11, R135, R141, R143, R210). -/

namespace Sys2Proof.Machine

/-! ### Completing, or raising an overflow -/

/-- A piece of a command, started from a state of the running command `s`, completes with `P`, or raises `IntOverflow` at a
site with `E`. -/
def CompletesOrOverflows {α : Type} (s : State) (E : Site → Prop) (P : α → Progress → Work → Prop)
    (result : EStateM.Result Cause State α) : Prop :=
  (∃ a p w, result = .ok a (s.at p w) ∧ P a p w) ∨
    ∃ site p w, result = .error (.intOverflow site) (s.at p w) ∧ E site

namespace CompletesOrOverflows

variable {α β : Type} {s : State} {E : Site → Prop} {P : α → Progress → Work → Prop} {Q : β → Progress → Work → Prop}
  {p : Progress} {w : Work}

theorem ok {a : α} (h : P a p w) : CompletesOrOverflows s E P (.ok a (s.at p w)) := .inl ⟨a, p, w, rfl, h⟩

theorem overflow {site : Site} (h : E site) :
    CompletesOrOverflows (α := α) s E P (.error (.intOverflow site) (s.at p w)) := .inr ⟨site, p, w, rfl, h⟩

theorem bind {m : Cmd α} {f : α → Cmd β} {t : State} (hm : CompletesOrOverflows s E P (m t))
    (hf : ∀ a p w, P a p w → CompletesOrOverflows s E Q (f a (s.at p w))) :
    CompletesOrOverflows s E Q ((m >>= f) t) := by
  rcases hm with ⟨a, p, w, h, hP⟩ | ⟨site, p, w, h, hE⟩
  · rw [Cmd.bind_ok h]
    exact hf a p w hP
  · rw [Cmd.bind_error h]
    exact overflow hE

theorem mono {P' : α → Progress → Work → Prop} {result : EStateM.Result Cause State α}
    (h : CompletesOrOverflows s E P result) (hP : ∀ a p w, P a p w → P' a p w) : CompletesOrOverflows s E P' result :=
  h.imp (fun ⟨a, p, w, h, hp⟩ => ⟨a, p, w, h, hP a p w hp⟩) id

/-- A loop whose every round takes an invariant on or overflows takes it to the end or overflows. -/
theorem loop {body : Nat → Cmd Unit} (Inv : Nat → Progress → Work → Prop) :
    ∀ {n lo : Nat} {p : Progress} {w : Work}, Inv lo p w →
      (∀ i, lo ≤ i → i < lo + n → ∀ p w, Inv i p w →
        CompletesOrOverflows s E (fun _ => Inv (i + 1)) (body i (s.at p w))) →
      CompletesOrOverflows s E (fun _ => Inv (lo + n)) (Machine.loop lo n body (s.at p w))
  | 0, _, _, _, h, _ => ok h
  | n + 1, lo, p, w, h, step => by
    rw [loop_succ, (by omega : lo + (n + 1) = lo + 1 + n)]
    exact bind (step lo (Nat.le_refl _) (by omega) p w h) fun _ p w h =>
      loop Inv h fun i h1 h2 => step i (by omega) (by omega)

/-- Rounds that each keep `Keep`, and of which round `i` shows `Fits i`, show it of every round, or one overflows. -/
theorem rounds {body : Nat → Cmd Unit} {Fits : Nat → Prop} (Keep : Progress → Work → Prop) {n : Nat} (h : Keep p w)
    (step : ∀ i < n, ∀ p w, Keep p w →
      CompletesOrOverflows s E (fun _ q w' => Keep q w' ∧ Fits i) (body i (s.at p w))) :
    CompletesOrOverflows s E (fun _ q w' => Keep q w' ∧ ∀ i < n, Fits i) (Machine.loop 0 n body (s.at p w)) := by
  have hloop := loop (s := s) (E := E) (body := body) (fun i q w => Keep q w ∧ ∀ k < i, Fits k) (n := n) (lo := 0)
    (p := p) (w := w) ⟨h, nofun⟩ fun i _ hi p w h => by
      refine (step i (by omega) p w h.1).mono fun _ q w h' => ⟨h'.1, ?_⟩
      exact Nat.forall_lt_succ_right.2 ⟨h.2, h'.2⟩
  rwa [Nat.zero_add] at hloop

end CompletesOrOverflows

/-- A command that cannot complete, and raises nothing but overflows at sites with `E`, ends with one recorded. -/
theorem exec_of_overflow {i : Instr} {s : State} {E : Site → Prop} (ha : s.accepts) (hf : s.foreign = [])
    (h : CompletesOrOverflows (s.busyWith i.opc) E (fun _ _ _ => False)
      (bodyOf i ((s.busyWith i.opc).at (s.mem, s.draws) Work.fresh))) :
    ∃ t site, exec i s = .next t ∧ t.inst.fault = some ⟨i.opc, .intOverflow site⟩ ∧ E site := by
  rcases h with ⟨_, _, _, -, hfalse⟩ | ⟨site, p, w, herr, hE⟩
  · exact hfalse.elim
  · refine ⟨_, site, exec_of_error ha hf herr, ?_, hE⟩
    have hnone : (s.afterCommand p.1 p.2).inst.fault = none := ha.1
    rw [State.recordFault_fault, hnone]
    rfl

section Scan

variable {s : State} {d : DenseArgs} {p : Progress} {w : Work} {E : Site → Prop} {b r : Nat}

/-- Under `FAULT` an int32 is kept, and any other value raises with its site (R11). -/
theorem acc32_fault (hfault : s.cfg.intOvf = .fault) {x : Int} {site : Work → Site} (hE : in32 x = false → E (site w)) :
    CompletesOrOverflows s E (fun v q w' => v = bits32 x ∧ in32 x = true ∧ q = p ∧ w' = w)
      (acc32 x site (s.at p w)) := by
  cases hx : in32 x with
  | true =>
    rw [acc32_at p w site (.inr hx)]
    exact .ok ⟨rfl, rfl, rfl, rfl⟩
  | false =>
    have h : acc32 x site (s.at p w) = .error (.intOverflow (site w)) (s.at p w) := by simp [acc32, hfault, hx]
    rw [h]
    exact .overflow (hE hx)

/-- A sum that is in range takes a summand on, or overflows (R135). -/
theorem addDot_fault (hfault : s.cfg.intOvf = .fault) {x y z : Int} {site : Work → Site} (hdot : w.dot = bits32 x)
    (hx : in32 x = true) (hz : z = x + y) (hE : in32 z = false → E (site w)) :
    CompletesOrOverflows s E (fun _ q w' => in32 z = true ∧ q = p ∧ w' = { w with dot := bits32 z })
      (addDot y site (s.at p w)) := by
  have hsum : w.dot.toInt + y = z := by rw [hdot, toInt_bits32_of_in32 hx, hz]
  unfold addDot
  rw [Cmd.bind_ok (work_apply _), State.at_workNow, hsum]
  refine (acc32_fault hfault hE).bind fun v q w' h => ?_
  obtain ⟨rfl, hin, rfl, rfl⟩ := h
  exact .ok ⟨hin, rfl, rfl⟩

/-- The same of the row sum (R141). -/
theorem addRowSum_fault (hfault : s.cfg.intOvf = .fault) {x y z : Int} {site : Work → Site} (hsum : w.rowSum = bits32 x)
    (hx : in32 x = true) (hz : z = x + y) (hE : in32 z = false → E (site w)) :
    CompletesOrOverflows s E (fun _ q w' => in32 z = true ∧ q = p ∧ w' = { w with rowSum := bits32 z })
      (addRowSum y site (s.at p w)) := by
  have hsum : w.rowSum.toInt + y = z := by rw [hsum, toInt_bits32_of_in32 hx, hz]
  unfold addRowSum
  rw [Cmd.bind_ok (work_apply _), State.at_workNow, hsum]
  refine (acc32_fault hfault hE).bind fun v q w' h => ?_
  obtain ⟨rfl, hin, rfl, rfl⟩ := h
  exact .ok ⟨hin, rfl, rfl⟩

/-! ### Running sums in range -/

/-- The running sums of `f` narrowed within the first `n` columns are in range (R135). -/
def FitsUpTo (d : DenseArgs) (f : Nat → Int) (n : Nat) : Prop := ∀ j, narrowedAt d j → j ≤ n → in32 (sumTo f j) = true

theorem FitsUpTo.zero (d : DenseArgs) (f : Nat → Int) : FitsUpTo d f 0 := fun j _ hj => by
  obtain rfl : j = 0 := by omega
  rfl

theorem FitsUpTo.block {f : Nat → Int} {k : Nat} (h : FitsUpTo d f (16 * k)) (hk : k < d.nblk)
    (hin : in32 (sumTo f (16 * (k + 1))) = true) : FitsUpTo d f (16 * (k + 1)) := fun j hj hle => by
  by_cases hold : j ≤ 16 * k
  · exact h j hj hold
  · obtain rfl : j = 16 * (k + 1) := by
      obtain ⟨-, hj⟩ := hj
      omega
    exact hin

theorem FitsUpTo.column {f : Nat → Int} {c : Nat} (h : FitsUpTo d f c) (hin : in32 (sumTo f (c + 1)) = true) :
    FitsUpTo d f (c + 1) := fun j hj hle => by
  by_cases hold : j ≤ c
  · exact h j hj hold
  · obtain rfl : j = c + 1 := by omega
    exact hin

/-- The running sum after `k` blocks of the row is in range. -/
theorem FitsUpTo.at_block {f : Nat → Int} {k : Nat} (h : FitsUpTo d f (16 * k)) (hk : k ≤ d.nblk) :
    in32 (sumTo f (16 * k)) = true :=
  h _ ⟨by have := d.nblk_le; omega, .inl (by omega)⟩ (Nat.le_refl _)

/-- The running sum after `c` columns, the blocks among them, is in range. -/
theorem FitsUpTo.at_column {f : Nat → Int} {c : Nat} (h : FitsUpTo d f c) (hlo : 16 * d.nblk ≤ c) (hhi : c ≤ d.cols) :
    in32 (sumTo f c) = true := h _ ⟨hhi, .inr hlo⟩ (Nat.le_refl _)

/-! ### Row scans -/

/-- The row's terms, and its raw values. -/
abbrev rowTerms (s : State) (p : Progress) (d : DenseArgs) (b r : Nat) : Nat → Int := denseTerm s.cfg p.1 d b r

abbrev rowValues (p : Progress) (d : DenseArgs) (r : Nat) : Nat → Int := fun j => s8 (p.1.read (d.matrixAt r j))

/-- The steps of the dot product of row `r` of batch `b` whose value leaves int32 satisfy `E` (R135). -/
structure DotSites (s : State) (p : Progress) (d : DenseArgs) (b r : Nat) (E : Site → Prop) : Prop where
  blk : ∀ k < d.nblk, in32 (sumTo (rowTerms s p d b r) (16 * (k + 1))) = false → E (.blk b r k)
  col : ∀ c, 16 * d.nblk ≤ c → c < d.cols → in32 (sumTo (rowTerms s p d b r) (c + 1)) = false → E (.col b r c)

theorem DotSites.imp {E' : Site → Prop} (h : DotSites s p d b r E) (hE : ∀ site, E site → E' site) :
    DotSites s p d b r E' where
  blk k hk hout := hE _ (h.blk k hk hout)
  col c hlo hc hout := hE _ (h.col c hlo hc hout)

/-- The steps of the row sum whose value leaves int32 satisfy `E` (R141). -/
structure SumSites (p : Progress) (d : DenseArgs) (b r : Nat) (E : Site → Prop) : Prop where
  rsblk : ∀ k < d.nblk, in32 (sumTo (rowValues p d r) (16 * (k + 1))) = false → E (.rsblk b r k)
  rscol : ∀ c, 16 * d.nblk ≤ c → c < d.cols → in32 (sumTo (rowValues p d r) (c + 1)) = false → E (.rscol b r c)

/-- Where the dot product of a row stands after `n` columns, every running sum so far in range. -/
structure DotScan (s : State) (p : Progress) (d : DenseArgs) (b r n : Nat) (w : Work) : Prop where
  batch : w.b = b
  row : w.r = r
  dot : w.dot = bits32 (sumTo (rowTerms s p d b r) n)
  fits : FitsUpTo d (rowTerms s p d b r) n

/-- Where the row sum stands after `n` columns. -/
structure SumScan (p : Progress) (d : DenseArgs) (r n : Nat) (w : Work) : Prop where
  rowSum : w.rowSum = bits32 (sumTo (rowValues p d r) n)
  fits : FitsUpTo d (rowValues p d r) n

/-- The loads of a block step, up to the narrowing (R135). -/
theorem denseBlock_eq_addDot (hf : s.foreign = []) {I : Nat → Prop} (hin : RowInputs s d I b r) {k : Nat}
    (hk : k < d.nblk) :
    ∃ w', denseBlock d b r k (s.at p w) =
        addDot (lanesDot s.cfg.dotMode (p.1.read128 (d.vectorAt b (16 * k))) (p.1.read128 (d.matrixAt r (16 * k))))
          (fun w => .blk w.b w.r w.k) (s.at p w') ∧
      w'.b = w.b ∧ w'.r = w.r ∧ w'.k = k ∧ w'.dot = w.dot ∧ w'.rowSum = w.rowSum ∧
      w'.latchB = p.1.read128 (d.matrixAt r (16 * k)) := by
  have hn := d.nblk_le
  have hv : ∀ j < 16, readable s.cfg (d.vectorAt b (16 * k) + j) := fun j hj => by
    rw [d.vectorAt_add]
    exact (hin.vector _ (by omega)).1
  have hm : ∀ j < 16, readable s.cfg (d.matrixAt r (16 * k) + j) := fun j hj => by
    rw [d.matrixAt_add]
    exact (hin.matrix _ (by omega)).1
  unfold denseBlock
  rw [Cmd.bind_ok (updateWork_apply _ _), State.at_workNow, State.at_withWork, Cmd.bind_ok (ldBlock_at hf _ _ hv),
    Cmd.bind_ok (updateWork_apply _ _), State.at_workNow, State.at_withWork, Cmd.bind_ok (ldBlock_at hf _ _ hm),
    Cmd.bind_ok (updateWork_apply _ _), State.at_workNow, State.at_withWork, Cmd.bind_ok dotBlock_at,
    Cmd.bind_ok (work_apply _), State.at_workNow]
  dsimp only [addTouch]
  rw [toInt_reduce4_dot16Lanes]
  exact ⟨_, rfl, rfl, rfl, rfl, rfl, rfl, rfl⟩

/-- The loads of a remainder column, up to the narrowing (R135). -/
theorem denseColumn_eq_addDot (hf : s.foreign = []) {I : Nat → Prop} (hin : RowInputs s d I b r) {c : Nat}
    (hc : c < d.cols) :
    ∃ w', denseColumn d b r c (s.at p w) =
        (addDot (s8 (p.1.read (d.matrixAt r c)) * s8 (p.1.read (d.vectorAt b c))) (fun w => .col w.b w.r w.c) >>=
          fun _ => pure (s8 (p.1.read (d.matrixAt r c)))) (s.at p w') ∧
      w'.b = w.b ∧ w'.r = w.r ∧ w'.c = c ∧ w'.dot = w.dot ∧ w'.rowSum = w.rowSum := by
  unfold denseColumn
  rw [Cmd.bind_ok (updateWork_apply _ _), State.at_workNow, State.at_withWork,
    Cmd.bind_ok (ldS8_at hf _ _ (hin.matrix c hc).1), Cmd.bind_ok (ldS8_at hf _ _ (hin.vector c hc).1)]
  exact ⟨_, rfl, rfl, rfl, rfl, rfl, rfl⟩

/-- A block step takes the dot product 16 columns on, or overflows. -/
theorem denseBlock_fault (hfault : s.cfg.intOvf = .fault) (hf : s.foreign = []) {I : Nat → Prop}
    (hin : RowInputs s d I b r) (hE : DotSites s p d b r E) {k : Nat} (hk : k < d.nblk)
    (hscan : DotScan s p d b r (16 * k) w) :
    CompletesOrOverflows s E (fun _ q w' => q = p ∧ DotScan s p d b r (16 * (k + 1)) w' ∧ w'.k = k ∧
      w'.rowSum = w.rowSum ∧ w'.latchB = p.1.read128 (d.matrixAt r (16 * k))) (denseBlock d b r k (s.at p w)) := by
  obtain ⟨w', heq, hb, hr, hk', hdot, hsum, hlatch⟩ := denseBlock_eq_addDot (p := p) (w := w) hf hin hk
  rw [heq]
  refine (addDot_fault hfault (hdot.trans hscan.dot) (hscan.fits.at_block (Nat.le_of_lt hk))
    (sumTo_blocks s.cfg p.1 d b r hk) fun hout => ?_).mono fun _ q w'' h => ?_
  · rw [hb, hr, hk', hscan.batch, hscan.row]
    exact hE.blk k hk hout
  · obtain ⟨hin32, rfl, rfl⟩ := h
    exact ⟨rfl, ⟨hb.trans hscan.batch, hr.trans hscan.row, rfl, hscan.fits.block hk hin32⟩, hk', hsum, hlatch⟩

/-- A remainder column takes the dot product one column on, or overflows. -/
theorem denseColumn_fault (hfault : s.cfg.intOvf = .fault) (hf : s.foreign = []) {I : Nat → Prop}
    (hin : RowInputs s d I b r) (hE : DotSites s p d b r E) {c : Nat} (hlo : 16 * d.nblk ≤ c) (hc : c < d.cols)
    (hscan : DotScan s p d b r c w) :
    CompletesOrOverflows s E (fun v q w' => v = rowValues p d r c ∧ q = p ∧ DotScan s p d b r (c + 1) w' ∧ w'.c = c ∧
      w'.rowSum = w.rowSum) (denseColumn d b r c (s.at p w)) := by
  obtain ⟨w', heq, hb, hr, hc', hdot, hsum⟩ := denseColumn_eq_addDot (p := p) (w := w) hf hin hc
  rw [heq]
  refine (addDot_fault hfault (hdot.trans hscan.dot) (hscan.fits.at_column hlo (Nat.le_of_lt hc))
    (sumTo_column s.cfg p.1 d b r hlo) fun hout => ?_).bind fun _ q w'' h => ?_
  · rw [hb, hr, hc', hscan.batch, hscan.row]
    exact hE.col c hlo hc hout
  · obtain ⟨hin32, rfl, rfl⟩ := h
    exact .ok ⟨rfl, rfl, ⟨hb.trans hscan.batch, hr.trans hscan.row, rfl, hscan.fits.column hin32⟩, hc', hsum⟩

/-- `RowDot` scans the row or overflows (R135). -/
theorem rowDot_fault (hfault : s.cfg.intOvf = .fault) (hf : s.foreign = []) {I : Nat → Prop}
    (hin : RowInputs s d I b r) (hE : DotSites s p d b r E) (hb : w.b = b) (hr : w.r = r) :
    CompletesOrOverflows s E (fun _ q w' => q = p ∧ DotScan s p d b r d.cols w') (rowDot d b r (s.at p w)) := by
  have hn := d.nblk_le
  unfold rowDot
  rw [Cmd.bind_ok (updateWork_apply _ _), State.at_workNow, State.at_withWork]
  refine (CompletesOrOverflows.loop (lo := 0) (w := { w with dot := 0 })
    (fun k q w => q = p ∧ DotScan s p d b r (16 * k) w)
    ⟨rfl, hb, hr, rfl, FitsUpTo.zero _ _⟩ fun k _ hk q w h => ?_).bind fun _ q w h => ?_
  · obtain ⟨rfl, hscan⟩ := h
    exact (denseBlock_fault hfault hf hin hE (by omega) hscan).mono fun _ _ _ h => ⟨h.1, h.2.1⟩
  · rw [Nat.zero_add] at h
    have hcols : 16 * d.nblk + (d.cols - 16 * d.nblk) = d.cols := by omega
    have hloop := CompletesOrOverflows.loop (s := s) (E := E) (body := fun c => denseColumn d b r c >>= fun _ => pure ())
      (fun c q w => q = p ∧ DotScan s p d b r c w) (n := d.cols - 16 * d.nblk) h fun c hlo hc q w h => by
        obtain ⟨rfl, hscan⟩ := h
        exact (denseColumn_fault hfault hf hin hE hlo (by omega) hscan).bind fun _ _ _ h => .ok ⟨h.2.1, h.2.2.1⟩
    rwa [hcols] at hloop

/-- A block step of `RowDotSum` takes both sums 16 columns on, or overflows (R141). -/
theorem denseBlockSum_fault (hfault : s.cfg.intOvf = .fault) (hf : s.foreign = []) {I : Nat → Prop}
    (hin : RowInputs s d I b r) (hE : DotSites s p d b r E) (hE' : SumSites p d b r E) {k : Nat} (hk : k < d.nblk)
    (hscan : DotScan s p d b r (16 * k) w) (hsum : SumScan p d r (16 * k) w) :
    CompletesOrOverflows s E
      (fun _ q w' => q = p ∧ DotScan s p d b r (16 * (k + 1)) w' ∧ SumScan p d r (16 * (k + 1)) w')
      (denseBlockSum d b r k (s.at p w)) := by
  unfold denseBlockSum
  refine (denseBlock_fault hfault hf hin hE hk hscan).bind fun _ q w' h => ?_
  obtain ⟨rfl, hscan', hk', hsum', hlatch⟩ := h
  rw [Cmd.bind_ok (work_apply _), State.at_workNow, hlatch]
  refine (addRowSum_fault hfault (hsum'.trans hsum.rowSum) (hsum.fits.at_block (Nat.le_of_lt hk))
    (sumTo_blocks_raw q.1 d r k) fun hout => ?_).mono fun _ q' w'' h => ?_
  · rw [hk', hscan'.batch, hscan'.row]
    exact hE'.rsblk k hk hout
  · obtain ⟨hin32, rfl, rfl⟩ := h
    exact ⟨rfl, ⟨hscan'.batch, hscan'.row, hscan'.dot, hscan'.fits⟩, rfl, hsum.fits.block hk hin32⟩

/-- A remainder column of `RowDotSum` takes both sums one column on, or overflows (R141). -/
theorem denseColumnSum_fault (hfault : s.cfg.intOvf = .fault) (hf : s.foreign = []) {I : Nat → Prop}
    (hin : RowInputs s d I b r) (hE : DotSites s p d b r E) (hE' : SumSites p d b r E) {c : Nat}
    (hlo : 16 * d.nblk ≤ c) (hc : c < d.cols) (hscan : DotScan s p d b r c w) (hsum : SumScan p d r c w) :
    CompletesOrOverflows s E (fun _ q w' => q = p ∧ DotScan s p d b r (c + 1) w' ∧ SumScan p d r (c + 1) w')
      ((denseColumn d b r c >>= fun m => addRowSum m (fun w => .rscol w.b w.r w.c)) (s.at p w)) := by
  refine (denseColumn_fault hfault hf hin hE hlo hc hscan).bind fun v q w' h => ?_
  obtain ⟨rfl, rfl, hscan', hc', hsum'⟩ := h
  refine (addRowSum_fault hfault (hsum'.trans hsum.rowSum) (hsum.fits.at_column hlo (Nat.le_of_lt hc)) rfl
    fun hout => ?_).mono fun _ q' w'' h => ?_
  · rw [hc', hscan'.batch, hscan'.row]
    exact hE'.rscol c hlo hc hout
  · obtain ⟨hin32, rfl, rfl⟩ := h
    exact ⟨rfl, ⟨hscan'.batch, hscan'.row, hscan'.dot, hscan'.fits⟩, rfl, hsum.fits.column hin32⟩

/-- `RowDotSum` scans the row or overflows (R141). -/
theorem rowDotSum_fault (hfault : s.cfg.intOvf = .fault) (hf : s.foreign = []) {I : Nat → Prop}
    (hin : RowInputs s d I b r) (hE : DotSites s p d b r E) (hE' : SumSites p d b r E) (hb : w.b = b) (hr : w.r = r) :
    CompletesOrOverflows s E (fun _ q w' => q = p ∧ DotScan s p d b r d.cols w' ∧ SumScan p d r d.cols w')
      (rowDotSum d b r (s.at p w)) := by
  have hn := d.nblk_le
  unfold rowDotSum
  rw [Cmd.bind_ok (updateWork_apply _ _), State.at_workNow, State.at_withWork]
  refine (CompletesOrOverflows.loop (lo := 0) (w := { w with dot := 0, rowSum := 0 })
    (fun k q w => q = p ∧ DotScan s p d b r (16 * k) w ∧ SumScan p d r (16 * k) w)
    ⟨rfl, ⟨hb, hr, rfl, FitsUpTo.zero _ _⟩, rfl, FitsUpTo.zero _ _⟩ fun k _ hk q w h => ?_).bind fun _ q w h => ?_
  · obtain ⟨rfl, hscan, hsum⟩ := h
    exact denseBlockSum_fault hfault hf hin hE hE' (by omega) hscan hsum
  · rw [Nat.zero_add] at h
    have hcols : 16 * d.nblk + (d.cols - 16 * d.nblk) = d.cols := by omega
    have hloop := CompletesOrOverflows.loop (s := s) (E := E)
      (body := fun c => denseColumn d b r c >>= fun m => addRowSum m (fun w => .rscol w.b w.r w.c))
      (fun c q w => q = p ∧ DotScan s p d b r c w ∧ SumScan p d r c w) (n := d.cols - 16 * d.nblk) h
      fun c hlo hc q w h => by
        obtain ⟨rfl, hscan, hsum⟩ := h
        exact denseColumnSum_fault hfault hf hin hE hE' hlo (by omega) hscan hsum
    rwa [hcols] at hloop

end Scan

/-! ### DMMA.S -/

section Kernels

variable {s : State} {d : DenseArgs} {m : Memory} {p : Progress} {w : Work} {b r : Nat} {pcs offsets : Nat}

/-- The site names a step of a dense kernel whose value leaves int32 (R210). -/
def OverflowSite (c : Config) (m : Memory) (d : DenseArgs) (offsets : Nat) (site : Site) : Prop :=
  ∃ v, denseSiteValue c m d offsets site = some v ∧ in32 v = false

theorem dotSites (hp : AgreeOn d.inputByte p.1 m) (hb : b < d.batch) (hr : r < d.rows) :
    DotSites s p d b r (fun site => site.ofDense = true ∧ OverflowSite s.cfg m d offsets site) where
  blk k hk hout := by
    have hn := d.nblk_le
    rw [denseTerm_agree hp hb hr (by omega)] at hout
    exact ⟨rfl, _, if_pos ⟨hb, hr, hk⟩, hout⟩
  col c hlo hc hout := by
    rw [denseTerm_agree hp hb hr (by omega)] at hout
    exact ⟨rfl, _, if_pos ⟨hb, hr, hlo, hc⟩, hout⟩

theorem sumSites (hp : AgreeOn d.inputByte p.1 m) (hb : b < d.batch) (hr : r < d.rows) :
    SumSites p d b r (OverflowSite s.cfg m d offsets) where
  rsblk k hk hout := by
    have hn := d.nblk_le
    rw [denseRowSum_agree hp hr (by omega)] at hout
    exact ⟨_, if_pos ⟨hb, hr, hk⟩, hout⟩
  rscol c hlo hc hout := by
    rw [denseRowSum_agree hp hr (by omega)] at hout
    exact ⟨_, if_pos ⟨hb, hr, hlo, hc⟩, hout⟩

/-- Every running sum of row `r` of batch `b` is in range (R249). -/
def DotFits (c : Config) (m : Memory) (d : DenseArgs) (b r : Nat) : Prop :=
  ∀ n, narrowedAt d n → in32 (sumTo (denseTerm c m d b r) n) = true

theorem DotScan.dotFits (h : DotScan s p d b r d.cols w) (hp : AgreeOn d.inputByte p.1 m) (hb : b < d.batch)
    (hr : r < d.rows) : DotFits s.cfg m d b r := fun n hn => by
  rw [← denseTerm_agree hp hb hr hn.1]
  exact h.fits n hn hn.1

/-- A row of DMMA.S leaves the inputs alone and has its running sums in range, or overflows (R137). -/
theorem denseRow_fault (hfault : s.cfg.intOvf = .fault) (hf : s.foreign = []) (hready : DenseReady s.cfg d)
    (hdisj : ∀ x, d.resultByte x → ¬ d.inputByte x) (hb : b < d.batch) (hr : r < d.rows) {bs : Word32}
    (hp : AgreeOn d.inputByte p.1 m) (hwb : w.b = b) :
    CompletesOrOverflows s (fun site => site.ofDense = true ∧ OverflowSite s.cfg m d offsets site)
      (fun _ q w' => AgreeOn d.inputByte q.1 m ∧ w'.b = b ∧ DotFits s.cfg m d b r) (denseRow d b bs r (s.at p w)) := by
  obtain ⟨hread, hwrite⟩ := hready.result b hb r hr
  unfold denseRow
  rw [Cmd.bind_ok (updateWork_apply _ _), State.at_workNow, State.at_withWork]
  refine (rowDot_fault (w := { w with r := r }) hfault hf (hready.rowInputs (fun _ h => h) hb hr) (dotSites hp hb hr) hwb rfl).bind
    fun _ q w' h => ?_
  obtain ⟨rfl, hscan⟩ := h
  rw [Cmd.bind_ok (work_apply _), State.at_workNow]
  unfold fMul
  rw [Cmd.bind_ok (orNaN_at _ _ _), accumulate_mk hf _ _ _ hread hwrite]
  exact .ok ⟨hp.addTo fun x hx => hdisj x ⟨b, hb, r, hr, hx⟩, hscan.batch, hscan.dotFits hp hb hr⟩

/-- A batch of DMMA.S leaves the inputs alone and has its running sums in range, or overflows (R137). -/
theorem denseBatch_fault (hfault : s.cfg.intOvf = .fault) (hf : s.foreign = []) (hready : DenseReady s.cfg d)
    (hdisj : ∀ x, d.resultByte x → ¬ d.inputByte x) (hb : b < d.batch) (hp : AgreeOn d.inputByte p.1 m) :
    CompletesOrOverflows s (fun site => site.ofDense = true ∧ OverflowSite s.cfg m d offsets site)
      (fun _ q _ => AgreeOn d.inputByte q.1 m ∧ ∀ r < d.rows, DotFits s.cfg m d b r) (denseBatch d b (s.at p w)) := by
  unfold denseBatch
  rw [Cmd.bind_ok (updateWork_apply _ _), State.at_workNow, State.at_withWork,
    Cmd.bind_ok (ldInput32_at hf _ _ (hready.scales b hb))]
  refine (CompletesOrOverflows.rounds (fun q w => AgreeOn d.inputByte q.1 m ∧ w.b = b) ⟨hp, rfl⟩
    fun r hr q w h => ?_).mono fun _ q w h => ⟨h.1.1, h.2⟩
  exact (denseRow_fault hfault hf hready hdisj hb hr h.1 h.2).mono fun _ q w h => ⟨⟨h.1, h.2.1⟩, h.2.2⟩

theorem intOvf_of_not_wrap {c : Config} (h : c.intOvf ≠ .wrap) : c.intOvf = .fault := by
  cases hc : c.intOvf with
  | fault => rfl
  | wrap => exact absurd hc h

/-- DMMA.S under `FAULT` ends with an overflow at a step whose value leaves int32, if some running sum leaves it. -/
theorem exec_dmmaS_overflow (ha : s.accepts) (hf : s.foreign = []) (hd : operandsOf denseArgs s = some d)
    (hready : DenseReady s.cfg d) (hfit : ¬ denseFits s.cfg s.mem d) (hdisj : ∀ x, d.resultByte x → ¬ d.inputByte x) :
    ∃ t site, exec .dmmaS s = .next t ∧ t.inst.fault = some ⟨0x10, .intOverflow site⟩ ∧ site.ofDense = true ∧
      OverflowSite s.cfg s.mem d offsets site := by
  have hfault := intOvf_of_not_wrap fun h => hfit (.inl h)
  refine exec_of_overflow (i := .dmmaS) ha hf ?_
  show CompletesOrOverflows (s.busyWith 0x10) _ _ (dmmaSBody ((s.busyWith 0x10).at (s.mem, s.draws) Work.fresh))
  unfold dmmaSBody
  rw [ArgReader.denseArgs.bind_at hd]
  refine (CompletesOrOverflows.rounds (s := s.busyWith 0x10) (fun q _ => AgreeOn d.inputByte q.1 s.mem)
    (AgreeOn.refl _ _) fun b hb q w hq => denseBatch_fault hfault hf hready hdisj hb hq).bind fun _ q w h => ?_
  exact absurd (.inr fun b hb r hr n hn => h.2 b hb r hr n hn) hfit

/-! ### DMMA.A -/

/-- `AdjustedSum` gives the difference, or overflows at the product or at the difference (R143). -/
theorem adjustedSum_fault {E : Site → Prop} (hfault : s.cfg.intOvf = .fault) {x y o : Int} {dot rs off : Word32}
    (hdot : dot = bits32 x) (hrs : rs = bits32 y) (hoff : off.toInt = o) (hx : in32 x = true) (hy : in32 y = true)
    (hprod : in32 (y * o) = false → E (.prod w.b w.r)) (hadj : in32 (x - y * o) = false → E (.adj w.b w.r)) :
    CompletesOrOverflows s E (fun _ q w' => q = p ∧ w' = w ∧ in32 (y * o) = true ∧ in32 (x - y * o) = true)
      (adjustedSum dot rs off (s.at p w)) := by
  unfold adjustedSum
  rw [hdot, hrs, hoff, toInt_bits32_of_in32 hx, toInt_bits32_of_in32 hy]
  refine (acc32_fault hfault hprod).bind fun v q w' h => ?_
  obtain ⟨rfl, hin, rfl, rfl⟩ := h
  rw [toInt_bits32_of_in32 hin]
  exact (acc32_fault hfault hadj).mono fun _ _ _ h => ⟨h.2.2.1, h.2.2.2, hin, h.2.1⟩

/-- Every running value of row `r` of batch `b` of DMMA.A is in range (R249). -/
def AsymFits (c : Config) (m : Memory) (d : DenseArgs) (offsets b r : Nat) : Prop :=
  (∀ n, narrowedAt d n → in32 (sumTo (denseTerm c m d b r) n) = true ∧
    in32 (sumTo (fun j => s8 (m.read (d.matrixAt r j))) n) = true) ∧
  in32 (denseRowSum m d r * offsetAt m offsets b) = true ∧ in32 (denseAdjusted c m d offsets b r) = true

theorem SumScan.sumFits (h : SumScan p d r d.cols w) (hp : AgreeOn d.inputByte p.1 m) (hr : r < d.rows) :
    ∀ n, narrowedAt d n → in32 (sumTo (fun j => s8 (m.read (d.matrixAt r j))) n) = true := fun n hn => by
  rw [← denseRowSum_agree hp hr hn.1]
  exact h.fits n hn hn.1

/-- A row of DMMA.A leaves the inputs alone and has its running values in range, or overflows (R142). -/
theorem asymRow_fault (hfault : s.cfg.intOvf = .fault) (hf : s.foreign = []) (hready : AsymReady s.cfg d pcs offsets)
    (hdisj : ∀ x, d.resultByte x → ¬ asymInputByte d pcs offsets x) (hb : b < d.batch) (hr : r < d.rows)
    {bs off : Word32} (hoff : off.toInt = offsetAt m offsets b) (hp : AgreeOn (asymInputByte d pcs offsets) p.1 m)
    (hwb : w.b = b) :
    CompletesOrOverflows s (OverflowSite s.cfg m d offsets)
      (fun _ q w' => AgreeOn (asymInputByte d pcs offsets) q.1 m ∧ w'.b = b ∧ AsymFits s.cfg m d offsets b r)
      (asymRow d pcs b bs off r (s.at p w)) := by
  obtain ⟨hread, hwrite⟩ := hready.result b hb r hr
  have hpd : AgreeOn d.inputByte p.1 m := hp.mono fun x hx => .inl hx
  have hdot : sumTo (denseTerm s.cfg p.1 d b r) d.cols = denseDot s.cfg m d b r :=
    denseTerm_agree hpd hb hr (Nat.le_refl _)
  have hsum : sumTo (rowValues p d r) d.cols = denseRowSum m d r := denseRowSum_agree hpd hr (Nat.le_refl _)
  have all : narrowedAt d d.cols := ⟨Nat.le_refl _, .inr d.nblk_le⟩
  unfold asymRow
  rw [Cmd.bind_ok (updateWork_apply _ _), State.at_workNow, State.at_withWork]
  refine (rowDotSum_fault (w := { w with r := r }) hfault hf
    (hready.rowInputs (I := asymInputByte d pcs offsets) (fun _ h => .inl h) hb hr)
    (E := OverflowSite s.cfg m d offsets) ((dotSites hpd hb hr).imp fun _ h => h.2) (sumSites hpd hb hr) hwb rfl).bind
    fun _ q w' h => ?_
  obtain ⟨rfl, hscan, hscan'⟩ := h
  have hdots := hscan.dotFits hpd hb hr
  have hsums := hscan'.sumFits hpd hr
  rw [Cmd.bind_ok (work_apply _), State.at_workNow]
  refine (adjustedSum_fault hfault (hscan.dot.trans (congrArg bits32 hdot)) (hscan'.rowSum.trans (congrArg bits32 hsum)) hoff
    (hdots _ all) (hsums _ all)
    (fun hout => ?_) fun hout => ?_).bind fun _ q' w'' h => ?_
  · rw [hscan.batch, hscan.row]
    exact ⟨_, if_pos ⟨hb, hr⟩, hout⟩
  · rw [hscan.batch, hscan.row]
    exact ⟨_, if_pos ⟨hb, hr⟩, hout⟩
  · obtain ⟨rfl, rfl, hprod, hadj⟩ := h
    rw [Cmd.bind_ok (ldInput32_at hf _ _ (hready.perChannel b hb r hr)), Cmd.bind_ok (scale3_at _ _ _),
      accumulate_mk hf _ _ _ hread hwrite]
    exact .ok ⟨hp.addTo fun x hx => hdisj x ⟨b, hb, r, hr, hx⟩, hscan.batch,
      fun n hn => ⟨hdots n hn, hsums n hn⟩, hprod, hadj⟩

/-- A batch of DMMA.A leaves the inputs alone and has its running values in range, or overflows (R142). -/
theorem asymBatch_fault (hfault : s.cfg.intOvf = .fault) (hf : s.foreign = []) (hready : AsymReady s.cfg d pcs offsets)
    (hdisj : ∀ x, d.resultByte x → ¬ asymInputByte d pcs offsets x) (hb : b < d.batch)
    (hp : AgreeOn (asymInputByte d pcs offsets) p.1 m) :
    CompletesOrOverflows s (OverflowSite s.cfg m d offsets)
      (fun _ q _ => AgreeOn (asymInputByte d pcs offsets) q.1 m ∧ ∀ r < d.rows, AsymFits s.cfg m d offsets b r)
      (asymBatch d pcs offsets b (s.at p w)) := by
  have hoff : (p.1.read32 (offsets + 4 * b)).toInt = offsetAt m offsets b := by
    rw [hp.read32 fun x hx => .inr (.inl ⟨b, hb, hx⟩), offsetAt]
  unfold asymBatch
  rw [Cmd.bind_ok (updateWork_apply _ _), State.at_workNow, State.at_withWork,
    Cmd.bind_ok (ldInput32_at hf _ _ (hready.scales b hb)), Cmd.bind_ok (ldInput32_at hf _ _ (hready.offsets b hb))]
  refine (CompletesOrOverflows.rounds (fun q w => AgreeOn (asymInputByte d pcs offsets) q.1 m ∧ w.b = b) ⟨hp, rfl⟩
    fun r hr q w h => ?_).mono fun _ q w h => ⟨h.1.1, h.2⟩
  exact (asymRow_fault hfault hf hready hdisj hb hr hoff h.1 h.2).mono fun _ q w h => ⟨⟨h.1, h.2.1⟩, h.2.2⟩

/-- DMMA.A under `FAULT` ends with an overflow at a step whose value leaves int32, if some running value leaves it. -/
theorem exec_dmmaA_overflow (ha : s.accepts) (hf : s.foreign = []) (hd : operandsOf denseArgs s = some d)
    (hpcs : operandsOf (argAddr 8) s = some pcs) (hoffs : operandsOf (argAddr 9) s = some offsets)
    (hready : AsymReady s.cfg d pcs offsets) (hfit : ¬ asymFits s.cfg s.mem d offsets)
    (hdisj : ∀ x, d.resultByte x → ¬ asymInputByte d pcs offsets x) :
    ∃ t site, exec .dmmaA s = .next t ∧ t.inst.fault = some ⟨0x11, .intOverflow site⟩ ∧
      OverflowSite s.cfg s.mem d offsets site := by
  have hfault := intOvf_of_not_wrap fun h => hfit (.inl h)
  refine exec_of_overflow (i := .dmmaA) ha hf ?_
  show CompletesOrOverflows (s.busyWith 0x11) _ _ (dmmaABody ((s.busyWith 0x11).at (s.mem, s.draws) Work.fresh))
  unfold dmmaABody
  rw [ArgReader.denseArgs.bind_at hd, (ArgReader.argAddr 8).bind_at hpcs, (ArgReader.argAddr 9).bind_at hoffs]
  refine (CompletesOrOverflows.rounds (s := s.busyWith 0x11) (fun q _ => AgreeOn (asymInputByte d pcs offsets) q.1 s.mem)
    (AgreeOn.refl _ _) fun b hb q w hq => asymBatch_fault hfault hf hready hdisj hb hq).bind fun _ q w h => ?_
  exact absurd (.inr fun b hb r hr => h.2 b hb r hr) hfit

end Kernels

/-- Settles O48: a dense kernel completes with every running value in range or overflows, and here it cannot do the first. -/
theorem denseOverflowFaults : Obligations.DenseOverflowFaults := by
  refine ⟨fun s d ha hf hd hready hfit hdisj => ?_, fun s d pcs offsets ha hf hd hpcs hoffs hready hfit hdisj => ?_⟩
  · obtain ⟨t, site, hexec, hfault, hdense, v, hv, hout⟩ := exec_dmmaS_overflow (offsets := 0) ha hf hd hready hfit
      fun x ⟨b, hb, r, hr, hx⟩ => hdisj b hb r hr x hx
    exact ⟨t, site, v, hexec, hfault, hdense, hv, hout⟩
  · obtain ⟨t, site, hexec, hfault, v, hv, hout⟩ := exec_dmmaA_overflow ha hf hd hpcs hoffs hready hfit
      fun x ⟨b, hb, r, hr, hx⟩ => hdisj b hb r hr x hx
    exact ⟨t, site, v, hexec, hfault, hv, hout⟩

end Sys2Proof.Machine
end


section
/-! PROOFS. The accesses of a command step by step: what its pieces do to the trace (20_memory.md R63), and that every write
it makes is recorded there and is one of its own (R55). -/

namespace Sys2Proof.Machine

/-- A relation that every piece of a command keeps whose writes are among `W`: unlike for `Neutral`, the trace may grow by
accesses only, and each write to memory comes with its access (R57, R63). -/
structure Traced (R : State → State → Prop) (W : Int → Nat → Prop) : Prop where
  refl : ∀ s, R s s
  trans : ∀ {s t u}, R s t → R t u → R s u
  draw : ∀ s : State, R s { s with draws := s.draws + 1 }
  work : ∀ (s : State) (w : Work), w.trace = s.workNow.trace → R s (s.withWork w)
  read : ∀ (s : State) (tag : Tag) (a n : Nat), tag ≠ .written → R s (s.withWork (addTouch s.workNow tag a n))
  write : ∀ (s : State) (a : Int) (bytes : List Byte), W a bytes.length →
    checkAccess s.cfg .write true a bytes.length = none →
    R s { s.withWork (addTouch s.workNow .written a.toNat bytes.length) with mem := s.mem.writeList a.toNat bytes }

namespace Traced

variable {α β : Type} {R : State → State → Prop} {W : Int → Nat → Prop} (h : Traced R W)
include h

/-! ### The shared operations -/

theorem keeps_of_same {m : Cmd α} (hm : ∀ s, endState (m s) = s) : Cmd.Keeps R m := fun s => by
  rw [hm s]
  exact h.refl s

theorem keeps_of_argReader {m : Cmd α} (hm : ArgReader m) : Cmd.Keeps R m := h.keeps_of_same hm.endState_eq

theorem keeps_pure (a : α) : Cmd.Keeps R (pure a : Cmd α) := h.refl

theorem keeps_raise (c : Cause) : Cmd.Keeps R (raise c : Cmd α) := h.refl

theorem keeps_config : Cmd.Keeps R config := h.refl

theorem keeps_currentWork : Cmd.Keeps R Machine.work := h.refl

theorem keeps_updateWork {f : Work → Work} (hf : ∀ w, (f w).trace = w.trace) : Cmd.Keeps R (updateWork f) :=
  fun s => h.work s _ (hf _)

theorem keeps_bind {m : Cmd α} {f : α → Cmd β} (hm : Cmd.Keeps R m) (hf : ∀ a, Cmd.Keeps R (f a)) :
    Cmd.Keeps R (m >>= f) := fun s => by
  have hs := hm s
  rw [Cmd.bind_apply]
  cases hms : m s with
  | ok a t =>
    rw [hms] at hs
    exact h.trans hs (hf a t)
  | error c t =>
    rw [hms] at hs
    exact hs

theorem keeps_loop {body : Nat → Cmd Unit} :
    ∀ {n lo : Nat}, (∀ i, lo ≤ i → i < lo + n → Cmd.Keeps R (body i)) → Cmd.Keeps R (loop lo n body)
  | 0, _, _ => h.keeps_pure ()
  | n + 1, lo, hbody => h.keeps_bind (hbody lo (by omega) (by omega)) fun _ =>
      keeps_loop fun i h1 h2 => hbody i (by omega) (by omega)

theorem keeps_check (k : Kind) (al : Bool) (a : Int) (n : Nat) : Cmd.Keeps R (check k al a n) :=
  h.keeps_of_same fun s => by
    unfold check
    split <;> rfl

theorem keeps_readBytes : ∀ (n a : Nat), Cmd.Keeps R (readBytes a n)
  | 0, _ => h.keeps_pure []
  | n + 1, a => by
    refine h.keeps_bind (fun s => ?_) fun _ => h.keeps_bind (keeps_readBytes n (a + 1)) fun _ => h.keeps_pure _
    unfold readByte
    split
    · exact h.draw s
    · exact h.refl s

theorem keeps_memRead {tag : Tag} (ht : tag ≠ .written) (al : Bool) (a : Int) (n : Nat) :
    Cmd.Keeps R (memRead tag al a n) :=
  h.keeps_bind (h.keeps_check _ _ _ _) fun _ => h.keeps_bind (fun s => h.read s tag _ _ ht) fun _ =>
    h.keeps_readBytes n _

theorem keeps_memWrite {a : Int} {bytes : List Byte} (hw : W a bytes.length) :
    Cmd.Keeps R (memWrite true a bytes) := fun s => by
  cases hc : checkAccess s.cfg .write true a bytes.length with
  | some c =>
    rw [memWrite_error hc]
    exact h.refl s
  | none =>
    unfold memWrite
    rw [Cmd.bind_ok (check_of_none hc)]
    exact h.write s a bytes hw hc

theorem keeps_ldS8 (a : Int) : Cmd.Keeps R (ldS8 a) :=
  h.keeps_bind (h.keeps_memRead (by decide) _ _ _) fun _ => h.keeps_pure _

theorem keeps_ldU8 (a : Int) : Cmd.Keeps R (ldU8 a) :=
  h.keeps_bind (h.keeps_memRead (by decide) _ _ _) fun _ => h.keeps_pure _

theorem keeps_ldInput32 (a : Int) : Cmd.Keeps R (ldInput32 a) :=
  h.keeps_bind (h.keeps_memRead (by decide) _ _ _) fun _ => h.keeps_pure _

theorem keeps_ldBlock (a : Int) : Cmd.Keeps R (ldBlock a) :=
  h.keeps_bind (h.keeps_memRead (by decide) _ _ _) fun _ => h.keeps_pure _

theorem keeps_orNaN (v : Option Word32) : Cmd.Keeps R (orNaN v) := by
  cases v with
  | some f => exact h.keeps_pure f
  | none => exact h.draw

theorem keeps_acc32 (x : Int) (site : Work → Site) : Cmd.Keeps R (acc32 x site) :=
  h.keeps_of_same fun s => by
    unfold acc32
    split
    · split <;> rfl
    · rfl

theorem keeps_dotBlock : Cmd.Keeps R dotBlock :=
  h.keeps_bind h.keeps_config fun _ => h.keeps_updateWork fun _ => rfl

theorem keeps_addDot (x : Int) (site : Work → Site) : Cmd.Keeps R (addDot x site) :=
  h.keeps_bind h.keeps_currentWork fun _ => h.keeps_bind (h.keeps_acc32 _ _) fun _ => h.keeps_updateWork fun _ => rfl

theorem keeps_addRowSum (x : Int) (site : Work → Site) : Cmd.Keeps R (addRowSum x site) :=
  h.keeps_bind h.keeps_currentWork fun _ => h.keeps_bind (h.keeps_acc32 _ _) fun _ => h.keeps_updateWork fun _ => rfl

theorem keeps_accumulate {e : Int} (hw : W e 4) (c : Word32) : Cmd.Keeps R (accumulate e c) :=
  h.keeps_bind (h.keeps_bind (h.keeps_memRead (by decide) _ _ _) fun _ => h.keeps_pure _) fun _ =>
    h.keeps_bind (h.keeps_orNaN _) fun _ => h.keeps_memWrite hw

theorem keeps_aliasCheck : Cmd.Keeps R aliasCheck :=
  h.keeps_of_same fun s => by
    unfold aliasCheck
    split <;> rfl

/-! ### The dense kernels -/

theorem keeps_denseBlock (d : DenseArgs) (b r k : Nat) : Cmd.Keeps R (denseBlock d b r k) :=
  h.keeps_bind (h.keeps_updateWork fun _ => rfl) fun _ => h.keeps_bind (h.keeps_ldBlock _) fun _ =>
    h.keeps_bind (h.keeps_updateWork fun _ => rfl) fun _ => h.keeps_bind (h.keeps_ldBlock _) fun _ =>
      h.keeps_bind (h.keeps_updateWork fun _ => rfl) fun _ => h.keeps_bind h.keeps_dotBlock fun _ =>
        h.keeps_bind h.keeps_currentWork fun _ => h.keeps_addDot _ _

theorem keeps_denseColumn (d : DenseArgs) (b r c : Nat) : Cmd.Keeps R (denseColumn d b r c) :=
  h.keeps_bind (h.keeps_updateWork fun _ => rfl) fun _ => h.keeps_bind (h.keeps_ldS8 _) fun _ =>
    h.keeps_bind (h.keeps_ldS8 _) fun _ => h.keeps_bind (h.keeps_addDot _ _) fun _ => h.keeps_pure _

theorem keeps_rowDot (d : DenseArgs) (b r : Nat) : Cmd.Keeps R (rowDot d b r) :=
  h.keeps_bind (h.keeps_updateWork fun _ => rfl) fun _ =>
    h.keeps_bind (h.keeps_loop fun k _ _ => h.keeps_denseBlock d b r k) fun _ =>
      h.keeps_loop fun c _ _ => h.keeps_bind (h.keeps_denseColumn d b r c) fun _ => h.keeps_pure _

theorem keeps_rowDotSum (d : DenseArgs) (b r : Nat) : Cmd.Keeps R (rowDotSum d b r) :=
  h.keeps_bind (h.keeps_updateWork fun _ => rfl) fun _ =>
    h.keeps_bind (h.keeps_loop fun k _ _ => h.keeps_bind (h.keeps_denseBlock d b r k) fun _ =>
      h.keeps_bind h.keeps_currentWork fun _ => h.keeps_addRowSum _ _) fun _ =>
        h.keeps_loop fun c _ _ => h.keeps_bind (h.keeps_denseColumn d b r c) fun _ => h.keeps_addRowSum _ _

theorem keeps_denseBatch (d : DenseArgs) {b : Nat} (hw : ∀ r < d.rows, W (d.resAddr b r) 4) :
    Cmd.Keeps R (denseBatch d b) :=
  h.keeps_bind (h.keeps_updateWork fun _ => rfl) fun _ => h.keeps_bind (h.keeps_ldInput32 _) fun _ =>
    h.keeps_loop fun r _ hr => h.keeps_bind (h.keeps_updateWork fun _ => rfl) fun _ =>
      h.keeps_bind (h.keeps_rowDot d b r) fun _ => h.keeps_bind h.keeps_currentWork fun _ =>
        h.keeps_bind (h.keeps_orNaN _) fun _ => h.keeps_accumulate (hw r (by omega)) _

theorem keeps_scale3 (adj bs cs : Word32) : Cmd.Keeps R (scale3 adj bs cs) :=
  h.keeps_bind h.keeps_config fun c => by
    cases c.asymOrder with
    | leftToRight => exact h.keeps_bind (h.keeps_orNaN _) fun _ => h.keeps_orNaN _
    | scaleFirst => exact h.keeps_bind (h.keeps_orNaN _) fun _ => h.keeps_orNaN _

theorem keeps_asymRow (d : DenseArgs) (pcs b : Nat) (bs off : Word32) {r : Nat} (hw : W (d.resAddr b r) 4) :
    Cmd.Keeps R (asymRow d pcs b bs off r) :=
  h.keeps_bind (h.keeps_updateWork fun _ => rfl) fun _ => h.keeps_bind (h.keeps_rowDotSum d b r) fun _ =>
    h.keeps_bind h.keeps_currentWork fun _ =>
      h.keeps_bind (h.keeps_bind (h.keeps_acc32 _ _) fun _ => h.keeps_acc32 _ _) fun _ =>
        h.keeps_bind (h.keeps_ldInput32 _) fun _ => h.keeps_bind (h.keeps_scale3 _ _ _) fun _ => h.keeps_accumulate hw _

theorem keeps_asymBatch (d : DenseArgs) (pcs offsets : Nat) {b : Nat} (hw : ∀ r < d.rows, W (d.resAddr b r) 4) :
    Cmd.Keeps R (asymBatch d pcs offsets b) :=
  h.keeps_bind (h.keeps_updateWork fun _ => rfl) fun _ => h.keeps_bind (h.keeps_ldInput32 _) fun _ =>
    h.keeps_bind (h.keeps_ldInput32 _) fun _ => h.keeps_loop fun r _ hr => h.keeps_asymRow d pcs b _ _ (hw r (by omega))

/-! ### The sparse kernels -/

theorem keeps_nextLedgerByte : Cmd.Keeps R nextLedgerByte :=
  h.keeps_bind h.keeps_currentWork fun _ => h.keeps_bind (h.keeps_ldU8 _) fun _ =>
    h.keeps_bind (h.keeps_updateWork fun _ => rfl) fun _ => h.keeps_pure _

theorem keeps_blockPrecond (cols : Nat) : Cmd.Keeps R (blockPrecond cols) :=
  h.keeps_bind h.keeps_config fun c => by
    split
    · exact h.keeps_pure ()
    · split <;> exact h.keeps_raise _

theorem keeps_sparseEntry (a : SparseArgs) (r i : Nat) : Cmd.Keeps R (sparseEntry a r i) :=
  h.keeps_bind (h.keeps_updateWork fun _ => rfl) fun _ => h.keeps_bind h.keeps_nextLedgerByte fun bi => by
    dsimp only
    split
    · exact h.keeps_raise _
    · exact h.keeps_bind (h.keeps_ldBlock _) fun _ => h.keeps_bind (h.keeps_updateWork fun _ => rfl) fun _ =>
        h.keeps_bind h.keeps_currentWork fun _ => h.keeps_bind (h.keeps_ldBlock _) fun _ =>
          h.keeps_bind (h.keeps_updateWork fun _ => rfl) fun _ => h.keeps_bind h.keeps_dotBlock fun _ =>
            h.keeps_bind h.keeps_currentWork fun _ => h.keeps_bind (h.keeps_addDot _ _) fun _ =>
              h.keeps_updateWork fun _ => rfl

theorem keeps_sparseRow (a : SparseArgs) {r : Nat} (hw : W (a.resAddr r) 4) : Cmd.Keeps R (sparseRow a r) :=
  h.keeps_bind (h.keeps_updateWork fun _ => rfl) fun _ => h.keeps_bind h.keeps_nextLedgerByte fun _ =>
    h.keeps_bind (h.keeps_updateWork fun _ => rfl) fun _ =>
      h.keeps_bind (h.keeps_loop fun i _ _ => h.keeps_sparseEntry a r i) fun _ => h.keeps_bind h.keeps_currentWork fun _ =>
        h.keeps_bind (h.keeps_orNaN _) fun _ => h.keeps_accumulate hw _

theorem keeps_sparseBody (a : SparseArgs) (hw : ∀ r < a.rows, W (a.resAddr r) 4) : Cmd.Keeps R (sparseBody a) :=
  h.keeps_bind (h.keeps_updateWork fun _ => rfl) fun _ => h.keeps_loop fun r _ hr => h.keeps_sparseRow a (hw r (by omega))

theorem keeps_sparseBatch (a : SparseBatchArgs) {b : Nat} (hw : ∀ r < a.rows, W ((a.walk b 0).resAddr r) 4) :
    Cmd.Keeps R (sparseBatch a b) :=
  h.keeps_bind (h.keeps_updateWork fun _ => rfl) fun _ => h.keeps_bind (h.keeps_ldInput32 _) fun v =>
    h.keeps_sparseBody (a.walk b v) hw

end Traced

/-- The write is one that the command can make at the operands that it decodes in `s`, or is at no address at all (R55). -/
def WritesStored (i : Instr) (s : State) (a : Int) (n : Nat) : Prop :=
  0 ≤ a → ∀ x : Nat, a ≤ x → (x : Int) < a + n → storedByte i s x

/-- Wherever a command ends, it has kept what accesses keep that write only bytes of its own (R55, R63). -/
theorem bodyOf_traced {R : State → State → Prop} (i : Instr) (s : State) (h : Traced R (WritesStored i s)) :
    R s (endState (bodyOf i s)) := by
  have hs := h.refl s
  cases i with
  | dot16 =>
    refine (ArgReader.argAddr 0).then_at s hs fun a _ => (ArgReader.argAddr 1).then_at s hs fun b _ =>
      (ArgReader.argAddr 2).then_at s hs fun d hd => ?_
    refine (?_ : Cmd.Keeps R _) s
    refine h.keeps_bind (h.keeps_memRead (by decide) _ _ _) fun _ => h.keeps_bind (h.keeps_updateWork fun _ => rfl) fun _ =>
      h.keeps_bind (h.keeps_memRead (by decide) _ _ _) fun _ => h.keeps_bind (h.keeps_updateWork fun _ => rfl) fun _ =>
        h.keeps_bind h.keeps_dotBlock fun _ => h.keeps_bind h.keeps_currentWork fun _ => h.keeps_memWrite ?_
    intro _ x h1 h2
    simp only [List.length_append, length_leBytes32] at h2
    exact ⟨d, hd, by omega, by omega⟩
  | hred =>
    refine (ArgReader.argAddr 0).then_at s hs fun a _ => (ArgReader.argAddr 1).then_at s hs fun d hd => ?_
    refine (?_ : Cmd.Keeps R _) s
    refine h.keeps_bind (h.keeps_memRead (by decide) _ _ _) fun _ => h.keeps_bind (h.keeps_updateWork fun _ => rfl) fun _ =>
      h.keeps_bind h.keeps_currentWork fun _ => h.keeps_memWrite ?_
    intro _ x h1 h2
    rw [length_leBytes32] at h2
    exact ⟨d, hd, by omega, by omega⟩
  | dmmaS =>
    refine ArgReader.denseArgs.then_at s hs fun d hd => ?_
    exact h.keeps_bind (h.keeps_loop fun b _ hb => h.keeps_denseBatch d fun r hr h0 x h1 h2 =>
      ⟨d, hd, b, by omega, r, hr, h0, h1, h2⟩) (fun _ => h.keeps_aliasCheck) s
  | dmmaA =>
    refine ArgReader.denseArgs.then_at s hs fun d hd => ?_
    exact h.keeps_bind (h.keeps_of_argReader (ArgReader.argAddr 8)) (fun _ =>
      h.keeps_bind (h.keeps_of_argReader (ArgReader.argAddr 9)) fun _ =>
        h.keeps_bind (h.keeps_loop fun b _ hb => h.keeps_asymBatch d _ _ fun r hr h0 x h1 h2 =>
          ⟨d, hd, b, by omega, r, hr, h0, h1, h2⟩) fun _ => h.keeps_aliasCheck) s
  | smma =>
    refine ArgReader.sparseArgs.then_at s hs fun a ha => ?_
    exact h.keeps_bind (h.keeps_blockPrecond _) (fun _ => h.keeps_bind (h.keeps_sparseBody a fun r hr h0 x h1 h2 =>
      ⟨a, ha, r, hr, h0, h1, h2⟩) fun _ => h.keeps_aliasCheck) s
  | smmaB =>
    refine ArgReader.sparseBatchArgs.then_at s hs fun a ha => ?_
    exact h.keeps_bind (h.keeps_blockPrecond _) (fun _ => h.keeps_bind (h.keeps_loop fun b _ hb =>
      h.keeps_sparseBatch a fun r hr h0 x h1 h2 => ⟨a, ha, b, by omega, r, hr, h0, h1, h2⟩) fun _ =>
        h.keeps_aliasCheck) s

end Sys2Proof.Machine
end


section
/-! PROOFS. The state (10_state.md): what a command leaves alone and what every step keeps, from the one inversion of a step
(`step_next`), the frame of a command from its start to its end, and, for memory, the accesses of its pieces. -/

namespace Sys2Proof.Machine

/-! ### What a command leaves alone, and how it ends -/

/-- The frame of a command, but for memory and the fault record (R31, R34, R39). -/
structure CommandEffect (s t : State) : Prop where
  args : t.inst.args = s.inst.args
  others : t.others = s.others
  cfg : t.cfg = s.cfg
  caller : t.caller = s.caller
  reply : t.reply = s.reply
  pastFaults : t.pastFaults = s.pastFaults
  idle : t.inst.idle
  foreign : t.foreign = []
  draws : s.draws ≤ t.draws
  replies : ∃ replies, t.foreignReplies = s.foreignReplies ++ replies

theorem finish_foreignReplies (opc : BitVec 8) (r : EStateM.Result Cause State Unit) :
    ∃ replies, (finish opc r).foreignReplies = (endState r).foreignReplies ++ replies := by
  cases r with
  | ok a s => exact ⟨_, s.settleForeign_foreignReplies⟩
  | error c s => exact ⟨_, s.settleForeign_foreignReplies⟩

/-- Every run of a command starts with its draws and its working state, and its pseudocode disturbs nothing. -/
theorem runBody_undisturbed {body : Cmd Unit} (hbody : Cmd.Keeps Undisturbed body) (opc : BitVec 8) (s : State) :
    ∃ n foreseen, s.draws ≤ n ∧
      Undisturbed ({ s with draws := n }.startCommand opc foreseen) (endState (runBody opc body s)) := by
  obtain ⟨n, foreseen, hn, hrun, -⟩ := runBody_cases opc body s
  exact ⟨n, foreseen, hn, hrun ▸ hbody _⟩

/-- The frame of a command whose pseudocode disturbs nothing. -/
theorem finish_runBody_effect {body : Cmd Unit} (hbody : Cmd.Keeps Undisturbed body) (opc : BitVec 8) (s : State) :
    CommandEffect s (finish opc (runBody opc body s)) := by
  obtain ⟨n, foreseen, hn, hend⟩ := runBody_undisturbed hbody opc s
  obtain ⟨hcfg, hargs, hidle, hothers, hcaller, hforeign, hreply, hpast, hdraws, -⟩ :=
    finish_same opc (runBody opc body s)
  obtain ⟨replies, hreplies⟩ := finish_foreignReplies opc (runBody opc body s)
  exact ⟨hargs.trans hend.args, hothers.trans hend.others, hcfg.trans hend.cfg, hcaller.trans hend.caller,
    hreply.trans hend.reply, hpast.trans hend.pastFaults, hidle, hforeign, hn.trans (hend.draws.trans hdraws), replies,
    by rw [hreplies, hend.foreignReplies]; rfl⟩

/-- A command's end leaves a block without a fault as it is, or records one fault under its operation code (R38, R201). -/
theorem finish_fault_cases (opc : BitVec 8) {r : EStateM.Result Cause State Unit} (h : (endState r).inst.fault = none) :
    (finish opc r).inst.fault = none ∨ ∃ c, (finish opc r).inst.fault = some ⟨opc, c⟩ := by
  cases r with
  | ok a s => exact .inl (finish_fault opc (.ok a s) h)
  | error c s => exact .inr ⟨c, finish_fault opc (.error c s) h⟩

/-- So does a command whose pseudocode disturbs nothing, from its start to its end. -/
theorem finish_runBody_fault {body : Cmd Unit} (hbody : Cmd.Keeps Undisturbed body) (opc : BitVec 8) {s : State}
    (hs : s.inst.fault = none) :
    (finish opc (runBody opc body s)).inst.fault = none ∨
      ∃ c, (finish opc (runBody opc body s)).inst.fault = some ⟨opc, c⟩ := by
  obtain ⟨n, foreseen, -, hend⟩ := runBody_undisturbed hbody opc s
  exact finish_fault_cases opc (hend.fault.trans hs)

theorem exec_effect {i : Instr} {s t : State} (h : exec i s = .next t) : CommandEffect s t := by
  obtain ⟨-, rfl⟩ := exec_next h
  exact finish_runBody_effect (bodyOf_undisturbed i) i.opc s

/-- Settles O17: the frame of a command's pseudocode, of its start and of its end. -/
theorem commandFrame : Obligations.CommandFrame := by
  intro i s t h
  obtain ⟨hargs, hothers, hcfg, hcaller, hreply, hpast, hidle, hforeign, hdraws, hreplies⟩ := exec_effect h
  exact ⟨hargs, hothers, hcfg, hcaller, hreply, hpast, hidle, hforeign, hdraws, hreplies⟩

/-- Settles O5: a command that is accepted runs to its end, which is one of the two outcomes. -/
theorem commandEnds : Obligations.CommandEnds := by
  intro i s ha
  obtain ⟨hbusy, -, hwork⟩ := (finish_runBody_effect (bodyOf_undisturbed i) i.opc s).idle
  exact ⟨_, (exec_eq_runCommand i s).trans (runCommand_of_accepts ha), hbusy, hwork,
    finish_runBody_fault (bodyOf_undisturbed i) i.opc ha.1⟩

/-! ### One step is the next interaction -/

theorem step_of_caller {s : State} {a : HostAct} {rest : List HostAct} (hb : s.inst.busy = false)
    (hc : s.caller = a :: rest) : step s = perform a { s with caller := rest } := by
  simp [step, nextInteraction, hc, hb]

theorem writeCmd_of_decode {w : Word32} {i : Instr} (h : decode w = .ok i) (s : State) : writeCmd w s = exec i s := by
  simp [writeCmd, h]

/-- A CMD write runs some command, legal or not (R35, R83). -/
theorem writeCmd_eq_runCommand (w : Word32) (s : State) : ∃ opc body, writeCmd w s = runCommand opc body s := by
  unfold writeCmd
  cases decode w with
  | ok i => exact ⟨i.opc, bodyOf i, exec_eq_runCommand i s⟩
  | error e => exact ⟨0x00, raise (.illegalCmd e.1), rfl⟩

theorem decodeTableWord_eq_some {nbits n : Nat} {i : Instr} (h : decodeTableWord nbits n = some i) :
    decode (BitVec.ofNat 32 (n % 2 ^ nbits)) = .ok i := by
  unfold decodeTableWord at h
  split at h
  · cases hd : decode (BitVec.ofNat 32 (n % 2 ^ nbits)) with
    | ok j =>
      rw [hd] at h
      exact congrArg _ (Option.some.inj h)
    | error e =>
      rw [hd] at h
      cases h
  · cases h

/-- Settles O4: the next interaction is the CMD write, and its word decodes to the command. -/
theorem stepRunsCommand : Obligations.StepRunsCommand := by
  intro s i hb
  refine ⟨fun w rest hc hd => ?_, fun nbits n hd => ?_⟩
  · rw [step_of_caller hb hc]
    exact writeCmd_of_decode hd _
  · rw [step_of_caller (s := s.withFetchWord nbits n) hb rfl]
    exact writeCmd_of_decode (decodeTableWord_eq_some hd) s

/-- Settles O6: every CMD write runs a command, which a fault record stops, and a read of CMD is refused. -/
theorem interactionsWithoutStep : Obligations.InteractionsWithoutStep := by
  intro s rest hb
  refine ⟨fun r w hf hc => ?_, fun hc => step_of_caller hb hc⟩
  obtain ⟨opc, body, hw⟩ := writeCmd_eq_runCommand w { s with caller := rest }
  rw [step_of_caller hb hc, perform, hw]
  simp [runCommand, hf]

/-! ### Blocks are idle between steps -/

theorem callerReadArg_quiet {i : Fin 10} {s : State} (h : s.quiet) : (callerReadArg i s).quiet := by
  unfold callerReadArg
  split <;> exact h

/-- Every interaction leaves every block idle (R37, R40, R223). -/
theorem Performs.quiet {a : HostAct} {s t : State} (h : Performs a s t) (hq : s.quiet) : t.quiet := by
  obtain ⟨hinst, hothers⟩ := hq
  cases h with
  | argWrite i v => exact ⟨hinst, hothers⟩
  | argRead i => exact callerReadArg_quiet ⟨hinst, hothers⟩
  | command w i _ _ _ =>
    have he := finish_runBody_effect (bodyOf_undisturbed i) i.opc s
    exact ⟨he.idle, he.others ▸ hothers⟩
  | illegal w _ _ _ =>
    have he := finish_runBody_effect (Cmd.Keeps.raise Undisturbed.neutral (.illegalCmd w)) 0x00 s
    exact ⟨he.idle, he.others ▸ hothers⟩
  | memWrite a data => exact ⟨hinst, hothers⟩
  | memRead a n => exact ⟨hinst, hothers⟩
  | during f => exact ⟨hinst, hothers⟩
  | select n b _ hb =>
    refine ⟨hothers b (List.mem_of_getElem? hb), fun c hc => ?_⟩
    rcases List.mem_or_eq_of_mem_set hc with hc | rfl
    · exact hothers c hc
    · exact hinst
  | reset =>
    refine ⟨⟨rfl, rfl, rfl⟩, fun c hc => ?_⟩
    obtain ⟨-, -, rfl⟩ := List.mem_map.1 hc
    exact ⟨rfl, rfl, rfl⟩

/-- No interaction with a block that is not busy is held (R42). -/
theorem perform_ne_held {a : HostAct} {s : State} (hb : s.inst.busy = false) : perform a s ≠ .fault .held := by
  cases a with
  | argWrite i v => nofun
  | argRead i => nofun
  | cmdWrite w =>
    obtain ⟨opc, body, hw⟩ := writeCmd_eq_runCommand w s
    rw [perform, hw]
    rcases runCommand_cases opc body s with ⟨r, -, hr⟩ | ⟨-, hbusy, -⟩ | ⟨-, hr⟩
    · rw [hr]
      nofun
    · rw [hb] at hbusy
      cases hbusy
    · rw [hr]
      nofun
  | cmdRead => nofun
  | memWrite p data =>
    simp only [perform, callerWrite]
    split <;> simp
  | memRead p n =>
    simp only [perform, callerRead]
    split <;> simp
  | during f =>
    simp only [perform, announce]
    split <;> simp
  | select n =>
    simp only [perform, selectBlock]
    split <;> simp
  | reset => nofun

/-- Settles O10: a step is idle or one interaction, and no interaction leaves a block busy. -/
theorem stepsLeaveBlocksIdle : Obligations.StepsLeaveBlocksIdle := by
  intro s hq
  refine ⟨fun t h => ?_, ?_⟩
  · rcases step_next h with ⟨-, rfl⟩ | ⟨a, rest, -, -, hp⟩
    · exact hq
    · exact hp.quiet hq
  · have hb : s.inst.busy = false := hq.1.1
    cases hc : s.caller with
    | nil => simp [step, nextInteraction, hc]
    | cons a rest =>
      rw [step_of_caller hb hc]
      exact perform_ne_held hb

/-! ### Fault records are kept -/

/-- A record stands in the addressed block, in another block, or for a run that a reset ended (R240). -/
theorem mem_allFaults {s : State} {r : FaultRecord} :
    r ∈ s.allFaults ↔ s.inst.fault = some r ∨ (∃ b ∈ s.others, b.fault = some r) ∨ r ∈ s.pastFaults := by
  simp only [State.allFaults, State.recorded, List.mem_append, List.mem_filterMap, List.mem_cons, exists_eq_or_imp,
    or_assoc]

/-- The step leaves the addressed block's record in place, and the other blocks and the earlier runs' records alone. -/
structure FaultsStay (s t : State) : Prop where
  inst : ∀ r, s.inst.fault = some r → t.inst.fault = some r
  others : t.others = s.others
  pastFaults : t.pastFaults = s.pastFaults

theorem FaultsStay.allFaults {s t : State} (h : FaultsStay s t) : ∀ r ∈ s.allFaults, r ∈ t.allFaults := by
  intro r hr
  rw [mem_allFaults] at hr ⊢
  rw [h.others, h.pastFaults]
  exact hr.imp_left (h.inst r)

/-- An accepted command finds no record, and leaves the other blocks alone (R35). -/
theorem faultsStay_of_accepts {body : Cmd Unit} (hbody : Cmd.Keeps Undisturbed body) (opc : BitVec 8) {s : State}
    (ha : s.accepts) : FaultsStay s (finish opc (runBody opc body s)) := by
  have he := finish_runBody_effect hbody opc s
  refine ⟨fun r hr => ?_, he.others, he.pastFaults⟩
  rw [ha.1] at hr
  cases hr

/-- A caller's read of an unwritten register leaves a record in place (R41). -/
theorem callerReadArg_faultsStay (i : Fin 10) (s : State) : FaultsStay s (callerReadArg i s) := by
  unfold callerReadArg
  split
  · exact ⟨fun _ h => h, rfl, rfl⟩
  · exact ⟨fun r h => by rw [State.recordFault_fault, h, Option.getD_some], rfl, rfl⟩

/-- Every interaction but a reset and a choice of another block leaves each block's record in place. -/
theorem Performs.faultsStay {a : HostAct} {s t : State} (h : Performs a s t) (hreset : a ≠ .reset)
    (hselect : ∀ n, a ≠ .select n) : FaultsStay s t := by
  cases h with
  | argWrite i v => exact ⟨fun _ h => h, rfl, rfl⟩
  | argRead i => exact callerReadArg_faultsStay i s
  | command w i _ ha _ => exact faultsStay_of_accepts (bodyOf_undisturbed i) i.opc ha
  | illegal w _ ha _ => exact faultsStay_of_accepts (Cmd.Keeps.raise Undisturbed.neutral _) 0x00 ha
  | memWrite a data => exact ⟨fun _ h => h, rfl, rfl⟩
  | memRead a n => exact ⟨fun _ h => h, rfl, rfl⟩
  | during f => exact ⟨fun _ h => h, rfl, rfl⟩
  | select n => exact absurd rfl (hselect n)
  | reset => exact absurd rfl hreset

/-- A choice of another block moves two blocks and loses no record (R221). -/
theorem select_allFaults {s : State} {n : Nat} {b : Instance} (hb : s.others[n]? = some b) :
    ∀ r ∈ s.allFaults, r ∈ { s with inst := b, others := s.others.set n s.inst }.allFaults := by
  intro r hr
  rw [mem_allFaults] at hr ⊢
  obtain ⟨hn, rfl⟩ := List.getElem?_eq_some_iff.1 hb
  rcases hr with hr | ⟨c, hc, hr⟩ | hr
  · exact .inr (.inl ⟨s.inst, List.mem_set hn _, hr⟩)
  · obtain ⟨k, hk, rfl⟩ := List.mem_iff_getElem.1 hc
    by_cases hkn : n = k
    · subst hkn
      exact .inl hr
    · refine .inr (.inl ⟨s.others[k], List.mem_iff_getElem.2 ⟨k, by simpa using hk, ?_⟩, hr⟩)
      exact List.getElem_set_ne hkn _
  · exact .inr (.inr hr)

/-- A reset reports every record for the run that it ends (R240). -/
theorem reset_allFaults (s : State) : ∀ r ∈ s.allFaults, r ∈ (platformReset s).allFaults := by
  intro r hr
  refine mem_allFaults.2 (.inr (.inr ?_))
  exact List.mem_append.2 (List.mem_append.1 hr).symm

/-- No interaction forgets a record (R41, R213, R240). -/
theorem Performs.allFaults {a : HostAct} {s t : State} (h : Performs a s t) : ∀ r ∈ s.allFaults, r ∈ t.allFaults := by
  by_cases hreset : a = .reset
  · subst hreset
    cases h with
    | reset => exact reset_allFaults s
  · by_cases hselect : ∃ n, a = .select n
    · obtain ⟨n, rfl⟩ := hselect
      cases h with
      | select _ b _ hb => exact select_allFaults hb
    · exact (h.faultsStay hreset fun n ha => hselect ⟨n, ha⟩).allFaults

/-- Settles O7: an interaction leaves each record in place, moves it with its block, or reports it for the run that ends. -/
theorem faultsAreKept : Obligations.FaultsAreKept := by
  intro s t h
  rcases step_next h with ⟨hc, rfl⟩ | ⟨a, rest, hc, -, hp⟩
  · refine ⟨fun _ _ => ⟨fun _ hr => hr, rfl⟩, fun n rest hsel => ?_, fun _ hr => hr⟩
    rw [hc] at hsel
    cases hsel
  · refine ⟨fun hreset hselect => ?_, fun n rest' hsel => ?_, hp.allFaults⟩
    · have hstay := hp.faultsStay (fun ha => hreset rest (ha ▸ hc)) fun n ha => hselect n rest (ha ▸ hc)
      exact ⟨hstay.inst, hstay.others⟩
    · rw [hc] at hsel
      cases hsel
      cases hp with
      | select _ b _ hb => exact ⟨hb, rfl⟩

/-! ### Reset, and the argument registers -/

theorem Instance.reset_args (i : Fin 10) : Instance.reset.args[i] = none := by
  simp [Instance.reset]

/-- At the start of a run every block is in its reset state (R45). -/
theorem eq_reset_of_mem_launch {c : Config} {m : Memory} {b : Instance}
    (h : b ∈ (State.launch c m).inst :: (State.launch c m).others) : b = Instance.reset := by
  rcases List.mem_cons.1 h with rfl | h
  · rfl
  · exact List.eq_of_mem_replicate h

/-- Settles O12: every block is a reset block, and the memory after reset lists nothing. -/
theorem resetState : Obligations.ResetState := by
  refine ⟨fun c m hc => ?_, ⟨rfl, rfl⟩, nofun⟩
  have hcount : 1 ≤ c.nInst := by simpa [Config.wellFormed] using hc
  refine ⟨rfl, rfl, ?_, ⟨⟨rfl, rfl, rfl⟩, fun b hb => ?_⟩, ?_, ⟨rfl, rfl⟩, fun b hb => ?_⟩
  · simp only [State.blockCount, State.launch, List.length_replicate]
    omega
  · obtain rfl := eq_reset_of_mem_launch (List.mem_cons_of_mem _ hb)
    exact ⟨rfl, rfl, rfl⟩
  · refine List.eq_nil_iff_forall_not_mem.2 fun r hr => ?_
    rcases mem_allFaults.1 hr with hr | ⟨b, hb, hr⟩ | hr
    · cases hr
    · rw [eq_reset_of_mem_launch (List.mem_cons_of_mem _ hb)] at hr
      cases hr
    · cases hr
  · obtain rfl := eq_reset_of_mem_launch hb
    exact ⟨Instance.reset_args, rfl, rfl, rfl⟩

theorem writeArg_args_same (i : Fin 10) (v : Word64) (s : State) : (writeArg i v s).inst.args[i] = some v := by
  simp

theorem writeArg_args_other {i j : Fin 10} (h : j ≠ i) (v : Word64) (s : State) :
    (writeArg i v s).inst.args[j] = s.inst.args[j] := by
  have hne : (i : Nat) ≠ j := fun he => h (Fin.ext he.symm)
  simp [Vector.getElem_set_ne _ _ hne]

theorem callerReadArg_of_some {i : Fin 10} {s : State} {v : Word64} (h : s.inst.args[i] = some v) :
    callerReadArg i s = { s with reply := some (.arg v) } := by
  simp [callerReadArg, h]

theorem callerReadArg_of_none {i : Fin 10} {s : State} (h : s.inst.args[i] = none) :
    callerReadArg i s = s.recordFault 0x00 (.unwrittenArg i) := by
  simp [callerReadArg, h]

/-- Settles O14: what a register write and a read do to the registers, and the frame of a command. -/
theorem argReadsBack : Obligations.ArgReadsBack := by
  refine ⟨fun s i v => ⟨?_, fun j hj => writeArg_args_other hj v s⟩, fun s i hnone hfault => ⟨?_, rfl, ?_⟩,
    fun i s t h => (exec_effect h).args⟩
  · rw [callerReadArg_of_some (writeArg_args_same i v s)]
  · rw [callerReadArg_of_none hnone, State.recordFault_fault, hfault, Option.getD_none]
  · exact readArg_of_none hnone

/-! ### Memory stays canonical and in the address space -/

/-- The access is in the address space (R56). -/
theorem inSpace_of_checkAccess {c : Config} {k : Kind} {al : Bool} {a : Int} {n : Nat} (h : checkAccess c k al a n = none) :
    a.toNat + n ≤ 2 ^ c.addrW := by
  unfold checkAccess at h
  split at h
  · next hr =>
    simp only [inRange, Bool.and_eq_true, decide_eq_true_eq] at hr
    have hlt : ((a.toNat + n : Nat) : Int) ≤ (2 ^ c.addrW : Nat) := by
      push_cast
      omega
    exact Int.ofNat_le.1 hlt
  · cases h

/-- The invariant of a running command: that of the memory and of the announced accesses, and every access that the command
has made to write is in the address space. -/
structure State.InSpace (s : State) : Prop where
  memory : s.memoryOk
  foreign : s.foreignInSpace
  written : ∀ u ∈ s.workNow.trace, u.tag = .written → u.addr + u.len ≤ 2 ^ s.cfg.addrW

/-- An access that is no write, or is in the address space, keeps the invariant of the trace. -/
theorem written_addTouch {w : Work} {hi : Nat} (h : ∀ u ∈ w.trace, u.tag = .written → u.addr + u.len ≤ hi)
    {tag : Tag} {a n : Nat} (hnew : tag = .written → a + n ≤ hi) :
    ∀ u ∈ (addTouch w tag a n).trace, u.tag = .written → u.addr + u.len ≤ hi := by
  intro u hu htag
  rcases List.mem_cons.1 hu with rfl | hu
  · exact hnew htag
  · exact h u hu htag

theorem State.memoryOk_writeList {s : State} (h : s.memoryOk) {a : Nat} {bytes : List Byte}
    (hb : a + bytes.length ≤ 2 ^ s.cfg.addrW) : { s with mem := s.mem.writeList a bytes }.memoryOk :=
  ⟨Memory.wf_writeList h.1, Memory.below_writeList hb h.2⟩

/-- Every piece of a command keeps the invariant, wherever it writes, since every write is checked (R57). -/
theorem State.InSpace.traced (W : Int → Nat → Prop) : Traced (fun s t => s.InSpace → t.InSpace) W where
  refl _ h := h
  trans h1 h2 h := h2 (h1 h)
  draw _ h := ⟨h.memory, h.foreign, h.written⟩
  work _ _ hw h := ⟨h.memory, h.foreign, fun u hu => h.written u (hw ▸ hu)⟩
  read _ _ _ _ ht h := ⟨h.memory, h.foreign, written_addTouch h.written fun he => absurd he ht⟩
  write _ _ _ _ hc h := ⟨State.memoryOk_writeList h.memory (inSpace_of_checkAccess hc), h.foreign,
    written_addTouch h.written fun _ => inSpace_of_checkAccess hc⟩

/-- What other agents write in the address space keeps the memory well-formed (R67). -/
theorem landForeign_memoryOk {hi : Nat} :
    ∀ {fs : List ForeignAccess} {m : Memory}, (∀ f ∈ fs, f.addr + f.len ≤ hi) → m.wf = true ∧ m.below hi = true →
      (landForeign m fs).wf = true ∧ (landForeign m fs).below hi = true
  | [], _, _, h => h
  | f :: fs, m, hfs, h => by
    have hrest : ∀ g ∈ fs, g.addr + g.len ≤ hi := fun g hg => hfs g (List.mem_cons_of_mem f hg)
    have hf : f.addr + f.len ≤ hi := hfs f List.mem_cons_self
    unfold landForeign
    cases hop : f.op with
    | read n => exact landForeign_memoryOk hrest h
    | write data =>
      have hlen : f.addr + data.length ≤ hi := by simpa only [ForeignAccess.len, hop] using hf
      exact landForeign_memoryOk hrest ⟨Memory.wf_writeList h.1, Memory.below_writeList hlen h.2⟩

theorem State.scramble_memoryOk :
    ∀ {n a : Nat} {s : State}, a + n ≤ 2 ^ s.cfg.addrW → s.memoryOk → (s.scramble a n).memoryOk
  | 0, _, _, _, h => h
  | n + 1, a, s, hb, h =>
    have ha : a < 2 ^ s.cfg.addrW := by omega
    have hrest : a + 1 + n ≤ 2 ^ s.cfg.addrW := by omega
    State.scramble_memoryOk (s := { s with mem := s.mem.write a s.nextByte, draws := s.draws + 1 }) hrest
      ⟨Memory.wf_write a _ h.1, Memory.below_write ha h.2⟩

theorem State.scrambleAll_memoryOk :
    ∀ {rs : List (Nat × Nat)} {s : State}, (∀ r ∈ rs, r.1 + r.2 ≤ 2 ^ s.cfg.addrW) → s.memoryOk →
      (s.scrambleAll rs).memoryOk
  | [], _, _, h => h
  | r :: rs, s, hrs, h => by
    refine State.scrambleAll_memoryOk (s := s.scramble r.1 r.2) (fun q hq => ?_)
      (State.scramble_memoryOk (hrs r List.mem_cons_self) h)
    rw [(State.scramble_same r.2 r.1 s).cfg]
    exact hrs q (List.mem_cons_of_mem r hq)

/-- A range written in an access that conflicts is one of the command's writes, or one of another agent's accesses. -/
theorem mem_raced {trace : List Touch} {foreign : List ForeignAccess} {r : Nat × Nat}
    (h : r ∈ racedByCommand trace foreign ++ racedByOthers trace foreign) :
    (∃ u ∈ trace, u.tag = .written ∧ r = (u.addr, u.len)) ∨ ∃ f ∈ foreign, f.isWrite = true ∧ r = (f.addr, f.len) := by
  rcases List.mem_append.1 h with h | h
  · obtain ⟨u, hu, rfl⟩ := List.mem_map.1 h
    obtain ⟨hmem, hcond⟩ := List.mem_filter.1 hu
    rw [Bool.and_eq_true, decide_eq_true_eq] at hcond
    exact .inl ⟨u, hmem, hcond.1, rfl⟩
  · obtain ⟨f, hf, rfl⟩ := List.mem_map.1 h
    obtain ⟨hmem, hcond⟩ := List.mem_filter.1 hf
    rw [Bool.and_eq_true] at hcond
    exact .inr ⟨f, hmem, hcond.1, rfl⟩

/-- Other agents' accesses, conflicting or not, keep the memory well-formed (R67). -/
theorem State.InSpace.settleForeign {s : State} (h : s.InSpace) : s.settleForeign.memoryOk := by
  refine State.scrambleAll_memoryOk (fun r hr => ?_) (landForeign_memoryOk h.foreign h.memory)
  rcases mem_raced hr with ⟨u, hu, htag, rfl⟩ | ⟨f, hf, -, rfl⟩
  · exact h.written u hu htag
  · exact h.foreign f hf

/-- A command whose pseudocode keeps the invariant leaves the memory well-formed and no access announced. -/
theorem finish_runBody_memoryOk {body : Cmd Unit} (hbody : Cmd.Keeps (fun s t => s.InSpace → t.InSpace) body)
    (opc : BitVec 8) {s : State} (hm : s.memoryOk) (hf : s.foreignInSpace) :
    (finish opc (runBody opc body s)).memoryOk ∧ (finish opc (runBody opc body s)).foreignInSpace := by
  obtain ⟨n, foreseen, -, hrun, -⟩ := runBody_cases opc body s
  have hend : (endState (runBody opc body s)).InSpace := by
    rw [hrun]
    exact hbody _ ⟨hm, hf, nofun⟩
  obtain ⟨hcfg, -, -, -, -, hforeign, -, -, -, hmem⟩ := finish_same opc (runBody opc body s)
  have hsettled := hend.settleForeign
  unfold State.memoryOk at hsettled ⊢
  rw [(endState (runBody opc body s)).settleForeign_same.cfg] at hsettled
  refine ⟨by rwa [hmem, hcfg], fun f hfm => ?_⟩
  rw [hforeign] at hfm
  cases hfm

theorem callerReadArg_inSpace {i : Fin 10} {s : State} (hm : s.memoryOk) (hf : s.foreignInSpace) :
    (callerReadArg i s).memoryOk ∧ (callerReadArg i s).foreignInSpace := by
  unfold callerReadArg
  split <;> exact ⟨hm, hf⟩

/-- Every interaction keeps the memory well-formed and the announced accesses in the address space (R43, R57). -/
theorem Performs.inSpace {a : HostAct} {s t : State} (h : Performs a s t) (hm : s.memoryOk) (hf : s.foreignInSpace) :
    t.memoryOk ∧ t.foreignInSpace := by
  cases h with
  | argWrite i v => exact ⟨hm, hf⟩
  | argRead i => exact callerReadArg_inSpace hm hf
  | command w i _ _ => exact finish_runBody_memoryOk (fun s => bodyOf_traced i s (State.InSpace.traced _)) i.opc hm hf
  | illegal w _ _ => exact finish_runBody_memoryOk ((State.InSpace.traced fun _ _ => True).keeps_raise _) 0x00 hm hf
  | memWrite a data _ hb => exact ⟨State.memoryOk_writeList hm hb, hf⟩
  | memRead a n => exact ⟨hm, hf⟩
  | during f _ hb =>
    refine ⟨hm, fun g hg => ?_⟩
    rcases List.mem_append.1 hg with hg | hg
    · exact hf g hg
    · rw [List.mem_singleton.1 hg]
      exact hb
  | select n b _ => exact ⟨hm, hf⟩
  | reset => exact ⟨hm, hf⟩

/-- Settles O9: a step is idle or one interaction, and a command's writes, its own and those that race, are in the space. -/
theorem memoryStaysWellFormed : Obligations.MemoryStaysWellFormed := by
  intro s t hm hf h
  rcases step_next h with ⟨-, rfl⟩ | ⟨a, rest, -, -, hp⟩
  · exact ⟨hm, hf⟩
  · exact hp.inSpace hm hf

end Sys2Proof.Machine
end

section
/-! PROOFS. Memory (20_memory.md): little-endian elements (R50), the checks of an access (R57), and the bytes that a command
leaves alone (R55), other agents' accesses included (R67). -/

namespace Sys2Proof.Machine

/-! ### Little-endian elements -/

/-- An element is its four bytes, the lowest address least significant (R50). -/
theorem Memory.toNat_read32 (m : Memory) (a : Nat) : (m.read32 a).toNat =
    (m.read a).toNat + 2 ^ 8 * (m.read (a + 1)).toNat + 2 ^ 16 * (m.read (a + 2)).toNat +
      2 ^ 24 * (m.read (a + 3)).toNat := by
  have hbound : leNat (m.readList a 4) < 2 ^ 32 := by
    have h := leNat_lt (m.readList a 4)
    rwa [Memory.length_readList] at h
  rw [Memory.read32, le32, BitVec.toNat_ofNat, Nat.mod_eq_of_lt hbound]
  simp only [Memory.readList, leNat, Nat.add_assoc, Nat.reduceAdd]
  omega

theorem getElem?_leBytes32 (v : Word32) {j : Nat} (hj : j < 4) :
    (leBytes32 v)[j]? = some (v.extractLsb' (8 * j) 8) := by
  interval_cases j <;> rfl

/-- `le_bytes32` undoes little-endian assembly (R50). -/
theorem leBytes32_le32 (b0 b1 b2 b3 : Byte) : leBytes32 (le32 [b0, b1, b2, b3]) = [b0, b1, b2, b3] := by
  have h0 : b0.toNat < 256 := b0.isLt
  have h1 : b1.toNat < 256 := b1.isLt
  have h2 : b2.toNat < 256 := b2.isLt
  have h3 : b3.toNat < 256 := b3.isLt
  simp only [leBytes32, le32, leNat, List.cons.injEq, ← BitVec.toNat_inj, BitVec.extractLsb'_toNat, BitVec.toNat_ofNat,
    Nat.shiftRight_eq_div_pow, and_true]
  omega

/-- Settles O21: an element as its bytes, the two inverses, and an element that is read back. -/
theorem littleEndian : Obligations.LittleEndian :=
  ⟨Memory.toNat_read32, fun v => ⟨le32_leBytes32 v, fun _ hj => getElem?_leBytes32 v hj⟩, leBytes32_le32,
    fun _ a v hwf => Memory.read32_writeList_same hwf a v⟩

/-! ### The checks of an access -/

theorem inRange_iff {c : Config} {a : Int} {n : Nat} : inRange c a n = true ↔ 0 ≤ a ∧ a + n ≤ 2 ^ c.addrW := by
  simp [inRange]

/-- Admission is byte by byte (R58). -/
theorem admits_iff {c : Config} {k : Kind} :
    ∀ {n a : Nat}, admits c a k n = true ↔ ∀ j < n, admitsByte c k (a + j) = true
  | 0, _ => by simp [admits]
  | n + 1, a => by
    rw [admits, Bool.and_eq_true, admits_iff, Nat.forall_lt_succ_left]
    simp only [Nat.add_zero, Nat.add_assoc, Nat.add_comm 1]

section Checks

variable {c : Config} {k : Kind} {al : Bool} {a : Int} {n : Nat}

theorem checkAccess_of_outOfRange (h : ¬ (0 ≤ a ∧ a + n ≤ 2 ^ c.addrW)) :
    checkAccess c k al a n = some (.memUnadmitted a n k) := by
  rw [checkAccess, if_neg (mt inRange_iff.1 h)]

theorem checkAccess_of_misaligned (hr : 0 ≤ a ∧ a + n ≤ 2 ^ c.addrW) (h : al = true ∧ a % 4 ≠ 0) :
    checkAccess c k al a n = some (.misaligned a n) := by
  rw [checkAccess, if_pos (inRange_iff.2 hr), if_pos (by simpa using h)]

/-- With range and alignment passed, admission decides (R57). -/
theorem checkAccess_of_aligned (hr : 0 ≤ a ∧ a + n ≤ 2 ^ c.addrW) (h : ¬ (al = true ∧ a % 4 ≠ 0)) :
    checkAccess c k al a n = if admits c a.toNat k n then none else some (.memUnadmitted a n k) := by
  rw [checkAccess, if_pos (inRange_iff.2 hr), if_neg (by simpa using h)]

theorem checkAccess_of_unadmitted (hr : 0 ≤ a ∧ a + n ≤ 2 ^ c.addrW) (h : ¬ (al = true ∧ a % 4 ≠ 0))
    (hun : ∃ j < n, admitsByte c k (a.toNat + j) = false) :
    checkAccess c k al a n = some (.memUnadmitted a n k) := by
  obtain ⟨j, hj, hbyte⟩ := hun
  rw [checkAccess_of_aligned hr h, if_neg fun hall => by simp [admits_iff.1 hall j hj] at hbyte]

theorem checkAccess_of_admitted (hr : 0 ≤ a ∧ a + n ≤ 2 ^ c.addrW) (h : ¬ (al = true ∧ a % 4 ≠ 0))
    (hall : ∀ j < n, admitsByte c k (a.toNat + j) = true) : checkAccess c k al a n = none := by
  rw [checkAccess_of_aligned hr h, if_pos (admits_iff.2 hall)]

/-- An access that passes its checks lies at or above address 0 (R56). -/
theorem nonneg_of_checkAccess (h : checkAccess c k al a n = none) : 0 ≤ a := by
  by_contra hneg
  rw [checkAccess_of_outOfRange fun hr => hneg hr.1] at h
  cases h

end Checks

/-- A read that passes its checks gives the bytes that memory holds, where no other agent is at work (R57). -/
theorem memRead_of_nil {s : State} (hf : s.foreign = []) {tag : Tag} {al : Bool} {a : Int} {n : Nat}
    (h : checkAccess s.cfg .read al a n = none) :
    memRead tag al a n s =
      .ok (s.mem.readList a.toNat n) (s.withWork (addTouch s.workNow tag a.toNat n)) := by
  unfold memRead touch
  rw [Cmd.bind_ok (check_of_none h), Cmd.bind_ok (updateWork_apply _ _)]
  exact readBytes_of_nil (s := s.withWork _) hf n a.toNat

/-- The state after a write that passed its checks. -/
def State.stored (s : State) (a : Nat) (bytes : List Byte) : State :=
  { s.withWork (addTouch s.workNow .written a bytes.length) with mem := s.mem.writeList a bytes }

/-- A write that passes its checks puts the bytes in memory, whatever other agents do (R57). -/
theorem memWrite_of_none {s : State} {al : Bool} {a : Int} {bytes : List Byte}
    (h : checkAccess s.cfg .write al a bytes.length = none) :
    memWrite al a bytes s = .ok () (s.stored a.toNat bytes) := by
  unfold memWrite
  rw [Cmd.bind_ok (check_of_none h)]
  rfl

/-- Settles O22: the checks decide in their order, and an access that passes them has its effect. -/
theorem accessChecks : Obligations.AccessChecks := by
  rintro s tag al a n bytes hf rfl
  refine ⟨fun hout => ⟨memRead_error (checkAccess_of_outOfRange hout), memWrite_error (checkAccess_of_outOfRange hout)⟩,
    fun hr => ⟨fun hmis => ⟨memRead_error (checkAccess_of_misaligned hr hmis),
      memWrite_error (checkAccess_of_misaligned hr hmis)⟩, fun hal => ⟨⟨fun hun => ?_, fun hall => ?_⟩, fun hun => ?_,
        fun hall => ?_⟩⟩⟩
  · exact memRead_error (checkAccess_of_unadmitted hr hal hun)
  · exact ⟨_, memRead_of_nil hf (checkAccess_of_admitted hr hal hall), rfl⟩
  · exact memWrite_error (checkAccess_of_unadmitted hr hal hun)
  · exact ⟨_, memWrite_of_none (checkAccess_of_admitted hr hal hall), rfl⟩

/-! ### The bytes that other agents' accesses leave alone -/

/-- Two ranges overlap where they have a common byte. -/
theorem overlap_iff {a n b m : Nat} :
    overlap a n b m = true ↔ ∃ x, (a ≤ x ∧ x < a + n) ∧ b ≤ x ∧ x < b + m := by
  simp only [overlap, Bool.and_eq_true, decide_eq_true_eq]
  constructor
  · exact fun h => ⟨max a b, by omega⟩
  · rintro ⟨x, h⟩
    omega

theorem ForeignAccess.touches_iff {f : ForeignAccess} {a n : Nat} :
    f.touches a n = true ↔ ∃ x, (f.addr ≤ x ∧ x < f.addr + f.len) ∧ a ≤ x ∧ x < a + n := overlap_iff

theorem ForeignAccess.touches_byte {f : ForeignAccess} {x : Nat} :
    f.touches x 1 = true ↔ f.addr ≤ x ∧ x < f.addr + f.len := by
  rw [touches_iff]
  constructor
  · rintro ⟨y, h, h1, h2⟩
    obtain rfl : y = x := by omega
    exact h
  · exact fun h => ⟨x, h, by omega⟩

/-- What other agents write changes only bytes that they write (R67). -/
theorem landForeign_read_other {x : Nat} :
    ∀ {fs : List ForeignAccess} {m : Memory}, (∀ f ∈ fs, f.isWrite = true → ¬ f.touches x 1 = true) →
      (landForeign m fs).read x = m.read x
  | [], _, _ => rfl
  | f :: fs, m, h => by
    have hrest := fun g hg => h g (List.mem_cons_of_mem f hg)
    have hf := h f List.mem_cons_self
    unfold landForeign
    cases hop : f.op with
    | read n => exact landForeign_read_other hrest
    | write data =>
      have hout := hf (by simp only [ForeignAccess.isWrite, hop])
      simp only [ForeignAccess.touches_byte, ForeignAccess.len, hop] at hout
      exact (landForeign_read_other hrest).trans (Memory.read_writeList_other (by omega))

theorem State.scramble_read_other {x : Nat} :
    ∀ {n a : Nat} {s : State}, (x < a ∨ a + n ≤ x) → (s.scramble a n).mem.read x = s.mem.read x
  | 0, _, _, _ => rfl
  | n + 1, a, s, h =>
    (State.scramble_read_other (n := n) (a := a + 1) (by omega)).trans (Memory.read_write_other (by omega) _)

theorem State.scrambleAll_read_other {x : Nat} :
    ∀ {rs : List (Nat × Nat)} {s : State}, (∀ r ∈ rs, x < r.1 ∨ r.1 + r.2 ≤ x) →
      (s.scrambleAll rs).mem.read x = s.mem.read x
  | [], _, _ => rfl
  | r :: _, _, h =>
    (State.scrambleAll_read_other fun q hq => h q (List.mem_cons_of_mem r hq)).trans
      (State.scramble_read_other (h r List.mem_cons_self))

/-- A byte that neither the command nor another agent has written stands as before at the command's end (R67). -/
theorem State.settleForeign_read_other {s : State} {x : Nat} (hf : ¬ s.foreignWrites x)
    (hw : ¬ inTrace s.workNow.trace .written x = true) : s.settleForeign.mem.read x = s.mem.read x := by
  have hother : ∀ f ∈ s.foreign, f.isWrite = true → ¬ f.touches x 1 = true := fun f hmem hwr ht => hf ⟨f, hmem, hwr, ht⟩
  refine (State.scrambleAll_read_other fun r hr => ?_).trans (landForeign_read_other hother)
  rcases mem_raced hr with ⟨u, hu, htag, rfl⟩ | ⟨f, hmem, hwr, rfl⟩
  · by_contra hin
    exact hw (inTrace_iff.2 ⟨u, hu, htag, by omega, by omega⟩)
  · have := mt ForeignAccess.touches_byte.2 (hother f hmem hwr)
    omega

/-! ### The bytes that a command leaves alone -/

/-- From `s` to `t` only bytes of `B` are written, and if the trace up to `s` has only such bytes written, so has that up to
`t`. -/
structure StoresOnly (B : Nat → Prop) (s t : State) : Prop where
  mem : ∀ x, ¬ B x → t.mem.read x = s.mem.read x
  trace : (∀ x, inTrace s.workNow.trace .written x = true → B x) →
    ∀ x, inTrace t.workNow.trace .written x = true → B x

theorem inTrace_cons {t : Touch} {trace : List Touch} {tag : Tag} {x : Nat} :
    inTrace (t :: trace) tag x = true ↔
      (t.tag = tag ∧ t.addr ≤ x ∧ x < t.addr + t.len) ∨ inTrace trace tag x = true := by
  simp only [inTrace_iff, List.mem_cons, exists_eq_or_imp]

/-- Pieces of a command whose writes are in `B` store only there. -/
theorem StoresOnly.traced {B : Nat → Prop} {W : Int → Nat → Prop}
    (hW : ∀ a n, W a n → 0 ≤ a → ∀ x : Nat, a ≤ x → (x : Int) < a + n → B x) : Traced (StoresOnly B) W where
  refl s := ⟨fun _ _ => rfl, fun h => h⟩
  trans h1 h2 := ⟨fun x hx => (h2.mem x hx).trans (h1.mem x hx), fun h => h2.trace (h1.trace h)⟩
  draw s := ⟨fun _ _ => rfl, fun h => h⟩
  work s w hw := ⟨fun _ _ => rfl, fun h => by rwa [State.withWork_workNow, hw]⟩
  read s tag a n ht := ⟨fun _ _ => rfl, fun h x hx => h x ((inTrace_cons.1 hx).resolve_left fun hnew => ht hnew.1)⟩
  write s a bytes hw hc := by
    have hpos := nonneg_of_checkAccess hc
    refine ⟨fun x hx => Memory.read_writeList_other ?_, fun h x hx => ?_⟩
    · by_contra hin
      exact hx (hW a _ hw hpos x (by omega) (by omega))
    · rcases inTrace_cons.1 hx with ⟨-, h1, h2⟩ | hx
      · dsimp only at h1 h2
        exact hW a _ hw hpos x (by omega) (by omega)
      · exact h x hx

/-- Operands depend on the launch parameters and the argument registers alone. -/
theorem ArgReader.operandsOf_congr {α : Type} {m : Cmd α} (h : ArgReader m) {s t : State} (hc : t.cfg = s.cfg)
    (ha : t.inst.args = s.inst.args) : operandsOf m t = operandsOf m s := by
  obtain ⟨f, hf⟩ := h
  rw [operandsOf, operandsOf, hf, hf, hc, ha]
  cases f s.cfg s.inst.args <;> rfl

/-- So do the bytes that a command can store to. -/
theorem storedByte_congr (i : Instr) {s t : State} (hc : t.cfg = s.cfg) (ha : t.inst.args = s.inst.args) (x : Nat) :
    storedByte i t x ↔ storedByte i s x := by
  cases i with
  | dot16 => simp only [storedByte, (ArgReader.argAddr 2).operandsOf_congr hc ha]
  | hred => simp only [storedByte, (ArgReader.argAddr 1).operandsOf_congr hc ha]
  | dmmaS => simp only [storedByte, ArgReader.denseArgs.operandsOf_congr hc ha]
  | dmmaA => simp only [storedByte, ArgReader.denseArgs.operandsOf_congr hc ha]
  | smma => simp only [storedByte, ArgReader.sparseArgs.operandsOf_congr hc ha]
  | smmaB => simp only [storedByte, ArgReader.sparseBatchArgs.operandsOf_congr hc ha]

/-- A command stores only to bytes of its own. -/
theorem bodyOf_storesOnly (i : Instr) (s : State) : StoresOnly (storedByte i s) s (endState (bodyOf i s)) :=
  bodyOf_traced i s (StoresOnly.traced fun _ _ h => h)

/-- A command changes no byte but those that it can store to, and those that other agents write (R55, R67). -/
theorem exec_read_other {i : Instr} {s t : State} (h : exec i s = .next t) {x : Nat} (hx : ¬ storedByte i s x)
    (hf : ¬ s.foreignWrites x) : t.mem.read x = s.mem.read x := by
  obtain ⟨-, rfl⟩ := exec_next h
  obtain ⟨n, foreseen, -, hrun, -⟩ := runBody_cases i.opc (bodyOf i) s
  obtain ⟨-, -, -, -, -, -, -, -, -, hmem⟩ := finish_same i.opc (runBody i.opc (bodyOf i) s)
  rw [hmem, hrun]
  generalize hs : { s with draws := n }.startCommand i.opc foreseen = start
  have hsame : ∀ y, storedByte i start y ↔ storedByte i s y := by
    subst hs
    exact storedByte_congr i rfl rfl
  have hforeign : (endState (bodyOf i start)).foreign = s.foreign := by
    rw [(bodyOf_undisturbed i start).foreign, ← hs]
    rfl
  have hstores := bodyOf_storesOnly i start
  have hx' := mt (hsame x).1 hx
  rw [State.settleForeign_read_other (by rwa [State.foreignWrites, hforeign]) (mt (hstores.trace ?_ x) hx'),
    hstores.mem x hx', ← hs]
  · rfl
  · subst hs
    nofun

/-- Settles O18, by the one memory frame of all commands. -/
theorem primitiveMemoryFrame : Obligations.PrimitiveMemoryFrame := fun _ _ _ _ h _ hx hf => exec_read_other h hx hf

/-- Settles O19, by the one memory frame of all commands. -/
theorem denseMemoryFrame : Obligations.DenseMemoryFrame := fun _ _ _ _ h _ hx hf => exec_read_other h hx hf

/-- Settles O20, by the one memory frame of all commands. -/
theorem sparseMemoryFrame : Obligations.SparseMemoryFrame := fun _ _ _ _ h _ hx hf => exec_read_other h hx hf

end Sys2Proof.Machine
end

section
/-! PROOFS. Other agents at work (20_memory.md R65, R67): what a read gives that may race, how a command ends where nothing
it wrote conflicts, and what conflicting accesses leave in memory; and the accesses of DOT16 and HRED (40_lane_primitives.md
R107, R108). -/

namespace Sys2Proof.Machine

/-! ### Reads that may race -/

/-- The draw numbers of a read of bytes: `d` for the first byte, those of `k` for the rest. -/
def consDraw (d : Nat) (k : Nat → Nat) : Nat → Nat
  | 0 => d
  | j + 1 => k j

/-- What a read from `a` gives in `s`, where it ends with `draws` taken: byte `j` is draw `k j` where it races, a draw of its
own, and the byte that memory holds elsewhere (R65, R67). -/
structure RacingRead (s : State) (a : Nat) (bytes : List Byte) (draws : Nat) (k : Nat → Nat) : Prop where
  fresh : ∀ i < bytes.length, ∀ j < bytes.length, s.racesAt (a + i) → s.racesAt (a + j) → k i = k j → i = j
  draw : ∀ j < bytes.length, s.racesAt (a + j) →
    s.draws ≤ k j ∧ k j < draws ∧ bytes[j]? = some (Config.freeByte s.inst.running (k j))
  same : ∀ j < bytes.length, ¬ s.racesAt (a + j) → bytes[j]? = some (s.mem.read (a + j))

theorem readByte_of_racing {s : State} {x : Nat} (h : s.racing x = true) :
    readByte x s = .ok s.nextByte { s with draws := s.draws + 1 } := by
  simp [readByte, h]

theorem readByte_of_not_racing {s : State} {x : Nat} (h : s.racing x = false) : readByte x s = .ok (s.mem.read x) s := by
  simp [readByte, h]

theorem RacingRead.cons_draw {s : State} {a : Nat} {bytes : List Byte} {draws : Nat} {k : Nat → Nat}
    (h : RacingRead { s with draws := s.draws + 1 } (a + 1) bytes draws k) (hd : s.draws + 1 ≤ draws)
    (hr : s.racesAt a) : RacingRead s a (s.nextByte :: bytes) draws (consDraw s.draws k) where
  fresh
    | 0, _, 0, _, _, _, _ => rfl
    | 0, _, j + 1, hj, _, hrj, he => by
      have hge := (h.draw j (by simpa using hj) (by rwa [Nat.add_right_comm])).1
      have hlt : s.draws + 1 ≤ k j := hge
      simp only [consDraw] at he
      omega
    | i + 1, hi, 0, _, hri, _, he => by
      have hge := (h.draw i (by simpa using hi) (by rwa [Nat.add_right_comm])).1
      have hlt : s.draws + 1 ≤ k i := hge
      simp only [consDraw] at he
      omega
    | i + 1, hi, j + 1, hj, hri, hrj, he =>
      congrArg (· + 1) (h.fresh i (by simpa using hi) j (by simpa using hj) (by rwa [Nat.add_right_comm])
        (by rwa [Nat.add_right_comm]) he)
  draw
    | 0, _, _ => ⟨Nat.le_refl _, hd, rfl⟩
    | j + 1, hj, hrj => by
      obtain ⟨h1, h2, h3⟩ := h.draw j (by simpa using hj) (by rwa [Nat.add_right_comm])
      exact ⟨Nat.le_of_succ_le h1, h2, by rw [List.getElem?_cons_succ]; exact h3⟩
  same
    | 0, _, hn => absurd hr hn
    | j + 1, hj, hn => by
      rw [← Nat.add_assoc, Nat.add_right_comm] at hn ⊢
      exact h.same j (by simpa using hj) hn

theorem RacingRead.cons_same {s : State} {a : Nat} {bytes : List Byte} {draws : Nat} {k : Nat → Nat}
    (h : RacingRead s (a + 1) bytes draws k) (hr : ¬ s.racesAt a) :
    RacingRead s a (s.mem.read a :: bytes) draws (consDraw s.draws k) where
  fresh
    | 0, _, _, _, hri, _, _ => absurd hri hr
    | _ + 1, _, 0, _, _, hrj, _ => absurd hrj hr
    | i + 1, hi, j + 1, hj, hri, hrj, he =>
      congrArg (· + 1) (h.fresh i (by simpa using hi) j (by simpa using hj) (by rwa [Nat.add_right_comm])
        (by rwa [Nat.add_right_comm]) he)
  draw
    | 0, _, hrj => absurd hrj hr
    | j + 1, hj, hrj => by
      rw [List.getElem?_cons_succ]
      exact h.draw j (by simpa using hj) (by rwa [Nat.add_right_comm])
  same
    | 0, _, _ => rfl
    | j + 1, hj, hn => by
      rw [← Nat.add_assoc, Nat.add_right_comm] at hn ⊢
      exact h.same j (by simpa using hj) hn

/-- A read of bytes takes draws for those that race, and changes nothing else (R65, R67). -/
theorem readBytes_racing : ∀ (n a : Nat) (s : State), ∃ bytes draws k,
    readBytes a n s = .ok bytes { s with draws := draws } ∧ bytes.length = n ∧ s.draws ≤ draws ∧
      RacingRead s a bytes draws k
  | 0, _, s => ⟨[], s.draws, id, rfl, rfl, Nat.le_refl _, nofun, nofun, nofun⟩
  | n + 1, a, s => by
    cases hr : s.racing a with
    | true =>
      obtain ⟨bytes, draws, k, hread, hlen, hle, h⟩ := readBytes_racing n (a + 1) { s with draws := s.draws + 1 }
      refine ⟨s.nextByte :: bytes, draws, consDraw s.draws k, ?_, by rw [List.length_cons, hlen], by
        exact Nat.le_of_succ_le hle, h.cons_draw hle (racing_iff.1 hr)⟩
      rw [readBytes, Cmd.bind_ok (readByte_of_racing hr), Cmd.bind_ok hread]
      rfl
    | false =>
      obtain ⟨bytes, draws, k, hread, hlen, hle, h⟩ := readBytes_racing n (a + 1) s
      refine ⟨s.mem.read a :: bytes, draws, consDraw s.draws k, ?_, by rw [List.length_cons, hlen], hle,
        h.cons_same fun h => by rw [racing_iff.2 h] at hr; cases hr⟩
      rw [readBytes, Cmd.bind_ok (readByte_of_not_racing hr), Cmd.bind_ok hread]
      rfl

/-- Where no byte of a read races it gives the bytes that memory holds (R57). -/
theorem readBytes_of_not_racing {s : State} :
    ∀ {n a : Nat}, (∀ x, a ≤ x → x < a + n → s.racing x = false) → readBytes a n s = .ok (s.mem.readList a n) s
  | 0, _, _ => rfl
  | n + 1, a, h => by
    rw [readBytes, Cmd.bind_ok (readByte_of_not_racing (h a (by omega) (by omega))),
      Cmd.bind_ok (readBytes_of_not_racing fun x h1 h2 => h x (by omega) (by omega))]
    rfl

section Reads

variable {s : State} {p : Progress} {w : Work} {tag : Tag} {al : Bool} {a : Int} {n : Nat}

/-- A read that passes its checks gives as many bytes as it asks for, whatever other agents do (R57, R67). -/
theorem memRead_racing (h : checkAccess s.cfg .read al a n = none) :
    ∃ bytes draws, memRead tag al a n (s.at p w) = .ok bytes (s.at (p.1, draws) (addTouch w tag a.toNat n)) ∧
      bytes.length = n ∧ p.2 ≤ draws := by
  obtain ⟨bytes, draws, -, hread, hlen, hle, -⟩ := readBytes_racing n a.toNat (s.at p (addTouch w tag a.toNat n))
  have hc : check .read al a n (s.at p w) = .ok () (s.at p w) := check_of_none h
  refine ⟨bytes, draws, ?_, hlen, hle⟩
  unfold memRead touch
  rw [Cmd.bind_ok hc, Cmd.bind_ok (updateWork_apply _ _)]
  exact hread

/-- Where no other agent writes a byte of it, and the run foresees no write that conflicts, it gives memory's bytes. -/
theorem memRead_unraced (h : checkAccess s.cfg .read al a n = none) (hforeseen : w.foreseen = [])
    (hf : ∀ f ∈ s.foreign, f.isWrite = true → f.touches a.toNat n = false) :
    memRead tag al a n (s.at p w) = .ok (p.1.readList a.toNat n) (s.at p (addTouch w tag a.toNat n)) := by
  have hc : check .read al a n (s.at p w) = .ok () (s.at p w) := check_of_none h
  unfold memRead touch
  rw [Cmd.bind_ok hc, Cmd.bind_ok (updateWork_apply _ _)]
  refine readBytes_of_not_racing (s := s.at p (addTouch w tag a.toNat n)) fun x h1 h2 => ?_
  rw [← Bool.not_eq_true, racing_iff]
  rintro (⟨f, hmem, hwr, ht⟩ | ⟨-, r, hr, -⟩)
  · rw [ForeignAccess.touches_byte] at ht
    have := ForeignAccess.touches_iff.2 ⟨x, ht, h1, h2⟩
    rw [hf f hmem hwr] at this
    cases this
  · have : (addTouch w tag a.toNat n).foreseen = [] := hforeseen
    rw [State.at_workNow, this] at hr
    cases hr

end Reads

/-! ### The end of a command with other agents at work -/

/-- A run that wrote nothing in an access that conflicts is the run with nothing foreseen (R67). -/
theorem runBody_of_unraced {opc : BitVec 8} {body : Cmd Unit} {s : State}
    (h : (endState (runBody opc body s)).racedSoFar = []) :
    runBody opc body s =
      body ({ s with draws := if s.foreign = [] then s.draws else s.draws + 1 }.startCommand opc []) := by
  unfold runBody at h ⊢
  by_cases hf : s.foreign = []
  · rw [if_pos (List.isEmpty_iff.2 hf), if_pos hf]
  · simp only [List.isEmpty_iff, hf, if_false] at h ⊢
    split
    · next hr =>
      rw [if_pos hr, hr] at h
      rw [h]
    · rfl

/-- The accesses that conflict, at the end of a command. -/
def State.racedAtEnd (s : State) : List (Nat × Nat) := s.racedSoFar ++ racedByOthers s.workNow.trace s.foreign

/-- The state in which other agents' reads have their replies and their writes are in memory, before the bytes of conflicting
accesses are scrambled (R67). -/
def State.heard (s : State) : State :=
  { s with
    mem := landForeign s.mem s.foreign
    foreignReplies := s.foreignReplies ++ (hearForeign s.inst.running s.racedAtEnd s.mem s.draws s.foreign).1
    draws := (hearForeign s.inst.running s.racedAtEnd s.mem s.draws s.foreign).2 }

theorem State.settleForeign_eq (s : State) :
    s.settleForeign = { s.heard.scrambleAll s.racedAtEnd with foreign := [] } := rfl

theorem State.draws_heard_le (s : State) : s.heard.draws ≤ s.settleForeign.draws :=
  (State.scrambleAll_same s.racedAtEnd s.heard).draws

/-- Where nothing conflicts, other agents' writes land and their reads give the bytes of memory (R67). -/
theorem State.settleForeign_of_unraced {s : State} (h : s.racedAtEnd = []) :
    s.settleForeign = { s with
      mem := landForeign s.mem s.foreign
      foreignReplies := s.foreignReplies ++ repliesInOrder s.mem s.foreign
      foreign := [] } := by
  rw [State.settleForeign_eq, State.heard, h, hearForeign_nil]
  rfl

theorem landForeign_wf : ∀ {fs : List ForeignAccess} {m : Memory}, m.wf = true → (landForeign m fs).wf = true
  | [], _, h => h
  | f :: _, _, h => by
    unfold landForeign
    cases f.op with
    | read n => exact landForeign_wf h
    | write data => exact landForeign_wf (Memory.wf_writeList h)

theorem State.scramble_wf : ∀ {n a : Nat} {s : State}, s.mem.wf = true → (s.scramble a n).mem.wf = true
  | 0, _, _, h => h
  | n + 1, a, s, h =>
    State.scramble_wf (n := n) (a := a + 1) (s := { s with mem := s.mem.write a s.nextByte, draws := s.draws + 1 })
      (Memory.wf_write _ _ h)

/-- A byte holds a draw of the running command, one of those from `lo` up to `hi`. -/
def IsDraw (opc : BitVec 8) (lo hi : Nat) (v : Byte) : Prop := ∃ k, lo ≤ k ∧ k < hi ∧ v = Config.freeByte opc k

theorem IsDraw.mono {opc : BitVec 8} {lo lo' hi hi' : Nat} {v : Byte} (h : IsDraw opc lo hi v) (hlo : lo' ≤ lo)
    (hhi : hi ≤ hi') : IsDraw opc lo' hi' v := by
  obtain ⟨k, h1, h2, rfl⟩ := h
  exact ⟨k, by omega, by omega, rfl⟩

/-- A scrambled byte holds a draw (R67). -/
theorem State.scramble_read_in {x : Nat} :
    ∀ {n a : Nat} {s : State}, s.mem.wf = true → a ≤ x → x < a + n →
      IsDraw s.inst.running s.draws (s.scramble a n).draws ((s.scramble a n).mem.read x)
  | 0, _, _, _, h1, h2 => by omega
  | n + 1, a, s, hwf, h1, h2 => by
    rw [State.scramble]
    by_cases hx : x = a
    · subst hx
      rw [State.scramble_read_other (by omega), Memory.read_write_same hwf]
      exact ⟨s.draws, Nat.le_refl _, (State.scramble_same n (x + 1)
        { s with mem := s.mem.write x s.nextByte, draws := s.draws + 1 }).draws, rfl⟩
    · exact (State.scramble_read_in (s := { s with mem := s.mem.write a s.nextByte, draws := s.draws + 1 })
        (Memory.wf_write _ _ hwf) (by omega) (by omega)).mono (Nat.le_succ _) (Nat.le_refl _)

theorem State.scrambleAll_read_in {x : Nat} :
    ∀ {rs : List (Nat × Nat)} {s : State}, s.mem.wf = true → (∃ r ∈ rs, r.1 ≤ x ∧ x < r.1 + r.2) →
      IsDraw s.inst.running s.draws (s.scrambleAll rs).draws ((s.scrambleAll rs).mem.read x)
  | [], _, _, h => by simp at h
  | r :: rs, s, hwf, h => by
    have hfirst := State.scramble_same r.2 r.1 s
    rw [State.scrambleAll]
    by_cases hrest : ∃ q ∈ rs, q.1 ≤ x ∧ x < q.1 + q.2
    · have hin := State.scrambleAll_read_in (State.scramble_wf (n := r.2) (a := r.1) hwf) hrest
      rw [hfirst.inst] at hin
      exact hin.mono hfirst.draws (Nat.le_refl _)
    · obtain ⟨q, hq, h1, h2⟩ := h
      obtain rfl : q = r := (List.mem_cons.1 hq).resolve_right fun hq => hrest ⟨q, hq, h1, h2⟩
      rw [State.scrambleAll_read_other fun q hq => by
        by_contra hin
        exact hrest ⟨q, hq, by omega, by omega⟩]
      exact (State.scramble_read_in hwf h1 h2).mono (Nat.le_refl _) (State.scrambleAll_same rs _).draws

/-- At the end of a command every byte that a conflicting access wrote holds a draw (R67). -/
theorem State.settleForeign_read_raced {s : State} {x : Nat} (hwf : s.mem.wf = true)
    (h : ∃ r ∈ s.racedAtEnd, r.1 ≤ x ∧ x < r.1 + r.2) :
    IsDraw s.inst.running s.draws s.settleForeign.draws (s.settleForeign.mem.read x) :=
  (State.scrambleAll_read_in (s := s.heard) (landForeign_wf hwf) h).mono (hearForeign_draws _ _ _ _ _) (Nat.le_refl _)

/-- What another agent reads: a draw for a byte that a conflicting access wrote, and memory's byte elsewhere (R67). -/
theorem hearBytes_getElem (opc : BitVec 8) (raced : List (Nat × Nat)) (m : Memory) :
    ∀ (n draws a : Nat), (hearBytes opc raced m draws a n).1.length = n ∧ ∀ j < n, ∃ v,
      (hearBytes opc raced m draws a n).1[j]? = some v ∧
        (inRanges raced (a + j) = true → IsDraw opc draws (hearBytes opc raced m draws a n).2 v) ∧
        (inRanges raced (a + j) = false → v = m.read (a + j))
  | 0, _, _ => ⟨rfl, nofun⟩
  | n + 1, draws, a => by
    unfold hearBytes
    cases hr : inRanges raced a with
    | true =>
      obtain ⟨hlen, hget⟩ := hearBytes_getElem opc raced m n (draws + 1) (a + 1)
      refine ⟨congrArg (· + 1) hlen, fun j hj => ?_⟩
      cases j with
      | zero =>
        exact ⟨_, rfl, fun _ => ⟨draws, Nat.le_refl _, hearBytes_draws opc raced m n (draws + 1) (a + 1), rfl⟩,
          fun h => absurd (hr.symm.trans h) nofun⟩
      | succ j =>
        obtain ⟨v, hv, hin, hout⟩ := hget j (by omega)
        rw [Nat.add_right_comm] at hin hout
        exact ⟨v, hv, fun h => (hin h).mono (Nat.le_succ _) (Nat.le_refl _), hout⟩
    | false =>
      obtain ⟨hlen, hget⟩ := hearBytes_getElem opc raced m n draws (a + 1)
      refine ⟨congrArg (· + 1) hlen, fun j hj => ?_⟩
      cases j with
      | zero => exact ⟨_, rfl, fun h => absurd (hr.symm.trans h) nofun, fun _ => rfl⟩
      | succ j =>
        obtain ⟨v, hv, hin, hout⟩ := hget j (by omega)
        rw [Nat.add_right_comm] at hin hout
        exact ⟨v, hv, hin, hout⟩

/-! ### DOT16 -/

/-- The bytes that DOT16 stores for the operand bytes `x` and `y` (R107). -/
def dot16Stored (mode : DotMode) (x y : List Byte) : List Byte :=
  leBytes32 (lane32 (dot16Lanes mode (le128 x) (le128 y)) 0) ++ leBytes32 (lane32 (dot16Lanes mode (le128 x) (le128 y)) 1) ++
    leBytes32 (lane32 (dot16Lanes mode (le128 x) (le128 y)) 2) ++ leBytes32 (lane32 (dot16Lanes mode (le128 x) (le128 y)) 3)

@[simp] theorem length_dot16Stored (mode : DotMode) (x y : List Byte) : (dot16Stored mode x y).length = 16 := rfl

/-- A partial sum of two slices of memory (R100, R102). -/
theorem partialSum_read128 (mode : DotMode) (m : Memory) (a b : Nat) {i : Nat} (hi : i < 4) :
    partialSum mode (m.read128 a) (m.read128 b) i = partialDot mode m a b i := by
  simp only [partialSum_eq, partialDot, sumTo, lane8_read128 m _ (by omega : 4 * i < 16),
    lane8_read128 m _ (by omega : 4 * i + 1 < 16), lane8_read128 m _ (by omega : 4 * i + 2 < 16),
    lane8_read128 m _ (by omega : 4 * i + 3 < 16), Nat.add_assoc, Nat.add_zero, zero_add]

/-- The bytes stored are those of the scalar reference (R107). -/
theorem dot16Stored_readList (mode : DotMode) (m : Memory) (a b : Nat) :
    dot16Stored mode (m.readList a 16) (m.readList b 16) = dot16Bytes mode m a b := by
  have hlane : ∀ i < 4, lane32 (dot16Lanes mode (m.read128 a) (m.read128 b)) i = bits32 (partialDot mode m a b i) := by
    intro i hi
    rw [← partialSum_read128 mode m a b hi]
    unfold dot16Lanes
    interval_cases i
    · exact lane32_pack32_0 _ _ _ _
    · exact lane32_pack32_1 _ _ _ _
    · exact lane32_pack32_2 _ _ _ _
    · exact lane32_pack32_3 _ _ _ _
  unfold dot16Stored
  rw [← Memory.read128, ← Memory.read128, hlane 0 (by omega), hlane 1 (by omega), hlane 2 (by omega), hlane 3 (by omega)]
  rfl

section Dot16

variable {s : State} {p : Progress} {w : Work} {a b d : Nat}

/-- The operands of DOT16 (R87, R107). -/
structure Dot16Operands (s : State) (a b d : Nat) : Prop where
  a : operandsOf (argAddr 0) s = some a
  b : operandsOf (argAddr 1) s = some b
  d : operandsOf (argAddr 2) s = some d

/-- The accesses that DOT16 has made at its end, the last one first (R107). -/
def dot16Trace (a b d : Nat) : List Touch := [⟨.written, d, 16⟩, ⟨.input, b, 16⟩, ⟨.input, a, 16⟩]

/-- DOT16 after its operands are decoded and read (R107). -/
theorem dot16Body_of_reads {o : BitVec 8} {x y : List Byte} {k k' : Nat} (hops : Dot16Operands s a b d)
    (hx : memRead .input false a 16 ((s.busyWith o).at p w) = .ok x ((s.busyWith o).at (p.1, k) (addTouch w .input a 16)))
    (hy : memRead .input false b 16 ((s.busyWith o).at (p.1, k) { addTouch w .input a 16 with latchA := le128 x }) =
      .ok y ((s.busyWith o).at (p.1, k') (addTouch { addTouch w .input a 16 with latchA := le128 x } .input b 16)))
    (hd : checkAccess s.cfg .write true d 16 = none) :
    ∃ w', dot16Body ((s.busyWith o).at p w) =
        .ok () ((s.busyWith o).at (p.1.writeList d (dot16Stored s.cfg.dotMode x y), k') w') ∧
      w'.trace = dot16Trace a b d ++ w.trace := by
  unfold dot16Body
  rw [(ArgReader.argAddr 0).bind_at hops.a, (ArgReader.argAddr 1).bind_at hops.b, (ArgReader.argAddr 2).bind_at hops.d,
    Cmd.bind_ok hx, Cmd.bind_ok (updateWork_apply _ _), State.at_workNow, State.at_withWork, Cmd.bind_ok hy,
    Cmd.bind_ok (updateWork_apply _ _), State.at_workNow, State.at_withWork, Cmd.bind_ok dotBlock_at,
    Cmd.bind_ok (work_apply _), State.at_workNow]
  exact ⟨_, memWrite_at _ _ (bytes := dot16Stored s.cfg.dotMode x y) hd, rfl⟩

/-- DOT16 makes its three accesses and completes where each passes its checks, whatever other agents do (R107). -/
theorem dot16Body_completes {o : BitVec 8} (hops : Dot16Operands s a b d)
    (ha : checkAccess s.cfg .read false a 16 = none) (hb : checkAccess s.cfg .read false b 16 = none)
    (hd : checkAccess s.cfg .write true d 16 = none) :
    ∃ bytes draws w', dot16Body ((s.busyWith o).at p w) =
        .ok () ((s.busyWith o).at (p.1.writeList d bytes, draws) w') ∧ bytes.length = 16 ∧ p.2 ≤ draws ∧
      w'.trace = dot16Trace a b d ++ w.trace := by
  obtain ⟨x, k, hx, -, hk⟩ := memRead_racing (s := s.busyWith o) (p := p) (w := w) (tag := .input) ha
  obtain ⟨y, k', hy, -, hk'⟩ := memRead_racing (s := s.busyWith o) (p := (p.1, k))
    (w := { addTouch w .input a 16 with latchA := le128 x }) (tag := .input) hb
  obtain ⟨w', hrun, htrace⟩ := dot16Body_of_reads hops hx hy hd
  exact ⟨_, k', w', hrun, length_dot16Stored _ _ _, hk.trans hk', htrace⟩

/-- Where no other agent writes an operand byte, it stores the products' sums of memory's bytes (R107). -/
theorem dot16Body_unraced {o : BitVec 8} (hops : Dot16Operands s a b d)
    (ha : checkAccess s.cfg .read false a 16 = none) (hb : checkAccess s.cfg .read false b 16 = none)
    (hd : checkAccess s.cfg .write true d 16 = none) (hforeseen : w.foreseen = [])
    (hf : ∀ f ∈ s.foreign, f.isWrite = true → f.touches a 16 = false ∧ f.touches b 16 = false) :
    ∃ w', dot16Body ((s.busyWith o).at p w) =
        .ok () ((s.busyWith o).at (p.1.writeList d (dot16Bytes s.cfg.dotMode p.1 a b), p.2) w') ∧
      w'.trace = dot16Trace a b d ++ w.trace := by
  have hx := memRead_unraced (s := s.busyWith o) (p := p) (w := w) (tag := .input) ha hforeseen fun f hm hw => (hf f hm hw).1
  have hy := memRead_unraced (s := s.busyWith o) (p := p) (tag := .input)
    (w := { addTouch w .input a 16 with latchA := le128 (p.1.readList a 16) }) hb hforeseen fun f hm hw => (hf f hm hw).2
  rw [← dot16Stored_readList]
  exact dot16Body_of_reads hops hx hy hd

/-- The run of an accepted DOT16 whose accesses pass their checks. -/
theorem runBody_dot16 (hops : Dot16Operands s a b d) (ha : checkAccess s.cfg .read false a 16 = none)
    (hb : checkAccess s.cfg .read false b 16 = none) (hd : checkAccess s.cfg .write true d 16 = none) :
    ∃ bytes draws w, runBody 0x01 dot16Body s =
        .ok () ((s.busyWith 0x01).at (s.mem.writeList d bytes, draws) w) ∧ bytes.length = 16 ∧ s.draws ≤ draws ∧
      w.trace = dot16Trace a b d := by
  obtain ⟨n, foreseen, hn, hrun, -⟩ := runBody_cases 0x01 dot16Body s
  obtain ⟨bytes, draws, w, hbody, hlen, hle, htrace⟩ := dot16Body_completes (o := 0x01) (p := (s.mem, n))
    (w := { Work.fresh with foreseen := foreseen }) hops ha hb hd
  exact ⟨bytes, draws, w, hrun.trans hbody, hlen, hn.trans hle, htrace⟩

/-- What DOT16 wrote in an access that conflicts: its destination, if another agent's access touches it (R67). -/
theorem racedByCommand_dot16 {fs : List ForeignAccess} :
    racedByCommand (dot16Trace a b d) fs = if fs.any (fun f => f.touches d 16) then [(d, 16)] else [] := by
  have hwritten : ∀ f, Touch.conflicts ⟨.written, d, 16⟩ f = f.touches d 16 := fun f => by simp [Touch.conflicts]
  simp only [racedByCommand, dot16Trace, List.filter, hwritten, decide_true, Bool.true_and, reduceCtorEq, decide_false,
    Bool.false_and]
  cases fs.any fun f => f.touches d 16 <;> rfl

end Dot16

/-- Settles O26: the run foresees nothing, since its one write conflicts with nothing, and so reads memory's bytes. -/
theorem conflictFreeDot16 : Obligations.ConflictFreeDot16 := by
  intro s a b d hacc hopa hopb hopd ha hb hd hfree
  have hops : Dot16Operands s a b d := ⟨hopa, hopb, hopd⟩
  have hraced : racedByCommand (dot16Trace a b d) s.foreign = [] := by
    rw [racedByCommand_dot16, if_neg]
    simp only [List.any_eq_true, not_exists, not_and]
    intro f hf
    simp [(hfree f hf).1]
  have hothers : racedByOthers (dot16Trace a b d) s.foreign = [] := by
    simp only [racedByOthers, List.map_eq_nil_iff, List.filter_eq_nil_iff, Bool.and_eq_true, Bool.or_eq_true,
      List.any_eq_true, not_and, not_or, not_exists]
    intro f hf hw
    obtain ⟨hfd, hin, hfg⟩ := hfree f hf
    obtain ⟨hfa, hfb⟩ := hin hw
    exact ⟨by simp [dot16Trace, Touch.conflicts, hfd, hfa, hfb], fun g hg => by simp [hfg g hg]⟩
  obtain ⟨bytes, draws, w, hrun, -, -, htrace⟩ := runBody_dot16 hops ha hb hd
  obtain ⟨w', hbody, htrace'⟩ := dot16Body_unraced (o := 0x01) (w := Work.fresh)
    (p := (s.mem, if s.foreign = [] then s.draws else s.draws + 1)) hops ha hb hd rfl fun f hf => (hfree f hf).2.1
  have hstart : runBody 0x01 dot16Body s = _ := (runBody_of_unraced (by
    rw [hrun, endState_ok, State.racedSoFar, State.at_workNow, htrace]
    exact hraced)).trans hbody
  rw [exec_eq_runCommand, runCommand_of_accepts hacc]
  show Host.Outcome.next (finish 0x01 (runBody 0x01 dot16Body s)) = _
  rw [hstart, finish, State.settleForeign_of_unraced]
  · rfl
  · rw [State.racedAtEnd, State.racedSoFar, State.at_workNow, htrace']
    exact (congrArg₂ _ hraced hothers)

/-- How DOT16 ends that passes its checks, whatever other agents do: its pseudocode completes in `u` (R107). -/
structure Dot16Ends (s u : State) (a b d : Nat) : Prop where
  exec : exec .dot16 s = .next u.settleForeign.endCommand
  running : u.inst.running = 0x01
  fault : u.inst.fault = none
  foreign : u.foreign = s.foreign
  foreignReplies : u.foreignReplies = s.foreignReplies
  draws : s.draws ≤ u.draws
  wf : s.mem.wf = true → u.mem.wf = true
  outside : ∀ x, ¬ (d ≤ x ∧ x < d + 16) → u.mem.read x = s.mem.read x
  trace : u.workNow.trace = dot16Trace a b d

theorem exists_dot16Ends {s : State} {a b d : Nat} (hacc : s.accepts) (hops : Dot16Operands s a b d)
    (ha : checkAccess s.cfg .read false a 16 = none) (hb : checkAccess s.cfg .read false b 16 = none)
    (hd : checkAccess s.cfg .write true d 16 = none) : ∃ u, Dot16Ends s u a b d := by
  obtain ⟨bytes, draws, w, hrun, hlen, hdraws, htrace⟩ := runBody_dot16 hops ha hb hd
  have hexec : exec .dot16 s = .next (finish 0x01 (runBody 0x01 dot16Body s)) := runCommand_of_accepts hacc
  rw [hrun] at hexec
  exact ⟨_, hexec, rfl, hacc.1, rfl, rfl, hdraws, Memory.wf_writeList,
    fun x hx => Memory.read_writeList_other (by omega), htrace⟩

namespace Dot16Ends

variable {s u : State} {a b d agent y : Nat}

theorem completes (h : Dot16Ends s u a b d) : u.settleForeign.endCommand.inst.fault = none := by
  rw [State.endCommand_fault, u.settleForeign_same.inst, h.fault]

/-- A byte that a conflicting access wrote holds a draw (R67). -/
theorem read_raced (h : Dot16Ends s u a b d) (hwf : s.mem.wf = true) {x : Nat}
    (hx : ∃ r ∈ u.racedAtEnd, r.1 ≤ x ∧ x < r.1 + r.2) :
    IsDraw 0x01 s.draws u.settleForeign.draws (u.settleForeign.mem.read x) := by
  have hdraw := u.settleForeign_read_raced (h.wf hwf) hx
  rw [h.running] at hdraw
  exact hdraw.mono h.draws (Nat.le_refl _)

/-- The one access of another agent conflicts with the write, and so does the write with it (R67). -/
theorem racedAtEnd_of_one (h : Dot16Ends s u a b d) {f : ForeignAccess} (hf : s.foreign = [f])
    (ht : f.touches d 16 = true) :
    u.racedAtEnd = (d, 16) :: if f.isWrite then [(f.addr, f.len)] else [] := by
  have hcommand : racedByCommand (dot16Trace a b d) [f] = [(d, 16)] := by simp [racedByCommand_dot16, ht]
  have hother : racedByOthers (dot16Trace a b d) [f] = if f.isWrite then [(f.addr, f.len)] else [] := by
    cases hw : f.isWrite with
    | true => simp [racedByOthers, dot16Trace, Touch.conflicts, hw, ht]
    | false => simp [racedByOthers, hw]
  rw [State.racedAtEnd, State.racedSoFar, h.foreign, h.trace, hf, hcommand, hother]
  rfl

/-- Where the other agent writes, every byte written holds a draw (R67). -/
theorem read_of_write (h : Dot16Ends s u a b d) (hwf : s.mem.wf = true) {data : List Byte}
    (hf : s.foreign = [⟨agent, y, .write data⟩]) (hover : overlap y data.length d 16 = true) {x : Nat}
    (hx : (d ≤ x ∧ x < d + 16) ∨ (y ≤ x ∧ x < y + data.length)) :
    IsDraw 0x01 s.draws u.settleForeign.draws (u.settleForeign.mem.read x) := by
  have hraced : u.racedAtEnd = [(d, 16), (y, data.length)] := h.racedAtEnd_of_one hf hover
  refine h.read_raced hwf ?_
  rw [hraced]
  rcases hx with hx | hx
  · exact ⟨(d, 16), List.mem_cons_self, hx⟩
  · exact ⟨(y, data.length), List.mem_cons_of_mem _ List.mem_cons_self, hx⟩

/-- Where the other agent reads, the destination holds draws, and so does what it reads of it (R67, R252). -/
theorem read_of_read (h : Dot16Ends s u a b d) (hwf : s.mem.wf = true) {n : Nat}
    (hf : s.foreign = [⟨agent, y, .read n⟩]) (hover : overlap y n d 16 = true) :
    (∀ x, d ≤ x ∧ x < d + 16 → IsDraw 0x01 s.draws u.settleForeign.draws (u.settleForeign.mem.read x)) ∧
    ∃ data, u.settleForeign.foreignReplies = s.foreignReplies ++ [⟨agent, y, data⟩] ∧ data.length = n ∧ ∀ j < n, ∃ v,
      data[j]? = some v ∧ (d ≤ y + j ∧ y + j < d + 16 → IsDraw 0x01 s.draws u.settleForeign.draws v) ∧
        (¬ (d ≤ y + j ∧ y + j < d + 16) → v = s.mem.read (y + j)) := by
  have hraced : u.racedAtEnd = [(d, 16)] := h.racedAtEnd_of_one hf hover
  have hin : ∀ x, inRanges [(d, 16)] x = true ↔ d ≤ x ∧ x < d + 16 := fun x => by simp [inRanges]
  have hheard : hearForeign u.inst.running u.racedAtEnd u.mem u.draws u.foreign =
      ([⟨agent, y, (hearBytes 0x01 [(d, 16)] u.mem u.draws y n).1⟩], (hearBytes 0x01 [(d, 16)] u.mem u.draws y n).2) := by
    rw [h.running, hraced, h.foreign, hf]
    rfl
  obtain ⟨hlen, hget⟩ := hearBytes_getElem 0x01 [(d, 16)] u.mem n u.draws y
  refine ⟨fun x hx => h.read_raced hwf (hraced ▸ ⟨(d, 16), List.mem_cons_self, hx⟩), _, ?_, hlen, fun j hj => ?_⟩
  · rw [State.settleForeign_foreignReplies, ← State.racedAtEnd, hheard, h.foreignReplies]
  · obtain ⟨v, hv, hdraw, hsame⟩ := hget j hj
    have hle := u.draws_heard_le
    rw [State.heard, hheard] at hle
    refine ⟨v, hv, fun hx => (hdraw ((hin _).2 hx)).mono h.draws hle, fun hx => ?_⟩
    rw [hsame (by rw [← Bool.not_eq_true, hin]; exact hx), h.outside _ hx]

end Dot16Ends

/-- Settles O27: the destination, and what the other agent writes, are scrambled; what it reads of them is drawn. -/
theorem conflictingWritesAreDraws : Obligations.ConflictingWritesAreDraws := by
  intro s a b d agent y hacc hwf hopa hopb hopd ha hb hd
  obtain ⟨u, hu⟩ := exists_dot16Ends hacc ⟨hopa, hopb, hopd⟩ ha hb hd
  refine ⟨fun data hf hover => ⟨_, hu.exec, hu.completes, fun x hx => hu.read_of_write hwf hf hover hx⟩,
    fun n hf hover => ?_⟩
  obtain ⟨hdest, data, hreplies, hlen, hget⟩ := hu.read_of_read hwf hf hover
  refine ⟨_, data, hu.exec, hu.completes, hdest, hreplies, hlen, fun j hj => ?_⟩
  obtain ⟨v, hv, hdraw, hsame⟩ := hget j hj
  rw [hv]
  refine ⟨fun hx => ?_, fun hx => congrArg some (hsame hx)⟩
  obtain ⟨k, h1, h2, rfl⟩ := hdraw hx
  exact ⟨k, h1, h2, rfl⟩

/-! ### The faults of DOT16 and HRED -/

theorem State.afterCommand_self {s : State} (hidle : s.inst.idle) (hf : s.foreign = []) :
    s.afterCommand s.mem s.draws = s := by
  obtain ⟨hbusy, hrunning, hwork⟩ := hidle
  cases s with
  | mk cfg inst others mem caller foreign foreignReplies reply pastFaults draws =>
    cases inst
    simp_all [State.afterCommand]

/-- A command that raises before it has written or drawn anything leaves nothing but the record (R201). -/
theorem exec_of_early_error {i : Instr} {s : State} {c : Cause} {w : Work} (ha : s.accepts) (hidle : s.inst.idle)
    (hf : s.foreign = [])
    (h : bodyOf i ((s.busyWith i.opc).at (s.mem, s.draws) Work.fresh) =
      .error c ((s.busyWith i.opc).at (s.mem, s.draws) w)) : exec i s = .next (s.recordFault i.opc c) := by
  rw [exec_of_error ha hf h, State.afterCommand_self hidle hf]

/-- The first access of DOT16 that fails a check ends it (R107). -/
theorem dot16Body_error {s : State} {o : BitVec 8} {p : Progress} {w : Work} {a b d : Nat} {c : Cause}
    (hf : s.foreign = []) (hops : Dot16Operands s a b d)
    (hc : ((checkAccess s.cfg .read false a 16).or (checkAccess s.cfg .read false b 16)).or
      (checkAccess s.cfg .write true d 16) = some c) :
    ∃ w', dot16Body ((s.busyWith o).at p w) = .error c ((s.busyWith o).at p w') := by
  unfold dot16Body
  rw [(ArgReader.argAddr 0).bind_at hops.a, (ArgReader.argAddr 1).bind_at hops.b, (ArgReader.argAddr 2).bind_at hops.d]
  cases ha : checkAccess s.cfg .read false a 16 with
  | some c' =>
    obtain rfl : c' = c := by simpa [ha] using hc
    exact ⟨w, Cmd.bind_error (memRead_error ha)⟩
  | none =>
    rw [Cmd.bind_ok (memRead_at (s := s.busyWith o) hf _ _ ha), Cmd.bind_ok (updateWork_apply _ _), State.at_workNow,
      State.at_withWork]
    cases hb : checkAccess s.cfg .read false b 16 with
    | some c' =>
      obtain rfl : c' = c := by simpa [ha, hb] using hc
      exact ⟨_, Cmd.bind_error (memRead_error hb)⟩
    | none =>
      rw [Cmd.bind_ok (memRead_at (s := s.busyWith o) hf _ _ hb), Cmd.bind_ok (updateWork_apply _ _), State.at_workNow,
        State.at_withWork, Cmd.bind_ok dotBlock_at, Cmd.bind_ok (work_apply _), State.at_workNow]
      exact ⟨_, memWrite_error (by simpa [ha, hb] using hc)⟩

/-- The first access of HRED that fails a check ends it (R108). -/
theorem hredBody_error {s : State} {o : BitVec 8} {p : Progress} {w : Work} {a d : Nat} {c : Cause}
    (hf : s.foreign = []) (hopa : operandsOf (argAddr 0) s = some a) (hopd : operandsOf (argAddr 1) s = some d)
    (hc : (checkAccess s.cfg .read true a 16).or (checkAccess s.cfg .write true d 4) = some c) :
    ∃ w', hredBody ((s.busyWith o).at p w) = .error c ((s.busyWith o).at p w') := by
  unfold hredBody
  rw [(ArgReader.argAddr 0).bind_at hopa, (ArgReader.argAddr 1).bind_at hopd]
  cases ha : checkAccess s.cfg .read true a 16 with
  | some c' =>
    obtain rfl : c' = c := by simpa [ha] using hc
    exact ⟨w, Cmd.bind_error (memRead_error ha)⟩
  | none =>
    rw [Cmd.bind_ok (memRead_at (s := s.busyWith o) hf _ _ ha), Cmd.bind_ok (updateWork_apply _ _), State.at_workNow,
      State.at_withWork, Cmd.bind_ok (work_apply _), State.at_workNow]
    exact ⟨_, memWrite_error (by simpa [ha] using hc)⟩

/-- Settles O42: each command ends where its first access that fails a check raises. -/
theorem primitiveFaults : Obligations.PrimitiveFaults := by
  refine ⟨fun s a b d c hacc hidle hf hopa hopb hopd hc => ?_, fun s a d c hacc hidle hf hopa hopd hc => ?_⟩
  · obtain ⟨w, h⟩ := dot16Body_error (o := 0x01) hf ⟨hopa, hopb, hopd⟩ hc
    exact exec_of_early_error (i := .dot16) hacc hidle hf h
  · obtain ⟨w, h⟩ := hredBody_error (o := 0x02) hf hopa hopd hc
    exact exec_of_early_error (i := .hred) hacc hidle hf h

end Sys2Proof.Machine
end

section
/-! PROOFS. Other agents that only read (20_memory.md R57, R67): a command's run does not depend on them where it foresees no
write that conflicts, and a fault raised before anything is written leaves no write that could. -/

namespace Sys2Proof.Machine

/-! ### A run does not depend on agents that only read -/

/-- The state with other agents' accesses put in. -/
def State.withForeign (fs : List ForeignAccess) (s : State) : State := { s with foreign := fs }

/-- The same end of a piece of a command, with the state changed. -/
def mapEnd {α : Type} (g : State → State) : EStateM.Result Cause State α → EStateM.Result Cause State α
  | .ok a s => .ok a (g s)
  | .error c s => .error c (g s)

/-- No other agent is at work, and the run foresees no write that conflicts. -/
structure State.Alone (s : State) : Prop where
  foreign : s.foreign = []
  foreseen : s.workNow.foreseen = []

/-- Other agents' accesses are reads. -/
abbrev Readers (fs : List ForeignAccess) : Prop := ∀ f ∈ fs, f.isWrite = false

/-- The piece ends with readers at work as it does without. -/
def Unseeing {α : Type} (m : Cmd α) : Prop :=
  ∀ s : State, s.Alone → (endState (m s)).Alone ∧
    ∀ fs, Readers fs → m (s.withForeign fs) = mapEnd (State.withForeign fs) (m s)

namespace Unseeing

variable {α β : Type}

theorem pure (a : α) : Unseeing (Pure.pure a : Cmd α) := fun _ h => ⟨h, fun _ _ => rfl⟩

theorem raise (c : Cause) : Unseeing (Machine.raise c : Cmd α) := fun _ h => ⟨h, fun _ _ => rfl⟩

theorem config : Unseeing Machine.config := fun _ h => ⟨h, fun _ _ => rfl⟩

theorem work : Unseeing Machine.work := fun _ h => ⟨h, fun _ _ => rfl⟩

theorem updateWork {f : Work → Work} (hf : ∀ w, (f w).foreseen = w.foreseen) : Unseeing (Machine.updateWork f) :=
  fun _ h => ⟨⟨h.foreign, (hf _).trans h.foreseen⟩, fun _ _ => rfl⟩

theorem bind {m : Cmd α} {f : α → Cmd β} (hm : Unseeing m) (hf : ∀ a, Unseeing (f a)) : Unseeing (m >>= f) :=
  fun s h => by
    obtain ⟨halone, hsame⟩ := hm s h
    cases hms : m s with
    | ok a t =>
      rw [hms] at halone hsame
      obtain ⟨halone', hsame'⟩ := hf a t halone
      rw [Cmd.bind_ok hms]
      exact ⟨halone', fun fs hfs => by rw [Cmd.bind_ok (hsame fs hfs), hsame' fs hfs]⟩
    | error c t =>
      rw [hms] at halone hsame
      rw [Cmd.bind_error hms]
      exact ⟨halone, fun fs hfs => Cmd.bind_error (hsame fs hfs)⟩

theorem loop {body : Nat → Cmd Unit} (hbody : ∀ i, Unseeing (body i)) : ∀ n lo, Unseeing (Machine.loop lo n body)
  | 0, _ => pure ()
  | n + 1, lo => bind (hbody lo) fun _ => loop hbody n (lo + 1)

theorem argReader {m : Cmd α} (hm : ArgReader m) : Unseeing m := fun s h => by
  refine ⟨by rwa [hm.endState_eq s], fun fs _ => ?_⟩
  obtain ⟨f, hf⟩ := hm
  have hwith : m (s.withForeign fs) = _ := hf (s.withForeign fs)
  rw [hwith, hf s]
  show (match f s.cfg s.inst.args with
    | .ok a => EStateM.Result.ok a (s.withForeign fs)
    | .error c => .error c (s.withForeign fs)) = _
  cases f s.cfg s.inst.args <;> rfl

theorem check (k : Kind) (al : Bool) (a : Int) (n : Nat) : Unseeing (Machine.check k al a n) := fun s h => by
  have hwith : ∀ fs, (s.withForeign fs).cfg = s.cfg := fun _ => rfl
  unfold Machine.check
  cases hc : checkAccess s.cfg k al a n with
  | some c => exact ⟨h, fun fs _ => by simp only [hwith, hc]; rfl⟩
  | none => exact ⟨h, fun fs _ => by simp only [hwith, hc]; rfl⟩

/-- No read races: there is no write but the command's own, and none of those is foreseen to conflict (R67). -/
theorem readByte (x : Nat) : Unseeing (Machine.readByte x) := fun s h => by
  have hread : ∀ fs, Readers fs → Machine.readByte x (s.withForeign fs) = .ok (s.mem.read x) (s.withForeign fs) :=
    fun fs hfs => readByte_of_not_racing (s := s.withForeign fs) (by
      rw [← Bool.not_eq_true, racing_iff]
      rintro (⟨f, hf, hw, -⟩ | ⟨-, r, hr, -⟩)
      · rw [hfs f hf] at hw
        cases hw
      · have hnone : (s.withForeign fs).workNow.foreseen = [] := h.foreseen
        rw [hnone] at hr
        cases hr)
  have halone : Machine.readByte x s = .ok (s.mem.read x) s := readByte_of_not_racing (racing_of_nil h.foreign x)
  rw [halone]
  exact ⟨h, hread⟩

theorem readBytes : ∀ n a, Unseeing (Machine.readBytes a n)
  | 0, _ => pure []
  | n + 1, a => bind (readByte a) fun _ => bind (readBytes n (a + 1)) fun _ => pure _

theorem memRead (tag : Tag) (al : Bool) (a : Int) (n : Nat) : Unseeing (Machine.memRead tag al a n) :=
  bind (check _ _ _ _) fun _ => bind (updateWork fun _ => rfl) fun _ => readBytes n _

theorem memWrite (al : Bool) (a : Int) (bytes : List Byte) : Unseeing (Machine.memWrite al a bytes) :=
  bind (check _ _ _ _) fun _ => bind (updateWork fun _ => rfl) fun _ _ h => ⟨⟨h.foreign, h.foreseen⟩, fun _ _ => rfl⟩

theorem input {f : List Byte → α} (al : Bool) (a : Int) (n : Nat) :
    Unseeing (Machine.memRead .input al a n >>= fun v => Pure.pure (f v)) := bind (memRead _ _ _ _) fun _ => pure _

theorem orNaN : ∀ v, Unseeing (Machine.orNaN v)
  | some f => pure f
  | none => fun _ h => ⟨⟨h.foreign, h.foreseen⟩, fun _ _ => rfl⟩

theorem acc32 (x : Int) (site : Work → Site) : Unseeing (Machine.acc32 x site) := fun s h => by
  have hwith : ∀ fs, (s.withForeign fs).cfg = s.cfg := fun _ => rfl
  unfold Machine.acc32
  cases hovf : s.cfg.intOvf with
  | fault => cases hx : in32 x <;> exact ⟨h, fun fs _ => by simp only [hwith, hovf]; rfl⟩
  | wrap => exact ⟨h, fun fs _ => by simp only [hwith, hovf]; rfl⟩

theorem dotBlock : Unseeing Machine.dotBlock := bind config fun _ => updateWork fun _ => rfl

theorem addDot (x : Int) (site : Work → Site) : Unseeing (Machine.addDot x site) :=
  bind work fun _ => bind (acc32 _ _) fun _ => updateWork fun _ => rfl

theorem addRowSum (x : Int) (site : Work → Site) : Unseeing (Machine.addRowSum x site) :=
  bind work fun _ => bind (acc32 _ _) fun _ => updateWork fun _ => rfl

theorem accumulate (e : Int) (c : Word32) : Unseeing (Machine.accumulate e c) :=
  bind (bind (memRead _ _ _ _) fun _ => pure _) fun _ => bind (orNaN _) fun _ => memWrite _ _ _

theorem aliasCheck : Unseeing Machine.aliasCheck := fun s h => by
  have hwith : ∀ fs, (s.withForeign fs).workNow = s.workNow := fun _ => rfl
  unfold Machine.aliasCheck
  cases hx : lowestAlias s.workNow.trace <;> exact ⟨h, fun fs _ => by simp only [hwith, hx]; rfl⟩

theorem denseBlock (d : DenseArgs) (b r k : Nat) : Unseeing (Machine.denseBlock d b r k) :=
  bind (updateWork fun _ => rfl) fun _ => bind (input _ _ _) fun _ => bind (updateWork fun _ => rfl) fun _ =>
    bind (input _ _ _) fun _ => bind (updateWork fun _ => rfl) fun _ => bind dotBlock fun _ => bind work fun _ =>
      addDot _ _

theorem denseColumn (d : DenseArgs) (b r c : Nat) : Unseeing (Machine.denseColumn d b r c) :=
  bind (updateWork fun _ => rfl) fun _ => bind (input _ _ _) fun _ => bind (input _ _ _) fun _ =>
    bind (addDot _ _) fun _ => pure _

theorem denseRow (d : DenseArgs) (b : Nat) (bs : Word32) (r : Nat) : Unseeing (Machine.denseRow d b bs r) :=
  bind (updateWork fun _ => rfl) fun _ =>
    bind (bind (updateWork fun _ => rfl) fun _ => bind (loop (fun k => denseBlock d b r k) _ _) fun _ =>
      loop (fun c => bind (denseColumn d b r c) fun _ => pure _) _ _) fun _ =>
    bind work fun _ => bind (orNaN _) fun _ => accumulate _ _

theorem denseBatch (d : DenseArgs) (b : Nat) : Unseeing (Machine.denseBatch d b) :=
  bind (updateWork fun _ => rfl) fun _ => bind (input _ _ _) fun _ => loop (fun r => denseRow d b _ r) _ _

theorem scale3 (adj bs cs : Word32) : Unseeing (Machine.scale3 adj bs cs) :=
  bind config fun c => by
    cases c.asymOrder with
    | leftToRight => exact bind (orNaN _) fun _ => orNaN _
    | scaleFirst => exact bind (orNaN _) fun _ => orNaN _

theorem asymRow (d : DenseArgs) (pcs b : Nat) (bs off : Word32) (r : Nat) :
    Unseeing (Machine.asymRow d pcs b bs off r) :=
  bind (updateWork fun _ => rfl) fun _ =>
    bind (bind (updateWork fun _ => rfl) fun _ =>
      bind (loop (fun k => bind (denseBlock d b r k) fun _ => bind work fun _ => addRowSum _ _) _ _) fun _ =>
        loop (fun c => bind (denseColumn d b r c) fun _ => addRowSum _ _) _ _) fun _ =>
    bind work fun _ => bind (bind (acc32 _ _) fun _ => acc32 _ _) fun _ => bind (input _ _ _) fun _ =>
      bind (scale3 _ _ _) fun _ => accumulate _ _

theorem asymBatch (d : DenseArgs) (pcs offsets b : Nat) : Unseeing (Machine.asymBatch d pcs offsets b) :=
  bind (updateWork fun _ => rfl) fun _ => bind (input _ _ _) fun _ => bind (input _ _ _) fun _ =>
    loop (fun r => asymRow d pcs b _ _ r) _ _

theorem blockPrecond (cols : Nat) : Unseeing (Machine.blockPrecond cols) :=
  bind config fun c => by
    split
    · exact pure ()
    · split <;> exact raise _

theorem nextLedgerByte : Unseeing Machine.nextLedgerByte :=
  bind work fun _ => bind (input _ _ _) fun _ => bind (updateWork fun _ => rfl) fun _ => pure _

theorem sparseEntry (a : SparseArgs) (r i : Nat) : Unseeing (Machine.sparseEntry a r i) :=
  bind (updateWork fun _ => rfl) fun _ => bind nextLedgerByte fun bi => by
    dsimp only
    split
    · exact raise _
    · exact bind (input _ _ _) fun _ => bind (updateWork fun _ => rfl) fun _ => bind work fun _ =>
        bind (input _ _ _) fun _ => bind (updateWork fun _ => rfl) fun _ => bind dotBlock fun _ => bind work fun _ =>
          bind (addDot _ _) fun _ => updateWork fun _ => rfl

theorem sparseRow (a : SparseArgs) (r : Nat) : Unseeing (Machine.sparseRow a r) :=
  bind (updateWork fun _ => rfl) fun _ => bind nextLedgerByte fun _ => bind (updateWork fun _ => rfl) fun _ =>
    bind (loop (fun i => sparseEntry a r i) _ _) fun _ => bind work fun _ => bind (orNaN _) fun _ => accumulate _ _

theorem sparseBody (a : SparseArgs) : Unseeing (Machine.sparseBody a) :=
  bind (updateWork fun _ => rfl) fun _ => loop (fun r => sparseRow a r) _ _

theorem sparseBatch (a : SparseBatchArgs) (b : Nat) : Unseeing (Machine.sparseBatch a b) :=
  bind (updateWork fun _ => rfl) fun _ => bind (input _ _ _) fun _ => sparseBody _

end Unseeing

/-- No command's run depends on agents that only read (R57, R67). -/
theorem bodyOf_unseeing (i : Instr) : Unseeing (bodyOf i) := by
  cases i with
  | dot16 =>
    exact .bind (.argReader (.argAddr 0)) fun _ => .bind (.argReader (.argAddr 1)) fun _ =>
      .bind (.argReader (.argAddr 2)) fun _ => .bind (.memRead _ _ _ _) fun _ => .bind (.updateWork fun _ => rfl) fun _ =>
        .bind (.memRead _ _ _ _) fun _ => .bind (.updateWork fun _ => rfl) fun _ => .bind .dotBlock fun _ =>
          .bind .work fun _ => .memWrite _ _ _
  | hred =>
    exact .bind (.argReader (.argAddr 0)) fun _ => .bind (.argReader (.argAddr 1)) fun _ =>
      .bind (.memRead _ _ _ _) fun _ => .bind (.updateWork fun _ => rfl) fun _ => .bind .work fun _ => .memWrite _ _ _
  | dmmaS =>
    exact .bind (.argReader .denseArgs) fun d => .bind (.loop (fun b => .denseBatch d b) _ _) fun _ => .aliasCheck
  | dmmaA =>
    exact .bind (.argReader .denseArgs) fun d => .bind (.argReader (.argAddr 8)) fun _ =>
      .bind (.argReader (.argAddr 9)) fun _ => .bind (.loop (fun b => .asymBatch d _ _ b) _ _) fun _ => .aliasCheck
  | smma =>
    exact .bind (.argReader .sparseArgs) fun a => .bind (.blockPrecond _) fun _ => .bind (.sparseBody a) fun _ =>
      .aliasCheck
  | smmaB =>
    exact .bind (.argReader .sparseBatchArgs) fun a => .bind (.blockPrecond _) fun _ =>
      .bind (.loop (fun b => .sparseBatch a b) _ _) fun _ => .aliasCheck

/-! ### Faults raised before anything is written -/

/-- Nothing has been written yet (R63). -/
def Work.Unwritten (w : Work) : Prop := ∀ u ∈ w.trace, u.tag ≠ .written

/-- Started with a working state with `P`, the piece completes with one with `Q`, or raises a fault; and a fault that tells
that command `i` had written nothing tells so truly. -/
def TellsUnwritten {α : Type} (i : Instr) (P : Work → Prop) (m : Cmd α) (Q : Work → Prop) : Prop :=
  ∀ s : State, P s.workNow →
    (∀ a t, m s = .ok a t → Q t.workNow) ∧
      ∀ c t, m s = .error c t → c.beforeAnyWrite i = true → t.workNow.Unwritten

/-- The command is one of the four kernels. -/
abbrev IsKernel (i : Instr) : Prop := i ≠ .dot16 ∧ i ≠ .hred

/-- An overflow at the site is one in the first row of the first batch of a dense kernel. -/
def Site.inFirstRow : Site → Bool
  | .blk b r _ => b == 0 && r == 0
  | .col b r _ => b == 0 && r == 0
  | .rsblk b r _ => b == 0 && r == 0
  | .rscol b r _ => b == 0 && r == 0
  | .prod b r => b == 0 && r == 0
  | .adj b r => b == 0 && r == 0
  | .sblk _ _ => false

theorem beforeAnyWrite_overflow {i : Instr} (hi : IsKernel i) (site : Site) :
    (Cause.intOverflow site).beforeAnyWrite i = site.inFirstRow := by
  obtain ⟨h1, h2⟩ := hi
  cases site <;> simp [Cause.beforeAnyWrite, Site.inFirstRow, h1, h2]

theorem beforeAnyWrite_alias {i : Instr} (hi : IsKernel i) (x : Nat) : (Cause.aliased x).beforeAnyWrite i = false := by
  obtain ⟨h1, h2⟩ := hi
  simp [Cause.beforeAnyWrite, h1, h2]

theorem beforeAnyWrite_ledgerRange {i : Instr} (hi : IsKernel i) (r k : Nat) (bi : Byte) :
    (Cause.ledgerRange r k bi).beforeAnyWrite i = (i == .smma && r == 0) := by
  obtain ⟨h1, h2⟩ := hi
  simp [Cause.beforeAnyWrite, h1, h2]

/-- A kernel's failed check of an access tells nothing. -/
theorem beforeAnyWrite_checkAccess {i : Instr} (hi : IsKernel i) {c : Config} {k : Kind} {al : Bool} {a : Int} {n : Nat}
    {cause : Cause} (h : checkAccess c k al a n = some cause) : cause.beforeAnyWrite i = false := by
  obtain ⟨h1, h2⟩ := hi
  unfold checkAccess at h
  split at h
  · split at h
    · cases h
      simp [Cause.beforeAnyWrite, h1, h2]
    · split at h
      · cases h
      · cases h
        simp [Cause.beforeAnyWrite, h1, h2]
  · cases h
    simp [Cause.beforeAnyWrite, h1, h2]

/-- The predicate outlives a read. -/
def ReadStable (P : Work → Prop) : Prop := ∀ w tag a n, tag ≠ .written → P w → P (addTouch w tag a n)

theorem Work.Unwritten.readStable : ReadStable Work.Unwritten := fun _ _ _ _ ht h u hu => by
  rcases List.mem_cons.1 hu with rfl | hu
  · exact ht
  · exact h u hu

namespace TellsUnwritten

variable {α β : Type} {i : Instr} {P P' Q Q' : Work → Prop}

/-- A piece that leaves the state alone, and raises only where nothing is written. -/
theorem of_same {m : Cmd α} (hm : ∀ s, endState (m s) = s)
    (herr : ∀ s c, P s.workNow → m s = .error c s → c.beforeAnyWrite i = true → s.workNow.Unwritten) :
    TellsUnwritten i P m P := fun s h => by
  have hs := hm s
  refine ⟨fun a t ht => ?_, fun c t ht hc => ?_⟩
  · rw [ht] at hs
    cases hs
    exact h
  · rw [ht] at hs
    cases hs
    exact herr _ c h ht hc

theorem weaken {m : Cmd α} (hm : TellsUnwritten i P m Q) (hP : ∀ w, P' w → P w) (hQ : ∀ w, Q w → Q' w) :
    TellsUnwritten i P' m Q' := fun s h => ⟨fun a t ht => hQ _ ((hm s (hP _ h)).1 a t ht), (hm s (hP _ h)).2⟩

/-- A piece that always completes. -/
theorem of_ok {m : Cmd α} (hm : ∀ s, P s.workNow → ∃ a t, m s = .ok a t ∧ Q t.workNow) : TellsUnwritten i P m Q :=
  fun s h => by
    obtain ⟨a, t, hok, hQ⟩ := hm s h
    rw [hok]
    exact ⟨fun _ _ ht => by cases ht; exact hQ, fun _ _ ht => by cases ht⟩

theorem pure (a : α) : TellsUnwritten i P (Pure.pure a : Cmd α) P := of_ok fun s h => ⟨a, s, rfl, h⟩

theorem config : TellsUnwritten i P Machine.config P := of_ok fun s h => ⟨_, s, rfl, h⟩

theorem work : TellsUnwritten i P Machine.work P := of_ok fun s h => ⟨_, s, rfl, h⟩

theorem updateWork {f : Work → Work} (hf : ∀ w, P w → Q (f w)) : TellsUnwritten i P (Machine.updateWork f) Q :=
  of_ok fun _ h => ⟨(), _, rfl, hf _ h⟩

theorem store (a : Nat) (bytes : List Byte) : TellsUnwritten i P (Machine.store a bytes) P :=
  of_ok fun _ h => ⟨(), _, rfl, h⟩

theorem bind {m : Cmd α} {f : α → Cmd β} (hm : TellsUnwritten i P m Q) (hf : ∀ a, TellsUnwritten i Q (f a) Q') :
    TellsUnwritten i P (m >>= f) Q' := fun s h => by
  obtain ⟨hok, herr⟩ := hm s h
  refine ⟨fun b t ht => ?_, fun c t ht => ?_⟩
  · obtain ⟨a, u, hu, ht⟩ := Cmd.bind_eq_ok ht
    exact (hf a u (hok a u hu)).1 b t ht
  · rcases Cmd.bind_eq_error ht with ht | ⟨a, u, hu, ht⟩
    · exact herr c t ht
    · exact (hf a u (hok a u hu)).2 c t ht

theorem loop {body : Nat → Cmd Unit} (Inv : Nat → Work → Prop) :
    ∀ {n lo : Nat}, (∀ k, TellsUnwritten i (Inv k) (body k) (Inv (k + 1))) →
      TellsUnwritten i (Inv lo) (Machine.loop lo n body) (Inv (lo + n))
  | 0, _, _ => pure ()
  | n + 1, lo, h => by
    rw [(by omega : lo + (n + 1) = lo + 1 + n)]
    exact bind (h lo) fun _ => loop Inv h

theorem rounds {body : Nat → Cmd Unit} (n lo : Nat) (h : ∀ k, TellsUnwritten i P (body k) P) :
    TellsUnwritten i P (Machine.loop lo n body) P := loop (fun _ => P) h

theorem argReader (hP : ∀ w, P w → w.Unwritten) {m : Cmd α} (hm : ArgReader m) : TellsUnwritten i P m P :=
  of_same hm.endState_eq fun _ _ h _ _ => hP _ h

theorem readBytes (n a : Nat) : TellsUnwritten i P (Machine.readBytes a n) P := of_ok fun s h => by
  obtain ⟨bytes, draws, -, hread, -⟩ := readBytes_racing n a s
  exact ⟨bytes, _, hread, h⟩

theorem check {k : Kind} {al : Bool} {a : Int} {n : Nat}
    (h : ∀ w c cause, P w → checkAccess c k al a n = some cause → cause.beforeAnyWrite i = true → w.Unwritten) :
    TellsUnwritten i P (Machine.check k al a n) P := of_same (fun s => by unfold Machine.check; split <;> rfl)
  fun s c hP herr hc => by
    cases hcheck : checkAccess s.cfg k al a n with
    | some cause =>
      rw [check_of_some hcheck] at herr
      cases herr
      exact h _ _ _ hP hcheck hc
    | none =>
      rw [check_of_none hcheck] at herr
      cases herr

/-! #### DOT16 and HRED -/

theorem primitiveRead (al : Bool) (a : Int) (n : Nat) :
    TellsUnwritten i Work.Unwritten (Machine.memRead .input al a n) Work.Unwritten :=
  bind (check fun _ _ _ h _ _ => h) fun _ =>
    bind (updateWork fun _ h => Work.Unwritten.readStable _ .input _ _ (by decide) h) fun _ => readBytes _ _

theorem primitiveWrite (al : Bool) (a : Int) (bytes : List Byte) :
    TellsUnwritten i Work.Unwritten (Machine.memWrite al a bytes) fun _ => True :=
  bind (check fun _ _ _ h _ _ => h) fun _ =>
    bind (updateWork fun _ _ => trivial) fun _ => store _ _

theorem primitiveUpdate {f : Work → Work} (hf : ∀ w, (f w).trace = w.trace) :
    TellsUnwritten i Work.Unwritten (Machine.updateWork f) Work.Unwritten :=
  updateWork fun w h u hu => h u (hf w ▸ hu)

theorem dot16Body : TellsUnwritten i Work.Unwritten Machine.dot16Body fun _ => True :=
  bind (argReader (fun _ h => h) (.argAddr 0)) fun _ => bind (argReader (fun _ h => h) (.argAddr 1)) fun _ =>
    bind (argReader (fun _ h => h) (.argAddr 2)) fun _ => bind (primitiveRead _ _ _) fun _ =>
      bind (primitiveUpdate fun _ => rfl) fun _ => bind (primitiveRead _ _ _) fun _ =>
        bind (primitiveUpdate fun _ => rfl) fun _ => bind (bind config fun _ => primitiveUpdate fun _ => rfl) fun _ =>
          bind work fun _ => primitiveWrite _ _ _

theorem hredBody : TellsUnwritten i Work.Unwritten Machine.hredBody fun _ => True :=
  bind (argReader (fun _ h => h) (.argAddr 0)) fun _ => bind (argReader (fun _ h => h) (.argAddr 1)) fun _ =>
    bind (primitiveRead _ _ _) fun _ => bind (primitiveUpdate fun _ => rfl) fun _ => bind work fun _ =>
      primitiveWrite _ _ _

/-! #### The kernels -/

variable {b r : Nat} (hi : IsKernel i)

/-- Batch `b` runs, and while its first row is still to come in the first batch, nothing is written. -/
structure BeforeRow (b r : Nat) (w : Work) : Prop where
  batch : w.b = b
  unwritten : b = 0 → r = 0 → w.Unwritten

/-- Row `r` of batch `b` runs, and in the first row of the first batch nothing is written. -/
structure InRow (b r : Nat) (w : Work) : Prop extends BeforeRow b r w where
  row : w.r = r

theorem BeforeRow.readStable : ReadStable (BeforeRow b r) := fun w tag a n ht h =>
  ⟨h.batch, fun hb hr => Work.Unwritten.readStable w tag a n ht (h.unwritten hb hr)⟩

theorem InRow.readStable : ReadStable (InRow b r) := fun w tag a n ht h =>
  ⟨BeforeRow.readStable w tag a n ht h.toBeforeRow, h.row⟩

theorem InRow.enter {w : Work} (h : BeforeRow b r w) : InRow b r { w with r := r } := ⟨⟨h.batch, h.unwritten⟩, rfl⟩

include hi

theorem memRead (hP : ReadStable P) {tag : Tag} (ht : tag ≠ .written) (al : Bool) (a : Int) (n : Nat) :
    TellsUnwritten i P (Machine.memRead tag al a n) P :=
  bind (check fun _ _ _ _ hc he => by rw [beforeAnyWrite_checkAccess hi hc] at he; cases he) fun _ =>
    bind (updateWork fun w h => hP w tag _ _ ht h) fun _ => readBytes _ _

theorem input (hP : ReadStable P) {f : List Byte → α} (al : Bool) (a : Int) (n : Nat) :
    TellsUnwritten i P (Machine.memRead .input al a n >>= fun v => Pure.pure (f v)) P :=
  bind (memRead hi hP (by decide) _ _ _) fun _ => pure _

theorem acc32 {x : Int} {site : Work → Site} (h : ∀ w, P w → (site w).inFirstRow = true → w.Unwritten) :
    TellsUnwritten i P (Machine.acc32 x site) P :=
  of_same (fun s => by unfold Machine.acc32; split <;> [split <;> rfl; rfl]) fun s c hP herr hc => by
    unfold Machine.acc32 at herr
    split at herr
    · split at herr
      · cases herr
      · cases herr
        rw [beforeAnyWrite_overflow hi] at hc
        exact h _ hP hc
    · cases herr

omit hi in
/-- An overflow at a site that names the loop positions tells the row that runs. -/
theorem InRow.unwritten_of_site {site : Work → Site}
    (hsite : ∀ w, (site w).inFirstRow = true → (w.b == 0 && w.r == 0) = true) (w : Work) (h : InRow b r w)
    (hfirst : (site w).inFirstRow = true) : w.Unwritten := by
  have hfirst' := hsite w hfirst
  rw [h.batch, h.row, Bool.and_eq_true, beq_iff_eq, beq_iff_eq] at hfirst'
  exact h.unwritten hfirst'.1 hfirst'.2

omit hi in
/-- The updates of the running sums and latches touch neither the loop positions of the row nor the trace. -/
theorem InRow.congr {w w' : Work} (h : InRow b r w) (hb : w'.b = w.b) (hr : w'.r = w.r) (ht : w'.trace = w.trace) :
    InRow b r w' := ⟨⟨hb.trans h.batch, fun h1 h2 u hu => h.unwritten h1 h2 u (ht ▸ hu)⟩, hr.trans h.row⟩

omit hi in
theorem inRow {f : Work → Work} (hb : ∀ w, (f w).b = w.b) (hr : ∀ w, (f w).r = w.r) (ht : ∀ w, (f w).trace = w.trace) :
    TellsUnwritten i (InRow b r) (Machine.updateWork f) (InRow b r) :=
  updateWork fun _ h => h.congr (hb _) (hr _) (ht _)

theorem addDot {x : Int} {site : Work → Site}
    (hsite : ∀ w, (site w).inFirstRow = true → (w.b == 0 && w.r == 0) = true) :
    TellsUnwritten i (InRow b r) (Machine.addDot x site) (InRow b r) :=
  bind work fun _ => bind (acc32 hi (InRow.unwritten_of_site hsite)) fun _ =>
    inRow (fun _ => rfl) (fun _ => rfl) fun _ => rfl

theorem addRowSum {x : Int} {site : Work → Site}
    (hsite : ∀ w, (site w).inFirstRow = true → (w.b == 0 && w.r == 0) = true) :
    TellsUnwritten i (InRow b r) (Machine.addRowSum x site) (InRow b r) :=
  bind work fun _ => bind (acc32 hi (InRow.unwritten_of_site hsite)) fun _ =>
    inRow (fun _ => rfl) (fun _ => rfl) fun _ => rfl

omit hi in
theorem dotBlock : TellsUnwritten i (InRow b r) Machine.dotBlock (InRow b r) :=
  bind config fun _ => inRow (fun _ => rfl) (fun _ => rfl) fun _ => rfl

omit hi in
theorem orNaN (v : Option Word32) : TellsUnwritten i P (Machine.orNaN v) P := by
  cases v with
  | some f => exact pure f
  | none => exact of_ok fun _ h => ⟨_, _, rfl, h⟩

/-- Once a row's result is written, the next row is not the first (R136). -/
theorem accumulate (e : Int) (c : Word32) :
    TellsUnwritten i (InRow b r) (Machine.accumulate e c) (BeforeRow b (r + 1)) :=
  bind (bind (memRead hi InRow.readStable (by decide) _ _ _) fun _ => pure _) fun _ => bind (orNaN _) fun _ =>
    bind (check fun _ _ _ _ hc he => by rw [beforeAnyWrite_checkAccess hi hc] at he; cases he) fun _ =>
      bind (updateWork fun _ h => ⟨h.batch, fun _ hr => absurd hr (Nat.succ_ne_zero r)⟩) fun _ => store _ _

theorem aliasCheck : TellsUnwritten i P Machine.aliasCheck P :=
  of_same (fun s => by unfold Machine.aliasCheck; split <;> rfl) fun s c _ herr hc => by
    unfold Machine.aliasCheck at herr
    split at herr
    · cases herr
      rw [beforeAnyWrite_alias hi] at hc
      cases hc
    · cases herr

theorem denseBlock (d : DenseArgs) (k : Nat) :
    TellsUnwritten i (InRow b r) (Machine.denseBlock d b r k) (InRow b r) :=
  bind (inRow (fun _ => rfl) (fun _ => rfl) fun _ => rfl) fun _ => bind (input hi InRow.readStable _ _ _) fun _ =>
    bind (inRow (fun _ => rfl) (fun _ => rfl) fun _ => rfl) fun _ => bind (input hi InRow.readStable _ _ _) fun _ =>
      bind (inRow (fun _ => rfl) (fun _ => rfl) fun _ => rfl) fun _ => bind dotBlock fun _ => bind work fun _ =>
        addDot hi fun _ h => h

theorem denseColumn (d : DenseArgs) (c : Nat) :
    TellsUnwritten i (InRow b r) (Machine.denseColumn d b r c) (InRow b r) :=
  bind (inRow (fun _ => rfl) (fun _ => rfl) fun _ => rfl) fun _ => bind (input hi InRow.readStable _ _ _) fun _ =>
    bind (input hi InRow.readStable _ _ _) fun _ => bind (addDot hi fun _ h => h) fun _ => pure _

theorem denseRow (d : DenseArgs) (bs : Word32) :
    TellsUnwritten i (BeforeRow b r) (Machine.denseRow d b bs r) (BeforeRow b (r + 1)) :=
  bind (updateWork fun _ h => InRow.enter h) fun _ =>
    bind (bind (inRow (fun _ => rfl) (fun _ => rfl) fun _ => rfl) fun _ =>
      bind (rounds _ _ fun k => denseBlock hi d k) fun _ =>
        rounds _ _ fun c => bind (denseColumn hi d c) fun _ => pure _) fun _ =>
    bind work fun _ => bind (orNaN _) fun _ => accumulate hi _ _

omit hi in
theorem scale3 (adj bs cs : Word32) : TellsUnwritten i P (Machine.scale3 adj bs cs) P :=
  bind config fun c => by
    cases c.asymOrder with
    | leftToRight => exact bind (orNaN _) fun _ => orNaN _
    | scaleFirst => exact bind (orNaN _) fun _ => orNaN _

theorem asymRow (d : DenseArgs) (pcs : Nat) (bs off : Word32) :
    TellsUnwritten i (BeforeRow b r) (Machine.asymRow d pcs b bs off r) (BeforeRow b (r + 1)) :=
  bind (updateWork fun _ h => InRow.enter h) fun _ =>
    bind (bind (inRow (fun _ => rfl) (fun _ => rfl) fun _ => rfl) fun _ =>
      bind (rounds _ _ fun k => bind (denseBlock hi d k) fun _ => bind work fun _ => addRowSum hi fun _ h => h) fun _ =>
        rounds _ _ fun c => bind (denseColumn hi d c) fun _ => addRowSum hi fun _ h => h) fun _ =>
    bind work fun _ =>
      bind (bind (acc32 hi (InRow.unwritten_of_site fun _ h => h)) fun _ =>
        acc32 hi (InRow.unwritten_of_site fun _ h => h)) fun _ =>
      bind (input hi InRow.readStable _ _ _) fun _ => bind (scale3 _ _ _) fun _ => accumulate hi _ _

/-- In the first batch nothing is written before its rows. -/
theorem denseBatch (d : DenseArgs) (b : Nat) :
    TellsUnwritten i (fun w => b = 0 → w.Unwritten) (Machine.denseBatch d b) fun w => b + 1 = 0 → w.Unwritten :=
  bind (Q := BeforeRow b 0) (updateWork fun _ h => ⟨rfl, fun hb _ => h hb⟩) fun _ =>
    bind (input hi BeforeRow.readStable _ _ _) fun bs =>
      (loop (BeforeRow b) fun _ => denseRow hi d bs).weaken (fun _ h => h) fun _ _ hb => absurd hb (Nat.succ_ne_zero b)

theorem asymBatch (d : DenseArgs) (pcs offsets b : Nat) :
    TellsUnwritten i (fun w => b = 0 → w.Unwritten) (Machine.asymBatch d pcs offsets b)
      fun w => b + 1 = 0 → w.Unwritten :=
  bind (Q := BeforeRow b 0) (updateWork fun _ h => ⟨rfl, fun hb _ => h hb⟩) fun _ =>
    bind (input hi BeforeRow.readStable _ _ _) fun bs => bind (input hi BeforeRow.readStable _ _ _) fun off =>
      (loop (BeforeRow b) fun _ => asymRow hi d pcs bs off).weaken (fun _ h => h) fun _ _ hb => absurd hb (Nat.succ_ne_zero b)

omit hi in
theorem blockPrecond (hP : ∀ w, P w → w.Unwritten) (cols : Nat) :
    TellsUnwritten i P (Machine.blockPrecond cols) P :=
  bind config fun c => by
    split
    · exact pure ()
    · split <;> exact of_same (fun _ => rfl) fun _ _ h _ _ => hP _ h

theorem nextLedgerByte : TellsUnwritten i (InRow b r) Machine.nextLedgerByte (InRow b r) :=
  bind work fun _ => bind (input hi InRow.readStable _ _ _) fun _ =>
    bind (inRow (fun _ => rfl) (fun _ => rfl) fun _ => rfl) fun _ => pure _

theorem sparseEntry (hb : i = .smma → b = 0) (a : SparseArgs) (k : Nat) :
    TellsUnwritten i (InRow b r) (Machine.sparseEntry a r k) (InRow b r) :=
  bind (inRow (fun _ => rfl) (fun _ => rfl) fun _ => rfl) fun _ => bind (nextLedgerByte hi) fun bi => by
    dsimp only
    split
    · refine of_same (fun _ => rfl) fun s c h herr hc => ?_
      cases herr
      rw [beforeAnyWrite_ledgerRange hi, Bool.and_eq_true, beq_iff_eq, beq_iff_eq] at hc
      exact h.unwritten (hb hc.1) hc.2
    · exact bind (input hi InRow.readStable _ _ _) fun _ =>
        bind (inRow (fun _ => rfl) (fun _ => rfl) fun _ => rfl) fun _ => bind work fun _ =>
          bind (input hi InRow.readStable _ _ _) fun _ =>
            bind (inRow (fun _ => rfl) (fun _ => rfl) fun _ => rfl) fun _ => bind dotBlock fun _ => bind work fun _ =>
              bind (addDot hi fun _ h => by cases h) fun _ => inRow (fun _ => rfl) (fun _ => rfl) fun _ => rfl

theorem sparseRow (hb : i = .smma → b = 0) (a : SparseArgs) :
    TellsUnwritten i (BeforeRow b r) (Machine.sparseRow a r) (BeforeRow b (r + 1)) :=
  bind (updateWork fun _ h => InRow.enter h) fun _ => bind (nextLedgerByte hi) fun _ =>
    bind (inRow (fun _ => rfl) (fun _ => rfl) fun _ => rfl) fun _ =>
      bind (rounds _ _ fun k => sparseEntry hi hb a k) fun _ => bind work fun _ => bind (orNaN _) fun _ =>
        accumulate hi _ _

theorem sparseBody (hb : i = .smma → b = 0) (a : SparseArgs) :
    TellsUnwritten i (BeforeRow b 0) (Machine.sparseBody a) fun _ => True :=
  bind (Q := BeforeRow b 0) (updateWork fun _ h => ⟨h.batch, h.unwritten⟩) fun _ =>
    (loop (BeforeRow b) fun _ => sparseRow hi hb a).weaken (fun _ h => h) fun _ _ => trivial

theorem sparseBatch (hs : i ≠ .smma) (a : SparseBatchArgs) (b : Nat) :
    TellsUnwritten i (fun w => b = 0 → w.Unwritten) (Machine.sparseBatch a b) fun w => b + 1 = 0 → w.Unwritten :=
  bind (Q := BeforeRow b 0) (updateWork fun _ h => ⟨rfl, fun hb _ => h hb⟩) fun _ =>
    bind (input hi BeforeRow.readStable _ _ _) fun _ =>
      (sparseBody hi (fun h => absurd h hs) _).weaken (fun _ h => h) fun _ _ hb => absurd hb (Nat.succ_ne_zero b)

end TellsUnwritten

/-- A fault that tells that the command had written nothing tells so truly (R107, R108, R135, R141, R143, R176). -/
theorem bodyOf_tellsUnwritten (i : Instr) :
    TellsUnwritten i (TellsUnwritten.BeforeRow 0 0) (bodyOf i) fun _ => True := by
  have hP : ∀ w, TellsUnwritten.BeforeRow 0 0 w → w.Unwritten := fun _ h => h.unwritten rfl rfl
  cases i with
  | dot16 => exact TellsUnwritten.dot16Body.weaken hP fun _ h => h
  | hred => exact TellsUnwritten.hredBody.weaken hP fun _ h => h
  | dmmaS =>
    have hi : IsKernel .dmmaS := ⟨nofun, nofun⟩
    exact .bind (.argReader hP .denseArgs) fun d =>
      .bind ((TellsUnwritten.loop (fun b w => b = 0 → w.Unwritten) fun b => .denseBatch hi d b).weaken
        (fun w h _ => hP w h) fun _ _ => trivial) fun _ => .aliasCheck hi
  | dmmaA =>
    have hi : IsKernel .dmmaA := ⟨nofun, nofun⟩
    exact .bind (.argReader hP .denseArgs) fun d => .bind (.argReader hP (.argAddr 8)) fun pcs =>
      .bind (.argReader hP (.argAddr 9)) fun offsets =>
        .bind ((TellsUnwritten.loop (fun b w => b = 0 → w.Unwritten) fun b => .asymBatch hi d pcs offsets b).weaken
          (fun w h _ => hP w h) fun _ _ => trivial) fun _ => .aliasCheck hi
  | smma =>
    have hi : IsKernel .smma := ⟨nofun, nofun⟩
    exact .bind (.argReader hP .sparseArgs) fun a => .bind (.blockPrecond hP _) fun _ =>
      .bind (.sparseBody hi (fun _ => rfl) a) fun _ => .aliasCheck hi
  | smmaB =>
    have hi : IsKernel .smmaB := ⟨nofun, nofun⟩
    exact .bind (.argReader hP .sparseBatchArgs) fun a => .bind (.blockPrecond hP _) fun _ =>
      .bind ((TellsUnwritten.loop (fun b w => b = 0 → w.Unwritten) fun b => .sparseBatch hi nofun a b).weaken
        (fun w h _ => hP w h) fun _ _ => trivial) fun _ => .aliasCheck hi

/-! ### Readers do not conflict -/

section Readers

variable {i : Instr} {s : State}

/-- What reads write is nothing (R67). -/
theorem landForeign_of_readers : ∀ {fs : List ForeignAccess} {m : Memory}, Readers fs → landForeign m fs = m
  | [], _, _ => rfl
  | f :: fs, m, h => by
    have hf := h f List.mem_cons_self
    unfold landForeign
    cases hop : f.op with
    | read n => exact landForeign_of_readers fun g hg => h g (List.mem_cons_of_mem f hg)
    | write data =>
      simp only [ForeignAccess.isWrite, hop] at hf
      cases hf

theorem racedByOthers_of_readers {trace : List Touch} {fs : List ForeignAccess} (h : Readers fs) :
    racedByOthers trace fs = [] := by
  rw [racedByOthers, List.map_eq_nil_iff, List.filter_eq_nil_iff]
  intro f hf
  simp [h f hf]

/-- A run that wrote no byte which another agent's access touches wrote nothing in an access that conflicts (R67). -/
theorem racedByCommand_eq_nil {trace : List Touch} {fs : List ForeignAccess}
    (h : ∀ f ∈ fs, ∀ x, f.touches x 1 = true → ¬ inTrace trace .written x = true) : racedByCommand trace fs = [] := by
  rw [racedByCommand, List.map_eq_nil_iff, List.filter_eq_nil_iff]
  simp only [Bool.and_eq_true, decide_eq_true_eq, List.any_eq_true, not_and, not_exists]
  intro u hu htag f hf hconf
  simp only [Touch.conflicts, Bool.and_eq_true] at hconf
  obtain ⟨x, hx, hu'⟩ := ForeignAccess.touches_iff.1 hconf.1
  exact h f hf x (ForeignAccess.touches_byte.2 hx) (inTrace_iff.2 ⟨u, hu, htag, hu'⟩)

/-- The end of a command with readers at work, where nothing conflicted: that of the command without, with their replies. -/
theorem finish_readers {opc : BitVec 8} {r : EStateM.Result Cause State Unit} {fs : List ForeignAccess}
    (hfs : Readers fs) (halone : (endState r).Alone)
    (hraced : ((endState r).withForeign fs).racedSoFar = []) :
    finish opc (mapEnd (State.withForeign fs) r) = { finish opc r with
      foreignReplies := (endState r).foreignReplies ++ repliesInOrder (finish opc r).mem fs } := by
  have hsettle : ((endState r).withForeign fs).settleForeign = { endState r with
      foreignReplies := (endState r).foreignReplies ++ repliesInOrder (endState r).mem fs } := by
    rw [State.settleForeign_of_unraced]
    · have hmem : landForeign ((endState r).withForeign fs).mem fs = (endState r).mem := landForeign_of_readers hfs
      generalize hv : endState r = v at hmem halone
      have hforeign := halone.foreign
      cases v
      dsimp only [State.withForeign] at hmem hforeign ⊢
      rw [hmem, hforeign]
    · rw [State.racedAtEnd, hraced]
      exact racedByOthers_of_readers hfs
  cases r with
  | ok a u =>
    have hu : u.settleForeign = u := State.settleForeign_of_nil halone.foreign
    simp only [endState_ok] at hsettle
    simp only [mapEnd, finish, hsettle, hu]
    rfl
  | error c u =>
    have hu : u.settleForeign = u := State.settleForeign_of_nil halone.foreign
    simp only [endState_error] at hsettle
    simp only [mapEnd, finish, hsettle, hu]
    rfl

/-- With readers at work, where the run wrote nothing in an access that conflicts, a command ends as it does with no other
agent at work (R57, R67). -/
theorem exec_readers {t : State} (hne : s.foreign ≠ []) (hreaders : Readers s.foreign) (h : exec i s = .next t)
    (hraced : (endState (runBody i.opc (bodyOf i) s)).racedSoFar = []) :
    ∃ u, exec i { s with foreign := [], draws := s.draws + 1 } = .next u ∧
      t = { u with foreignReplies := s.foreignReplies ++ repliesInOrder u.mem s.foreign } := by
  obtain ⟨hacc, rfl⟩ := exec_next h
  have hacc' : State.accepts { s with foreign := [], draws := s.draws + 1 } := hacc
  refine ⟨_, (exec_eq_runCommand i _).trans (runCommand_of_accepts hacc'), ?_⟩
  generalize hstart : State.startCommand { s with foreign := [], draws := s.draws + 1 } i.opc [] = start
  have halone : start.Alone := by subst hstart; exact ⟨rfl, rfl⟩
  obtain ⟨hend, hsame⟩ := bodyOf_unseeing i start halone
  have hrun : runBody i.opc (bodyOf i) s = mapEnd (State.withForeign s.foreign) (bodyOf i start) := by
    rw [runBody_of_unraced hraced, if_neg hne, ← hsame s.foreign hreaders, ← hstart]
    rfl
  have hreplies : (endState (bodyOf i start)).foreignReplies = s.foreignReplies := by
    rw [(bodyOf_undisturbed i start).foreignReplies, ← hstart]
    rfl
  have hendState : endState (mapEnd (State.withForeign s.foreign) (bodyOf i start)) =
      (endState (bodyOf i start)).withForeign s.foreign := by
    cases bodyOf i start <;> rfl
  rw [hrun, hendState] at hraced
  rw [hrun, runBody_of_nil rfl, hstart, finish_readers hreaders hend hraced, hreplies]

/-- A record at the end of a command that found none is of the cause that the command raised (R201). -/
theorem eq_error_of_finish_fault {opc : BitVec 8} {r : EStateM.Result Cause State Unit} {c : Cause}
    (h : (endState r).inst.fault = none) (hfault : (finish opc r).inst.fault = some ⟨opc, c⟩) : ∃ v, r = .error c v := by
  cases r with
  | ok a v =>
    rw [finish_fault opc (.ok a v) h] at hfault
    cases hfault
  | error c' v =>
    rw [finish_fault opc (.error c' v) h] at hfault
    cases hfault
    exact ⟨v, rfl⟩

/-- A run that stores to no byte that another agent's access touches, or ends with a fault raised before it has written
anything, wrote nothing in an access that conflicts (R67). -/
theorem racedSoFar_eq_nil {t : State} (h : exec i s = .next t)
    (hor : (∀ f ∈ s.foreign, ∀ x, f.touches x 1 = true → ¬ storedByte i s x) ∨
      ∃ c, t.inst.fault = some ⟨i.opc, c⟩ ∧ c.beforeAnyWrite i = true) :
    (endState (runBody i.opc (bodyOf i) s)).racedSoFar = [] := by
  obtain ⟨hacc, rfl⟩ := exec_next h
  obtain ⟨n, foreseen, -, hrun, -⟩ := runBody_cases i.opc (bodyOf i) s
  rw [hrun] at hor ⊢
  generalize hstart : { s with draws := n }.startCommand i.opc foreseen = start at hor ⊢
  have hundisturbed := bodyOf_undisturbed i start
  have hforeign : (endState (bodyOf i start)).foreign = s.foreign := by
    rw [hundisturbed.foreign, ← hstart]
    rfl
  have hnofault : (endState (bodyOf i start)).inst.fault = none := by
    rw [hundisturbed.fault, ← hstart]
    exact hacc.1
  rw [State.racedSoFar, hforeign]
  refine racedByCommand_eq_nil fun f hf x hx hw => ?_
  rcases hor with hout | ⟨c, hfault, hearly⟩
  · refine hout f hf x hx ((storedByte_congr i (t := start) (s := s) ?_ ?_ x).1
      ((bodyOf_storesOnly i start).trace ?_ x hw)) <;> subst hstart
    · rfl
    · rfl
    · nofun
  · obtain ⟨u, hu, htag, -⟩ := inTrace_iff.1 hw
    obtain ⟨v, hr⟩ := eq_error_of_finish_fault hnofault hfault
    rw [hr] at hu
    refine (bodyOf_tellsUnwritten i start ?_).2 c v hr hearly u hu htag
    subst hstart
    exact ⟨rfl, fun _ _ => nofun⟩

end Readers

/-- Settles O25: a read takes draws where it races, and a run that nothing conflicts with is the one with no other agent at
work. -/
theorem racingReadsAreDraws : Obligations.RacingReadsAreDraws := by
  refine ⟨fun s a n => ?_, fun i s t hne hreaders h hor => exec_readers hne hreaders h (racedSoFar_eq_nil h hor)⟩
  obtain ⟨bytes, draws, k, hread, rfl, -, hracing⟩ := readBytes_racing n a s
  exact ⟨bytes, _, k, hread, rfl, rfl, hracing.fresh, fun j hj => ⟨hracing.draw j hj, hracing.same j hj⟩⟩

end Sys2Proof.Machine
end

section
/-! PROOFS. The footprint of a kernel (20_memory.md R63, R64): which bytes a run that reaches its end has read as input and
written, and so when it ends with `Alias`, and of which byte (R211). Here: the lowest aliased byte, and the dense kernels, whose
accesses do not depend on what they read. -/

namespace Sys2Proof.Machine

/-! ### The lowest aliased byte -/

theorem mem_aliases {trace : List Touch} {x : Nat} :
    x ∈ (writtenBytes trace).filter (fun x => inTrace trace .input x) ↔
      inTrace trace .written x = true ∧ inTrace trace .input x = true := by
  rw [List.mem_filter, mem_writtenBytes]

/-- The aliased byte is the lowest byte that is both written and read as input (R64). -/
theorem lowestAlias_eq_some_iff {trace : List Touch} {x : Nat} : lowestAlias trace = some x ↔
    inTrace trace .written x = true ∧ inTrace trace .input x = true ∧
      ∀ y, inTrace trace .written y = true → inTrace trace .input y = true → x ≤ y := by
  simp only [lowestAlias, List.min?_eq_some_iff, mem_aliases, and_assoc, and_imp]

theorem lowestAlias_eq_none_iff {trace : List Touch} : lowestAlias trace = none ↔
    ∀ x, ¬ (inTrace trace .written x = true ∧ inTrace trace .input x = true) := by
  simp only [lowestAlias, List.min?_eq_none_iff, List.eq_nil_iff_forall_not_mem, mem_aliases]

/-- The working state's trace has the byte under the tag (R63). -/
def Work.Touched (w : Work) (tag : Tag) (x : Nat) : Prop := inTrace w.trace tag x = true

theorem touched_addTouch {w : Work} {tag tag' : Tag} {a n x : Nat} :
    (addTouch w tag a n).Touched tag' x ↔ w.Touched tag' x ∨ (tag' = tag ∧ a ≤ x ∧ x < a + n) := by
  rw [or_comm, eq_comm]
  exact inTrace_cons

theorem not_touched_fresh {tag : Tag} {x : Nat} : ¬ Work.fresh.Touched tag x := nofun

/-- No byte is both written and read as input. -/
def Work.Clean (w : Work) : Prop := ∀ x, ¬ (w.Touched .written x ∧ w.Touched .input x)

/-- The check at a kernel's end passes just where no byte is both (R64). -/
theorem aliasCheck_eq_ok {s t : State} (h : aliasCheck s = .ok () t) : t = s ∧ s.workNow.Clean := by
  unfold aliasCheck at h
  cases hx : lowestAlias s.workNow.trace with
  | some x =>
    rw [hx] at h
    cases h
  | none =>
    rw [hx] at h
    cases h
    exact ⟨rfl, lowestAlias_eq_none_iff.1 hx⟩

/-- The lowest byte that is both ends the command (R64, R211). -/
theorem aliasCheck_eq_error {s : State} {x : Nat} (hw : s.workNow.Touched .written x) (hi : s.workNow.Touched .input x)
    (hle : ∀ y, s.workNow.Touched .written y → s.workNow.Touched .input y → x ≤ y) :
    aliasCheck s = .error (.aliased x) s := by
  unfold aliasCheck
  rw [lowestAlias_eq_some_iff.2 ⟨hw, hi, hle⟩]

/-- A command whose pseudocode raises, where no other agent is at work, ends with the cause recorded (R201). -/
theorem exec_records {i : Instr} {s : State} {c : Cause} {p : Progress} {w : Work} (ha : s.accepts) (hf : s.foreign = [])
    (h : bodyOf i ((s.busyWith i.opc).at (s.mem, s.draws) Work.fresh) = .error c ((s.busyWith i.opc).at p w)) :
    ∃ t, exec i s = .next t ∧ t.inst.fault = some ⟨i.opc, c⟩ := by
  have hnone : (s.afterCommand p.1 p.2).inst.fault = none := ha.1
  exact ⟨_, exec_of_error ha hf h, by rw [State.recordFault_fault, hnone, Option.getD_none]⟩

/-- A state in which a run of the command starts: nothing is touched, and with no other agent at work it is the one start. -/
structure StartsFrom (i : Instr) (s start : State) : Prop where
  cfg : start.cfg = s.cfg
  args : start.inst.args = s.inst.args
  fresh : ∀ tag x, ¬ start.workNow.Touched tag x
  alone : s.foreign = [] → start = (s.busyWith i.opc).at (s.mem, s.draws) Work.fresh

theorem startCommand_not_touched {s : State} {o : BitVec 8} {foreseen : List (Nat × Nat)} (tag : Tag) (x : Nat) :
    ¬ (s.startCommand o foreseen).workNow.Touched tag x := nofun

/-- The pseudocode of a command that completed ran to its end (R38). -/
theorem exec_completed {i : Instr} {s t : State} (h : exec i s = .next t) (hfault : t.inst.fault = none) :
    ∃ start u, StartsFrom i s start ∧ bodyOf i start = .ok () u := by
  obtain ⟨hacc, rfl⟩ := exec_next h
  obtain ⟨start, hstart, hnone, hrun⟩ : ∃ start, StartsFrom i s start ∧ start.inst.fault = none ∧
      runBody i.opc (bodyOf i) s = bodyOf i start := by
    by_cases hf : s.foreign = []
    · exact ⟨s.startCommand i.opc [], ⟨rfl, rfl, startCommand_not_touched, fun _ => rfl⟩, hacc.1, runBody_of_nil hf⟩
    · obtain ⟨n, foreseen, -, hrun, -⟩ := runBody_cases i.opc (bodyOf i) s
      exact ⟨{ s with draws := n }.startCommand i.opc foreseen,
        ⟨rfl, rfl, startCommand_not_touched, fun h => absurd h hf⟩, hacc.1, hrun⟩
  have hend : (endState (bodyOf i start)).inst.fault = none := (bodyOf_undisturbed i start).fault.trans hnone
  rw [hrun] at hfault
  cases hr : bodyOf i start with
  | ok a u => exact ⟨start, u, hstart, hr⟩
  | error c u =>
    rw [hr] at hfault hend
    rw [finish_fault i.opc (.error c u) hend] at hfault
    cases hfault

/-! ### What a piece of a command touches -/

/-- From `w` to `w'` the trace has grown by just the bytes of `T` (R63). -/
abbrev Work.Grows (w w' : Work) (T : Tag → Nat → Prop) : Prop := ∀ tag x, w'.Touched tag x ↔ w.Touched tag x ∨ T tag x

/-- If the piece completes, the trace has grown by just the bytes of `T`. -/
def Touches {α : Type} (m : Cmd α) (T : Tag → Nat → Prop) : Prop := ∀ s a t, m s = .ok a t → s.workNow.Grows t.workNow T

/-- The piece makes no access. -/
abbrev Silent {α : Type} (m : Cmd α) : Prop := Touches m fun _ _ => False

/-- The bytes of an input read (R63). -/
def InputBytes (a n : Nat) (tag : Tag) (x : Nat) : Prop := tag = .input ∧ a ≤ x ∧ x < a + n

namespace Touches

variable {α β : Type} {T U : Tag → Nat → Prop}

theorem congr {m : Cmd α} (hm : Touches m T) (h : ∀ tag x, T tag x ↔ U tag x) : Touches m U := fun s a t ht tag x => by
  rw [hm s a t ht, h]

theorem bind {m : Cmd α} {f : α → Cmd β} (hm : Touches m T) (hf : ∀ a, Touches (f a) U) :
    Touches (m >>= f) fun tag x => T tag x ∨ U tag x := fun s b t ht tag x => by
  obtain ⟨a, u, hu, ht⟩ := Cmd.bind_eq_ok ht
  rw [hf a u b t ht, hm s a u hu, or_assoc]

/-- First a piece that makes no access. -/
theorem after {m : Cmd α} {f : α → Cmd β} (hm : Silent m) (hf : ∀ a, Touches (f a) T) : Touches (m >>= f) T :=
  (bind hm hf).congr fun _ _ => by rw [false_or]

/-- Last a piece that makes no access. -/
theorem before {m : Cmd α} {f : α → Cmd β} (hm : Touches m T) (hf : ∀ a, Silent (f a)) : Touches (m >>= f) T :=
  (bind hm hf).congr fun _ _ => by rw [or_false]

theorem silent {m : Cmd α} (hm : ∀ s, (endState (m s)).workNow.trace = s.workNow.trace) : Silent m :=
  fun s a t ht tag x => by
    have h := hm s
    rw [ht, endState_ok] at h
    rw [Work.Touched, Work.Touched, h, or_false]

theorem pure (a : α) : Silent (Pure.pure a : Cmd α) := silent fun _ => rfl

theorem config : Silent Machine.config := silent fun _ => rfl

theorem work : Silent Machine.work := silent fun _ => rfl

theorem updateWork {f : Work → Work} (hf : ∀ w, (f w).trace = w.trace) : Silent (Machine.updateWork f) :=
  silent fun _ => hf _

theorem loop {body : Nat → Cmd Unit} {T : Nat → Tag → Nat → Prop} (hbody : ∀ k, Touches (body k) (T k)) :
    ∀ n lo, Touches (Machine.loop lo n body) fun tag x => ∃ k, lo ≤ k ∧ k < lo + n ∧ T k tag x
  | 0, _ => (pure ()).congr fun _ _ => ⟨nofun, fun ⟨_, h1, h2, _⟩ => by omega⟩
  | n + 1, lo => (bind (hbody lo) fun _ => loop hbody n (lo + 1)).congr fun tag x => by
    constructor
    · rintro (h | ⟨k, h1, h2, h⟩)
      · exact ⟨lo, by omega, by omega, h⟩
      · exact ⟨k, by omega, by omega, h⟩
    · rintro ⟨k, h1, h2, h⟩
      by_cases hk : k = lo
      · exact .inl (hk ▸ h)
      · exact .inr ⟨k, by omega, by omega, h⟩

theorem check (k : Kind) (al : Bool) (a : Int) (n : Nat) : Silent (Machine.check k al a n) := silent fun s => by
  unfold Machine.check
  split <;> rfl

theorem touch (tag : Tag) (a n : Nat) : Touches (Machine.touch tag a n) fun tag' x => tag' = tag ∧ a ≤ x ∧ x < a + n :=
  fun s _ t ht tag' x => by
    cases ht
    exact touched_addTouch

theorem readBytes (n a : Nat) : Silent (Machine.readBytes a n) := silent fun s => by
  obtain ⟨bytes, draws, -, hread, -⟩ := readBytes_racing n a s
  rw [hread]
  rfl

theorem memRead (tag : Tag) (al : Bool) (a : Int) (n : Nat) :
    Touches (Machine.memRead tag al a n) fun tag' x => tag' = tag ∧ a.toNat ≤ x ∧ x < a.toNat + n :=
  after (check _ _ _ _) fun _ => before (touch _ _ _) fun _ => readBytes _ _

theorem input {f : List Byte → α} (al : Bool) (a n : Nat) :
    Touches (Machine.memRead .input al a n >>= fun v => Pure.pure (f v)) (InputBytes a n) :=
  before (memRead .input al a n) fun _ => pure _

theorem memWrite (al : Bool) (a : Int) (bytes : List Byte) : Touches (Machine.memWrite al a bytes)
    fun tag x => tag = .written ∧ a.toNat ≤ x ∧ x < a.toNat + bytes.length :=
  after (check _ _ _ _) fun _ => before (touch _ _ _) fun _ => silent fun _ => rfl

theorem orNaN (v : Option Word32) : Silent (Machine.orNaN v) := silent fun s => by cases v <;> rfl

theorem acc32 (x : Int) (site : Work → Site) : Silent (Machine.acc32 x site) := silent fun s => by
  unfold Machine.acc32
  split
  · split <;> rfl
  · rfl

theorem addDot (x : Int) (site : Work → Site) : Silent (Machine.addDot x site) :=
  after work fun _ => after (acc32 _ _) fun _ => updateWork fun _ => rfl

theorem addRowSum (x : Int) (site : Work → Site) : Silent (Machine.addRowSum x site) :=
  after work fun _ => after (acc32 _ _) fun _ => updateWork fun _ => rfl

theorem scale3 (adj bs cs : Word32) : Silent (Machine.scale3 adj bs cs) := after config fun c => by
  cases c.asymOrder with
  | leftToRight => exact after (orNaN _) fun _ => orNaN _
  | scaleFirst => exact after (orNaN _) fun _ => orNaN _

theorem ldResult32 (e : Int) : Touches (Machine.ldResult32 e) fun tag x => tag = .result ∧ inElement x e :=
  before (memRead .result true e 4) fun _ => pure _

theorem st32 (e : Int) (v : Word32) : Touches (Machine.st32 e v) fun tag x => tag = .written ∧ inElement x e :=
  memWrite true e (leBytes32 v)

/-- The result update reads and writes the element, and reads no input (R63, R136). -/
theorem accumulate (e : Int) (c : Word32) :
    Touches (Machine.accumulate e c) fun tag x => tag ≠ .input ∧ inElement x e :=
  congr (T := fun tag x => (tag = .result ∧ inElement x e) ∨ tag = .written ∧ inElement x e)
    (bind (ldResult32 e) fun _ => after (orNaN _) fun _ => st32 e _) fun tag x => by cases tag <;> simp

/-! ### The dense kernels -/

variable {d : DenseArgs} {b r : Nat}

/-- The bytes of a row scan: the matrix row and the vector (R63, R135). -/
def RowBytes (d : DenseArgs) (b r x : Nat) : Prop := ∃ j < d.cols, x = d.vectorAt b j ∨ x = d.matrixAt r j

theorem denseBlock (d : DenseArgs) (b r k : Nat) : Touches (Machine.denseBlock d b r k)
    fun tag x => InputBytes (d.vectorAt b (16 * k)) 16 tag x ∨ InputBytes (d.matrixAt r (16 * k)) 16 tag x :=
  after (updateWork fun _ => rfl) fun _ => bind (input _ _ _) fun _ => after (updateWork fun _ => rfl) fun _ =>
    before (input _ _ _) fun _ => after (updateWork fun _ => rfl) fun _ =>
      after (after config fun _ => updateWork fun _ => rfl) fun _ => after work fun _ => addDot _ _

theorem denseColumn (d : DenseArgs) (b r c : Nat) : Touches (Machine.denseColumn d b r c)
    fun tag x => InputBytes (d.matrixAt r c) 1 tag x ∨ InputBytes (d.vectorAt b c) 1 tag x :=
  after (updateWork fun _ => rfl) fun _ => bind (input _ _ _) fun _ => before (input _ _ _) fun _ =>
    after (addDot _ _) fun _ => pure _

/-- Whole blocks and the columns left are all columns of a row (R134). -/
theorem blocks_and_columns (d : DenseArgs) (base x : Nat) :
    ((∃ k < d.nblk, base + 16 * k ≤ x ∧ x < base + 16 * k + 16) ∨
      ∃ c, 16 * d.nblk ≤ c ∧ c < d.cols ∧ x = base + c) ↔ ∃ j < d.cols, x = base + j := by
  have hn := d.nblk_le
  constructor
  · rintro (⟨k, hk, h1, h2⟩ | ⟨c, -, hc, rfl⟩)
    · exact ⟨x - base, by omega, by omega⟩
    · exact ⟨c, hc, rfl⟩
  · rintro ⟨j, hj, rfl⟩
    by_cases h : j < 16 * d.nblk
    · exact .inl ⟨j / 16, by omega, by omega, by omega⟩
    · exact .inr ⟨j, by omega, hj, rfl⟩

/-- The accesses of a row scan, block by block and column by column (R135). -/
def ScanBytes (d : DenseArgs) (b r : Nat) (tag : Tag) (x : Nat) : Prop :=
  (∃ k, 0 ≤ k ∧ k < 0 + d.nblk ∧
    (InputBytes (d.vectorAt b (16 * k)) 16 tag x ∨ InputBytes (d.matrixAt r (16 * k)) 16 tag x)) ∨
  ∃ c, 16 * d.nblk ≤ c ∧ c < 16 * d.nblk + (d.cols - 16 * d.nblk) ∧
    (InputBytes (d.matrixAt r c) 1 tag x ∨ InputBytes (d.vectorAt b c) 1 tag x)

/-- They are the row's bytes. -/
theorem scanBytes_iff (d : DenseArgs) (b r : Nat) (tag : Tag) (x : Nat) :
    ScanBytes d b r tag x ↔ tag = .input ∧ RowBytes d b r x := by
  have hn := d.nblk_le
  have hv := blocks_and_columns d (d.vectors + b * d.cols) x
  have hm := blocks_and_columns d (d.matrix + r * d.cols) x
  unfold ScanBytes InputBytes RowBytes DenseArgs.vectorAt DenseArgs.matrixAt
  constructor
  · rintro (⟨k, -, hk, ⟨rfl, h⟩ | ⟨rfl, h⟩⟩ | ⟨c, h1, h2, ⟨rfl, h⟩ | ⟨rfl, h⟩⟩)
    · obtain ⟨j, hj, hx⟩ := hv.1 (.inl ⟨k, by omega, h⟩)
      exact ⟨rfl, j, hj, .inl hx⟩
    · obtain ⟨j, hj, hx⟩ := hm.1 (.inl ⟨k, by omega, h⟩)
      exact ⟨rfl, j, hj, .inr hx⟩
    · exact ⟨rfl, c, by omega, .inr (by omega)⟩
    · exact ⟨rfl, c, by omega, .inl (by omega)⟩
  · rintro ⟨rfl, j, hj, hx | hx⟩
    · rcases hv.2 ⟨j, hj, hx⟩ with ⟨k, hk, h⟩ | ⟨c, h1, h2, h⟩
      · exact .inl ⟨k, by omega, by omega, .inl ⟨rfl, h⟩⟩
      · exact .inr ⟨c, h1, by omega, .inr ⟨rfl, by omega⟩⟩
    · rcases hm.2 ⟨j, hj, hx⟩ with ⟨k, hk, h⟩ | ⟨c, h1, h2, h⟩
      · exact .inl ⟨k, by omega, by omega, .inr ⟨rfl, h⟩⟩
      · exact .inr ⟨c, h1, by omega, .inl ⟨rfl, by omega⟩⟩

theorem rowDot (d : DenseArgs) (b r : Nat) :
    Touches (Machine.rowDot d b r) fun tag x => tag = .input ∧ RowBytes d b r x :=
  congr (T := ScanBytes d b r) (after (updateWork fun _ => rfl) fun _ =>
    bind (loop (fun k => denseBlock d b r k) _ _) fun _ =>
      loop (fun c => before (denseColumn d b r c) fun _ => pure _) _ _) (scanBytes_iff d b r)

theorem rowDotSum (d : DenseArgs) (b r : Nat) :
    Touches (Machine.rowDotSum d b r) fun tag x => tag = .input ∧ RowBytes d b r x :=
  congr (T := ScanBytes d b r) (after (updateWork fun _ => rfl) fun _ =>
    bind (loop (fun k => before (denseBlock d b r k) fun _ => after work fun _ => addRowSum _ _) _ _) fun _ =>
      loop (fun c => before (denseColumn d b r c) fun _ => addRowSum _ _) _ _) (scanBytes_iff d b r)

theorem denseRow (d : DenseArgs) (b : Nat) (bs : Word32) (r : Nat) : Touches (Machine.denseRow d b bs r)
    fun tag x => (tag = .input ∧ RowBytes d b r x) ∨ (tag ≠ .input ∧ inElement x (d.resAddr b r)) :=
  after (updateWork fun _ => rfl) fun _ => bind (rowDot d b r) fun _ => after work fun _ => after (orNaN _) fun _ =>
    accumulate _ _

/-- The bytes that DMMA.S touches in batch `b` (R63, R137). -/
def DenseBatchBytes (d : DenseArgs) (b : Nat) (tag : Tag) (x : Nat) : Prop :=
  InputBytes (d.scales + 4 * b) 4 tag x ∨ ∃ r, 0 ≤ r ∧ r < 0 + d.rows ∧
    ((tag = .input ∧ RowBytes d b r x) ∨ (tag ≠ .input ∧ inElement x (d.resAddr b r)))

theorem denseBatch (d : DenseArgs) (b : Nat) : Touches (Machine.denseBatch d b) (DenseBatchBytes d b) :=
  after (updateWork fun _ => rfl) fun _ => bind (input _ _ _) fun _ => loop (fun r => denseRow d b _ r) _ _

theorem asymRow (d : DenseArgs) (pcs b : Nat) (bs off : Word32) (r : Nat) : Touches (Machine.asymRow d pcs b bs off r)
    fun tag x => (tag = .input ∧ RowBytes d b r x) ∨ InputBytes (pcs + 4 * r) 4 tag x ∨
      (tag ≠ .input ∧ inElement x (d.resAddr b r)) :=
  after (updateWork fun _ => rfl) fun _ => bind (rowDotSum d b r) fun _ => after work fun _ =>
    after (after (acc32 _ _) fun _ => acc32 _ _) fun _ => bind (input _ _ _) fun _ => after (scale3 _ _ _) fun _ =>
      accumulate _ _

/-- The bytes that DMMA.A touches in batch `b` (R63, R142). -/
def AsymBatchBytes (d : DenseArgs) (pcs offsets b : Nat) (tag : Tag) (x : Nat) : Prop :=
  InputBytes (d.scales + 4 * b) 4 tag x ∨ InputBytes (offsets + 4 * b) 4 tag x ∨ ∃ r, 0 ≤ r ∧ r < 0 + d.rows ∧
    ((tag = .input ∧ RowBytes d b r x) ∨ InputBytes (pcs + 4 * r) 4 tag x ∨
      (tag ≠ .input ∧ inElement x (d.resAddr b r)))

theorem asymBatch (d : DenseArgs) (pcs offsets b : Nat) :
    Touches (Machine.asymBatch d pcs offsets b) (AsymBatchBytes d pcs offsets b) :=
  after (updateWork fun _ => rfl) fun _ => bind (input _ _ _) fun _ => bind (input _ _ _) fun _ =>
    loop (fun r => asymRow d pcs b _ _ r) _ _

end Touches

/-- The working state of a kernel that has run to its end: it has written just the bytes of `O`, and, if there are any, read
as input just those of `I` (R63). -/
structure Footprint (O I : Nat → Prop) (w : Work) : Prop where
  written : ∀ x, w.Touched .written x ↔ O x
  input : (∃ x, O x) → ∀ x, w.Touched .input x ↔ I x

/-- A kernel that passes the check at its end has written no input byte (R64). -/
theorem Footprint.disjoint {O I : Nat → Prop} {w : Work} (h : Footprint O I w) (hc : w.Clean) {x : Nat} (hx : O x) :
    ¬ I x := fun hi => hc x ⟨(h.written x).2 hx, (h.input ⟨x, hx⟩ x).2 hi⟩

/-- A kernel that has written an input byte ends with the lowest one (R64, R211). -/
theorem Footprint.aliasCheck {O I : Nat → Prop} {s : State} (h : Footprint O I s.workNow) {x : Nat} (hO : O x) (hI : I x)
    (hle : ∀ y, O y → I y → x ≤ y) : aliasCheck s = .error (.aliased x) s :=
  aliasCheck_eq_error ((h.written x).2 hO) ((h.input ⟨x, hO⟩ x).2 hI) fun y hw hi =>
    hle y ((h.written y).1 hw) ((h.input ⟨x, hO⟩ y).1 hi)

section Dense

variable {s t : State} {d : DenseArgs} {pcs offsets : Nat}

/-- A byte of the result elements, as the statements write it. -/
theorem DenseArgs.resultByte_iff {x : Nat} : d.resultByte x ↔ ∃ e, d.element e ∧ inElement x e := by
  constructor
  · rintro ⟨b, hb, r, hr, hx⟩
    exact ⟨_, ⟨b, hb, r, hr, rfl⟩, hx⟩
  · rintro ⟨_, ⟨b, hb, r, hr, rfl⟩, hx⟩
    exact ⟨b, hb, r, hr, hx⟩

/-- The batches of DMMA.S, run to their end on a fresh trace, have the kernel's footprint (R63, R137). -/
theorem denseLoop_footprint (hfresh : ∀ tag x, ¬ s.workNow.Touched tag x)
    (h : loop 0 d.batch (fun b => denseBatch d b) s = .ok () t) : Footprint d.resultByte d.inputByte t.workNow := by
  have hiff := Touches.loop (fun b => Touches.denseBatch d b) _ _ s () t h
  refine ⟨fun x => ?_, fun ⟨y, b₀, hb₀, r₀, hr₀, _⟩ x => ?_⟩
  · rw [hiff, or_iff_right (hfresh _ _)]
    constructor
    · rintro ⟨b, -, hb, ⟨⟨⟩, _⟩ | ⟨r, -, hr, ⟨⟨⟩, _⟩ | ⟨-, hx⟩⟩⟩
      exact ⟨b, by omega, r, by omega, hx⟩
    · rintro ⟨b, hb, r, hr, hx⟩
      exact ⟨b, by omega, by omega, .inr ⟨r, by omega, by omega, .inr ⟨nofun, hx⟩⟩⟩
  · rw [hiff, or_iff_right (hfresh _ _)]
    constructor
    · rintro ⟨b, -, hb, ⟨-, hx⟩ | ⟨r, -, hr, ⟨-, j, hj, hx | hx⟩ | ⟨h, -⟩⟩⟩
      · exact .inl ⟨b, by omega, hx⟩
      · exact .inr (.inr ⟨b, by omega, j, hj, hx⟩)
      · exact .inr (.inl ⟨r, by omega, j, hj, hx⟩)
      · exact absurd rfl h
    · rintro (⟨b, hb, hx⟩ | ⟨r, hr, j, hj, hx⟩ | ⟨b, hb, j, hj, hx⟩)
      · exact ⟨b, by omega, by omega, .inl ⟨rfl, hx⟩⟩
      · exact ⟨b₀, by omega, by omega, .inr ⟨r, by omega, by omega, .inl ⟨rfl, j, hj, .inr hx⟩⟩⟩
      · exact ⟨b, by omega, by omega, .inr ⟨r₀, by omega, by omega, .inl ⟨rfl, j, hj, .inl hx⟩⟩⟩

/-- So have the batches of DMMA.A (R63, R142). -/
theorem asymLoop_footprint (hfresh : ∀ tag x, ¬ s.workNow.Touched tag x)
    (h : loop 0 d.batch (fun b => asymBatch d pcs offsets b) s = .ok () t) :
    Footprint d.resultByte (asymInputByte d pcs offsets) t.workNow := by
  have hiff := Touches.loop (fun b => Touches.asymBatch d pcs offsets b) _ _ s () t h
  refine ⟨fun x => ?_, fun ⟨y, b₀, hb₀, r₀, hr₀, _⟩ x => ?_⟩
  · rw [hiff, or_iff_right (hfresh _ _)]
    constructor
    · rintro ⟨b, -, hb, ⟨⟨⟩, _⟩ | ⟨⟨⟩, _⟩ | ⟨r, -, hr, ⟨⟨⟩, _⟩ | ⟨⟨⟩, _⟩ | ⟨-, hx⟩⟩⟩
      exact ⟨b, by omega, r, by omega, hx⟩
    · rintro ⟨b, hb, r, hr, hx⟩
      exact ⟨b, by omega, by omega, .inr (.inr ⟨r, by omega, by omega, .inr (.inr ⟨nofun, hx⟩)⟩)⟩
  · rw [hiff, or_iff_right (hfresh _ _)]
    constructor
    · rintro ⟨b, -, hb, ⟨-, hx⟩ | ⟨-, hx⟩ | ⟨r, -, hr, ⟨-, j, hj, hx | hx⟩ | ⟨-, hx⟩ | ⟨h, -⟩⟩⟩
      · exact .inl (.inl ⟨b, by omega, hx⟩)
      · exact .inr (.inl ⟨b, by omega, hx⟩)
      · exact .inl (.inr (.inr ⟨b, by omega, j, hj, hx⟩))
      · exact .inl (.inr (.inl ⟨r, by omega, j, hj, hx⟩))
      · exact .inr (.inr ⟨r, by omega, hx⟩)
      · exact absurd rfl h
    · rintro ((⟨b, hb, hx⟩ | ⟨r, hr, j, hj, hx⟩ | ⟨b, hb, j, hj, hx⟩) | ⟨b, hb, hx⟩ | ⟨r, hr, hx⟩)
      · exact ⟨b, by omega, by omega, .inl ⟨rfl, hx⟩⟩
      · exact ⟨b₀, by omega, by omega, .inr (.inr ⟨r, by omega, by omega, .inl ⟨rfl, j, hj, .inr hx⟩⟩)⟩
      · exact ⟨b, by omega, by omega, .inr (.inr ⟨r₀, by omega, by omega, .inl ⟨rfl, j, hj, .inl hx⟩⟩)⟩
      · exact ⟨b, by omega, by omega, .inr (.inl ⟨rfl, hx⟩)⟩
      · exact ⟨b₀, by omega, by omega, .inr (.inr ⟨r, by omega, by omega, .inr (.inl ⟨rfl, hx⟩)⟩)⟩

/-! ### A dense kernel that completes -/

/-- DMMA.S that completes has written no byte that it read as input (R64). -/
theorem dmmaS_disjoint (h : exec .dmmaS s = .next t) (hfault : t.inst.fault = none) (hd : operandsOf denseArgs s = some d)
    {x : Nat} (hx : d.resultByte x) : ¬ d.inputByte x := by
  obtain ⟨start, u, hstart, hbody⟩ := exec_completed h hfault
  change dmmaSBody start = _ at hbody
  unfold dmmaSBody at hbody
  rw [Cmd.bind_ok (ArgReader.denseArgs.ok_of_same hd hstart.cfg hstart.args)] at hbody
  obtain ⟨_, v, hloop, hcheck⟩ := Cmd.bind_eq_ok hbody
  obtain ⟨-, hclean⟩ := aliasCheck_eq_ok hcheck
  exact (denseLoop_footprint hstart.fresh hloop).disjoint hclean hx

/-- So has DMMA.A (R64). -/
theorem dmmaA_disjoint (h : exec .dmmaA s = .next t) (hfault : t.inst.fault = none) (hd : operandsOf denseArgs s = some d)
    (hpcs : operandsOf (argAddr 8) s = some pcs) (hoffs : operandsOf (argAddr 9) s = some offsets)
    {x : Nat} (hx : d.resultByte x) : ¬ asymInputByte d pcs offsets x := by
  obtain ⟨start, u, hstart, hbody⟩ := exec_completed h hfault
  change dmmaABody start = _ at hbody
  unfold dmmaABody at hbody
  rw [Cmd.bind_ok (ArgReader.denseArgs.ok_of_same hd hstart.cfg hstart.args),
    Cmd.bind_ok ((ArgReader.argAddr 8).ok_of_same hpcs hstart.cfg hstart.args),
    Cmd.bind_ok ((ArgReader.argAddr 9).ok_of_same hoffs hstart.cfg hstart.args)] at hbody
  obtain ⟨_, v, hloop, hcheck⟩ := Cmd.bind_eq_ok hbody
  obtain ⟨-, hclean⟩ := aliasCheck_eq_ok hcheck
  exact (asymLoop_footprint hstart.fresh hloop).disjoint hclean hx

/-! ### A dense kernel whose results overlap its inputs -/

/-- A memory that differs from `m` in result elements only goes on doing so under a contribution to one (R136). -/
theorem sameOutside.addTo {E : Int → Prop} {m m' : Memory} (h : sameOutside E m m') {e : Int} (he : E e) {o : BitVec 8}
    {c : Word32 × Nat} : sameOutside E m (addTo o e.toNat c m').1 := fun x hx => by
  have hout := hx e he
  rw [addTo_read_other (by omega), h x hx]

theorem sameOutside.read32 {E : Int → Prop} {m m' : Memory} (h : sameOutside E m m') {a : Nat}
    (ha : ∀ y, inElement y (a : Int) → ∀ e, E e → ¬ inElement y e) : m'.read32 a = m.read32 a :=
  Memory.read32_congr fun x h1 h2 => h x fun e he => ha x ⟨h1, h2⟩ e he

/-- What the caller has made available for a row scan, without regard to the trace. -/
theorem DenseReady.scanReadable {b r : Nat} (h : DenseReady s.cfg d) (hb : b < d.batch) (hr : r < d.rows) :
    RowInputs s d (fun _ => True) b r := h.rowInputs (fun _ _ => trivial) hb hr

theorem TraceIn.trivial (trace : List Touch) : TraceIn (fun _ => True) (fun _ => True) trace :=
  fun _ _ _ _ _ => ⟨fun _ => True.intro, fun _ => True.intro⟩

/-- The state is one of the running command `s`, and its memory differs from `m` in elements with `E` only. -/
def Running (s : State) (E : Int → Prop) (m : Memory) (t : State) : Prop := ∃ p w, t = s.at p w ∧ sameOutside E m p.1

variable {m : Memory} {p : Progress} {w : Work}

/-- Where every sum fits whatever the result elements hold, DMMA.S runs to its end (R137). -/
theorem denseLoop_completes (hf : s.foreign = []) (hready : DenseReady s.cfg d)
    (hfit : ∀ m', sameOutside d.element m m' → denseFits s.cfg m' d) (hp : sameOutside d.element m p.1) :
    ∃ t, loop 0 d.batch (fun b => denseBatch d b) (s.at p w) = .ok () t ∧ Running s d.element m t := by
  refine loop_completes (fun _ => Running s d.element m) ⟨p, w, rfl, hp⟩ fun b t _ hb ⟨p, w, ht, hp⟩ => ?_
  rw [Nat.zero_add] at hb
  unfold denseBatch
  rw [ht, Cmd.bind_ok (updateWork_apply _ _), State.at_workNow, State.at_withWork,
    Cmd.bind_ok (ldInput32_at hf _ _ (hready.scales b hb))]
  refine loop_completes (fun _ => Running s d.element m) ⟨_, _, rfl, hp⟩ fun r t _ hr ⟨p, w, ht, hp⟩ => ?_
  rw [Nat.zero_add] at hr
  obtain ⟨hread, hwrite⟩ := hready.result b hb r hr
  obtain ⟨w', hrow, -⟩ := denseRow_at (p := p) (w := w) hf (hready.scanReadable hb hr) (TraceIn.trivial _)
    (fun n hn => (hfit p.1 hp).imp id fun h => h b hb r hr n hn) hread hwrite fun _ _ => True.intro
  exact ⟨_, ht ▸ hrow, _, w', rfl, hp.addTo ⟨b, hb, r, hr, rfl⟩⟩

/-- Overflow wraps, or every running value of the row fits with the offset `off` that has been read (R141, R143). -/
def AsymRowFits (c : Config) (m : Memory) (d : DenseArgs) (b r : Nat) (off : Word32) : Prop :=
  c.intOvf = .wrap ∨
    ((∀ n, narrowedAt d n → in32 (sumTo (denseTerm c m d b r) n) = true ∧
      in32 (sumTo (fun j => s8 (m.read (d.matrixAt r j))) n) = true) ∧
    in32 (denseRowSum m d r * off.toInt) = true ∧ in32 (denseDot c m d b r - denseRowSum m d r * off.toInt) = true)

/-- It is what `asymFits` says of the row, where `off` is the offset in memory. -/
theorem asymFits.row {c : Config} {b r : Nat} {off : Word32} (h : asymFits c m d offsets) (hb : b < d.batch) (hr : r < d.rows)
    (hoff : m.read32 (offsets + 4 * b) = off) : AsymRowFits c m d b r off := by
  subst hoff
  exact h.imp id fun h => h b hb r hr

/-- A row of DMMA.A adds some contribution into its element, where its running values fit (R142). -/
theorem asymRow_completes (hf : s.foreign = []) {b r : Nat} {bs off : Word32} (hready : AsymReady s.cfg d pcs offsets)
    (hb : b < d.batch) (hr : r < d.rows)
    (hfit : AsymRowFits s.cfg p.1 d b r off) :
    ∃ c w', asymRow d pcs b bs off r (s.at p w) =
      .ok () (s.at (addTo s.inst.running (d.resAddr b r).toNat c p.1) w') := by
  have all : narrowedAt d d.cols := ⟨Nat.le_refl _, .inr d.nblk_le⟩
  obtain ⟨hread, hwrite⟩ := hready.result b hb r hr
  unfold asymRow
  rw [Cmd.bind_ok (updateWork_apply _ _), State.at_workNow, State.at_withWork]
  obtain ⟨w1, h1, hs⟩ := rowDotSum_at (p := p) (w := { w with r := r }) hf (hready.scanReadable hb hr) (TraceIn.trivial _)
    (fun n hn => hfit.imp id fun h => (h.1 n hn).1) (fun n hn => hfit.imp id fun h => (h.1 n hn).2)
  rw [Cmd.bind_ok h1, Cmd.bind_ok (work_apply _), State.at_workNow,
    Cmd.bind_ok (adjustedSum_at hs.dot hs.rowSum rfl (hfit.imp id fun h => (h.1 _ all).1)
      (hfit.imp id fun h => (h.1 _ all).2) (hfit.imp id fun h => h.2.1) (hfit.imp id fun h => h.2.2)),
    Cmd.bind_ok (ldInput32_at hf _ _ (hready.perChannel b hb r hr)), Cmd.bind_ok (scale3_at _ _ _),
    accumulate_mk hf _ _ _ hread hwrite]
  exact ⟨_, _, rfl⟩

/-- Where overflow wraps, or every running value fits whatever the result elements hold and no offset is written over, DMMA.A
runs to its end (R142). -/
theorem asymLoop_completes (hf : s.foreign = []) (hready : AsymReady s.cfg d pcs offsets)
    (hfit : s.cfg.intOvf = .wrap ∨ ((∀ m', sameOutside d.element m m' → asymFits s.cfg m' d offsets) ∧
      ∀ b < d.batch, ∀ y, inElement y (offsets + 4 * b : Nat) → ∀ e, d.element e → ¬ inElement y e))
    (hp : sameOutside d.element m p.1) :
    ∃ t, loop 0 d.batch (fun b => asymBatch d pcs offsets b) (s.at p w) = .ok () t ∧ Running s d.element m t := by
  refine loop_completes (fun _ => Running s d.element m) ⟨p, w, rfl, hp⟩ fun b t _ hb ⟨p, w, ht, hp⟩ => ?_
  rw [Nat.zero_add] at hb
  unfold asymBatch
  rw [ht, Cmd.bind_ok (updateWork_apply _ _), State.at_workNow, State.at_withWork,
    Cmd.bind_ok (ldInput32_at hf _ _ (hready.scales b hb)), Cmd.bind_ok (ldInput32_at hf _ _ (hready.offsets b hb))]
  generalize hoff : p.1.read32 (offsets + 4 * b) = off
  refine loop_completes (fun _ => Running s d.element m) ⟨_, _, rfl, hp⟩ fun r t _ hr ⟨q, w, ht, hq⟩ => ?_
  rw [Nat.zero_add] at hr
  have hvals : AsymRowFits s.cfg q.1 d b r off := by
    rcases hfit with hwrap | ⟨hall, hkept⟩
    · exact .inl hwrap
    · exact (hall q.1 hq).row hb hr (by rw [hq.read32 (hkept b hb), ← hp.read32 (hkept b hb), hoff])
  obtain ⟨c, w', hrow⟩ := asymRow_completes (w := w) hf hready hb hr hvals
  exact ⟨_, ht ▸ hrow, _, w', rfl, hq.addTo ⟨b, hb, r, hr, rfl⟩⟩

/-- DMMA.S ends with the lowest input byte that it wrote (R64, R211). -/
theorem dmmaS_alias {x : Nat} (ha : s.accepts) (hf : s.foreign = []) (hd : operandsOf denseArgs s = some d)
    (hready : DenseReady s.cfg d) (hfit : ∀ m, sameOutside d.element s.mem m → denseFits s.cfg m d)
    (hO : d.resultByte x) (hI : d.inputByte x) (hle : ∀ y, d.resultByte y → d.inputByte y → x ≤ y) :
    ∃ t, exec .dmmaS s = .next t ∧ t.inst.fault = some ⟨0x10, .aliased x⟩ := by
  obtain ⟨_, hloop, p, w, rfl, -⟩ := denseLoop_completes (s := s.busyWith 0x10) (p := (s.mem, s.draws)) (w := Work.fresh)
    (m := s.mem) hf hready hfit fun _ _ => rfl
  refine exec_records (i := .dmmaS) (p := p) (w := w) ha hf ?_
  show dmmaSBody ((s.busyWith 0x10).at (s.mem, s.draws) Work.fresh) = .error _ ((s.busyWith 0x10).at p w)
  unfold dmmaSBody
  rw [ArgReader.denseArgs.bind_at hd, Cmd.bind_ok hloop]
  have hfoot := denseLoop_footprint (s := (s.busyWith 0x10).at (s.mem, s.draws) Work.fresh) (fun _ _ => not_touched_fresh) hloop
  exact hfoot.aliasCheck hO hI hle

/-- So does DMMA.A (R64, R211). -/
theorem dmmaA_alias {x : Nat} (ha : s.accepts) (hf : s.foreign = []) (hd : operandsOf denseArgs s = some d)
    (hpcs : operandsOf (argAddr 8) s = some pcs) (hoffs : operandsOf (argAddr 9) s = some offsets)
    (hready : AsymReady s.cfg d pcs offsets)
    (hfit : s.cfg.intOvf = .wrap ∨ ((∀ m, sameOutside d.element s.mem m → asymFits s.cfg m d offsets) ∧
      ∀ b < d.batch, ∀ y, inElement y (offsets + 4 * b : Nat) → ∀ e, d.element e → ¬ inElement y e))
    (hO : d.resultByte x) (hI : asymInputByte d pcs offsets x)
    (hle : ∀ y, d.resultByte y → asymInputByte d pcs offsets y → x ≤ y) :
    ∃ t, exec .dmmaA s = .next t ∧ t.inst.fault = some ⟨0x11, .aliased x⟩ := by
  obtain ⟨_, hloop, p, w, rfl, -⟩ := asymLoop_completes (s := s.busyWith 0x11) (p := (s.mem, s.draws)) (w := Work.fresh)
    (m := s.mem) hf hready hfit fun _ _ => rfl
  refine exec_records (i := .dmmaA) (p := p) (w := w) ha hf ?_
  show dmmaABody ((s.busyWith 0x11).at (s.mem, s.draws) Work.fresh) = .error _ ((s.busyWith 0x11).at p w)
  unfold dmmaABody
  rw [ArgReader.denseArgs.bind_at hd, (ArgReader.argAddr 8).bind_at hpcs, (ArgReader.argAddr 9).bind_at hoffs,
    Cmd.bind_ok hloop]
  have hfoot := asymLoop_footprint (s := (s.busyWith 0x11).at (s.mem, s.draws) Work.fresh) (fun _ _ => not_touched_fresh) hloop
  exact hfoot.aliasCheck hO hI hle

end Dense

end Sys2Proof.Machine
end

section
/-! PROOFS. The footprint of the sparse kernels (20_memory.md R63, R64; 42_sparse_kernels.md R176, R178), whose accesses depend
on the ledger as it stands when they read it: a walk keeps to the ledger's first state as long as it has not written over a
ledger byte that it still reads. And the two obligations about aliasing. -/

namespace Sys2Proof.Machine

/-! ### What a piece ensures if it completes -/

section Ensures

variable {α β : Type} {s t : State} {p : Progress} {w : Work} {P Q : α → Progress → Work → Prop}

/-- If the piece has completed, then in a state of the running command `s` with `P`. -/
def Ensures (s : State) (P : α → Progress → Work → Prop) (result : EStateM.Result Cause State α) : Prop :=
  ∀ a t, result = .ok a t → ∃ q w, t = s.at q w ∧ P a q w

namespace Ensures

theorem ok {a : α} (h : P a p w) : Ensures s P (.ok a (s.at p w)) := fun _ _ ht => by
  cases ht
  exact ⟨p, w, rfl, h⟩

theorem error {c : Cause} : Ensures s P (.error c t) := fun _ _ h => by cases h

theorem bind {R : β → Progress → Work → Prop} {m : Cmd α} {f : α → Cmd β} (hm : Ensures s P (m t))
    (hf : ∀ a p w, P a p w → Ensures s R (f a (s.at p w))) : Ensures s R ((m >>= f) t) := fun b v hv => by
  obtain ⟨a, u, hu, hv⟩ := Cmd.bind_eq_ok hv
  obtain ⟨q, w, rfl, hP⟩ := hm a u hu
  exact hf a q w hP b v hv

theorem mono {result : EStateM.Result Cause State α} (h : Ensures s P result) (hPQ : ∀ a p w, P a p w → Q a p w) :
    Ensures s Q result := fun a t ht => by
  obtain ⟨q, w, rfl, hP⟩ := h a t ht
  exact ⟨q, w, rfl, hPQ a q w hP⟩

theorem loop {body : Nat → Cmd Unit} (Inv : Nat → Progress → Work → Prop) :
    ∀ {n lo : Nat} {p : Progress} {w : Work}, Inv lo p w →
      (∀ i, lo ≤ i → i < lo + n → ∀ p w, Inv i p w → Ensures s (fun _ => Inv (i + 1)) (body i (s.at p w))) →
      Ensures s (fun _ => Inv (lo + n)) (Machine.loop lo n body (s.at p w))
  | 0, _, _, _, h, _ => ok h
  | n + 1, lo, p, w, h, step => by
    rw [loop_succ, (by omega : lo + (n + 1) = lo + 1 + n)]
    exact bind (step lo (Nat.le_refl _) (by omega) p w h) fun _ p w h =>
      loop Inv h fun i h1 h2 => step i (by omega) (by omega)

theorem memRead (hf : s.foreign = []) {tag : Tag} {al : Bool} {e : Int} {n : Nat} :
    Ensures s (fun v q w' => v = p.1.readList e.toNat n ∧ q = p ∧ w' = addTouch w tag e.toNat n)
      (Machine.memRead tag al e n (s.at p w)) := by
  cases hc : checkAccess s.cfg .read al e n with
  | none =>
    rw [memRead_at hf p w hc]
    exact ok ⟨rfl, rfl, rfl⟩
  | some c =>
    rw [memRead_error (s := s.at p w) hc]
    exact error

theorem memWrite {al : Bool} {e : Int} {bytes : List Byte} :
    Ensures s (fun _ q w' => q.1 = p.1.writeList e.toNat bytes ∧ w' = addTouch w .written e.toNat bytes.length)
      (Machine.memWrite al e bytes (s.at p w)) := by
  cases hc : checkAccess s.cfg .write al e bytes.length with
  | none =>
    rw [memWrite_at p w hc]
    exact ok ⟨rfl, rfl⟩
  | some c =>
    rw [memWrite_error (s := s.at p w) hc]
    exact error

/-- A read that hands on what it has read. -/
theorem memReadMap (hf : s.foreign = []) {f : List Byte → α} {tag : Tag} {al : Bool} {e : Int} {n : Nat} :
    Ensures s (fun v q w' => v = f (p.1.readList e.toNat n) ∧ q = p ∧ w' = addTouch w tag e.toNat n)
      ((Machine.memRead tag al e n >>= fun bytes => pure (f bytes)) (s.at p w)) :=
  (memRead hf).bind fun _ _ _ ⟨hv, hq, hw⟩ => ok ⟨congrArg f hv, hq, hw⟩

theorem acc32 {x : Int} {site : Work → Site} :
    Ensures s (fun _ q w' => q = p ∧ w' = w) (Machine.acc32 x site (s.at p w)) := by
  unfold Machine.acc32
  split
  · split
    · exact ok ⟨rfl, rfl⟩
    · exact error
  · exact ok ⟨rfl, rfl⟩

theorem addDot {x : Int} {site : Work → Site} :
    Ensures s (fun _ q w' => q = p ∧ ∃ v, w' = { w with dot := v }) (Machine.addDot x site (s.at p w)) := by
  unfold Machine.addDot
  rw [Cmd.bind_ok (work_apply _), State.at_workNow]
  refine acc32.bind ?_
  rintro v _ _ ⟨rfl, rfl⟩
  exact ok ⟨rfl, v, rfl⟩

/-- A result update that completes has changed the element only (R136). -/
theorem accumulate (hf : s.foreign = []) {e : Int} {c : Word32} :
    Ensures s (fun _ q w' => (∀ x, ¬ inElement x e → q.1.read x = p.1.read x) ∧
      w' = addTouch (addTouch w .result e.toNat 4) .written e.toNat 4) (Machine.accumulate e c (s.at p w)) := by
  unfold Machine.accumulate
  refine (memReadMap hf).bind ?_
  rintro _ _ _ ⟨-, rfl, rfl⟩
  unfold fAdd
  rw [Cmd.bind_ok (orNaN_at _ _ _)]
  refine memWrite.mono fun _ _ _ ⟨hq, hw⟩ => ⟨fun x hx => ?_, hw⟩
  rw [hq]
  exact Memory.read_writeList_other (by rw [length_leBytes32]; omega)

end Ensures

theorem blockPrecond_eq_ok {cols : Nat} (h : blockPrecond cols s = .ok () t) : t = s := by
  unfold blockPrecond at h
  rw [Cmd.bind_ok (config_apply _)] at h
  split at h
  · cases h
    rfl
  · split at h <;> cases h

end Ensures

/-! ### The bytes of a row -/

variable {s t : State} {p : Progress} {w : Work} {a : SparseArgs} {r i lc mc n x : Nat} {m : Memory} {T : Tag → Nat → Prop}

/-- The input bytes of a row whose segment begins at `lc` and whose packed blocks begin at `mc`: its count byte and its
first `n` entries, as the memory `m` has them (R170, R172). -/
def segmentInput (m : Memory) (a : SparseArgs) (lc mc n x : Nat) : Prop :=
  (∃ i ≤ n, x = lc + i) ∨
    ∃ i < n, ∃ j < 16, x = a.vector + 16 * (m.read (lc + 1 + i)).toNat + j ∨ x = mc + 16 * i + j

/-- The bytes of one entry: its index byte, the vector slice it names, its packed block (R176). -/
def EntryBytes (m : Memory) (a : SparseArgs) (lc mc : Nat) (tag : Tag) (x : Nat) : Prop :=
  InputBytes lc 1 tag x ∨ InputBytes (a.vector + 16 * (m.read lc).toNat) 16 tag x ∨ InputBytes mc 16 tag x

theorem segmentInput_zero : segmentInput m a lc mc 0 x ↔ x = lc := by simp [segmentInput]

theorem segmentInput_succ : segmentInput m a lc mc (n + 1) x ↔
    segmentInput m a lc mc n x ∨ EntryBytes m a (lc + 1 + n) (mc + 16 * n) .input x := by
  unfold segmentInput EntryBytes InputBytes
  constructor
  · rintro (⟨i, hi, rfl⟩ | ⟨i, hi, j, hj, hx⟩)
    · rcases Nat.lt_or_ge n i with h | h
      · exact .inr (.inl ⟨rfl, by omega, by omega⟩)
      · exact .inl (.inl ⟨i, h, rfl⟩)
    · by_cases h : i = n
      · subst h
        rcases hx with rfl | rfl
        · exact .inr (.inr (.inl ⟨rfl, by omega, by omega⟩))
        · exact .inr (.inr (.inr ⟨rfl, by omega, by omega⟩))
      · exact .inl (.inr ⟨i, by omega, j, hj, hx⟩)
  · rintro ((⟨i, hi, rfl⟩ | ⟨i, hi, hx⟩) | ⟨-, h⟩ | ⟨-, h1, h2⟩ | ⟨-, h1, h2⟩)
    · exact .inl ⟨i, by omega, rfl⟩
    · exact .inr ⟨i, by omega, hx⟩
    · exact .inl ⟨n + 1, Nat.le_refl _, by omega⟩
    · exact .inr ⟨n, by omega, _, Nat.sub_lt_left_of_lt_add h1 h2, .inl (Nat.add_sub_cancel' h1).symm⟩
    · exact .inr ⟨n, by omega, _, Nat.sub_lt_left_of_lt_add h1 h2, .inr (Nat.add_sub_cancel' h1).symm⟩

/-- Two memories that agree on a row's index bytes give it the same input bytes. -/
theorem segmentInput_congr {m' : Memory} (h : ∀ i < n, m'.read (lc + 1 + i) = m.read (lc + 1 + i)) :
    segmentInput m' a lc mc n x ↔ segmentInput m a lc mc n x :=
  or_congr .rfl (exists_congr fun i => and_congr_right fun hi => by rw [h i hi])

/-- An entry reads input only. -/
theorem entryBytes_iff {tag : Tag} : EntryBytes m a lc mc tag x ↔ tag = .input ∧ EntryBytes m a lc mc .input x := by
  simp only [EntryBytes, InputBytes, true_and, and_or_left]

/-- The bytes of row `r`, its segment at `lc` and its blocks at `mc` (R63, R176). -/
def RowTouches (m : Memory) (a : SparseArgs) (r lc mc : Nat) (tag : Tag) (x : Nat) : Prop :=
  (tag = .input ∧ segmentInput m a lc mc (m.read lc).toNat x) ∨ (tag ≠ .input ∧ inElement x (a.resAddr r))

/-! ### Where a walk stands -/

/-- The cursors stand at `lc` and `mc`, and the trace has just the bytes of `T`. -/
structure Stands (lc mc : Nat) (T : Tag → Nat → Prop) (w : Work) : Prop where
  lc : w.lc = lc
  mc : w.mc = mc
  touched : ∀ tag x, w.Touched tag x ↔ T tag x

namespace Stands

/-- Only the cursors and the trace matter. -/
theorem keep (h : Stands lc mc T w) {w' : Work} (hlc : w'.lc = w.lc) (hmc : w'.mc = w.mc) (ht : w'.trace = w.trace) :
    Stands lc mc T w' :=
  ⟨hlc.trans h.lc, hmc.trans h.mc, fun tag x => by rw [Work.Touched, ht]; exact h.touched tag x⟩

theorem congr {U : Tag → Nat → Prop} (h : Stands lc mc T w) (hTU : ∀ tag x, T tag x ↔ U tag x) : Stands lc mc U w :=
  ⟨h.lc, h.mc, fun tag x => (h.touched tag x).trans (hTU tag x)⟩

theorem updateWork (h : Stands lc mc T w) {f : Work → Work}
    (hf : ∀ w, (f w).lc = w.lc ∧ (f w).mc = w.mc ∧ (f w).trace = w.trace := by exact fun _ => ⟨rfl, rfl, rfl⟩) :
    Ensures s (fun _ q w' => q = p ∧ Stands lc mc T w') (Machine.updateWork f (s.at p w)) := by
  obtain ⟨hlc, hmc, ht⟩ := hf w
  exact .ok ⟨rfl, h.keep hlc hmc ht⟩

theorem touch (h : Stands lc mc T w) (tag : Tag) (e n : Nat) :
    Stands lc mc (fun tag' x => T tag' x ∨ (tag' = tag ∧ e ≤ x ∧ x < e + n)) (addTouch w tag e n) :=
  ⟨h.lc, h.mc, fun tag' x => by rw [touched_addTouch, h.touched]⟩

theorem input (hf : s.foreign = []) (h : Stands lc mc T w) {α : Type} {f : List Byte → α} {al : Bool} {e n : Nat} :
    Ensures s (fun v q w' => v = f (p.1.readList e n) ∧ q = p ∧
        Stands lc mc (fun tag x => T tag x ∨ InputBytes e n tag x) w')
      ((memRead .input al e n >>= fun bytes => pure (f bytes)) (s.at p w)) :=
  (Ensures.memReadMap hf).mono fun _ _ _ ⟨hv, hq, hw⟩ => ⟨hv, hq, hw ▸ h.touch .input e n⟩

theorem dotBlock (h : Stands lc mc T w) :
    Ensures s (fun _ q w' => q = p ∧ Stands lc mc T w') (Machine.dotBlock (s.at p w)) := by
  rw [dotBlock_at]
  exact .ok ⟨rfl, h.keep rfl rfl rfl⟩

theorem addDot (h : Stands lc mc T w) {y : Int} {site : Work → Site} :
    Ensures s (fun _ q w' => q = p ∧ Stands lc mc T w') (Machine.addDot y site (s.at p w)) :=
  Ensures.addDot.mono fun _ _ _ ⟨hq, _, hw⟩ => ⟨hq, hw ▸ h.keep rfl rfl rfl⟩

/-- The next ledger byte, and the ledger cursor past it (R173). -/
theorem nextLedgerByte (hf : s.foreign = []) (h : Stands lc mc T w) :
    Ensures s (fun v q w' => v = p.1.read lc ∧ q = p ∧ Stands (lc + 1) mc (fun tag x => T tag x ∨ InputBytes lc 1 tag x) w')
      (Machine.nextLedgerByte (s.at p w)) := by
  unfold Machine.nextLedgerByte
  rw [Cmd.bind_ok (work_apply _), State.at_workNow, h.lc]
  refine (h.input hf).bind ?_
  rintro _ _ w' ⟨rfl, rfl, hlc, hmc, ht⟩
  exact .ok ⟨rfl, rfl, congrArg (· + 1) hlc, hmc, ht⟩

/-- An entry takes both cursors on (R173, R176). -/
theorem sparseEntry (hf : s.foreign = []) (h : Stands lc mc T w) :
    Ensures s (fun _ q w' => q = p ∧ Stands (lc + 1) (mc + 16) (fun tag x => T tag x ∨ EntryBytes p.1 a lc mc tag x) w')
      (Machine.sparseEntry a r i (s.at p w)) := by
  unfold Machine.sparseEntry
  refine h.updateWork.bind ?_
  rintro _ p w ⟨rfl, h⟩
  refine (h.nextLedgerByte hf).bind ?_
  rintro _ p w ⟨rfl, rfl, h⟩
  dsimp only
  split
  · exact .error
  refine (h.input hf).bind ?_
  rintro A p w ⟨-, rfl, h⟩
  refine h.updateWork.bind ?_
  rintro _ p w ⟨rfl, h⟩
  rw [Cmd.bind_ok (work_apply _), State.at_workNow, h.mc]
  refine (h.input hf).bind ?_
  rintro B p w ⟨-, rfl, h⟩
  refine h.updateWork.bind ?_
  rintro _ p w ⟨rfl, h⟩
  refine h.dotBlock.bind ?_
  rintro _ p w ⟨rfl, h⟩
  rw [Cmd.bind_ok (work_apply _)]
  refine h.addDot.bind ?_
  rintro _ p w ⟨rfl, h⟩
  refine .ok ⟨rfl, h.lc, congrArg (· + 16) h.mc, fun tag x => (h.touched tag x).trans ?_⟩
  rw [EntryBytes, or_assoc, or_assoc]

/-- A row takes both cursors to the next row's segment and blocks, and changes memory in its element only (R176). -/
theorem sparseRow (hf : s.foreign = []) (h : Stands lc mc T w) :
    Ensures s (fun _ q w' => (∀ x, ¬ inElement x (a.resAddr r) → q.1.read x = p.1.read x) ∧
        Stands (lc + 1 + (p.1.read lc).toNat) (mc + 16 * (p.1.read lc).toNat)
          (fun tag x => T tag x ∨ RowTouches p.1 a r lc mc tag x) w')
      (Machine.sparseRow a r (s.at p w)) := by
  unfold Machine.sparseRow
  refine h.updateWork.bind ?_
  rintro _ p w ⟨rfl, h⟩
  refine (h.nextLedgerByte hf).bind ?_
  rintro _ p w ⟨rfl, rfl, h⟩
  refine h.updateWork.bind ?_
  rintro _ p w ⟨rfl, h⟩
  have h0 : Stands (lc + 1 + 0) (mc + 16 * 0) (fun tag x => T tag x ∨ (tag = .input ∧ segmentInput p.1 a lc mc 0 x)) w :=
    h.congr fun tag x => by
      rw [segmentInput_zero, InputBytes]
      exact or_congr .rfl (and_congr .rfl (by omega))
  refine (Ensures.loop (fun n q w => q = p ∧ Stands (lc + 1 + n) (mc + 16 * n)
    (fun tag x => T tag x ∨ (tag = .input ∧ segmentInput p.1 a lc mc n x)) w) ⟨rfl, h0⟩ ?_).bind ?_
  · rintro n - - p w ⟨rfl, h⟩
    refine (h.sparseEntry hf).mono ?_
    rintro _ _ w' ⟨rfl, h'⟩
    refine ⟨rfl, h'.lc, h'.mc, fun tag x => (h'.touched tag x).trans ?_⟩
    rw [entryBytes_iff, segmentInput_succ, and_or_left, or_assoc]
  rintro _ p w ⟨rfl, h⟩
  rw [Nat.zero_add] at h
  rw [Cmd.bind_ok (work_apply _)]
  unfold fMul
  rw [Cmd.bind_ok (orNaN_at _ _ _)]
  refine (Ensures.accumulate hf).mono ?_
  rintro _ q _ ⟨hmem, rfl⟩
  obtain ⟨hlc, hmc, ht⟩ := (h.touch .result (a.resAddr r).toNat 4).touch .written (a.resAddr r).toNat 4
  refine ⟨hmem, hlc, hmc, fun tag x => (ht tag x).trans ?_⟩
  cases tag <;> simp [RowTouches, inElement]

end Stands

/-- A completed row: memory has changed in its element only, the trace has grown by its bytes, and both cursors stand at the
next row's segment and blocks (R176). -/
structure RowStep (a : SparseArgs) (r : Nat) (q : Memory) (w : Work) (q' : Memory) (w' : Work) : Prop where
  mem : ∀ x, ¬ inElement x (a.resAddr r) → q'.read x = q.read x
  stands : Stands (w.lc + 1 + (q.read w.lc).toNat) (w.mc + 16 * (q.read w.lc).toNat)
    (fun tag x => w.Touched tag x ∨ RowTouches q a r w.lc w.mc tag x) w'

theorem RowStep.grows {q q' : Memory} {w' : Work} (h : RowStep a r q w q' w') (tag : Tag) (x : Nat)
    (hx : w.Touched tag x) : w'.Touched tag x := (h.stands.touched tag x).2 (.inl hx)

theorem sparseRow_step (hf : s.foreign = []) :
    Ensures s (fun _ q w' => RowStep a r p.1 w q.1 w') (sparseRow a r (s.at p w)) :=
  (Stands.sparseRow hf ⟨rfl, rfl, fun _ _ => .rfl⟩).mono fun _ _ _ ⟨hmem, hw⟩ => ⟨hmem, hw⟩

/-- A row whose bytes are available, and whose indices name blocks of the row, completes (R174, R242): its running sum cannot
overflow (R177). -/
theorem sparseRow_completes (hf : s.foreign = [])
    (hindex : ∀ i < (p.1.read w.lc).toNat, 16 * (p.1.read (w.lc + 1 + i)).toNat + 16 ≤ a.cols)
    (hin : ∀ x, segmentInput p.1 a w.lc w.mc (p.1.read w.lc).toNat x → readable s.cfg x)
    (hres : readable32 s.cfg (a.resAddr r) ∧ writable32 s.cfg (a.resAddr r)) :
    ∃ t, sparseRow a r (s.at p w) = .ok () t := by
  obtain ⟨w1, h1, hs, -, -⟩ := nextLedgerByte_at (s := s) (p := p) (w := { w with r := r }) hf
    (hin _ (.inl ⟨0, Nat.zero_le _, rfl⟩)) True.intro (TraceIn.trivial _)
  have hlc : w1.lc = w.lc + 1 := hs.lc
  have hmc : w1.mc = w.mc := hs.mc
  unfold sparseRow
  rw [Cmd.bind_ok (updateWork_apply _ _), State.at_workNow, State.at_withWork, Cmd.bind_ok h1,
    Cmd.bind_ok (updateWork_apply _ _), State.at_workNow, State.at_withWork]
  obtain ⟨_, hloop, w2, rfl, -⟩ := loop_completes
    (fun i t => ∃ v, t = s.at p v ∧ v.lc = w.lc + 1 + i ∧ v.mc = w.mc + 16 * i ∧
      -(262144 * (i : Int)) ≤ v.dot.toInt ∧ v.dot.toInt ≤ 262144 * i)
    (n := (p.1.read w.lc).toNat) (lo := 0) (s := s.at p { w1 with dot := 0 }) (body := fun i => sparseEntry a r i)
    ⟨_, rfl, hlc, hmc, by simp, by simp⟩ (fun i t _ hi ⟨v, ht, hl, hm, hlo, hhi⟩ => by
      have hcount := (p.1.read w.lc).isLt
      rw [Nat.zero_add] at hi
      obtain ⟨hblo, hbhi⟩ := lanesDot_bounds s.cfg.dotMode (p.1.read128 (a.vector + 16 * (p.1.read v.lc).toNat))
        (p.1.read128 v.mc)
      have hsum : in32 (v.dot.toInt + lanesDot s.cfg.dotMode (p.1.read128 (a.vector + 16 * (p.1.read v.lc).toNat))
          (p.1.read128 v.mc)) = true := by
        simp only [in32, Bool.and_eq_true, decide_eq_true_eq]
        omega
      obtain ⟨w', hentry, hstep⟩ := sparseEntry_at (s := s) (p := p) (r := r) (i := i) (a := a) (w := v) hf
        ⟨hin _ (.inl ⟨i + 1, hi, by rw [hl]; omega⟩), True.intro⟩ (by rw [hl]; exact hindex i hi)
        (fun j hj => ⟨hin _ (.inr ⟨i, hi, j, hj, .inl (by rw [hl])⟩), True.intro⟩)
        (fun j hj => ⟨hin _ (.inr ⟨i, hi, j, hj, .inr (by rw [hm])⟩), True.intro⟩) (TraceIn.trivial _) (.inr hsum)
      refine ⟨_, ht ▸ hentry, w', rfl, by rw [hstep.lc, hl]; rfl, by rw [hstep.mc, hm]; omega, ?_⟩
      rw [hstep.dot, toInt_bits32_of_in32 hsum]
      omega)
  rw [Cmd.bind_ok hloop, Cmd.bind_ok (work_apply _), State.at_workNow]
  unfold fMul
  rw [Cmd.bind_ok (orNaN_at _ _ _), accumulate_mk hf _ _ _ hres.1 hres.2]
  exact ⟨_, rfl⟩

/-! ### A walk -/

/-- A row of a walk as the ledger of `m` has it (R63, R170). -/
def WalkRow (m : Memory) (a : SparseArgs) (r : Nat) (tag : Tag) (x : Nat) : Prop :=
  RowTouches m a r (ledgerAt m a.ledger r) (packedAt m a.matrix a.ledger r) tag x

/-- A walk stands at row `r` as the ledger of `m` has it, and memory is `m` where nothing has been written. The bytes of `T`
were touched before the walk. -/
structure WalkAt (m : Memory) (a : SparseArgs) (T : Tag → Nat → Prop) (r : Nat) (q : Memory) (w : Work) : Prop where
  stands : Stands (ledgerAt m a.ledger r) (packedAt m a.matrix a.ledger r)
    (fun tag x => T tag x ∨ ∃ k < r, WalkRow m a k tag x) w
  mem : ∀ x, ¬ w.Touched .written x → q.read x = m.read x

/-- The bytes of row `r`'s segment in the ledger of `m` are not written over. -/
def LedgerKept (m : Memory) (a : SparseArgs) (r : Nat) (w : Work) : Prop :=
  ∀ i ≤ blockCountOf m a.ledger r, ¬ w.Touched .written (ledgerAt m a.ledger r + i)

namespace WalkAt

variable {q q' : Memory} {w' : Work}

theorem ledger (h : WalkAt m a T r q w) (hkept : LedgerKept m a r w) (hi : i ≤ blockCountOf m a.ledger r) :
    q.read (ledgerAt m a.ledger r + i) = m.read (ledgerAt m a.ledger r + i) := h.mem _ (hkept i hi)

theorem count (h : WalkAt m a T r q w) (hkept : LedgerKept m a r w) :
    (q.read (ledgerAt m a.ledger r)).toNat = blockCountOf m a.ledger r :=
  congrArg BitVec.toNat (h.ledger hkept (Nat.zero_le _))

/-- The row's input bytes in the memory of now are those in `m`. -/
theorem segmentInput_iff (h : WalkAt m a T r q w) (hkept : LedgerKept m a r w) :
    segmentInput q a (ledgerAt m a.ledger r) (packedAt m a.matrix a.ledger r) (q.read (ledgerAt m a.ledger r)).toNat x ↔
      segmentInput m a (ledgerAt m a.ledger r) (packedAt m a.matrix a.ledger r) (blockCountOf m a.ledger r) x := by
  rw [h.count hkept]
  exact segmentInput_congr fun i hi => by
    rw [Nat.add_assoc]
    exact h.ledger hkept (by omega)

/-- A row whose segment is not written over takes the walk one row on. -/
theorem next (h : WalkAt m a T r q w) (hkept : LedgerKept m a r w) (hstep : RowStep a r q w q' w') :
    WalkAt m a T (r + 1) q' w' := by
  obtain ⟨hmem, hw⟩ := hstep
  rw [h.stands.lc, h.stands.mc] at hw
  refine ⟨⟨by rw [hw.lc, h.count hkept, ledgerAt, blockCountOf], by rw [hw.mc, h.count hkept, packedAt], fun tag x =>
    (hw.touched tag x).trans ?_⟩, fun x hx => ?_⟩
  · rw [RowTouches, h.segmentInput_iff hkept, h.stands.touched, or_assoc]
    exact or_congr .rfl Nat.exists_lt_succ_right.symm
  · have hnew : ¬ (w.Touched .written x ∨ RowTouches q a r _ _ .written x) := mt (hw.touched .written x).2 hx
    rw [not_or] at hnew
    rw [hmem x fun h => hnew.2 (.inr ⟨Tag.noConfusion, h⟩), h.mem x hnew.1]

/-- A row that leaves no byte both written and read has read a segment that was not written over (R64). -/
theorem ledgerKept_of_clean (h : WalkAt m a T r q w) (hstep : RowStep a r q w q' w') (hclean : w'.Clean) :
    LedgerKept m a r w := by
  have hread : ∀ i ≤ (q.read (ledgerAt m a.ledger r)).toNat, ¬ w.Touched .written (ledgerAt m a.ledger r + i) :=
    fun i hi hw => hclean _ ⟨hstep.grows _ _ hw, (hstep.stands.touched _ _).2
      (.inr (.inl ⟨rfl, .inl ⟨i, by rwa [h.stands.lc], by rw [h.stands.lc]⟩⟩))⟩
  have hcount : blockCountOf m a.ledger r = (q.read (ledgerAt m a.ledger r)).toNat := by
    rw [h.mem (ledgerAt m a.ledger r) (hread 0 (Nat.zero_le _)), blockCountOf]
  exact fun i hi => hread i (hcount ▸ hi)

/-- A row of a ready walk completes, if its segment is not written over. -/
theorem row_completes (h : WalkAt m a T r p.1 w) (hkept : LedgerKept m a r w) (hf : s.foreign = [])
    (hready : SparseReady s.cfg m a) (hr : r < a.rows) : ∃ t, sparseRow a r (s.at p w) = .ok () t := by
  refine sparseRow_completes hf (fun i hi => ?_) (fun x hx => ?_) (hready.result r hr)
  · rw [h.stands.lc, h.count hkept] at hi
    rw [h.stands.lc, Nat.add_assoc, h.ledger hkept (by omega), ← Nat.add_assoc]
    exact hready.index r hr i hi
  · rw [h.stands.lc, h.stands.mc, h.segmentInput_iff hkept] at hx
    exact hready.inputs x ⟨r, hr, hx⟩

end WalkAt

theorem Work.Clean.of_grown {w w' : Work} (h : w'.Clean) (hle : ∀ tag x, w.Touched tag x → w'.Touched tag x) : w.Clean :=
  fun x ⟨hw, hi⟩ => h x ⟨hle _ x hw, hle _ x hi⟩

/-- The working state as a walk begins. -/
def Work.atWalk (w : Work) (a : SparseArgs) : Work := { w with lc := a.ledger, mc := a.matrix }

theorem walkAt_start (hp : ∀ x, ¬ w.Touched .written x → p.1.read x = m.read x) :
    WalkAt m a w.Touched 0 p.1 (w.atWalk a) :=
  ⟨⟨rfl, rfl, fun _ _ => (or_iff_left nofun).symm⟩, hp⟩

theorem sparseBody_at : sparseBody a (s.at p w) = loop 0 a.rows (fun r => sparseRow a r) (s.at p (w.atWalk a)) := by
  unfold sparseBody
  rw [Cmd.bind_ok (updateWork_apply _ _), State.at_workNow, State.at_withWork, Work.atWalk]

/-- A completed walk has grown the trace, and if no byte is both written and read, it has kept to the ledger of `m` (R64). -/
theorem sparseBody_clean (hf : s.foreign = []) (hp : w.Clean → ∀ x, ¬ w.Touched .written x → p.1.read x = m.read x) :
    Ensures s (fun _ q w' => (∀ tag x, w.Touched tag x → w'.Touched tag x) ∧
      (w'.Clean → WalkAt m a w.Touched a.rows q.1 w')) (sparseBody a (s.at p w)) := by
  have hloop := Ensures.loop (s := s) (body := fun r => sparseRow a r)
    (fun r q w' => (∀ tag x, w.Touched tag x → w'.Touched tag x) ∧ (w'.Clean → WalkAt m a w.Touched r q.1 w'))
    (n := a.rows) (lo := 0) (p := p) (w := w.atWalk a) ⟨fun _ _ h => h, fun h => walkAt_start (hp h)⟩
    fun r _ _ q w1 ⟨hle, hwalk⟩ => (sparseRow_step hf).mono fun _ q' w2 hstep =>
      ⟨fun tag x h => hstep.grows tag x (hle tag x h), fun hclean =>
        have h := hwalk (hclean.of_grown hstep.grows)
        h.next (h.ledgerKept_of_clean hstep hclean) hstep⟩
  rw [sparseBody_at]
  rwa [Nat.zero_add] at hloop

/-- A ready walk that does not write over ledger bytes still to be read completes, and keeps to the ledger of `m`. -/
theorem sparseBody_completes (hf : s.foreign = []) (hp : ∀ x, ¬ w.Touched .written x → p.1.read x = m.read x)
    (hready : SparseReady s.cfg m a)
    (hkept : ∀ r < a.rows, ∀ i ≤ blockCountOf m a.ledger r, ¬ w.Touched .written (ledgerAt m a.ledger r + i) ∧
      ∀ k < r, ¬ inElement (ledgerAt m a.ledger r + i) (a.resAddr k)) :
    ∃ q w', sparseBody a (s.at p w) = .ok () (s.at q w') ∧ WalkAt m a w.Touched a.rows q.1 w' := by
  obtain ⟨_, hloop, q, w', rfl, hwalk⟩ := loop_completes
    (fun r t => ∃ q w', t = s.at q w' ∧ WalkAt m a w.Touched r q.1 w')
    (n := a.rows) (lo := 0) (s := s.at p (w.atWalk a)) (body := fun r => sparseRow a r) ⟨p, _, rfl, walkAt_start hp⟩
    fun r t _ hr ⟨q, w1, ht, hwalk⟩ => by
      rw [Nat.zero_add] at hr
      have hrow : LedgerKept m a r w1 := fun i hi hw => by
        obtain ⟨hbefore, hrows⟩ := hkept r hr i hi
        rcases (hwalk.stands.touched _ _).1 hw with hw | ⟨k, hk, ⟨⟨⟩, -⟩ | ⟨-, hw⟩⟩
        · exact hbefore hw
        · exact hrows k hk hw
      obtain ⟨u, hu⟩ := hwalk.row_completes hrow hf hready hr
      obtain ⟨q', w2, rfl, hstep⟩ := sparseRow_step hf () u hu
      exact ⟨_, ht ▸ hu, q', w2, rfl, hwalk.next hrow hstep⟩
  rw [Nat.zero_add] at hwalk
  exact ⟨q, w', sparseBody_at.trans hloop, hwalk⟩

/-- A whole walk on a fresh trace has its footprint (R63). -/
theorem WalkAt.footprint {q : Memory} (h : WalkAt m a Work.fresh.Touched a.rows q w) :
    Footprint a.resultByte (sparseInputByte m a) w where
  written x := by
    rw [h.stands.touched, or_iff_right not_touched_fresh]
    constructor
    · rintro ⟨r, hr, ⟨⟨⟩, -⟩ | ⟨-, hx⟩⟩
      exact ⟨r, hr, hx⟩
    · rintro ⟨r, hr, hx⟩
      exact ⟨r, hr, .inr ⟨nofun, hx⟩⟩
  input _ x := by
    rw [h.stands.touched, or_iff_right not_touched_fresh]
    constructor
    · rintro ⟨r, hr, ⟨-, hx⟩ | ⟨h, -⟩⟩
      · exact ⟨r, hr, hx⟩
      · exact absurd rfl h
    · rintro ⟨r, hr, hx⟩
      exact ⟨r, hr, .inl ⟨rfl, hx⟩⟩

theorem SparseArgs.resultByte_iff : a.resultByte x ↔ ∃ e, a.element e ∧ inElement x e := by
  constructor
  · rintro ⟨r, hr, hx⟩
    exact ⟨_, ⟨r, hr, rfl⟩, hx⟩
  · rintro ⟨_, ⟨r, hr, rfl⟩, hx⟩
    exact ⟨r, hr, hx⟩

/-- SMMA that completes has written no byte that it read as input (R64). -/
theorem smma_disjoint (hf : s.foreign = []) (h : exec .smma s = .next t) (hfault : t.inst.fault = none)
    (ha : operandsOf sparseArgs s = some a) (hx : a.resultByte x) : ¬ sparseInputByte s.mem a x := by
  obtain ⟨start, u, hstart, hbody⟩ := exec_completed h hfault
  rw [hstart.alone hf] at hbody
  change smmaBody ((s.busyWith 0x20).at (s.mem, s.draws) Work.fresh) = _ at hbody
  unfold smmaBody at hbody
  rw [ArgReader.sparseArgs.bind_at ha] at hbody
  obtain ⟨_, v, hpre, hbody⟩ := Cmd.bind_eq_ok hbody
  obtain rfl := blockPrecond_eq_ok hpre
  obtain ⟨_, v, hwalk, hcheck⟩ := Cmd.bind_eq_ok hbody
  obtain ⟨q, w, rfl, -, hkept⟩ := sparseBody_clean (s := s.busyWith 0x20) (p := (s.mem, s.draws)) (w := Work.fresh)
    (m := s.mem) hf (fun _ _ _ => rfl) _ _ hwalk
  exact (hkept (aliasCheck_eq_ok hcheck).2).footprint.disjoint (aliasCheck_eq_ok hcheck).2 hx

/-- SMMA ends with the lowest input byte that it wrote (R64, R211). -/
theorem smma_alias (ha : s.accepts) (hf : s.foreign = []) (hops : operandsOf sparseArgs s = some a)
    (hwhole : a.cols % 16 = 0) (hready : SparseReady s.cfg s.mem a)
    (hkept : ∀ r < a.rows, ∀ q < r, ∀ i ≤ blockCountOf s.mem a.ledger r,
      ¬ inElement (ledgerAt s.mem a.ledger r + i) (a.resAddr q))
    (hO : a.resultByte x) (hI : sparseInputByte s.mem a x)
    (hle : ∀ y, a.resultByte y → sparseInputByte s.mem a y → x ≤ y) :
    ∃ t, exec .smma s = .next t ∧ t.inst.fault = some ⟨0x20, .aliased x⟩ := by
  obtain ⟨p, w, hbody, hwalk⟩ := sparseBody_completes (s := s.busyWith 0x20) (p := (s.mem, s.draws)) (w := Work.fresh)
    hf (fun _ _ => rfl) hready fun r hr i hi => ⟨not_touched_fresh, fun k hk => hkept r hr k hk i hi⟩
  refine exec_records (i := .smma) (p := p) (w := w) ha hf ?_
  show smmaBody ((s.busyWith 0x20).at (s.mem, s.draws) Work.fresh) = .error _ ((s.busyWith 0x20).at p w)
  unfold smmaBody
  rw [ArgReader.sparseArgs.bind_at hops, Cmd.bind_ok (blockPrecond_of_whole hwhole _), Cmd.bind_ok hbody]
  exact hwalk.footprint.aliasCheck hO hI hle

/-! ### The batches of SMMA.B -/

section Batches

variable {a : SparseBatchArgs} {b : Nat} {q : Memory}

/-- The bytes that SMMA.B touches in batch `b`, as the ledger of `m` has them (R63, R178). -/
def BatchTouches (m : Memory) (a : SparseBatchArgs) (b : Nat) (tag : Tag) (x : Nat) : Prop :=
  InputBytes (a.scales + 4 * b) 4 tag x ∨ ∃ r < a.rows, WalkRow m (a.walkAt m b) r tag x

/-- `n` batches have been walked as the ledger of `m` has it, and memory is `m` where nothing has been written. -/
structure BatchesAt (m : Memory) (a : SparseBatchArgs) (n : Nat) (q : Memory) (w : Work) : Prop where
  touched : ∀ tag x, w.Touched tag x ↔ ∃ b < n, BatchTouches m a b tag x
  mem : ∀ x, ¬ w.Touched .written x → q.read x = m.read x

/-- The working state as the walk of batch `b` begins, its scale read. -/
def Work.atBatch (w : Work) (a : SparseBatchArgs) (b : Nat) : Work := addTouch { w with b := b } .input (a.scales + 4 * b) 4

theorem touched_atBatch {tag : Tag} :
    (w.atBatch a b).Touched tag x ↔ w.Touched tag x ∨ InputBytes (a.scales + 4 * b) 4 tag x := touched_addTouch

theorem BatchesAt.start : BatchesAt m a 0 m Work.fresh := ⟨fun _ _ => ⟨nofun, nofun⟩, fun _ _ => rfl⟩

/-- As the next walk begins, memory is `m` where nothing has been written: the scale is only read. -/
theorem BatchesAt.memAtBatch (h : BatchesAt m a n q w) (x : Nat) (hx : ¬ (w.atBatch a b).Touched .written x) :
    q.read x = m.read x := h.mem x fun hw => hx (touched_atBatch.2 (.inl hw))

/-- A walk takes the batches one on, whatever its scale. -/
theorem BatchesAt.next {q' : Memory} {w' : Work} {v : Word32} (h : BatchesAt m a b q w)
    (hw : WalkAt m (a.walk b v) (w.atBatch a b).Touched a.rows q' w') : BatchesAt m a (b + 1) q' w' where
  touched tag x := by
    rw [hw.stands.touched, touched_atBatch, h.touched, or_assoc]
    exact Nat.exists_lt_succ_right.symm
  mem := hw.mem

theorem BatchesAt.element_of_written (h : BatchesAt m a n q w) (hn : n ≤ a.batch) (hx : w.Touched .written x) :
    ∃ e, a.element e ∧ inElement x e := by
  obtain ⟨b, hb, ⟨⟨⟩, -⟩ | ⟨r, hr, ⟨⟨⟩, -⟩ | ⟨-, hx⟩⟩⟩ := (h.touched _ _).1 hx
  exact ⟨_, ⟨b, by omega, r, hr, rfl⟩, hx⟩

/-- All batches on a fresh trace have the footprint of SMMA.B (R63). -/
theorem BatchesAt.footprint (h : BatchesAt m a a.batch q w) : Footprint (a.resultByte m) (sparseBatchInputByte m a) w where
  written x := by
    rw [h.touched]
    constructor
    · rintro ⟨b, hb, ⟨⟨⟩, -⟩ | ⟨r, hr, ⟨⟨⟩, -⟩ | ⟨-, hx⟩⟩⟩
      exact ⟨b, hb, r, hr, hx⟩
    · rintro ⟨b, hb, r, hr, hx⟩
      exact ⟨b, hb, .inr ⟨r, hr, .inr ⟨nofun, hx⟩⟩⟩
  input _ x := by
    rw [h.touched]
    constructor
    · rintro ⟨b, hb, ⟨-, hx⟩ | ⟨r, hr, ⟨-, hx⟩ | ⟨h, -⟩⟩⟩
      · exact ⟨b, hb, .inl hx⟩
      · exact ⟨b, hb, .inr ⟨r, hr, hx⟩⟩
      · exact absurd rfl h
    · rintro ⟨b, hb, hx | ⟨r, hr, hx⟩⟩
      · exact ⟨b, hb, .inl ⟨rfl, hx⟩⟩
      · exact ⟨b, hb, .inr ⟨r, hr, .inl ⟨rfl, hx⟩⟩⟩

theorem SparseBatchArgs.resultByte_iff : a.resultByte m x ↔ ∃ e, a.element e ∧ inElement x e := by
  constructor
  · rintro ⟨b, hb, r, hr, hx⟩
    exact ⟨_, ⟨b, hb, r, hr, rfl⟩, hx⟩
  · rintro ⟨_, ⟨b, hb, r, hr, rfl⟩, hx⟩
    exact ⟨b, hb, r, hr, hx⟩

/-- Completed batches that leave no byte both written and read have kept to the ledger of `m` (R64). -/
theorem sparseBatches_clean (hf : s.foreign = []) {d : Nat} :
    Ensures s (fun _ q w' => w'.Clean → BatchesAt m a a.batch q.1 w')
      (loop 0 a.batch (fun b => sparseBatch a b) (s.at (m, d) Work.fresh)) := by
  have hloop := Ensures.loop (s := s) (body := fun b => sparseBatch a b)
    (fun b q w' => w'.Clean → BatchesAt m a b q.1 w') (n := a.batch) (lo := 0) (p := (m, d)) (w := Work.fresh)
    (fun _ => BatchesAt.start) fun b _ _ p w hat => by
      unfold sparseBatch
      rw [Cmd.bind_ok (updateWork_apply _ _), State.at_workNow, State.at_withWork]
      refine (Ensures.memReadMap hf).bind ?_
      rintro v _ _ ⟨-, rfl, rfl⟩
      have hstart : ∀ tag x, w.Touched tag x → (w.atBatch a b).Touched tag x := fun _ _ hw => touched_atBatch.2 (.inl hw)
      refine (sparseBody_clean (w := w.atBatch a b) (m := m) hf fun hclean =>
        (hat (hclean.of_grown hstart)).memAtBatch).mono ?_
      intro _ q w' ⟨hgrown, hwalk⟩ hclean
      exact (hat (hclean.of_grown fun tag x hw => hgrown tag x (hstart tag x hw))).next (hwalk hclean)
  rwa [Nat.zero_add] at hloop

/-- Ready batches that write over no ledger byte complete, and keep to the ledger of `m`. -/
theorem sparseBatches_complete (hf : s.foreign = []) {d : Nat}
    (hscale : ∀ b < a.batch, readable32 s.cfg (a.scales + 4 * b : Nat))
    (hready : ∀ b < a.batch, SparseReady s.cfg m (a.walkAt m b))
    (hkept : ∀ r < a.rows, ∀ i ≤ blockCountOf m a.ledger r, ∀ e, a.element e →
      ¬ inElement (ledgerAt m a.ledger r + i) e) :
    ∃ q w', loop 0 a.batch (fun b => sparseBatch a b) (s.at (m, d) Work.fresh) = .ok () (s.at q w') ∧
      BatchesAt m a a.batch q.1 w' := by
  obtain ⟨_, hloop, q, w', rfl, hat⟩ := loop_completes (fun b t => ∃ q w', t = s.at q w' ∧ BatchesAt m a b q.1 w')
    (n := a.batch) (lo := 0) (s := s.at (m, d) Work.fresh) (body := fun b => sparseBatch a b) ⟨_, _, rfl, BatchesAt.start⟩
    fun b t _ hb ⟨p, w, ht, hat⟩ => by
      rw [Nat.zero_add] at hb
      unfold sparseBatch
      rw [ht, Cmd.bind_ok (updateWork_apply _ _), State.at_workNow, State.at_withWork,
        Cmd.bind_ok (ldInput32_at hf _ _ (hscale b hb))]
      obtain ⟨hindex, hinputs, hresult⟩ := hready b hb
      have hwalk : SparseReady s.cfg m (a.walk b (p.1.read32 (a.scales + 4 * b))) := ⟨hindex, hinputs, hresult⟩
      obtain ⟨q, w', hbody, hw⟩ := sparseBody_completes (w := w.atBatch a b) hf hat.memAtBatch hwalk fun r hr i hi =>
        ⟨fun hw => by
          obtain ⟨e, he, hx⟩ := hat.element_of_written (Nat.le_of_lt hb)
            ((touched_atBatch.1 hw).resolve_right nofun)
          exact hkept r hr i hi e he hx, fun k hk => hkept r hr i hi _ ⟨b, hb, k, Nat.lt_trans hk hr, rfl⟩⟩
      exact ⟨_, hbody, q, w', rfl, hat.next hw⟩
  rw [Nat.zero_add] at hat
  exact ⟨q, w', hloop, hat⟩

/-- SMMA.B that completes has written no byte that it read as input (R64). -/
theorem smmaB_disjoint (hf : s.foreign = []) (h : exec .smmaB s = .next t) (hfault : t.inst.fault = none)
    (ha : operandsOf sparseBatchArgs s = some a) (hx : a.resultByte s.mem x) : ¬ sparseBatchInputByte s.mem a x := by
  obtain ⟨start, u, hstart, hbody⟩ := exec_completed h hfault
  rw [hstart.alone hf] at hbody
  change smmaBBody ((s.busyWith 0x21).at (s.mem, s.draws) Work.fresh) = _ at hbody
  unfold smmaBBody at hbody
  rw [ArgReader.sparseBatchArgs.bind_at ha] at hbody
  obtain ⟨_, v, hpre, hbody⟩ := Cmd.bind_eq_ok hbody
  obtain rfl := blockPrecond_eq_ok hpre
  obtain ⟨_, v, hloop, hcheck⟩ := Cmd.bind_eq_ok hbody
  obtain ⟨-, hclean⟩ := aliasCheck_eq_ok hcheck
  obtain ⟨q, w, rfl, hat⟩ := sparseBatches_clean (s := s.busyWith 0x21) hf _ _ hloop
  exact (hat hclean).footprint.disjoint hclean hx

/-- SMMA.B ends with the lowest input byte that it wrote (R64, R211). -/
theorem smmaB_alias (ha : s.accepts) (hf : s.foreign = []) (hops : operandsOf sparseBatchArgs s = some a)
    (hwhole : a.cols % 16 = 0) (hscale : ∀ b < a.batch, readable32 s.cfg (a.scales + 4 * b : Nat))
    (hready : ∀ b < a.batch, SparseReady s.cfg s.mem (a.walkAt s.mem b))
    (hkept : ∀ r < a.rows, ∀ i ≤ blockCountOf s.mem a.ledger r, ∀ e, a.element e →
      ¬ inElement (ledgerAt s.mem a.ledger r + i) e)
    (hO : a.resultByte s.mem x) (hI : sparseBatchInputByte s.mem a x)
    (hle : ∀ y, a.resultByte s.mem y → sparseBatchInputByte s.mem a y → x ≤ y) :
    ∃ t, exec .smmaB s = .next t ∧ t.inst.fault = some ⟨0x21, .aliased x⟩ := by
  obtain ⟨p, w, hloop, hat⟩ := sparseBatches_complete (s := s.busyWith 0x21) (d := s.draws) hf hscale hready hkept
  refine exec_records (i := .smmaB) (p := p) (w := w) ha hf ?_
  show smmaBBody ((s.busyWith 0x21).at (s.mem, s.draws) Work.fresh) = .error _ ((s.busyWith 0x21).at p w)
  unfold smmaBBody
  rw [ArgReader.sparseBatchArgs.bind_at hops, Cmd.bind_ok (blockPrecond_of_whole hwhole _), Cmd.bind_ok hloop]
  exact hat.footprint.aliasCheck hO hI hle

end Batches

/-! ### The obligations -/

/-- Settles O24, kernel by kernel: a run that reaches its end and passes the check there has written no byte it read. -/
theorem completedKernelsAreDisjoint : Obligations.CompletedKernelsAreDisjoint :=
  ⟨fun _ _ _ h hfault hd e he _ hx => dmmaS_disjoint h hfault hd (DenseArgs.resultByte_iff.2 ⟨e, he, hx⟩),
    fun _ _ _ _ _ h hfault hd hpcs hoffs e he _ hx =>
      dmmaA_disjoint h hfault hd hpcs hoffs (DenseArgs.resultByte_iff.2 ⟨e, he, hx⟩),
    fun _ _ _ hf h hfault ha e he _ hx => smma_disjoint hf h hfault ha (SparseArgs.resultByte_iff.2 ⟨e, he, hx⟩),
    fun _ _ _ hf h hfault ha e he _ hx => smmaB_disjoint hf h hfault ha (SparseBatchArgs.resultByte_iff.2 ⟨e, he, hx⟩)⟩

/-- Settles O23: what the lowest aliased byte is, and kernel by kernel that a run with one reaches its end and raises it. -/
theorem lowestAliasRaised : Obligations.LowestAlias := by
  unfold Obligations.LowestAlias
  simp only [← DenseArgs.resultByte_iff, ← SparseArgs.resultByte_iff]
  refine ⟨fun _ => ⟨fun _ => lowestAlias_eq_some_iff, lowestAlias_eq_none_iff⟩,
    fun s d x ha hf hd hready hfit ⟨hO, hI⟩ hle => dmmaS_alias ha hf hd hready hfit hO hI hle,
    fun s d pcs offsets x ha hf hd hpcs hoffs hready hfit ⟨hO, hI⟩ hle =>
      dmmaA_alias ha hf hd hpcs hoffs hready hfit hO hI hle,
    fun s a x ha hf hops hwhole hready hkept ⟨hO, hI⟩ hle => smma_alias ha hf hops hwhole hready hkept hO hI hle,
    fun s a x ha hf hops hwhole hscale hready hkept ⟨hO, hI⟩ hle =>
      smmaB_alias ha hf hops hwhole hscale hready hkept (SparseBatchArgs.resultByte_iff.2 hO) hI
        fun y hy => hle y (SparseBatchArgs.resultByte_iff.1 hy)⟩

end Sys2Proof.Machine
end

section
/-! PROOFS. Command words and operands (30_encoding.md): the opcode map and the decoder (R81 to R83, R90), and which
patterns each operand view takes (R84 to R86). -/

namespace Sys2Proof.Machine

/-! ### Command words -/

/-- A word is its reserved bits above its operation code (R81). -/
theorem rsvField_append_opcField (w : Word32) : rsvField w ++ opcField w = w :=
  (BitVec.extractLsb'_append_extractLsb'_eq_extractLsb' rfl).trans BitVec.extractLsb'_eq_self

theorem encode_eq_setWidth (i : Instr) : encode i = i.opc.setWidth 32 := by
  cases i <;> rfl

theorem decode_encode (i : Instr) : decode (encode i) = .ok i := by
  cases i <;> rfl

theorem legalWord_encode (i : Instr) : legalWord (encode i) = true := by
  cases i <;> rfl

/-- The opcode map read the other way (R82). -/
theorem opc_of_instrOfOpc {o : BitVec 8} {i : Instr} (h : instrOfOpc o = some i) : i.opc = o := by
  simp only [instrOfOpc, ite_eq_iff, Option.some.injEq, reduceCtorEq, and_false, or_false] at h
  rcases h with ⟨rfl, rfl⟩ | ⟨-, ⟨rfl, rfl⟩ | ⟨-, ⟨rfl, rfl⟩ | ⟨-, ⟨rfl, rfl⟩ | ⟨-, ⟨rfl, rfl⟩ | ⟨-, rfl, rfl⟩⟩⟩⟩⟩ <;> rfl

/-- A word decodes to a command exactly when it is that command's word (R82, R90). -/
theorem decode_eq_ok_iff {w : Word32} {i : Instr} : decode w = .ok i ↔ w = encode i := by
  refine ⟨fun h => ?_, fun h => h ▸ decode_encode i⟩
  unfold decode at h
  split at h
  case isTrue hrsv =>
    cases ho : instrOfOpc (opcField w) with
    | none =>
      rw [ho] at h
      cases h
    | some j =>
      rw [ho] at h
      cases h
      rw [encode, opc_of_instrOfOpc ho, ← hrsv, rsvField_append_opcField]
  case isFalse => cases h

/-- A word that is not legal decodes to no command (R83). -/
theorem decode_of_not_legal {w : Word32} (h : legalWord w = false) : decode w = .error (.illegalCmd w) := by
  cases hd : decode w with
  | ok i => rw [decode_eq_ok_iff.1 hd, legalWord_encode] at h; cases h
  | error e => rw [(decode_error hd).1]

/-- Settles O1: each word evaluated, and the six commands one by one. -/
theorem opcodeMapDecodes : Obligations.OpcodeMapDecodes :=
  ⟨rfl, rfl, rfl, rfl, rfl, rfl, rfl, rfl, rfl, rfl, rfl, fun i _ => decode_encode i⟩

/-- Settles O2: a word decodes to a command exactly when it is the command's, and a refused word is no legal one. -/
theorem decoderTotal : Obligations.DecoderTotal := by
  intro w
  refine ⟨fun i => ?_, ?_, fun h => (decode_error h).2, decode_of_not_legal⟩
  · rw [decode_eq_ok_iff, encode_eq_setWidth, show w &&& 0xFFFFFFFF = w from BitVec.and_allOnes]
  · cases hd : decode w with
    | ok i => exact .inl ⟨i, rfl⟩
    | error e => exact .inr (by rw [(decode_error hd).1])

/-! ### Operand views -/

/-- An int32 view takes the sign extensions of the int32 (R85). -/
theorem viewInt_eq_some_iff {v : Word64} {x : Int} : viewInt v = some x ↔ in32 x = true ∧ v = BitVec.ofInt 64 x := by
  rw [viewInt, Option.ite_none_right_eq_some, Option.some.injEq]
  constructor
  · rintro ⟨hv, rfl⟩
    have hlo := BitVec.le_toInt (v.setWidth 32)
    have hhi := BitVec.toInt_lt (x := v.setWidth 32)
    exact ⟨(in32_iff _).2 (by omega), hv.symm⟩
  · rintro ⟨hx, rfl⟩
    have hw : (BitVec.ofInt 64 x).setWidth 32 = bits32 x := by
      apply BitVec.eq_of_toNat_eq
      simp only [bits32, BitVec.toNat_setWidth, BitVec.toNat_ofInt]
      omega
    rw [hw, BitVec.signExtend, toInt_bits32_of_in32 hx]
    exact ⟨rfl, rfl⟩

/-- A dimension view takes the int32 that are not negative (R85). -/
theorem viewDim_eq_some_iff {v : Word64} {n : Nat} : viewDim v = some n ↔ n < 2147483648 ∧ v = BitVec.ofNat 64 n := by
  have hint : viewDim v = some n ↔ viewInt v = some (n : Int) := by
    unfold viewDim
    cases viewInt v with
    | none => simp
    | some x =>
      simp only [Option.ite_none_right_eq_some, Option.some.injEq]
      omega
  rw [hint, viewInt_eq_some_iff, in32_iff, BitVec.ofInt_natCast]
  exact and_congr_left fun _ => by omega

/-- A binary32 in the low half of a register (R86). -/
theorem setWidth_eq_zero_append (f : Word32) : f.setWidth 64 = (0 : BitVec 32) ++ f :=
  BitVec.setWidth_eq_append (by omega)

/-- A binary32 view takes the patterns whose upper half is 0 (R86). -/
theorem viewF32_eq_some_iff {v : Word64} {f : Word32} : viewF32 v = some f ↔ v = (0 : BitVec 32) ++ f := by
  rw [viewF32, Option.ite_none_right_eq_some, Option.some.injEq]
  constructor
  · rintro ⟨hv, rfl⟩
    rw [← hv, BitVec.setWidth_eq_extractLsb' (by omega),
      BitVec.extractLsb'_append_extractLsb'_eq_extractLsb' (len₂ := 32) (by omega)]
    exact BitVec.extractLsb'_eq_self.symm
  · rintro rfl
    exact ⟨BitVec.extractLsb'_append_eq_left, BitVec.setWidth_append_eq_right⟩

/-! ### The patterns that `viewAccepts` counts as fitting are those to which the view gives a value -/

theorem viewAccepts_addr (addrW : Nat) (v : Word64) :
    viewAccepts addrW .addr v = true ↔ ∃ a, viewAddr addrW v = some a := by
  simp [viewAccepts, viewAddr]

/-- An int32 is the number that its pattern is as a signed number (R85). -/
theorem toInt_ofInt_of_in32 {x : Int} (h : in32 x = true) : (BitVec.ofInt 64 x).toInt = x := by
  rw [in32_iff] at h
  rw [BitVec.toInt_ofInt, Int.bmod_eq_of_le (by omega) (by omega)]

theorem viewAccepts_int (addrW : Nat) (v : Word64) : viewAccepts addrW .int v = true ↔ ∃ x, viewInt v = some x := by
  simp only [viewAccepts, Bool.and_eq_true, decide_eq_true_eq, viewInt_eq_some_iff, ← in32_iff]
  constructor
  · exact fun h => ⟨v.toInt, h, BitVec.ofInt_toInt.symm⟩
  · rintro ⟨x, hx, rfl⟩
    rwa [toInt_ofInt_of_in32 hx]

theorem viewAccepts_dim (addrW : Nat) (v : Word64) : viewAccepts addrW .dim v = true ↔ ∃ n, viewDim v = some n := by
  simp only [viewAccepts, Bool.and_eq_true, decide_eq_true_eq, viewDim_eq_some_iff]
  constructor
  · rintro ⟨hlo, hhi⟩
    obtain ⟨n, hn⟩ := Int.eq_ofNat_of_zero_le hlo
    exact ⟨n, by omega, by rw [← BitVec.ofInt_natCast, ← hn, BitVec.ofInt_toInt]⟩
  · rintro ⟨n, hn, rfl⟩
    rw [← BitVec.ofInt_natCast, toInt_ofInt_of_in32 ((in32_iff _).2 (by omega))]
    omega

theorem viewAccepts_f32 (addrW : Nat) (v : Word64) : viewAccepts addrW .f32 v = true ↔ ∃ f, viewF32 v = some f := by
  simp only [viewAccepts, decide_eq_true_eq, viewF32_eq_some_iff, ← setWidth_eq_zero_append]
  constructor
  · intro h
    refine ⟨v.setWidth 32, BitVec.eq_of_toNat_eq ?_⟩
    simp only [BitVec.toNat_setWidth]
    omega
  · rintro ⟨f, rfl⟩
    have hf := f.isLt
    rw [BitVec.toNat_setWidth]
    omega

/-! ### Operands of a register -/

section Registers

variable {α : Type} {s : State} {i : Fin 10} {v : Word64}

theorem argInt_of_some (h : s.inst.args[i] = some v) : argInt i s = orBadArg i v (viewInt v) s :=
  Cmd.bind_ok (readArg_of_some h)

theorem argDim_of_some (h : s.inst.args[i] = some v) : argDim i s = orBadArg i v (viewDim v) s :=
  Cmd.bind_ok (readArg_of_some h)

theorem argF32_of_some (h : s.inst.args[i] = some v) : argF32 i s = orBadArg i v (viewF32 v) s :=
  Cmd.bind_ok (readArg_of_some h)

theorem orBadArg_eq_ok_iff {r : Option α} {x : α} : orBadArg i v r s = .ok x s ↔ r = some x := by
  cases r with
  | none => simp [orBadArg_none]
  | some y => simp [orBadArg_some]

/-- A pattern to which the view gives no value raises (R204). -/
theorem orBadArg_of_forall_ne {r : Option α} (h : ∀ x, r ≠ some x) : orBadArg i v r s = .error (.badArg i v) s := by
  rw [Option.eq_none_iff_forall_ne_some.2 h, orBadArg_none]

end Registers

/-- Settles O15: what each view takes, and that a register without a value raises before its view is asked. -/
theorem operandViews : Obligations.OperandViews := by
  intro s i
  refine ⟨fun hnone => ?_, fun v hsome => ?_⟩
  · have hread := readArg_of_none hnone
    exact ⟨Cmd.bind_error hread, Cmd.bind_error hread, Cmd.bind_error hread, Cmd.bind_error hread⟩
  · rw [argAddr_of_some hsome, argInt_of_some hsome, argDim_of_some hsome, argF32_of_some hsome]
    refine ⟨?_, fun x => orBadArg_eq_ok_iff.trans viewInt_eq_some_iff,
      fun hbad => orBadArg_of_forall_ne fun x hx => ?_, fun n => orBadArg_eq_ok_iff.trans viewDim_eq_some_iff,
      fun hbad => orBadArg_of_forall_ne fun n hn => ?_, fun f => orBadArg_eq_ok_iff.trans viewF32_eq_some_iff,
      fun hbad => orBadArg_of_forall_ne fun f hf => hbad f (viewF32_eq_some_iff.1 hf)⟩
    · by_cases hfit : v.toNat < 2 ^ s.cfg.addrW <;> simp [viewAddr, hfit]
    · obtain ⟨hfit, hv⟩ := viewInt_eq_some_iff.1 hx
      exact hbad x hfit hv
    · obtain ⟨hfit, hv⟩ := viewDim_eq_some_iff.1 hn
      exact hbad n hfit hv

end Sys2Proof.Machine
end

section
/-! PROOFS. The order of operand decoding (30_encoding.md R88): every command begins by reading its registers through their
views in ascending order, and nothing that it does after them raises an operand's fault. -/

namespace Sys2Proof.Machine

/-! ### What comes after the operands -/

/-- The causes that only the reading of an operand raises (R203, R204). -/
def Cause.ofOperand : Cause → Bool
  | .unwrittenArg _ => true
  | .badArg _ _ => true
  | .illegalCmd _ => false
  | .precondBlock _ => false
  | .debugAssert _ => false
  | .ledgerRange _ _ _ => false
  | .memUnadmitted _ _ _ => false
  | .misaligned _ _ => false
  | .intOverflow _ => false
  | .aliased _ => false

/-- Whatever the piece raises, it is not an operand's fault. -/
def PastOperands {α : Type} (m : Cmd α) : Prop := ∀ s c t, m s = .error c t → c.ofOperand = false

namespace PastOperands

variable {α β : Type}

theorem of_ok {m : Cmd α} (h : ∀ s, ∃ a t, m s = .ok a t) : PastOperands m := fun s c t he => by
  obtain ⟨a, u, hok⟩ := h s
  rw [hok] at he
  cases he

theorem pure (a : α) : PastOperands (Pure.pure a : Cmd α) := of_ok fun s => ⟨a, s, rfl⟩

theorem raise {c : Cause} (h : c.ofOperand = false) : PastOperands (Machine.raise c : Cmd α) := fun _ _ _ he => by
  cases he
  exact h

theorem config : PastOperands Machine.config := of_ok fun s => ⟨s.cfg, s, rfl⟩

theorem work : PastOperands Machine.work := of_ok fun s => ⟨s.workNow, s, rfl⟩

theorem updateWork (f : Work → Work) : PastOperands (Machine.updateWork f) := of_ok fun _ => ⟨(), _, rfl⟩

theorem bind {m : Cmd α} {f : α → Cmd β} (hm : PastOperands m) (hf : ∀ a, PastOperands (f a)) :
    PastOperands (m >>= f) := fun s c t he => by
  rcases Cmd.bind_eq_error he with he | ⟨a, u, -, he⟩
  · exact hm s c t he
  · exact hf a u c t he

theorem loop {body : Nat → Cmd Unit} (h : ∀ i, PastOperands (body i)) :
    ∀ n lo, PastOperands (Machine.loop lo n body)
  | 0, _ => pure ()
  | n + 1, lo => bind (h lo) fun _ => loop h n (lo + 1)

/-! #### The shared operations -/

theorem check (k : Kind) (al : Bool) (a : Int) (n : Nat) : PastOperands (Machine.check k al a n) := fun s c t he => by
  have hc : checkAccess s.cfg k al a n = some c := by
    unfold Machine.check at he
    split at he <;> cases he
    assumption
  unfold checkAccess at hc
  split_ifs at hc <;> cases hc <;> rfl

theorem readByte (x : Nat) : PastOperands (Machine.readByte x) := of_ok fun s => by
  unfold Machine.readByte
  split <;> exact ⟨_, _, rfl⟩

theorem readBytes : ∀ n a, PastOperands (Machine.readBytes a n)
  | 0, _ => pure []
  | n + 1, a => bind (readByte a) fun _ => bind (readBytes n (a + 1)) fun _ => pure _

theorem memRead (tag : Tag) (al : Bool) (a : Int) (n : Nat) : PastOperands (Machine.memRead tag al a n) :=
  bind (check _ _ _ _) fun _ => bind (updateWork _) fun _ => readBytes _ _

theorem memWrite (al : Bool) (a : Int) (bytes : List Byte) : PastOperands (Machine.memWrite al a bytes) :=
  bind (check _ _ _ _) fun _ => bind (updateWork _) fun _ => of_ok fun _ => ⟨(), _, rfl⟩

/-- A load is a read and a way to take the bytes. -/
theorem load {f : List Byte → α} (tag : Tag) (al : Bool) (a : Int) (n : Nat) :
    PastOperands (Machine.memRead tag al a n >>= fun v => Pure.pure (f v)) :=
  bind (memRead tag al a n) fun _ => pure _

theorem orNaN (v : Option Word32) : PastOperands (Machine.orNaN v) := of_ok fun s => by
  cases v <;> exact ⟨_, _, rfl⟩

theorem acc32 (x : Int) (site : Work → Site) : PastOperands (Machine.acc32 x site) := fun s c t he => by
  unfold Machine.acc32 at he
  split at he
  · split at he <;> cases he
    rfl
  · cases he

theorem dotBlock : PastOperands Machine.dotBlock := bind config fun _ => updateWork _

theorem addDot (x : Int) (site : Work → Site) : PastOperands (Machine.addDot x site) :=
  bind work fun _ => bind (acc32 _ _) fun _ => updateWork _

theorem addRowSum (x : Int) (site : Work → Site) : PastOperands (Machine.addRowSum x site) :=
  bind work fun _ => bind (acc32 _ _) fun _ => updateWork _

theorem accumulate (e : Int) (c : Word32) : PastOperands (Machine.accumulate e c) :=
  bind (load _ _ _ _) fun _ => bind (orNaN _) fun _ => memWrite _ _ _

theorem aliasCheck : PastOperands Machine.aliasCheck := fun s c t he => by
  unfold Machine.aliasCheck at he
  split at he <;> cases he
  rfl

/-! #### The kernels -/

theorem denseBlock (d : DenseArgs) (b r k : Nat) : PastOperands (Machine.denseBlock d b r k) :=
  bind (updateWork _) fun _ => bind (load _ _ _ _) fun _ => bind (updateWork _) fun _ => bind (load _ _ _ _) fun _ =>
    bind (updateWork _) fun _ => bind dotBlock fun _ => bind work fun _ => addDot _ _

theorem denseColumn (d : DenseArgs) (b r c : Nat) : PastOperands (Machine.denseColumn d b r c) :=
  bind (updateWork _) fun _ => bind (load _ _ _ _) fun _ => bind (load _ _ _ _) fun _ => bind (addDot _ _) fun _ =>
    pure _

theorem denseRow (d : DenseArgs) (b : Nat) (bs : Word32) (r : Nat) : PastOperands (Machine.denseRow d b bs r) :=
  have rowDot : PastOperands (Machine.rowDot d b r) :=
    bind (updateWork _) fun _ => bind (loop (fun k => denseBlock d b r k) _ _) fun _ =>
      loop (fun c => bind (denseColumn d b r c) fun _ => pure _) _ _
  bind (updateWork _) fun _ => bind rowDot fun _ => bind work fun _ => bind (orNaN _) fun _ => accumulate _ _

theorem denseBatch (d : DenseArgs) (b : Nat) : PastOperands (Machine.denseBatch d b) :=
  bind (updateWork _) fun _ => bind (load _ _ _ _) fun _ => loop (fun r => denseRow d b _ r) _ _

theorem scale3 (adj bs cs : Word32) : PastOperands (Machine.scale3 adj bs cs) :=
  bind config fun c => by
    cases c.asymOrder with
    | leftToRight => exact bind (orNaN _) fun _ => orNaN _
    | scaleFirst => exact bind (orNaN _) fun _ => orNaN _

theorem asymRow (d : DenseArgs) (pcs b : Nat) (bs off : Word32) (r : Nat) :
    PastOperands (Machine.asymRow d pcs b bs off r) :=
  have rowDotSum : PastOperands (Machine.rowDotSum d b r) :=
    bind (updateWork _) fun _ =>
      bind (loop (fun k => bind (denseBlock d b r k) fun _ => bind work fun _ => addRowSum _ _) _ _) fun _ =>
        loop (fun c => bind (denseColumn d b r c) fun _ => addRowSum _ _) _ _
  bind (updateWork _) fun _ => bind rowDotSum fun _ => bind work fun _ =>
    bind (bind (acc32 _ _) fun _ => acc32 _ _) fun _ => bind (load _ _ _ _) fun _ => bind (scale3 _ _ _) fun _ =>
      accumulate _ _

theorem asymBatch (d : DenseArgs) (pcs offsets b : Nat) : PastOperands (Machine.asymBatch d pcs offsets b) :=
  bind (updateWork _) fun _ => bind (load _ _ _ _) fun _ => bind (load _ _ _ _) fun _ =>
    loop (fun r => asymRow d pcs b _ _ r) _ _

theorem blockPrecond (cols : Nat) : PastOperands (Machine.blockPrecond cols) :=
  bind config fun c => by
    split
    · exact pure ()
    · split <;> exact raise rfl

theorem nextLedgerByte : PastOperands Machine.nextLedgerByte :=
  bind work fun _ => bind (load _ _ _ _) fun _ => bind (updateWork _) fun _ => pure _

theorem sparseEntry (a : SparseArgs) (r i : Nat) : PastOperands (Machine.sparseEntry a r i) :=
  bind (updateWork _) fun _ => bind nextLedgerByte fun bi => by
    dsimp only
    split
    · exact raise rfl
    · exact bind (load _ _ _ _) fun _ => bind (updateWork _) fun _ => bind work fun _ => bind (load _ _ _ _) fun _ =>
        bind (updateWork _) fun _ => bind dotBlock fun _ => bind work fun _ => bind (addDot _ _) fun _ => updateWork _

theorem sparseRow (a : SparseArgs) (r : Nat) : PastOperands (Machine.sparseRow a r) :=
  bind (updateWork _) fun _ => bind nextLedgerByte fun _ => bind (updateWork _) fun _ =>
    bind (loop (fun i => sparseEntry a r i) _ _) fun _ => bind work fun _ => bind (orNaN _) fun _ => accumulate _ _

theorem sparseBody (a : SparseArgs) : PastOperands (Machine.sparseBody a) :=
  bind (updateWork _) fun _ => loop (fun r => sparseRow a r) _ _

theorem sparseBatch (a : SparseBatchArgs) (b : Nat) : PastOperands (Machine.sparseBatch a b) :=
  bind (updateWork _) fun _ => bind (load _ _ _ _) fun _ => sparseBody _

end PastOperands

/-! ### Reading the operands -/

/-- The piece reads register `j` through the view `v`, and does nothing else. -/
structure ReadsView {α : Type} (v : View) (j : Fin 10) (m : Cmd α) : Prop where
  unwritten : ∀ s : State, s.inst.args[j] = none → m s = .error (.unwrittenArg j) s
  refused : ∀ (s : State) (x : Word64), s.inst.args[j] = some x → ¬ viewAccepts s.cfg.addrW v x = true →
    m s = .error (.badArg j x) s
  accepted : ∀ (s : State) (x : Word64), s.inst.args[j] = some x → viewAccepts s.cfg.addrW v x = true →
    ∃ a, m s = .ok a s

namespace ReadsView

/-- A register read, and then the value that the view gives to its pattern. -/
theorem of_view {α : Type} {v : View} {j : Fin 10} {m : Cmd α} {view : Nat → Word64 → Option α}
    (hview : ∀ addrW x, viewAccepts addrW v x = true ↔ ∃ a, view addrW x = some a)
    (hnone : ∀ s : State, s.inst.args[j] = none → m s = .error (.unwrittenArg j) s)
    (hsome : ∀ (s : State) (x : Word64), s.inst.args[j] = some x → m s = orBadArg j x (view s.cfg.addrW x) s) :
    ReadsView v j m where
  unwritten := hnone
  refused s x hx h := (hsome s x hx).trans (orBadArg_of_forall_ne fun a ha => h ((hview _ _).2 ⟨a, ha⟩))
  accepted s x hx h := by
    obtain ⟨a, ha⟩ := (hview _ _).1 h
    exact ⟨a, (hsome s x hx).trans (orBadArg_eq_ok_iff.2 ha)⟩

theorem addr (j : Fin 10) : ReadsView .addr j (argAddr j) :=
  of_view viewAccepts_addr (fun _ h => Cmd.bind_error (readArg_of_none h)) fun _ _ h => Cmd.bind_ok (readArg_of_some h)

theorem dim (j : Fin 10) : ReadsView .dim j (argDim j) :=
  of_view viewAccepts_dim (fun _ h => Cmd.bind_error (readArg_of_none h)) fun _ _ h => argDim_of_some h

theorem int (j : Fin 10) : ReadsView .int j (argInt j) :=
  of_view viewAccepts_int (fun _ h => Cmd.bind_error (readArg_of_none h)) fun _ _ h => argInt_of_some h

theorem f32 (j : Fin 10) : ReadsView .f32 j (argF32 j) :=
  of_view viewAccepts_f32 (fun _ h => Cmd.bind_error (readArg_of_none h)) fun _ _ h => argF32_of_some h

end ReadsView

/-- The piece begins by reading the registers from `k` on through the views, in ascending order: it raises the first fault
of those at once, and where there is none it raises no operand's fault (R88). -/
def DecodesFirst {α : Type} (k : Nat) (vs : List View) (m : Cmd α) : Prop :=
  ∀ s : State,
    (∀ c, operandFault s.cfg.addrW s.inst.args k vs = some c → m s = .error c s) ∧
    (operandFault s.cfg.addrW s.inst.args k vs = none → ∀ c t, m s = .error c t → c.ofOperand = false)

section FirstFault

variable {addrW : Nat} {args : Vector (Option Word64) 10} {j : Fin 10} {v : View} {vs : List View} {x : Word64}

theorem operandFault_of_none (h : args[j] = none) :
    operandFault addrW args j (v :: vs) = some (.unwrittenArg j) := by
  have hget : args[(j : Nat)] = none := h
  simp [operandFault, hget]

theorem operandFault_of_accepted (h : args[j] = some x) (hfit : viewAccepts addrW v x = true) :
    operandFault addrW args j (v :: vs) = operandFault addrW args (j + 1) vs := by
  have hget : args[(j : Nat)] = some x := h
  simp [operandFault, hget, hfit]

theorem operandFault_of_refused (h : args[j] = some x) (hbad : ¬ viewAccepts addrW v x = true) :
    operandFault addrW args j (v :: vs) = some (.badArg j x) := by
  have hget : args[(j : Nat)] = some x := h
  simp [operandFault, hget, hbad]

end FirstFault

namespace DecodesFirst

variable {α β : Type}

theorem past {m : Cmd α} (h : PastOperands m) (k : Nat) : DecodesFirst k [] m :=
  fun s => ⟨nofun, fun _ c t => h s c t⟩

theorem cons {v : View} {vs : List View} {j : Fin 10} {k : Nat} {m : Cmd α} {f : α → Cmd β} (hm : ReadsView v j m)
    (hf : ∀ a, DecodesFirst (j + 1) vs (f a)) (hk : k = j := by rfl) : DecodesFirst k (v :: vs) (m >>= f) := by
  subst hk
  intro s
  cases hx : s.inst.args[j] with
  | none =>
    rw [operandFault_of_none hx, Cmd.bind_error (hm.unwritten s hx)]
    exact ⟨fun c hc => by rw [Option.some.inj hc], nofun⟩
  | some x =>
    by_cases hfit : viewAccepts s.cfg.addrW v x = true
    · obtain ⟨a, ha⟩ := hm.accepted s x hx hfit
      rw [operandFault_of_accepted hx hfit, Cmd.bind_ok ha]
      exact hf a s
    · rw [operandFault_of_refused hx hfit, Cmd.bind_error (hm.refused s x hx hfit)]
      exact ⟨fun c hc => by rw [Option.some.inj hc], nofun⟩

/-- Every command begins with its operands, register by register (R87, R88). -/
theorem bodyOf (i : Instr) : DecodesFirst 0 i.views (bodyOf i) := by
  cases i with
  | dot16 =>
    refine cons (.addr 0) fun a => cons (.addr 1) fun b => cons (.addr 2) fun d => past ?_ _
    exact .bind (.memRead _ _ _ _) fun _ => .bind (.updateWork _) fun _ => .bind (.memRead _ _ _ _) fun _ =>
      .bind (.updateWork _) fun _ => .bind .dotBlock fun _ => .bind .work fun _ => .memWrite _ _ _
  | hred =>
    refine cons (.addr 0) fun a => cons (.addr 1) fun d => past ?_ _
    exact .bind (.memRead _ _ _ _) fun _ => .bind (.updateWork _) fun _ => .bind .work fun _ => .memWrite _ _ _
  | dmmaS =>
    simp only [Machine.bodyOf, dmmaSBody, denseArgs, bind_assoc, pure_bind]
    refine cons (.addr 0) fun _ => cons (.dim 1) fun _ => cons (.dim 2) fun _ => cons (.addr 3) fun _ =>
      cons (.addr 4) fun _ => cons (.dim 5) fun _ => cons (.addr 6) fun _ => cons (.int 7) fun _ => past ?_ _
    exact .bind (.loop (fun b => .denseBatch _ b) _ _) fun _ => .aliasCheck
  | dmmaA =>
    simp only [Machine.bodyOf, dmmaABody, denseArgs, bind_assoc, pure_bind]
    refine cons (.addr 0) fun _ => cons (.dim 1) fun _ => cons (.dim 2) fun _ => cons (.addr 3) fun _ =>
      cons (.addr 4) fun _ => cons (.dim 5) fun _ => cons (.addr 6) fun _ => cons (.int 7) fun _ =>
        cons (.addr 8) fun _ => cons (.addr 9) fun _ => past ?_ _
    exact .bind (.loop (fun b => .asymBatch _ _ _ b) _ _) fun _ => .aliasCheck
  | smma =>
    simp only [Machine.bodyOf, smmaBody, sparseArgs, bind_assoc, pure_bind]
    refine cons (.addr 0) fun _ => cons (.addr 1) fun _ => cons (.dim 2) fun _ => cons (.dim 3) fun _ =>
      cons (.addr 4) fun _ => cons (.f32 5) fun _ => cons (.addr 6) fun _ => cons (.int 7) fun _ => past ?_ _
    exact .bind (.blockPrecond _) fun _ => .bind (.sparseBody _) fun _ => .aliasCheck
  | smmaB =>
    simp only [Machine.bodyOf, smmaBBody, sparseBatchArgs, bind_assoc, pure_bind]
    refine cons (.addr 0) fun _ => cons (.addr 1) fun _ => cons (.dim 2) fun _ => cons (.dim 3) fun _ =>
      cons (.addr 4) fun _ => cons (.addr 5) fun _ => cons (.dim 6) fun _ => cons (.addr 7) fun _ =>
        cons (.int 8) fun _ => past ?_ _
    exact .bind (.blockPrecond _) fun _ => .bind (.loop (fun b => .sparseBatch _ b) _ _) fun _ => .aliasCheck

end DecodesFirst

/-- A command that records a fault, with no other agent at work, raised its cause (R201). -/
theorem exec_fault_raised {i : Instr} {s t : State} {o : BitVec 8} {c : Cause} (hf : s.foreign = [])
    (h : exec i s = .next t) (hfault : t.inst.fault = some ⟨o, c⟩) :
    ∃ u, bodyOf i (s.startCommand i.opc []) = .error c u := by
  obtain ⟨hacc, rfl⟩ := exec_next h
  have hend : (endState (bodyOf i (s.startCommand i.opc []))).inst.fault = none :=
    (bodyOf_undisturbed i _).fault.trans hacc.1
  rw [runBody_of_nil hf] at hfault
  have hopc : o = i.opc := by
    rcases finish_fault_cases i.opc hend with hnone | ⟨c', hc'⟩
    · rw [hnone] at hfault
      cases hfault
    · rw [hc'] at hfault
      cases hfault
      rfl
  exact eq_error_of_finish_fault hend (hopc ▸ hfault)

/-- Settles O16: every command begins with its operands, and nothing after them raises an operand's fault. -/
theorem operandFaultsInOrder : Obligations.OperandFaultsInOrder := by
  intro i s hacc hidle hf
  obtain ⟨hfirst, hpast⟩ := DecodesFirst.bodyOf i (s.startCommand i.opc [])
  refine ⟨fun c hc => exec_of_early_error hacc hidle hf (hfirst c hc), fun hnone => ?_⟩
  obtain ⟨t, ht, -⟩ := commandEnds i s hacc
  have hcause : ∀ o c, t.inst.fault = some ⟨o, c⟩ → c.ofOperand = false := fun o c hfault => by
    obtain ⟨u, hu⟩ := exec_fault_raised hf ht hfault
    exact hpast hnone c u hu
  exact ⟨t, ht, fun o k h => Bool.noConfusion (hcause o _ h), fun o k v h => Bool.noConfusion (hcause o _ h)⟩

end Sys2Proof.Machine
end

section
/-! PROOFS. The assembler (30_encoding.md R91 to R93): which literals fit an operand's view, what an assembled line is, and
that its interactions leave every operand in its register. -/

namespace Sys2Proof.Machine

/-! ### Decimal fractions that binary32 holds -/

/-- The pattern of an exact decimal is the finite one with that sign and that magnitude (R91). -/
theorem exactDecimal_eq_some_iff {negative : Bool} {digits places : Nat} {f : Word32} :
    exactDecimal negative digits places = some f ↔
      fIsFinite f = true ∧ fSign f = negative ∧ fMag f * 10 ^ places = digits * 2 ^ 149 := by
  unfold exactDecimal
  simp only [Option.ite_none_right_eq_some, Option.some.injEq]
  constructor
  · rintro ⟨⟨hscaled, hfin, hmag⟩, rfl⟩
    exact ⟨hfin, fSign_roundMag _ _ _, by rw [hmag, hscaled]⟩
  · rintro ⟨hfin, rfl, hmag⟩
    have hpos : 0 < 10 ^ places := by positivity
    have hdiv : digits * 2 ^ 149 / 10 ^ places = fMag f := by rw [← hmag, Nat.mul_div_cancel _ hpos]
    have hround : withSign (fSign f) (roundMag (fMag f) 0) = f := by
      have hlt := (fIsFinite_iff f).1 hfin
      have hbits := roundBits_exact hlt 0
      rw [Nat.pow_zero, Nat.mul_one, ← fMag_eq_magValue] at hbits
      rw [roundMag_eq, hbits, Nat.min_eq_left (Nat.le_of_lt hlt), withSign_fSign]
    rw [hdiv, hround]
    exact ⟨⟨hmag, hfin, rfl⟩, rfl⟩

/-- The value of an exact decimal (R91). -/
theorem fUnits_of_exactDecimal {negative : Bool} {digits places : Nat} {f : Word32}
    (h : exactDecimal negative digits places = some f) :
    fUnits f * 10 ^ places = (if negative then -(digits : Int) else digits) * 2 ^ 149 := by
  obtain ⟨-, rfl, hmag⟩ := exactDecimal_eq_some_iff.1 h
  have hmagI : (fMag f : Int) * 10 ^ places = digits * 2 ^ 149 := by exact_mod_cast hmag
  unfold fUnits
  split
  · rw [neg_mul, neg_mul, hmagI]
  · exact hmagI

/-- A decimal has a pattern exactly when binary32 holds its value: of the two zeros, the one with its sign (R91). -/
theorem exists_exactDecimal_iff {negative : Bool} {digits places : Nat} :
    (∃ f, exactDecimal negative digits places = some f) ↔
      ∃ f, fIsFinite f = true ∧ fUnits f * 10 ^ places = (if negative then -(digits : Int) else digits) * 2 ^ 149 := by
  constructor
  · rintro ⟨f, hf⟩
    exact ⟨f, (exactDecimal_eq_some_iff.1 hf).1, fUnits_of_exactDecimal hf⟩
  · rintro ⟨f, hfin, hunits⟩
    have hlt := (fIsFinite_iff f).1 hfin
    have hmag : fMag f * 10 ^ places = digits * 2 ^ 149 := by
      have habs := congrArg Int.natAbs hunits
      rw [Int.natAbs_mul, Int.natAbs_mul, natAbs_fUnits, Int.natAbs_pow, Int.natAbs_pow] at habs
      rw [show digits = (if negative then -(digits : Int) else digits).natAbs by split <;> omega]
      exact habs
    refine ⟨withSign negative (f.toNat % 2147483648), exactDecimal_eq_some_iff.2
      ⟨(fIsFinite_withSign (by omega)).2 hlt, fSign_withSign (by omega), ?_⟩⟩
    rw [fMag_withSign (by omega), ← fMag_eq_magValue, hmag]

/-- A sign and a magnitude make the integer. -/
theorem signed_natAbs (x : Int) : (if decide (x < 0) then -(x.natAbs : Int) else x.natAbs) = x := by
  simp only [decide_eq_true_eq]
  split <;> omega

/-! ### Literals -/

/-- A literal has a pattern for a view exactly when it fits the view (R91, R93). -/
theorem exists_literalBits_iff (addrW : Nat) :
    ∀ v l, (∃ x, literalBits addrW v l = some x) ↔ literalFits addrW v l
  | .addr, .hex n => by simp [literalBits, literalFits]
  | .dim, .dec x => by
    simp only [literalBits, literalFits, in32_iff, Option.ite_none_right_eq_some, exists_and_left, Option.some.injEq,
      exists_eq', and_true]
    omega
  | .int, .dec x => by simp [literalBits, literalFits, in32_iff]
  | .f32, .hex n => by simp [literalBits, literalFits]
  | .f32, .dec x => by
    have h := exists_exactDecimal_iff (negative := decide (x < 0)) (digits := x.natAbs) (places := 0)
    rw [signed_natAbs] at h
    simpa [literalBits, literalFits, Option.map_eq_some_iff] using h
  | .f32, .frac negative digits places => by
    simpa [literalBits, literalFits, Option.map_eq_some_iff] using exists_exactDecimal_iff
  | .addr, .dec _ | .addr, .frac _ _ _ | .dim, .hex _ | .dim, .frac _ _ _ | .int, .hex _ | .int, .frac _ _ _ => by
    simp [literalBits, literalFits]

/-! #### The pattern of a literal, read through its view, is the literal -/

section Views

variable {addrW n : Nat} {z : Int} {x : Word64}

theorem viewAddr_of_literalBits (h : literalBits addrW .addr (.hex n) = some x) : viewAddr addrW x = some n := by
  simp only [literalBits, Option.ite_none_right_eq_some, Option.some.injEq] at h
  obtain ⟨⟨hspace, hword⟩, rfl⟩ := h
  rw [viewAddr, BitVec.toNat_ofNat, Nat.mod_eq_of_lt hword, if_pos hspace]

theorem viewDim_of_literalBits (h : literalBits addrW .dim (.dec z) = some x) :
    ∃ m : Nat, (m : Int) = z ∧ viewDim x = some m := by
  simp only [literalBits, in32_iff, Option.ite_none_right_eq_some, Option.some.injEq] at h
  obtain ⟨⟨hpos, -, hhi⟩, rfl⟩ := h
  obtain ⟨m, rfl⟩ := Int.eq_ofNat_of_zero_le hpos
  exact ⟨m, rfl, viewDim_eq_some_iff.2 ⟨by omega, BitVec.ofInt_natCast _ _⟩⟩

theorem viewInt_of_literalBits (h : literalBits addrW .int (.dec z) = some x) : viewInt x = some z := by
  simp only [literalBits, Option.ite_none_right_eq_some, Option.some.injEq] at h
  obtain ⟨hfit, rfl⟩ := h
  exact viewInt_eq_some_iff.2 ⟨hfit, rfl⟩

theorem viewF32_of_literalBits_hex (h : literalBits addrW .f32 (.hex n) = some x) :
    n < 2 ^ 32 ∧ viewF32 x = some (BitVec.ofNat 32 n) := by
  simp only [literalBits, Option.ite_none_right_eq_some, Option.some.injEq] at h
  obtain ⟨hfit, rfl⟩ := h
  refine ⟨hfit, viewF32_eq_some_iff.2 ?_⟩
  rw [← setWidth_eq_zero_append]
  apply BitVec.eq_of_toNat_eq
  simp only [BitVec.toNat_setWidth, BitVec.toNat_ofNat]
  omega

/-- A decimal's pattern is a binary32 in the low half. -/
theorem viewF32_of_exactDecimal {o : Option Word32} (h : o.map (fun f => f.setWidth 64) = some x) :
    ∃ f, o = some f ∧ viewF32 x = some f := by
  obtain ⟨f, hf, rfl⟩ := Option.map_eq_some_iff.1 h
  exact ⟨f, hf, viewF32_eq_some_iff.2 (setWidth_eq_zero_append f)⟩

end Views

/-- The pattern of a literal fits the view (R93). -/
theorem viewAccepts_of_literalBits {addrW : Nat} {x : Word64} :
    ∀ {v : View} {l : Literal}, literalBits addrW v l = some x → viewAccepts addrW v x = true
  | .addr, .hex _, h => (viewAccepts_addr _ _).2 ⟨_, viewAddr_of_literalBits h⟩
  | .dim, .dec _, h =>
    have ⟨m, _, hm⟩ := viewDim_of_literalBits h
    (viewAccepts_dim _ _).2 ⟨m, hm⟩
  | .int, .dec _, h => (viewAccepts_int _ _).2 ⟨_, viewInt_of_literalBits h⟩
  | .f32, .hex _, h => (viewAccepts_f32 _ _).2 ⟨_, (viewF32_of_literalBits_hex h).2⟩
  | .f32, .dec _, h | .f32, .frac _ _ _, h =>
    have ⟨f, _, hf⟩ := viewF32_of_exactDecimal h
    (viewAccepts_f32 _ _).2 ⟨f, hf⟩

/-- A register that holds the pattern of a literal reads as the literal (R87, R91). -/
theorem readsAs_of_literalBits {t : State} {k : Fin 10} {x : Word64} (hx : t.inst.args[k] = some x) :
    ∀ {v : View} {l : Literal}, literalBits t.cfg.addrW v l = some x → readsAs t k v l
  | .addr, .hex n, h => by
    rw [readsAs, argAddr_of_some hx, viewAddr_of_literalBits h]
  | .dim, .dec z, h => by
    obtain ⟨m, hm, hview⟩ := viewDim_of_literalBits h
    exact ⟨m, hm, (argDim_of_some hx).trans (orBadArg_eq_ok_iff.2 hview)⟩
  | .int, .dec z, h => (argInt_of_some hx).trans (orBadArg_eq_ok_iff.2 (viewInt_of_literalBits h))
  | .f32, .hex n, h => by
    obtain ⟨hfit, hview⟩ := viewF32_of_literalBits_hex h
    exact ⟨hfit, (argF32_of_some hx).trans (orBadArg_eq_ok_iff.2 hview)⟩
  | .f32, .dec z, h => by
    obtain ⟨f, hf, hview⟩ := viewF32_of_exactDecimal h
    have hunits := fUnits_of_exactDecimal hf
    rw [signed_natAbs, pow_zero, mul_one] at hunits
    exact ⟨f, (argF32_of_some hx).trans (orBadArg_eq_ok_iff.2 hview), (exactDecimal_eq_some_iff.1 hf).1, hunits⟩
  | .f32, .frac negative digits places, h => by
    obtain ⟨f, hf, hview⟩ := viewF32_of_exactDecimal h
    obtain ⟨hfin, hsign, -⟩ := exactDecimal_eq_some_iff.1 hf
    exact ⟨f, (argF32_of_some hx).trans (orBadArg_eq_ok_iff.2 hview), hfin, hsign, fUnits_of_exactDecimal hf⟩

/-! ### Assembled lines -/

/-- The ARG writes of patterns from register `i` on, in order. -/
def argWrites (i : Nat) : List Word64 → List HostAct
  | [] => []
  | x :: xs => .argWrite (Fin.ofNat 10 i) x :: argWrites (i + 1) xs

@[simp] theorem length_argWrites : ∀ (i : Nat) (xs : List Word64), (argWrites i xs).length = xs.length
  | _, [] => rfl
  | i, _ :: xs => congrArg (· + 1) (length_argWrites (i + 1) xs)

theorem getElem?_argWrites :
    ∀ (i k : Nat) (xs : List Word64), (argWrites i xs)[k]? = xs[k]?.map (.argWrite (Fin.ofNat 10 (i + k)))
  | _, _, [] => by simp [argWrites]
  | _, 0, _ :: _ => rfl
  | i, k + 1, x :: xs => by
    rw [argWrites, List.getElem?_cons_succ, List.getElem?_cons_succ, getElem?_argWrites (i + 1) k xs,
      (by omega : i + 1 + k = i + (k + 1))]

/-- The patterns `xs` are those of the literals for the views, one each. -/
def LiteralPatterns (addrW : Nat) (vs : List View) (ls : List Literal) (xs : List Word64) : Prop :=
  vs.length = ls.length ∧ List.zipWith (literalBits addrW) vs ls = xs.map some

namespace LiteralPatterns

variable {addrW : Nat} {vs : List View} {ls : List Literal} {xs : List Word64}

theorem length_eq (h : LiteralPatterns addrW vs ls xs) : xs.length = vs.length := by
  obtain ⟨hlen, hzip⟩ := h
  have := congrArg List.length hzip
  rw [List.length_zipWith, List.length_map] at this
  omega

/-- Operand by operand. -/
theorem at_operand (h : LiteralPatterns addrW vs ls xs) {k : Nat} (hk : k < vs.length) :
    ∃ v l x, vs[k]? = some v ∧ ls[k]? = some l ∧ xs[k]? = some x ∧ literalBits addrW v l = some x := by
  have hlen := h.length_eq
  obtain ⟨hls, hzip⟩ := h
  have hx := congrArg (·[k]?) hzip
  rw [List.getElem?_zipWith, List.getElem?_map, List.getElem?_eq_getElem hk, List.getElem?_eq_getElem (hls ▸ hk),
    List.getElem?_eq_getElem (hlen ▸ hk)] at hx
  exact ⟨vs[k], ls[k], xs[k], List.getElem?_eq_getElem _, List.getElem?_eq_getElem _, List.getElem?_eq_getElem _,
    Option.some.inj hx⟩

/-- Literals that fit their views have patterns. -/
theorem of_fits (hlen : vs.length = ls.length)
    (h : ∀ k < vs.length, ∃ v l, vs[k]? = some v ∧ ls[k]? = some l ∧ literalFits addrW v l) :
    ∃ xs, LiteralPatterns addrW vs ls xs := by
  have hsome : List.zipWith (literalBits addrW) vs ls ∈ Set.range (List.map (some : Word64 → Option Word64)) := by
    rw [Set.range_list_map]
    intro o ho
    obtain ⟨k, hk, rfl⟩ := List.getElem_of_mem ho
    rw [List.length_zipWith] at hk
    obtain ⟨v, l, hv, hl, hfit⟩ := h k (by omega)
    obtain ⟨x, hx⟩ := (exists_literalBits_iff addrW v l).2 hfit
    obtain ⟨_, rfl⟩ := List.getElem?_eq_some_iff.1 hv
    obtain ⟨_, rfl⟩ := List.getElem?_eq_some_iff.1 hl
    exact ⟨x, by rw [List.getElem_zipWith, hx]⟩
  obtain ⟨xs, hxs⟩ := hsome
  exact ⟨xs, hlen, hxs.symm⟩

end LiteralPatterns

/-- The operands are assembled exactly when each has a pattern, and then into the writes of the patterns (R91). -/
theorem operandWrites_eq_some_iff (addrW : Nat) :
    ∀ (vs : List View) (ls : List Literal) (i : Nat) (acts : List HostAct),
      operandWrites addrW i vs ls = some acts ↔ ∃ xs, LiteralPatterns addrW vs ls xs ∧ acts = argWrites i xs
  | [], [], i, acts => by
    constructor
    · intro h
      cases h
      exact ⟨[], ⟨rfl, rfl⟩, rfl⟩
    · rintro ⟨xs, ⟨-, hxs⟩, rfl⟩
      rw [List.map_eq_nil_iff.1 hxs.symm]
      rfl
  | v :: vs, l :: ls, i, acts => by
    have ih := operandWrites_eq_some_iff addrW vs ls (i + 1)
    simp only [operandWrites, LiteralPatterns, List.length_cons, Nat.add_right_cancel_iff,
      List.zipWith_cons_cons] at ih ⊢
    constructor
    · intro h
      split at h
      case h_1 x rest hx hrest =>
        cases h
        obtain ⟨xs, ⟨hlen, hzip⟩, rfl⟩ := (ih rest).1 hrest
        exact ⟨x :: xs, ⟨hlen, by rw [hx, hzip, List.map_cons]⟩, rfl⟩
      case h_2 => cases h
    · rintro ⟨xs, ⟨hlen, hzip⟩, rfl⟩
      cases xs with
      | nil => cases hzip
      | cons x xs =>
        obtain ⟨hx, hzip⟩ := List.cons.inj hzip
        rw [hx, (ih _).2 ⟨xs, ⟨hlen, hzip⟩, rfl⟩]
        rfl
  | [], _ :: _, _, _ | _ :: _, [], _, _ => by simp [operandWrites, LiteralPatterns]

theorem views_length_le (i : Instr) : i.views.length ≤ 10 := by
  cases i <;> decide

/-- A line that names a command is its operands' ARG writes and then the command's word (R91). -/
theorem assembleLine_eq_some_iff {addrW : Nat} {l : Line} {i : Instr} {acts : List HostAct}
    (hi : lineCommand l = some i) :
    assembleLine addrW l = some acts ↔
      ∃ xs, LiteralPatterns addrW i.views l.operands xs ∧ acts = argWrites 0 xs ++ [.cmdWrite (encode i)] := by
  simp only [assembleLine, hi]
  by_cases hlen : l.operands.length = i.views.length
  · have harity : l.arityOk i.views = true := by simp [Line.arityOk, hlen, views_length_le]
    rw [if_pos harity, Option.map_eq_some_iff]
    simp only [operandWrites_eq_some_iff]
    constructor
    · rintro ⟨writes, ⟨xs, hxs, rfl⟩, rfl⟩
      exact ⟨xs, hxs, rfl⟩
    · rintro ⟨xs, hxs, rfl⟩
      exact ⟨_, ⟨xs, hxs, rfl⟩, rfl⟩
  · have harity : ¬ l.arityOk i.views = true := by simp [Line.arityOk, hlen]
    rw [if_neg harity]
    exact ⟨nofun, fun ⟨xs, ⟨h, _⟩, _⟩ => absurd h.symm hlen⟩

/-- A line that is assembled names a command. -/
theorem lineCommand_of_assembled {addrW : Nat} {l : Line} {acts : List HostAct} (h : assembleLine addrW l = some acts) :
    ∃ i, lineCommand l = some i := by
  unfold assembleLine at h
  cases hi : lineCommand l with
  | some i => exact ⟨i, rfl⟩
  | none => rw [hi] at h; cases h

/-- Settles O59: an assembled line is the patterns of its literals, which are there exactly when each literal fits. -/
theorem assembledLine : Obligations.AssembledLine := by
  intro addrW l
  refine ⟨fun acts h => ?_, fun hnone => by rw [assembleLine, hnone],
    fun i hi => ⟨fun hne => ?_, fun hlen => ⟨?_, fun hfit => ?_⟩⟩⟩
  · obtain ⟨i, hi⟩ := lineCommand_of_assembled h
    obtain ⟨xs, hxs, rfl⟩ := (assembleLine_eq_some_iff hi).1 h
    have hlen : (argWrites 0 xs).length = i.views.length := by rw [length_argWrites, hxs.length_eq]
    refine ⟨i, hi, hxs.1.symm, by simp [hlen], by simp [← hlen], fun k hk => ?_⟩
    obtain ⟨v, l, x, hv, -, hx, hbits⟩ := hxs.at_operand hk
    refine ⟨v, x, hv, viewAccepts_of_literalBits hbits, ?_⟩
    rw [List.getElem?_append_left (by omega), getElem?_argWrites, hx, Nat.zero_add, Option.map_some]
  · exact Option.eq_none_iff_forall_ne_some.2 fun acts h => by
      obtain ⟨xs, ⟨hlen, -⟩, -⟩ := (assembleLine_eq_some_iff hi).1 h
      exact hne hlen.symm
  · rintro ⟨acts, h⟩ k hk
    obtain ⟨xs, hxs, -⟩ := (assembleLine_eq_some_iff hi).1 h
    obtain ⟨v, l, x, hv, hl, -, hbits⟩ := hxs.at_operand hk
    exact ⟨v, l, hv, hl, (exists_literalBits_iff addrW v l).1 ⟨x, hbits⟩⟩
  · obtain ⟨xs, hxs⟩ := LiteralPatterns.of_fits hlen.symm hfit
    exact ⟨_, (assembleLine_eq_some_iff hi).2 ⟨xs, hxs, rfl⟩⟩

/-! ### The interactions of an assembled line -/

/-- The state after the ARG writes of patterns from register `i` on. -/
def writeArgs (i : Nat) : List Word64 → State → State
  | [], s => s
  | x :: xs, s => writeArgs (i + 1) xs (writeArg (Fin.ofNat 10 i) x s)

@[simp] theorem writeArgs_cfg : ∀ (i : Nat) (xs : List Word64) (s : State), (writeArgs i xs s).cfg = s.cfg
  | _, [], _ => rfl
  | i, _ :: xs, _ => writeArgs_cfg (i + 1) xs _

@[simp] theorem writeArgs_mem : ∀ (i : Nat) (xs : List Word64) (s : State), (writeArgs i xs s).mem = s.mem
  | _, [], _ => rfl
  | i, _ :: xs, _ => writeArgs_mem (i + 1) xs _

@[simp] theorem writeArgs_fault : ∀ (i : Nat) (xs : List Word64) (s : State), (writeArgs i xs s).inst.fault = s.inst.fault
  | _, [], _ => rfl
  | i, _ :: xs, _ => writeArgs_fault (i + 1) xs _

@[simp] theorem writeArgs_caller : ∀ (i : Nat) (xs : List Word64) (s : State), (writeArgs i xs s).caller = s.caller
  | _, [], _ => rfl
  | i, _ :: xs, _ => writeArgs_caller (i + 1) xs _

/-- The writes leave the registers before `i` alone. -/
theorem writeArgs_args_before {xs : List Word64} :
    ∀ {i : Nat} (s : State) {j : Fin 10}, j < i → i + xs.length ≤ 10 →
      (writeArgs i xs s).inst.args[j] = s.inst.args[j] := by
  induction xs with
  | nil => exact fun _ _ _ _ => rfl
  | cons x xs ih =>
    intro i s j hj hlen
    rw [List.length_cons] at hlen
    have hne : j ≠ Fin.ofNat 10 i := by
      rintro rfl
      rw [Fin.val_ofNat, Nat.mod_eq_of_lt (by omega)] at hj
      omega
    rw [writeArgs, ih _ (by omega) (by omega), writeArg_args_other hne]

/-- Register `i + k` holds the pattern number `k`. -/
theorem writeArgs_args_at {xs : List Word64} {x : Word64} {j : Fin 10} :
    ∀ {i k : Nat} (s : State), xs[k]? = some x → (j : Nat) = i + k → i + xs.length ≤ 10 →
      (writeArgs i xs s).inst.args[j] = some x := by
  induction xs with
  | nil => exact fun s hx => nomatch hx
  | cons y xs ih =>
    intro i k s hx hj hlen
    rw [List.length_cons] at hlen
    cases k with
    | zero =>
      subst hj
      rw [writeArgs, writeArgs_args_before _ (Nat.lt_succ_self _) (by omega), Fin.ofNat_val_eq_self, writeArg_args_same,
        ← hx, List.getElem?_cons_zero]
    | succ k => exact ih _ hx (by omega) (by omega)

/-- ARG writes that are the caller's next interactions are steps that complete (R32, R252). -/
theorem afterSteps_argWrites :
    ∀ (i : Nat) (xs : List Word64) (s : State) (rest : List HostAct), s.inst.busy = false →
      s.caller = argWrites i xs ++ rest →
      afterSteps xs.length s = some (writeArgs i xs { s with caller := rest })
  | _, [], s, rest, _, hc => by
    rw [argWrites, List.nil_append] at hc
    rw [← hc]
    rfl
  | i, x :: xs, s, rest, hb, hc => by
    have hstep : step s = .next (writeArg (Fin.ofNat 10 i) x { s with caller := argWrites (i + 1) xs ++ rest }) :=
      step_of_caller hb hc
    rw [List.length_cons, afterSteps, hstep]
    exact afterSteps_argWrites (i + 1) xs _ rest hb rfl

/-- Settles O60: the ARG writes leave each literal's pattern in its register, and the view reads the literal back. -/
theorem lineRoundTrip : Obligations.LineRoundTrip := by
  intro s l i acts rest hb hi hassembled hcaller
  obtain ⟨xs, hxs, rfl⟩ := (assembleLine_eq_some_iff hi).1 hassembled
  rw [List.append_assoc] at hcaller
  have hlen : xs.length ≤ 10 := hxs.length_eq ▸ views_length_le i
  have hsteps := afterSteps_argWrites 0 xs s _ hb hcaller
  rw [hxs.length_eq] at hsteps
  refine ⟨_, hsteps, writeArgs_caller _ _ _, decode_encode i, writeArgs_mem _ _ _, writeArgs_fault _ _ _,
    fun k hk => ?_⟩
  obtain ⟨v, x, bits, hv, hx, hbitsAt, hbits⟩ := hxs.at_operand hk
  refine ⟨v, x, hv, hx, readsAs_of_literalBits (writeArgs_args_at _ hbitsAt ?_ (by omega))
    (by rw [writeArgs_cfg]; exact hbits)⟩
  rw [Fin.val_ofNat, Nat.zero_add, Nat.mod_eq_of_lt (by have := views_length_le i; omega)]

end Sys2Proof.Machine
end

section
/-! PROOFS. Zero dimensions (30_encoding.md R89): a kernel with no batch, no row or no column is its reference, and what its
reference asks of the rows or the columns holds because there are none. -/

namespace Sys2Proof.Machine

/-- Rounds that change nothing. -/
theorem upTo_of_id {α : Type} {f : Nat → α → α} {n : Nat} (x : α) (h : ∀ i < n, ∀ y, f i y = y) : upTo f n x = x :=
  upTo_keeps (P := (· = x)) rfl fun i hi y hy => (h i hi y).trans hy

/-- Rows of batches change nothing where there is no batch or no row. -/
theorem upTo_of_empty {α : Type} {f : Nat → Nat → α → α} {batch rows : Nat} (h : batch = 0 ∨ rows = 0) (x : α) :
    upTo (fun b => upTo (f b) rows) batch x = x :=
  upTo_of_id x fun b hb y => by
    obtain rfl : rows = 0 := by omega
    rfl

/-- What is asked of every batch where there is no row holds of every batch where there is none. -/
theorem batches_of_empty {batch : Nat} {rowless : Prop} {R : Nat → Prop}
    (h : batch = 0 ∨ (rowless ∧ ∀ b < batch, R b)) : ∀ b < batch, R b := fun b hb =>
  h.elim (fun h0 => absurd hb (by omega)) fun hrows => hrows.2 b hb

/-- With no batch or no row a kernel has no row of a batch. -/
theorem not_row {batch rows b r : Nat} (h : batch = 0 ∨ rows = 0) (hb : b < batch) : ¬ r < rows := by
  omega

/-! ### The dense kernels -/

section Dense

variable {s : State} {d : DenseArgs} {pcs offsets : Nat}

theorem DenseReady.of_empty {c : Config} (h : d.batch = 0 ∨ d.rows = 0)
    (hscales : ∀ b < d.batch, readable32 c (d.scales + 4 * b : Nat)) : DenseReady c d where
  scales := hscales
  matrix _ hb _ hr := absurd hr (not_row h hb)
  vectors _ hb _ hr := absurd hr (not_row h hb)
  result _ hb _ hr := absurd hr (not_row h hb)

theorem DenseArgs.not_resultByte_of_empty (h : d.batch = 0 ∨ d.rows = 0) (x : Nat) : ¬ d.resultByte x :=
  fun ⟨_, hb, _, hr, _⟩ => not_row h hb hr

theorem exec_dmmaS_of_empty (ha : s.accepts) (hf : s.foreign = []) (hd : operandsOf denseArgs s = some d)
    (h : d.batch = 0 ∨ d.rows = 0) (hscales : ∀ b < d.batch, readable32 s.cfg (d.scales + 4 * b : Nat)) :
    exec .dmmaS s = .next (s.afterCommand s.mem s.draws) := by
  rw [exec_dmmaS ha hf hd (.of_empty h hscales) (.inr fun _ hb _ hr => absurd hr (not_row h hb))
    fun x hx => absurd hx (DenseArgs.not_resultByte_of_empty h x), dmmaSReference_eq, upTo_of_empty h]

theorem exec_dmmaA_of_empty (ha : s.accepts) (hf : s.foreign = []) (hd : operandsOf denseArgs s = some d)
    (hpcs : operandsOf (argAddr 8) s = some pcs) (hoffs : operandsOf (argAddr 9) s = some offsets)
    (h : d.batch = 0 ∨ d.rows = 0) (hscales : ∀ b < d.batch, readable32 s.cfg (d.scales + 4 * b : Nat))
    (hoffsets : ∀ b < d.batch, readable32 s.cfg (offsets + 4 * b : Nat)) :
    exec .dmmaA s = .next (s.afterCommand s.mem s.draws) := by
  have hready : AsymReady s.cfg d pcs offsets :=
    { DenseReady.of_empty h hscales with
      offsets := hoffsets
      perChannel := fun _ hb _ hr => absurd hr (not_row h hb) }
  rw [exec_dmmaA ha hf hd hpcs hoffs hready (.inr fun _ hb _ hr => absurd hr (not_row h hb))
    fun x hx => absurd hx (DenseArgs.not_resultByte_of_empty h x), dmmaAReference_eq, upTo_of_empty h]

/-- Without columns every running sum is the empty one. -/
theorem denseFits_of_no_columns (c : Config) (m : Memory) (h : d.cols = 0) : denseFits c m d :=
  .inr fun b _ r _ n hn => by
    obtain rfl : n = 0 := by
      have := hn.1
      omega
    rfl

/-- Without columns each row of DMMA.S contributes `f32_mul(+0.0, scale)`. -/
theorem dmmaSRow_of_no_columns (c : Config) (m : Memory) (h : d.cols = 0) (b r : Nat) (p : Progress) :
    dmmaSRow c m d b r p = addTo 0x10 (d.resAddr b r).toNat
      (valueOrDraw 0x10 (fMul? 0x00000000 (m.read32 (d.scales + 4 * b))) p.2) p.1 := by
  have hzero : fOfInt (wrap32 (denseDot c m d b r)) = 0x00000000 := by
    rw [denseDot, h, sumTo]
    decide
  rw [dmmaSRow, hzero]

end Dense

/-! ### The sparse kernels -/

section Sparse

variable {s : State}

theorem SparseReady.of_no_rows {c : Config} {m : Memory} {a : SparseArgs} (h : a.rows = 0) : SparseReady c m a where
  index r hr := by omega
  inputs x hx := by
    obtain ⟨r, hr, -⟩ := hx
    omega
  result r hr := by omega

theorem exec_smma_of_no_rows {a : SparseArgs} (ha : s.accepts) (hf : s.foreign = [])
    (hops : operandsOf sparseArgs s = some a) (hwhole : a.cols % 16 = 0) (h : a.rows = 0) :
    exec .smma s = .next (s.afterCommand s.mem s.draws) := by
  rw [exec_smma ha hf hops hwhole (.of_no_rows h) fun x ⟨r, hr, _⟩ => by omega, sparseReference_eq, h, upTo_zero]

theorem exec_smmaB_of_empty {a : SparseBatchArgs} (ha : s.accepts) (hf : s.foreign = [])
    (hops : operandsOf sparseBatchArgs s = some a) (hwhole : a.cols % 16 = 0) (h : a.batch = 0 ∨ a.rows = 0)
    (hscales : ∀ b < a.batch, readable32 s.cfg (a.scales + 4 * b : Nat)) :
    exec .smmaB s = .next (s.afterCommand s.mem s.draws) := by
  have hnorow : ∀ b < a.batch, (a.walkAt s.mem b).rows = 0 := fun b hb => by
    show a.rows = 0
    omega
  rw [exec_smmaB ha hf hops hwhole hscales (fun b hb => .of_no_rows (hnorow b hb))
    fun x ⟨b, hb, r, hr, _⟩ => absurd hr (by rw [hnorow b hb]; omega), smmaBReference,
    upTo_of_id _ fun b hb p => by rw [sparseReference_eq, hnorow b hb, upTo_zero]]

end Sparse

/-- Settles O50: each kernel is its reference, which has no round to make, or whose rows sum no column. -/
theorem zeroDimensions : Obligations.ZeroDimensions := by
  intro s ha hf
  refine ⟨fun d hd h => ?_, fun a hops hwhole h => exec_smma_of_no_rows ha hf hops hwhole h,
    fun a hops hwhole h => ?_, fun d hd h hready hdisj => ?_⟩
  · have hempty := h.imp_right And.left
    have hscales := batches_of_empty h
    exact ⟨exec_dmmaS_of_empty ha hf hd hempty hscales, fun pcs offsets hpcs hoffs hoffsets =>
      exec_dmmaA_of_empty ha hf hd hpcs hoffs hempty hscales hoffsets⟩
  · exact exec_smmaB_of_empty ha hf hops hwhole (h.imp_right And.left) (batches_of_empty h)
  · refine ⟨_, exec_dmmaS ha hf hd hready (denseFits_of_no_columns s.cfg s.mem h)
      fun x ⟨b, hb, r, hr, hx⟩ => hdisj b hb r hr x hx, ?_⟩
    rw [dmmaSReference_eq]
    simp only [← dmmaSRow_of_no_columns s.cfg s.mem h]

end Sys2Proof.Machine
end

section
/-! PROOFS. The lane functions (40_lane_primitives.md R100 to R106): partial sums, their ranges and their total, the
products of SIGN_TRANSFER mode, the reducer and the block row sum. -/

namespace Sys2Proof.Machine

/-! ### Partial sums -/

/-- Lane `i` of the lane primitive is its partial sum (R100, R102), which never leaves int32. -/
theorem toInt_lane32_dot16Lanes (mode : DotMode) (A B : Lanes) {i : Nat} (hi : i < 4) :
    (lane32 (dot16Lanes mode A B) i).toInt = partialSum mode A B i := by
  have hlane : lane32 (dot16Lanes mode A B) i = bits32 (partialSum mode A B i) := by
    unfold dot16Lanes
    interval_cases i
    · exact lane32_pack32_0 _ _ _ _
    · exact lane32_pack32_1 _ _ _ _
    · exact lane32_pack32_2 _ _ _ _
    · exact lane32_pack32_3 _ _ _ _
  have hbounds := partialSum_bounds mode A B i
  rw [hlane, toInt_bits32_of_in32 ((in32_iff _).2 (by omega))]

/-- The sum of the four int32 lanes, exact. -/
def laneTotal (l : Lanes) : Int :=
  (lane32 l 0).toInt + (lane32 l 1).toInt + (lane32 l 2).toInt + (lane32 l 3).toInt

/-- The partial sums total the products of all sixteen lane pairs (R100, R102). -/
theorem laneTotal_dot16Lanes (mode : DotMode) (A B : Lanes) : laneTotal (dot16Lanes mode A B) = lanesDot mode A B := by
  rw [laneTotal, toInt_lane32_dot16Lanes _ _ _ (by omega), toInt_lane32_dot16Lanes _ _ _ (by omega),
    toInt_lane32_dot16Lanes _ _ _ (by omega), toInt_lane32_dot16Lanes _ _ _ (by omega)]
  simp only [partialSum_eq, lanesDot, sumTo]
  ring

/-- Settles O35: a lane is its partial sum, which is the four products, and the lanes total the dot product. -/
theorem dot16LanesExact : Obligations.Dot16LanesExact := fun A B =>
  ⟨fun i hi => (toInt_lane32_dot16Lanes .exact A B hi).trans (partialSum_eq .exact A B i),
    laneTotal_dot16Lanes .exact A B⟩

/-- A partial sum of EXACT mode adds four products, each in its range (R103). -/
theorem exactPartialSum_bounds (A B : Lanes) (i : Nat) :
    -65024 ≤ partialSum .exact A B i ∧ partialSum .exact A B i ≤ 65536 := by
  rw [partialSum_eq]
  have h0 := exactProduct_bounds (lane8 A (4 * i)) (lane8 B (4 * i))
  have h1 := exactProduct_bounds (lane8 A (4 * i + 1)) (lane8 B (4 * i + 1))
  have h2 := exactProduct_bounds (lane8 A (4 * i + 2)) (lane8 B (4 * i + 2))
  have h3 := exactProduct_bounds (lane8 A (4 * i + 3)) (lane8 B (4 * i + 3))
  simp only [product]
  omega

/-- Settles O37: four products to a partial sum, sixteen to the total. -/
theorem dot16LanesRange : Obligations.Dot16LanesRange := by
  refine ⟨exactProduct_bounds, fun A B i hi => ?_, fun A B => ?_⟩
  · rw [toInt_lane32_dot16Lanes _ _ _ hi]
    exact exactPartialSum_bounds A B i
  · rw [toInt_reduce4_dot16Lanes]
    exact sumTo_bounds (n := 16) fun j _ => exactProduct_bounds (lane8 A j) (lane8 B j)

/-! ### SIGN_TRANSFER -/

/-- Negating an int8 in 8 bits gives its negation, but for -128, which stays (R102). -/
theorem s8_bits8_neg (b : Byte) : s8 (bits8 (-(s8 b))) = if s8 b = -128 then -128 else -(s8 b) := by
  have hb := s8_bounds b
  have hbmod : s8 (bits8 (-(s8 b))) = Int.bmod (-(s8 b)) 256 := BitVec.toInt_ofInt _
  rw [hbmod, Int.bmod_def]
  split <;> omega

/-- The sign moved into -128 is lost where the A lane is negative; every other product is exact (R102). -/
theorem signTransferProduct_eq (a b : Byte) :
    signTransferProduct a b = if s8 a < 0 ∧ s8 b = -128 then 128 * s8 a else s8 a * s8 b := by
  simp only [signTransferProduct]
  rcases lt_trichotomy (s8 a) 0 with ha | ha | ha
  · have habs : ((s8 a).natAbs : Int) = -(s8 a) := by omega
    rw [if_pos ha, s8_bits8_neg, habs]
    by_cases hb : s8 b = -128
    · rw [if_pos hb, if_pos ⟨ha, hb⟩]
      ring
    · rw [if_neg hb, if_neg fun h => hb h.2]
      ring
  · simp [ha]
  · have habs : ((s8 a).natAbs : Int) = s8 a := by omega
    rw [if_neg (by omega), if_neg (by omega), if_neg (by omega), habs]

/-- A pair adds two products of SIGN_TRANSFER mode, each in its range: less than 16 bits (R102). -/
theorem signTransferPair_bounds (A B : Lanes) (k : Nat) :
    -32768 ≤ signTransferPair A B k ∧ signTransferPair A B k ≤ 32512 := by
  have h0 := signTransferProduct_bounds (lane8 A (2 * k)) (lane8 B (2 * k))
  have h1 := signTransferProduct_bounds (lane8 A (2 * k + 1)) (lane8 B (2 * k + 1))
  rw [signTransferPair_eq]
  omega

/-- Settles O36: the two cases of a product, pairs that fit 16 bits, and lanes that are partial sums. -/
theorem signTransferProducts : Obligations.SignTransferProducts :=
  ⟨signTransferProduct_eq, fun A B k _ => ⟨signTransferPair_eq A B k, signTransferPair_bounds A B k⟩,
    fun A B _ hi => toInt_lane32_dot16Lanes .signTransfer A B hi⟩

/-! ### The reducer and the block row sum -/

/-- The reducer wraps the sum of the four lanes (R105). -/
theorem toInt_reduce4 (l : Lanes) : (reduce4 l).toInt = wrap32 (laneTotal l) := by
  rw [← toInt_bits32, laneTotal, bits32_add, bits32_add, bits32_add, bits32_toInt, bits32_toInt, bits32_toInt,
    bits32_toInt, reduce4_eq]

/-- Settles O38: the wrapped sum is exact where the sum fits, and a dot product of sixteen lanes does. -/
theorem reducerSums : Obligations.ReducerSums := by
  refine ⟨toInt_reduce4, fun L hfit => ?_, fun mode A B => ?_⟩
  · have hfits : (laneTotal L).natAbs < 2147483648 := hfit
    exact (toInt_reduce4 L).trans (wrap32_of_in32 ((in32_iff _).2 (by omega)))
  · have hbounds := lanesDot_bounds mode A B
    rw [← laneTotal_dot16Lanes] at hbounds
    show (laneTotal (dot16Lanes mode A B)).natAbs < 2147483648
    omega

/-- A product with 1 as operand A is the B lane, in either mode (R100, R102). -/
theorem product_one (mode : DotMode) (b : Byte) : product mode 1 b = s8 b := by
  have hone : s8 1 = 1 := rfl
  cases mode with
  | exact => rw [product, exactProduct, hone, one_mul]
  | signTransfer => rw [product, signTransferProduct_eq, hone, if_neg (by omega), one_mul]

theorem lane8_ones : ∀ j < 16, lane8 0x01010101010101010101010101010101 j = 1 := by decide

/-- Settles O39: the row sum adds sixteen int8, and the products with ones are the bytes. -/
theorem rowSumIsSum : Obligations.RowSumIsSum := by
  intro M
  have hsum : rowSum16 M = sumTo (fun j => s8 (lane8 M j)) 16 := laneSum_eq M 16
  have hbounds := sumTo_bounds (n := 16) fun j _ => s8_bounds (lane8 M j)
  rw [← hsum] at hbounds
  refine ⟨hsum, hbounds.1, hbounds.2, fun mode => ?_⟩
  rw [toInt_reduce4_dot16Lanes, hsum]
  exact sumTo_congr fun j hj => by rw [lane8_ones j hj, product_one]

end Sys2Proof.Machine
end

section
/-! PROOFS. DOT16 and HRED (40_lane_primitives.md R107, R108) where their accesses pass their checks and no other agent
is at work, and the two in turn (R248). -/

namespace Sys2Proof.Machine

/-! ### Lanes of 32 bits as bytes -/

theorem leNat_append : ∀ xs ys : List Byte, leNat (xs ++ ys) = leNat xs + 256 ^ xs.length * leNat ys
  | [], ys => by simp [leNat]
  | x :: xs, ys => by
    rw [List.cons_append, leNat, leNat, leNat_append xs ys, List.length_cons, Nat.pow_succ]
    ring

theorem toNat_le32 {bytes : List Byte} (h : bytes.length = 4) : (le32 bytes).toNat = leNat bytes := by
  have hlt : leNat bytes < 2 ^ 32 := by simpa [h] using leNat_lt bytes
  rw [le32, BitVec.toNat_ofNat, Nat.mod_eq_of_lt hlt]

/-- Bytes `4i` to `4i + 3` are lane `i` of 32 bits (R52). -/
theorem le128_append {b0 b1 b2 b3 : List Byte} (h0 : b0.length = 4) (h1 : b1.length = 4) (h2 : b2.length = 4)
    (h3 : b3.length = 4) : le128 (b0 ++ b1 ++ b2 ++ b3) = pack32 (le32 b0) (le32 b1) (le32 b2) (le32 b3) := by
  rw [le128, pack32, toNat_le32 h0, toNat_le32 h1, toNat_le32 h2, toNat_le32 h3]
  simp only [leNat_append, List.length_append, h0, h1, h2]
  norm_num

theorem pack32_lanes_dot16Lanes (mode : DotMode) (A B : Lanes) :
    pack32 (lane32 (dot16Lanes mode A B) 0) (lane32 (dot16Lanes mode A B) 1) (lane32 (dot16Lanes mode A B) 2)
      (lane32 (dot16Lanes mode A B) 3) = dot16Lanes mode A B := by
  simp only [dot16Lanes, lane32_pack32_0, lane32_pack32_1, lane32_pack32_2, lane32_pack32_3]

/-- Sixteen bytes of memory are four int32 elements (R52). -/
theorem Memory.read128_eq_pack32 (m : Memory) (a : Nat) :
    m.read128 a = pack32 (m.read32 a) (m.read32 (a + 4)) (m.read32 (a + 8)) (m.read32 (a + 12)) :=
  le128_append (b0 := m.readList a 4) (b1 := m.readList (a + 4) 4) (b2 := m.readList (a + 8) 4)
    (b3 := m.readList (a + 12) 4) rfl rfl rfl rfl

/-- The reducer gives the wrapped sum of the four int32 that memory holds (R105, R108). -/
theorem reduce4_read128 (m : Memory) (a : Nat) : reduce4 (m.read128 a) = bits32 (fourSum m a) := by
  rw [reduce4_eq, Memory.read128_eq_pack32, lane32_pack32_0, lane32_pack32_1, lane32_pack32_2, lane32_pack32_3]
  simp [fourSum, sumTo, bits32_add, bits32_toInt]

/-- What DOT16 stores reads as its four lanes (R52, R107). -/
theorem le128_dot16Bytes (mode : DotMode) (m : Memory) (a b : Nat) :
    le128 (dot16Bytes mode m a b) = dot16Lanes mode (m.read128 a) (m.read128 b) := by
  rw [← dot16Stored_readList, dot16Stored, ← Memory.read128, ← Memory.read128,
    le128_append (length_leBytes32 _) (length_leBytes32 _) (length_leBytes32 _) (length_leBytes32 _)]
  simp only [le32_leBytes32, pack32_lanes_dot16Lanes]

theorem length_dot16Bytes (mode : DotMode) (m : Memory) (a b : Nat) : (dot16Bytes mode m a b).length = 16 := by
  rw [← dot16Stored_readList, length_dot16Stored]

/-- Sixteen bytes written read back as a lane register (R52). -/
theorem Memory.read128_writeList_same {m : Memory} (hwf : m.wf = true) (a : Nat) {bytes : List Byte}
    (hlen : bytes.length = 16) : (m.writeList a bytes).read128 a = le128 bytes := by
  rw [Memory.read128, ← hlen, Memory.readList_writeList_same hwf]

/-! ### The commands -/

/-- DOT16 completes with its partial sums at the destination (R107). -/
theorem exec_dot16 {s : State} {a b d : Nat} (hacc : s.accepts) (hf : s.foreign = []) (hops : Dot16Operands s a b d)
    (ha : checkAccess s.cfg .read false a 16 = none) (hb : checkAccess s.cfg .read false b 16 = none)
    (hd : checkAccess s.cfg .write true d 16 = none) :
    exec .dot16 s = .next (s.afterCommand (s.mem.writeList d (dot16Bytes s.cfg.dotMode s.mem a b)) s.draws) := by
  obtain ⟨w, hbody, -⟩ := dot16Body_unraced (o := 0x01) (p := (s.mem, s.draws)) (w := Work.fresh) hops ha hb hd rfl
    (by rw [hf]; nofun)
  rw [exec_of_ok (i := .dot16) hacc hf hbody]

/-- Settles O40: the pseudocode of DOT16 with nothing that races. -/
theorem dot16Result : Obligations.Dot16Result := fun _ _ _ _ hacc hf hopa hopb hopd =>
  exec_dot16 hacc hf ⟨hopa, hopb, hopd⟩

/-- HRED reads before it writes, and stores what the reducer gives (R108). -/
theorem hredBody_at {s : State} {o : BitVec 8} {p : Progress} {w : Work} {a d : Nat} (hf : s.foreign = [])
    (hopa : operandsOf (argAddr 0) s = some a) (hopd : operandsOf (argAddr 1) s = some d)
    (ha : checkAccess s.cfg .read true a 16 = none) (hd : checkAccess s.cfg .write true d 4 = none) :
    ∃ w', hredBody ((s.busyWith o).at p w) =
      .ok () ((s.busyWith o).at (p.1.writeList d (leBytes32 (reduce4 (p.1.read128 a))), p.2) w') := by
  unfold hredBody
  rw [(ArgReader.argAddr 0).bind_at hopa, (ArgReader.argAddr 1).bind_at hopd,
    Cmd.bind_ok (memRead_at (s := s.busyWith o) hf _ _ ha), Cmd.bind_ok (updateWork_apply _ _), State.at_workNow,
    State.at_withWork, Cmd.bind_ok (work_apply _), State.at_workNow]
  exact ⟨_, memWrite_at _ _ hd⟩

/-- HRED completes with the reducer's sum at the destination (R108). -/
theorem exec_hred {s : State} {a d : Nat} (hacc : s.accepts) (hf : s.foreign = [])
    (hopa : operandsOf (argAddr 0) s = some a) (hopd : operandsOf (argAddr 1) s = some d)
    (ha : checkAccess s.cfg .read true a 16 = none) (hd : checkAccess s.cfg .write true d 4 = none) :
    exec .hred s = .next (s.afterCommand (s.mem.writeList d (leBytes32 (reduce4 (s.mem.read128 a)))) s.draws) := by
  obtain ⟨w, hbody⟩ := hredBody_at (o := 0x02) (p := (s.mem, s.draws)) (w := Work.fresh) hf hopa hopd ha hd
  rw [exec_of_ok (i := .hred) hacc hf hbody]

/-- Settles O41: what the reducer gives is the wrapped sum. -/
theorem hredResult : Obligations.HredResult := by
  intro s a d hacc hf hopa hopd ha hd
  rw [exec_hred hacc hf hopa hopd ha hd, reduce4_read128]

/-! ### DOT16 and then HRED -/

@[simp] theorem State.afterCommand_mem (s : State) (m : Memory) (draws : Nat) : (s.afterCommand m draws).mem = m :=
  rfl

/-- A register that the caller wrote an address to gives that address (R84). -/
theorem operandsOf_argAddr {s : State} {i : Fin 10} {a : Nat} (h : s.inst.args[i] = some (BitVec.ofNat 64 a))
    (hword : a < 2 ^ 64) (hspace : a < 2 ^ s.cfg.addrW) : operandsOf (argAddr i) s = some a := by
  have hview : viewAddr s.cfg.addrW (BitVec.ofNat 64 a) = some a := by
    rw [viewAddr, BitVec.toNat_ofNat, Nat.mod_eq_of_lt hword, if_pos hspace]
  rw [operandsOf, argAddr_of_some h, hview]

/-- An access that passes its checks starts in the address space (R56). -/
theorem lt_of_checkAccess {c : Config} {k : Kind} {al : Bool} {a n : Nat} (hn : 0 < n)
    (h : checkAccess c k al a n = none) : a < 2 ^ c.addrW := by
  have hend : a + n ≤ 2 ^ c.addrW := inSpace_of_checkAccess h
  omega

/-- HRED after the caller has written its two registers (R34, R108). -/
theorem exec_hred_of_writeArg {s : State} {a d : Nat} (hacc : s.accepts) (hf : s.foreign = []) (ha64 : a < 2 ^ 64)
    (hd64 : d < 2 ^ 64) (ha : checkAccess s.cfg .read true a 16 = none)
    (hd : checkAccess s.cfg .write true d 4 = none) :
    ∃ u, exec .hred (writeArg 1 (BitVec.ofNat 64 d) (writeArg 0 (BitVec.ofNat 64 a) s)) = .next u ∧
      u.inst.fault = none ∧ u.mem = s.mem.writeList d (leBytes32 (reduce4 (s.mem.read128 a))) := by
  have hopa := operandsOf_argAddr (s := writeArg 1 (BitVec.ofNat 64 d) (writeArg 0 (BitVec.ofNat 64 a) s))
    ((writeArg_args_other (by decide) _ _).trans (writeArg_args_same 0 _ _)) ha64 (lt_of_checkAccess (by omega) ha)
  have hopd := operandsOf_argAddr (writeArg_args_same 1 (BitVec.ofNat 64 d) (writeArg 0 (BitVec.ofNat 64 a) s)) hd64
    (lt_of_checkAccess (by omega) hd)
  exact ⟨_, exec_hred hacc hf hopa hopd ha hd, hacc.1, rfl⟩

/-- Settles O43: HRED reads back the lanes that DOT16 stored, and reduces them to the dot product. -/
theorem dotThenReduce : Obligations.DotThenReduce := by
  intro s a b d e hacc hf hwf hmode hd64 he64 hopa hopb hopd ha hb hdw hdr hew
  have hdot := exec_dot16 hacc hf ⟨hopa, hopb, hopd⟩ ha hb hdw
  obtain ⟨u, hred, hfault, hmem⟩ := exec_hred_of_writeArg
    (s := s.afterCommand (s.mem.writeList d (dot16Bytes s.cfg.dotMode s.mem a b)) s.draws) ⟨hacc.1, rfl⟩ rfl
    hd64 he64 hdr hew
  refine ⟨_, u, hdot, hred, hfault, ?_⟩
  rw [hmem, State.afterCommand_mem, Memory.read32_writeList_same (Memory.wf_writeList hwf),
    Memory.read128_writeList_same hwf d (length_dot16Bytes _ _ _ _), le128_dot16Bytes, hmode, toInt_reduce4_dot16Lanes,
    lanesDot_read128]
  simp only [product, exactProduct]

end Sys2Proof.Machine
end

section
/-! PROOFS. The dense kernels (41_dense_kernels.md R130 to R146; 70_reset_and_hazards.md R249): the affine formula, the
overflow budget, and a first scale that cannot be read. -/

namespace Sys2Proof.Machine

/-! ### The kernels against their references -/

/-- Settles O44: the reference's result, with the result bytes spelled out element by element. -/
theorem dmmaSResult : Obligations.DmmaSResult := fun _ _ ha hf hd hready hfit hdisj =>
  exec_dmmaS ha hf hd hready hfit fun x ⟨b, hb, r, hr, hx⟩ => hdisj b hb r hr x hx

/-- Settles O45: the reference's result, with the result bytes spelled out element by element. -/
theorem dmmaAResult : Obligations.DmmaAResult := fun _ _ _ _ ha hf hd hpcs hoffs hready hfit hdisj =>
  exec_dmmaA ha hf hd hpcs hoffs hready hfit fun x ⟨b, hb, r, hr, hx⟩ => hdisj b hb r hr x hx

/-! ### The affine formula -/

/-- In EXACT mode a block column and a remainder column have the same term (R100, R135). -/
theorem denseTerm_of_exact {c : Config} (h : c.dotMode = .exact) (m : Memory) (d : DenseArgs) (b r j : Nat) :
    denseTerm c m d b r j = s8 (m.read (d.matrixAt r j)) * s8 (m.read (d.vectorAt b j)) := by
  rw [denseTerm, h]
  split
  · exact Int.mul_comm _ _
  · rfl

/-- A sum less a multiple of another, term by term. -/
theorem sumTo_sub_mul (f g : Nat → Int) (k : Int) (n : Nat) :
    sumTo f n - sumTo g n * k = sumTo (fun j => f j - g j * k) n := by
  simp only [sumTo_eq_sum, Finset.sum_sub_distrib, Finset.sum_mul]

/-- Settles O46: the offset goes into each term of the row sum, where the matrix value is a common factor. -/
theorem affineFormula : Obligations.AffineFormula := by
  intro c m d offsets b r hmode
  rw [denseAdjusted, denseDot, denseRowSum, sumTo_sub_mul]
  exact sumTo_congr fun j _ => by rw [denseTerm_of_exact hmode, mul_sub]

/-! ### The overflow budget -/

theorem in32_of_natAbs_le {x : Int} (h : x.natAbs ≤ 2147483647) : in32 x = true :=
  (in32_iff x).2 (by omega)

/-- A sum of terms of bounded magnitude. -/
theorem natAbs_sumTo_le {f : Nat → Int} {bound : Nat} (h : ∀ j, (f j).natAbs ≤ bound) (n : Nat) :
    (sumTo f n).natAbs ≤ bound * n := by
  have hterm : ∀ j < n, -(bound : Int) ≤ f j ∧ f j ≤ bound := fun j _ => by
    have := h j
    omega
  obtain ⟨hlo, hhi⟩ := sumTo_bounds hterm
  zify
  exact abs_le.2 ⟨by linarith, hhi⟩

/-- No term of a dense row is larger than `(-128)·(-128)`, in either mode (R100, R102, R103). -/
theorem natAbs_denseTerm_le (c : Config) (m : Memory) (d : DenseArgs) (b r j : Nat) :
    (denseTerm c m d b r j).natAbs ≤ 16384 := by
  unfold denseTerm
  split
  · have := product_bounds c.dotMode (m.read (d.vectorAt b j)) (m.read (d.matrixAt r j))
    omega
  · have := exactProduct_bounds (m.read (d.matrixAt r j)) (m.read (d.vectorAt b j))
    unfold exactProduct at this
    omega

theorem natAbs_s8_le (u : Byte) : (s8 u).natAbs ≤ 128 := by
  have := s8_bounds u
  omega

/-- DMMA.S with at most 131071 columns: `16384·131071 ≤ 2^31 - 1` (R249). -/
theorem denseFits_of_cols_le (c : Config) (m : Memory) {d : DenseArgs} (h : d.cols ≤ 131071) : denseFits c m d :=
  .inr fun b _ r _ n hn => in32_of_natAbs_le (by
    have hsum := natAbs_sumTo_le (natAbs_denseTerm_le c m d b r) n
    have := hn.1
    omega)

/-- DMMA.S past the budget: 131072 products of 16384 make 2^31. -/
theorem not_denseFits_of_full_row {c : Config} {m : Memory} {d : DenseArgs} (hcols : d.cols = 131072) (hb : 0 < d.batch)
    (hr : 0 < d.rows) (hovf : c.intOvf = .fault) (hfull : ∀ j < d.cols, denseTerm c m d 0 0 j = 16384) :
    ¬ denseFits c m d := by
  rintro (hwrap | hfit)
  · simp [hovf] at hwrap
  · have hlast := (in32_iff _).1 (hfit 0 hb 0 hr d.cols ⟨Nat.le_refl _, .inr d.nblk_le⟩)
    have hsum := (sumTo_bounds fun j hj => ⟨(hfull j hj).ge, (hfull j hj).le⟩).1
    rw [hcols] at hlast hsum
    omega

/-- DMMA.A within its budget: the dot product takes `128·128·m_cols` of it, and the product of the row sum and the
offset `128·m_cols·|offset|` (R249). -/
theorem asymFits_of_budget {c : Config} {m : Memory} {d : DenseArgs} {offsets : Nat}
    (h : ∀ b < d.batch, 128 * d.cols * (128 + (offsetAt m offsets b).natAbs) ≤ 2147483647) : asymFits c m d offsets :=
  .inr fun b hb r _ => by
    have hbudget : 16384 * d.cols + 128 * d.cols * (offsetAt m offsets b).natAbs ≤ 2147483647 := by
      have := h b hb
      rw [Nat.mul_add] at this
      omega
    have hdot := natAbs_sumTo_le (natAbs_denseTerm_le c m d b r)
    have hsum := natAbs_sumTo_le fun j => natAbs_s8_le (m.read (d.matrixAt r j))
    have hprod : (denseRowSum m d r * offsetAt m offsets b).natAbs ≤ 128 * d.cols * (offsetAt m offsets b).natAbs := by
      rw [Int.natAbs_mul]
      exact Nat.mul_le_mul_right _ (hsum d.cols)
    refine ⟨fun n ⟨hn, _⟩ => ⟨in32_of_natAbs_le ?_, in32_of_natAbs_le ?_⟩, in32_of_natAbs_le (by omega),
      in32_of_natAbs_le ?_⟩
    · have := hdot n
      omega
    · have := hsum n
      omega
    · have hall : (denseDot c m d b r).natAbs ≤ 16384 * d.cols := hdot d.cols
      rw [denseAdjusted]
      omega

/-- Settles O47: bounds on the terms and on the number of them, and a full row that reaches 2^31. -/
theorem overflowBudget : Obligations.OverflowBudget := by
  refine ⟨fun c m d h => denseFits_of_cols_le c m h,
    fun c m d hcols hb hr hovf hfull => not_denseFits_of_full_row hcols hb hr hovf hfull,
    fun c m d offsets h => asymFits_of_budget h, fun cols off hcols hoff => ?_⟩
  calc 128 * cols * (128 + off) ≤ 128 * 65535 * (128 + 128) := by gcongr
    _ ≤ 2147483647 := by decide

/-! ### A first scale that cannot be read -/

/-- A loop whose first round raises raises so. -/
theorem loop_of_first_error {lo n : Nat} {body : Nat → Cmd Unit} {s t : State} {c : Cause} (hn : 0 < n)
    (h : body lo s = .error c t) : loop lo n body s = .error c t := by
  obtain ⟨n, rfl⟩ := Nat.exists_eq_succ_of_ne_zero (Nat.pos_iff_ne_zero.1 hn)
  rw [loop_succ, Cmd.bind_error h]

theorem ldInput32_error {s : State} {a : Int} {c : Cause} (h : checkAccess s.cfg .read true a 4 = some c) :
    ldInput32 a s = .error c s := Cmd.bind_error (memRead_error h)

/-- The loop over the batches ends at its first access, the first batch's scale, if that cannot be read (R137, R142,
R178). `rest` is what a batch step does with its scale, and `after` what follows the loop. -/
theorem batches_of_first_scale_error {s : State} {p : Progress} {w : Work} {c : Cause} {scales batch : Nat}
    {rest : Nat → Word32 → Cmd Unit} {after : Unit → Cmd Unit} (hbatch : 0 < batch)
    (hc : checkAccess s.cfg .read true scales 4 = some c) :
    (loop 0 batch (fun b => updateWork (fun w => { w with b := b }) >>= fun _ =>
        ldInput32 (scales + 4 * b : Nat) >>= rest b) >>= after) (s.at p w) =
      .error c (s.at p { w with b := 0 }) := by
  refine Cmd.bind_error (loop_of_first_error hbatch ?_)
  rw [Cmd.bind_ok (updateWork_apply _ _)]
  exact Cmd.bind_error (ldInput32_error hc)

section FirstScale

variable {s : State} {c : Cause}

theorem exec_dmmaS_of_first_scale_error {d : DenseArgs} (ha : s.accepts) (hidle : s.inst.idle) (hf : s.foreign = [])
    (hd : operandsOf denseArgs s = some d) (hbatch : 0 < d.batch)
    (hc : checkAccess s.cfg .read true d.scales 4 = some c) : exec .dmmaS s = .next (s.recordFault 0x10 c) := by
  refine exec_of_early_error (i := .dmmaS) (w := { Work.fresh with b := 0 }) ha hidle hf
    ((ArgReader.denseArgs.bind_at hd).trans ?_)
  exact batches_of_first_scale_error hbatch hc

theorem exec_dmmaA_of_first_scale_error {d : DenseArgs} {pcs offsets : Nat} (ha : s.accepts) (hidle : s.inst.idle)
    (hf : s.foreign = []) (hd : operandsOf denseArgs s = some d) (hpcs : operandsOf (argAddr 8) s = some pcs)
    (hoffs : operandsOf (argAddr 9) s = some offsets) (hbatch : 0 < d.batch)
    (hc : checkAccess s.cfg .read true d.scales 4 = some c) : exec .dmmaA s = .next (s.recordFault 0x11 c) := by
  refine exec_of_early_error (i := .dmmaA) (w := { Work.fresh with b := 0 }) ha hidle hf
    ((ArgReader.denseArgs.bind_at hd).trans ?_)
  rw [(ArgReader.argAddr 8).bind_at hpcs, (ArgReader.argAddr 9).bind_at hoffs]
  exact batches_of_first_scale_error hbatch hc

theorem exec_smmaB_of_first_scale_error {a : SparseBatchArgs} (ha : s.accepts) (hidle : s.inst.idle)
    (hf : s.foreign = []) (hops : operandsOf sparseBatchArgs s = some a) (hwhole : a.cols % 16 = 0)
    (hbatch : 0 < a.batch) (hc : checkAccess s.cfg .read true a.scales 4 = some c) :
    exec .smmaB s = .next (s.recordFault 0x21 c) := by
  refine exec_of_early_error (i := .smmaB) (w := { Work.fresh with b := 0 }) ha hidle hf
    ((ArgReader.sparseBatchArgs.bind_at hops).trans ?_)
  rw [Cmd.bind_ok (blockPrecond_of_whole hwhole _)]
  exact batches_of_first_scale_error hbatch hc

end FirstScale

/-- Settles O49: in each kernel nothing stands between the operands and the first scale but checks that pass. -/
theorem firstScaleFaults : Obligations.FirstScaleFaults :=
  ⟨fun _ _ _ ha hidle hf hd hbatch hc => ⟨exec_dmmaS_of_first_scale_error ha hidle hf hd hbatch hc,
      fun _ _ hpcs hoffs => exec_dmmaA_of_first_scale_error ha hidle hf hd hpcs hoffs hbatch hc⟩,
    fun _ _ _ ha hidle hf hops hwhole hbatch hc => exec_smmaB_of_first_scale_error ha hidle hf hops hwhole hbatch hc⟩

end Sys2Proof.Machine
end

section
/-! PROOFS. The sparse kernels (42_sparse_kernels.md R170 to R182): the block precondition, the two commands against their
references, a block index outside the row, and that no sparse running sum can overflow. -/

namespace Sys2Proof.Machine

/-! ### The block precondition -/

/-- A number of columns that is no multiple of 16 raises, and nothing is done (R175). -/
theorem blockPrecond_of_partial {cols : Nat} (h : cols % 16 ≠ 0) (s : State) :
    blockPrecond cols s = .error (if s.cfg.debugChecks then .debugAssert cols else .precondBlock cols) s := by
  unfold blockPrecond
  rw [Cmd.bind_ok (config_apply _), if_neg h]
  split <;> rfl

/-- Settles O52: in both commands the precondition is all that follows the operands, and it raises. -/
theorem blockPrecondition : Obligations.BlockPrecondition := by
  refine ⟨fun s a ha hidle hf hops hcols => ?_, fun s a ha hidle hf hops hcols => ?_, fun n => ⟨rfl, rfl⟩⟩
  · exact exec_of_early_error (i := .smma) ha hidle hf
      ((ArgReader.sparseArgs.bind_at hops).trans (Cmd.bind_error (blockPrecond_of_partial hcols _)))
  · exact exec_of_early_error (i := .smmaB) ha hidle hf
      ((ArgReader.sparseBatchArgs.bind_at hops).trans (Cmd.bind_error (blockPrecond_of_partial hcols _)))

/-! ### The kernels against their references -/

/-- Settles O53: the reference's result, with the result bytes spelled out element by element. -/
theorem smmaResult : Obligations.SmmaResult := fun _ _ ha hf hops hwhole hready hdisj =>
  exec_smma ha hf hops hwhole hready fun x ⟨r, hr, hx⟩ => hdisj r hr x hx

/-- Settles O54: the reference's result, with the result bytes spelled out element by element. -/
theorem smmaBResult : Obligations.SmmaBResult := fun _ _ ha hf hops hwhole hscale hready hdisj =>
  exec_smmaB ha hf hops hwhole hscale hready fun x ⟨b, hb, r, hr, hx⟩ => hdisj b hb r hr x hx

/-! ### A block index outside the row -/

/-- A loop whose first `k` rounds complete and whose next round raises ends so (R14, R15). -/
theorem loop_of_error {body : Nat → Cmd Unit} {t u : State} {c : Cause} {k lo n : Nat} {s : State} (hn : k < n)
    (hok : loop lo k body s = .ok () t) (herr : body (lo + k) t = .error c u) : loop lo n body s = .error c u := by
  induction k generalizing lo n s with
  | zero =>
    cases hok
    exact loop_of_first_error hn herr
  | succ k ih =>
    obtain ⟨n, rfl⟩ := Nat.exists_eq_succ_of_ne_zero (Nat.ne_zero_of_lt hn)
    obtain ⟨_, v, hfirst, hrest⟩ := Cmd.bind_eq_ok hok
    rw [loop_succ, Cmd.bind_ok hfirst]
    exact ih (by omega) hrest (by rwa [Nat.add_right_comm, Nat.add_assoc])

section LedgerRange

variable {s : State} {a : SparseArgs} {m : Memory} {p : Progress} {w : Work} {I : Nat → Prop} {r i lc mc n x : Nat}

/-- The walk of a whole ledger leaves the cursors behind its last row (R176). -/
theorem sparseRows_at (hf : s.foreign = []) (hready : SparseReady s.cfg m a)
    (hI : ∀ x, sparseInputByte m a x → I x) (hdisj : ∀ x, a.resultByte x → ¬ I x) (hp : AgreeOn I p.1 m) :
    ∃ w', loop 0 a.rows (fun r => sparseRow a r) (s.at p (w.atWalk a)) =
        .ok () (s.at (sparseReference s.inst.running s.cfg m a p) w') ∧
      AgreeOn I (sparseReference s.inst.running s.cfg m a p).1 m ∧
      w'.lc = ledgerAt m a.ledger a.rows ∧ w'.mc = packedAt m a.matrix a.ledger a.rows :=
  loop_at (f := sparseRowRef s.inst.running s.cfg m a) (fun p => AgreeOn I p.1 m)
    (fun r w => w.lc = ledgerAt m a.ledger r ∧ w.mc = packedAt m a.matrix a.ledger r) hp ⟨rfl, rfl⟩
    fun r hr p w hp ⟨hlc, hmc⟩ => by
      obtain ⟨w', hrow, hlc', hmc', -⟩ := sparseRow_at hf hr (fun x hx => hp x (hI x hx)) hready hlc hmc
        (fun _ _ => trivial) (fun _ _ => trivial) (TraceIn.trivial _)
      exact ⟨w', hrow, hp.addTo fun x hx => hdisj x ⟨r, hr, hx⟩, hlc', hmc'⟩

/-- The first `n` entries of a segment complete where their bytes are available and they name blocks of the row: at most
255 blocks cannot overflow (R174, R177, R242). -/
theorem sparseEntries_complete (hf : s.foreign = []) (hn : n ≤ 255)
    (hin : ∀ x, segmentInput p.1 a lc mc n x → readable s.cfg x)
    (hindex : ∀ k < n, 16 * (p.1.read (lc + 1 + k)).toNat + 16 ≤ a.cols)
    (hlc : w.lc = lc + 1) (hmc : w.mc = mc) (hdot : w.dot = 0) :
    ∃ w', loop 0 n (fun i => sparseEntry a r i) (s.at p w) = .ok () (s.at p w') ∧ w'.lc = lc + 1 + n := by
  obtain ⟨_, hloop, w', rfl, hlc', -⟩ := loop_completes
    (fun k t => ∃ v, t = s.at p v ∧ v.lc = lc + 1 + k ∧ v.mc = mc + 16 * k ∧ v.dot.toInt.natAbs ≤ 262144 * k)
    (n := n) (lo := 0) (s := s.at p w) (body := fun i => sparseEntry a r i) ⟨w, rfl, hlc, hmc, by rw [hdot]; rfl⟩
    fun k t _ hk ⟨v, ht, hl, hm, hd⟩ => by
      rw [Nat.zero_add] at hk
      have hblock := lanesDot_bounds s.cfg.dotMode (p.1.read128 (a.vector + 16 * (p.1.read v.lc).toNat))
        (p.1.read128 v.mc)
      have hsum : in32 (v.dot.toInt + lanesDot s.cfg.dotMode (p.1.read128 (a.vector + 16 * (p.1.read v.lc).toNat))
          (p.1.read128 v.mc)) = true := in32_of_natAbs_le (by omega)
      obtain ⟨w', hentry, hstep⟩ := sparseEntry_at (r := r) (i := k) (w := v) hf
        ⟨hin _ (.inl ⟨k + 1, hk, by rw [hl]; omega⟩), trivial⟩ (hl ▸ hindex k hk)
        (fun j hj => ⟨hin _ (.inr ⟨k, hk, j, hj, .inl (by rw [hl])⟩), trivial⟩)
        (fun j hj => ⟨hin _ (.inr ⟨k, hk, j, hj, .inr (by rw [hm])⟩), trivial⟩) (TraceIn.trivial _) (.inr hsum)
      refine ⟨_, ht ▸ hentry, w', rfl, by rw [hstep.lc, hl]; rfl, by rw [hstep.mc, hm]; rfl, ?_⟩
      rw [hstep.dot, toInt_bits32_of_in32 hsum]
      omega
  rw [Nat.zero_add] at hlc'
  exact ⟨w', hloop, hlc'⟩

/-- A row ends at its first entry that names a block outside it, the block not read (R174). -/
theorem sparseRow_range (hf : s.foreign = []) (hi : i < (p.1.read w.lc).toNat)
    (hin : ∀ x, segmentInput p.1 a w.lc w.mc i x → readable s.cfg x) (hnext : readable s.cfg (w.lc + 1 + i))
    (hindex : ∀ k < i, 16 * (p.1.read (w.lc + 1 + k)).toNat + 16 ≤ a.cols)
    (hout : a.cols < 16 * (p.1.read (w.lc + 1 + i)).toNat + 16) :
    ∃ w', sparseRow a r (s.at p w) = .error (.ledgerRange r i (p.1.read (w.lc + 1 + i))) (s.at p w') := by
  have hcount := (p.1.read w.lc).isLt
  obtain ⟨w1, h1, hs, -, -⟩ := nextLedgerByte_at (p := p) (w := { w with r := r }) hf
    (hin _ (.inl ⟨0, Nat.zero_le _, rfl⟩)) trivial (TraceIn.trivial _)
  have hlc : w1.lc = w.lc + 1 := hs.lc
  have hmc : w1.mc = w.mc := hs.mc
  obtain ⟨w2, hloop, hlc2⟩ :=
    sparseEntries_complete (r := r) (w := { w1 with dot := 0 }) hf (by omega) hin hindex hlc hmc rfl
  obtain ⟨w3, hentry⟩ := sparseEntry_range (r := r) (i := i) hf (hlc2 ▸ hnext) (hlc2 ▸ hout)
  rw [hlc2] at hentry
  unfold sparseRow
  rw [Cmd.bind_ok (updateWork_apply _ _), State.at_workNow, State.at_withWork, Cmd.bind_ok h1,
    Cmd.bind_ok (updateWork_apply _ _), State.at_workNow, State.at_withWork]
  exact ⟨w3, Cmd.bind_error (loop_of_error hi hloop (by rwa [Nat.zero_add]))⟩

/-- Entry `i` of row `r` is the first that names a block outside the row; all before it can be walked, and no result of
the rows before is an input byte up to row `r` (R174, R242). -/
structure StopsAt (c : Config) (m : Memory) (a : SparseArgs) (r i : Nat) : Prop where
  row : r < a.rows
  entry : i < blockCountOf m a.ledger r
  before : SparseReady c m { a with rows := r }
  ledger : ∀ k ≤ i + 1, readable c (ledgerAt m a.ledger r + k)
  entries : ∀ k < i, 16 * blockIndex m a.ledger r k + 16 ≤ a.cols ∧
    ∀ j < 16, readable c (a.vector + 16 * blockIndex m a.ledger r k + j) ∧
      readable c (packedAt m a.matrix a.ledger r + 16 * k + j)
  outside : a.cols < 16 * blockIndex m a.ledger r i + 16
  apart : ∀ q < r, ∀ x, inElement x (a.resAddr q) → ¬ sparseInputByte m { a with rows := r + 1 } x

/-- The bytes read before the walk stops are available. -/
theorem StopsAt.readable {c : Config} (h : StopsAt c m a r i)
    (hx : segmentInput m a (ledgerAt m a.ledger r) (packedAt m a.matrix a.ledger r) i x) : readable c x := by
  rcases hx with ⟨k, hk, rfl⟩ | ⟨k, hk, j, hj, rfl | rfl⟩
  · exact h.ledger k (by omega)
  · exact ((h.entries k hk).2 j hj).1
  · exact ((h.entries k hk).2 j hj).2

/-- The walk ends with `LedgerRange`, the rows before stored (R174, R207). -/
theorem sparseBody_range (hf : s.foreign = []) (h : StopsAt s.cfg m a r i)
    (hp : AgreeOn (sparseInputByte m { a with rows := r + 1 }) p.1 m) :
    ∃ w', sparseBody a (s.at p w) = .error (.ledgerRange r i (m.read (ledgerAt m a.ledger r + 1 + i)))
      (s.at (sparseReference s.inst.running s.cfg m { a with rows := r } p) w') := by
  obtain ⟨w1, hrows, hq, hlc, hmc⟩ := sparseRows_at (w := w) hf h.before
    (fun x ⟨q, hq, hx⟩ => ⟨q, Nat.lt_succ_of_lt hq, hx⟩) (fun x ⟨q, hq, hx⟩ => h.apart q hq x hx) hp
  generalize sparseReference s.inst.running s.cfg m { a with rows := r } p = q at hrows hq
  have hledger : ∀ k ≤ blockCountOf m a.ledger r,
      q.1.read (w1.lc + k) = m.read (ledgerAt m a.ledger r + k) := fun k hk => by
    rw [hlc]
    exact hq _ ⟨r, Nat.lt_succ_self r, .inl ⟨k, hk, rfl⟩⟩
  have hindex : ∀ k ≤ i, q.1.read (w1.lc + 1 + k) = m.read (ledgerAt m a.ledger r + 1 + k) := fun k hk => by
    have hentry := h.entry
    rw [Nat.add_assoc, hledger (1 + k) (by omega), Nat.add_assoc]
  have hin : ∀ x, segmentInput q.1 a w1.lc w1.mc i x → readable s.cfg x := fun x hx => by
    rw [hlc, hmc] at hx
    rw [hlc] at hindex
    exact h.readable ((segmentInput_congr fun k hk => hindex k (Nat.le_of_lt hk)).1 hx)
  obtain ⟨w2, hrow⟩ := sparseRow_range (s := s) (p := q) (r := r) hf
    (by rw [← Nat.add_zero w1.lc, hledger 0 (Nat.zero_le _)]; exact h.entry) hin
    (by rw [hlc, Nat.add_assoc, Nat.add_comm 1]; exact h.ledger (i + 1) (Nat.le_refl _))
    (fun k hk => by rw [hindex k (Nat.le_of_lt hk)]; exact (h.entries k hk).1)
    (by rw [hindex i (Nat.le_refl _)]; exact h.outside)
  rw [hindex i (Nat.le_refl _)] at hrow
  exact ⟨w2, sparseBody_at.trans (loop_of_error h.row hrows (by rwa [Nat.zero_add]))⟩

theorem exec_smma_of_stopsAt (ha : s.accepts) (hf : s.foreign = []) (hops : operandsOf sparseArgs s = some a)
    (hwhole : a.cols % 16 = 0) (h : StopsAt s.cfg s.mem a r i) :
    exec .smma s = .next ((s.afterCommand
      (sparseReference 0x20 s.cfg s.mem { a with rows := r } (s.mem, s.draws)).1
      (sparseReference 0x20 s.cfg s.mem { a with rows := r } (s.mem, s.draws)).2).recordFault 0x20
        (.ledgerRange r i (s.mem.read (ledgerAt s.mem a.ledger r + 1 + i)))) := by
  obtain ⟨w, hbody⟩ := sparseBody_range (s := s.busyWith 0x20) (p := (s.mem, s.draws)) (w := Work.fresh) hf h
    (AgreeOn.refl _ _)
  refine exec_of_error (i := .smma) (w := w) ha hf ((ArgReader.sparseArgs.bind_at hops).trans ?_)
  rw [Cmd.bind_ok (blockPrecond_of_whole hwhole _)]
  exact Cmd.bind_error hbody

/-- A batch is its walk, once its scale has been read (R178). -/
theorem sparseBatch_at {batch : SparseBatchArgs} {b : Nat} (hf : s.foreign = [])
    (hscale : readable32 s.cfg (batch.scales + 4 * b : Nat)) :
    sparseBatch batch b (s.at p w) = sparseBody (batch.walkAt p.1 b) (s.at p (w.atBatch batch b)) := by
  unfold sparseBatch
  rw [Cmd.bind_ok (updateWork_apply _ _), State.at_workNow, State.at_withWork, Cmd.bind_ok (ldInput32_at hf _ _ hscale)]
  rfl

theorem exec_smmaB_of_stopsAt {batch : SparseBatchArgs} (ha : s.accepts) (hf : s.foreign = [])
    (hops : operandsOf sparseBatchArgs s = some batch) (hwhole : batch.cols % 16 = 0) (hbatch : 0 < batch.batch)
    (hscale : readable32 s.cfg batch.scales) (h : StopsAt s.cfg s.mem (batch.walkAt s.mem 0) r i) :
    exec .smmaB s = .next ((s.afterCommand
      (sparseReference 0x21 s.cfg s.mem { batch.walkAt s.mem 0 with rows := r } (s.mem, s.draws)).1
      (sparseReference 0x21 s.cfg s.mem { batch.walkAt s.mem 0 with rows := r } (s.mem, s.draws)).2).recordFault 0x21
        (.ledgerRange r i (s.mem.read (ledgerAt s.mem batch.ledger r + 1 + i)))) := by
  obtain ⟨w, hbody⟩ := sparseBody_range (s := s.busyWith 0x21) (p := (s.mem, s.draws))
    (w := Work.fresh.atBatch batch 0) hf h (AgreeOn.refl _ _)
  have hfirst :=
    (sparseBatch_at (s := s.busyWith 0x21) (p := (s.mem, s.draws)) (w := Work.fresh) (b := 0) hf hscale).trans hbody
  refine exec_of_error (i := .smmaB) (w := w) ha hf ((ArgReader.sparseBatchArgs.bind_at hops).trans ?_)
  rw [Cmd.bind_ok (blockPrecond_of_whole hwhole _)]
  exact Cmd.bind_error (loop_of_first_error hbatch hfirst)

end LedgerRange

/-- Settles O57: the rows before are the reference's, and the row after them ends at its entry. -/
theorem ledgerRangeFaults : Obligations.LedgerRangeFaults := by
  intro s a r i ha hf hwhole hr hi hbefore hledger hentries hout hapart
  have hstops : StopsAt s.cfg s.mem a r i := ⟨hr, hi, hbefore, hledger, hentries, hout, hapart⟩
  refine ⟨fun hops => exec_smma_of_stopsAt ha hf hops hwhole hstops, ?_⟩
  rintro batch hops hbatch hscale rfl
  exact exec_smmaB_of_stopsAt ha hf hops hwhole hbatch hscale hstops

/-! ### No overflow -/

/-- The state with `WRAP` put in as the treatment of overflow (R11). -/
def State.wrapping (s : State) : State := { s with cfg := { s.cfg with intOvf := .wrap } }

/-- What fits int32 is narrowed alike under both treatments (R11). -/
theorem acc32_of_in32 {x : Int} (hx : in32 x = true) (site : Work → Site) (s : State) :
    acc32 x site s = .ok (bits32 x) s := by
  unfold acc32
  cases s.cfg.intOvf with
  | fault => simp only [hx, if_true]
  | wrap => rfl

theorem admits_wrap (c : Config) (k : Kind) : ∀ n a, admits { c with intOvf := .wrap } a k n = admits c a k n
  | 0, _ => rfl
  | n + 1, a => congrArg (admitsByte c k a && ·) (admits_wrap c k n (a + 1))

theorem checkAccess_wrap (c : Config) (k : Kind) (al : Bool) (a : Int) (n : Nat) :
    checkAccess { c with intOvf := .wrap } k al a n = checkAccess c k al a n := by
  unfold checkAccess
  rw [admits_wrap]
  rfl

theorem checkAccess_ne_overflow {c : Config} {k : Kind} {al : Bool} {a : Int} {m : Nat} {cause : Cause}
    (h : checkAccess c k al a m = some cause) (site : Site) : cause ≠ .intOverflow site := by
  unfold checkAccess at h
  split_ifs at h <;> cases h <;> nofun

/-- The end of a piece: completed with a running sum of magnitude at most `hi`, or raised by anything but an overflow. -/
def EndsWithin {α : Type} (hi : Nat) : EStateM.Result Cause State α → Prop
  | .ok _ t => t.workNow.dot.toInt.natAbs ≤ hi
  | .error c _ => ∀ site, c ≠ .intOverflow site

theorem EndsWithin.mono {α : Type} {hi hi' : Nat} (h : hi ≤ hi') :
    ∀ {r : EStateM.Result Cause State α}, EndsWithin hi r → EndsWithin hi' r
  | .ok _ _, hr => hr.trans h
  | .error _ _, hr => hr

/-- Started with a running sum of magnitude at most `lo`, the piece ends under `WRAP` as it ends under the launch's own
treatment of overflow, without an overflow and with a running sum of magnitude at most `hi`. -/
def CannotOverflow {α : Type} (lo : Nat) (m : Cmd α) (hi : Nat) : Prop :=
  ∀ s : State, s.workNow.dot.toInt.natAbs ≤ lo → m s.wrapping = mapEnd State.wrapping (m s) ∧ EndsWithin hi (m s)

namespace CannotOverflow

variable {α β : Type} {lo mid hi n : Nat}

/-! #### Sequences and loops -/

/-- A piece that completes with the running sum left alone. -/
theorem of_ok {m : Cmd α} (hwrap : ∀ s : State, m s.wrapping = mapEnd State.wrapping (m s))
    (hok : ∀ s, ∃ a t, m s = .ok a t ∧ t.workNow.dot = s.workNow.dot) : CannotOverflow n m n := fun s hs => by
  obtain ⟨a, t, h, hdot⟩ := hok s
  refine ⟨hwrap s, ?_⟩
  rw [h, EndsWithin, hdot]
  exact hs

theorem pure (a : α) : CannotOverflow n (Pure.pure a : Cmd α) n := of_ok (fun _ => rfl) fun s => ⟨a, s, rfl, rfl⟩

theorem raise {c : Cause} (h : ∀ site, c ≠ .intOverflow site) : CannotOverflow lo (Machine.raise c : Cmd α) hi :=
  fun _ _ => ⟨rfl, h⟩

theorem mono {lo' hi' : Nat} {m : Cmd α} (h : CannotOverflow lo m hi) (hlo : lo' ≤ lo) (hhi : hi ≤ hi') :
    CannotOverflow lo' m hi' := fun s hs => by
  obtain ⟨hwrap, hend⟩ := h s (hs.trans hlo)
  exact ⟨hwrap, hend.mono hhi⟩

theorem bind {m : Cmd α} {f : α → Cmd β} (hm : CannotOverflow lo m mid) (hf : ∀ a, CannotOverflow mid (f a) hi) :
    CannotOverflow lo (m >>= f) hi := fun s hs => by
  obtain ⟨hwrap, hend⟩ := hm s hs
  cases hms : m s with
  | ok a t =>
    rw [hms] at hwrap hend
    rw [Cmd.bind_ok hwrap, Cmd.bind_ok hms]
    exact hf a t hend
  | error c t =>
    rw [hms] at hwrap hend
    rw [Cmd.bind_error hwrap, Cmd.bind_error hms]
    exact ⟨rfl, hend⟩

theorem loop {body : Nat → Cmd Unit} {start : Nat} (bound : Nat → Nat)
    (h : ∀ i, start ≤ i → i < start + n → CannotOverflow (bound i) (body i) (bound (i + 1))) :
    CannotOverflow (bound start) (Machine.loop start n body) (bound (start + n)) := by
  induction n generalizing start with
  | zero => exact pure ()
  | succ n ih =>
    rw [loop_succ, (by omega : start + (n + 1) = start + 1 + n)]
    exact bind (h start (Nat.le_refl _) (by omega)) fun _ => ih fun i h1 h2 => h i (by omega) (by omega)

/-- A loop whose every round keeps the bound. -/
theorem loop_same {body : Nat → Cmd Unit} (h : ∀ i, CannotOverflow lo (body i) lo) (start n : Nat) :
    CannotOverflow lo (Machine.loop start n body) lo := loop (fun _ => lo) fun i _ _ => h i

/-! #### The launch parameters, the working state and the operands -/

/-- What follows does not look at the treatment of overflow. -/
theorem config {f : Config → Cmd α} (hf : ∀ c, CannotOverflow lo (f c) hi)
    (hsame : ∀ c : Config, f { c with intOvf := .wrap } = f c) :
    CannotOverflow lo (Machine.config >>= f) hi := fun s hs => by
  rw [Cmd.bind_ok (config_apply _), Cmd.bind_ok (config_apply _)]
  exact (hsame s.cfg).symm ▸ hf s.cfg s hs

theorem work : CannotOverflow n Machine.work n := of_ok (fun _ => rfl) fun s => ⟨_, s, rfl, rfl⟩

theorem updateWork {f : Work → Work} (hf : ∀ w, (f w).dot = w.dot) : CannotOverflow n (Machine.updateWork f) n :=
  of_ok (fun _ => rfl) fun _ => ⟨_, _, rfl, hf _⟩

theorem clearDot : CannotOverflow n (Machine.updateWork fun w => { w with dot := 0 }) 0 := fun _ _ =>
  ⟨rfl, Nat.le_refl 0⟩

theorem readArg (i : Fin 10) : CannotOverflow n (Machine.readArg i) n := fun s hs => by
  have hwrap : s.wrapping.inst.args[i] = s.inst.args[i] := rfl
  cases h : s.inst.args[i] with
  | some v =>
    rw [readArg_of_some h, readArg_of_some (hwrap.trans h)]
    exact ⟨rfl, hs⟩
  | none =>
    rw [readArg_of_none h, readArg_of_none (hwrap.trans h)]
    exact ⟨rfl, nofun⟩

theorem orBadArg (i : Fin 10) (v : Word64) : ∀ r : Option α, CannotOverflow n (Machine.orBadArg i v r) n
  | some x => pure x
  | none => raise nofun

theorem argAddr (i : Fin 10) : CannotOverflow n (Machine.argAddr i) n :=
  bind (readArg i) fun v => config (fun _ => orBadArg i v _) fun _ => rfl

theorem argInt (i : Fin 10) : CannotOverflow n (Machine.argInt i) n := bind (readArg i) fun v => orBadArg i v _

theorem argDim (i : Fin 10) : CannotOverflow n (Machine.argDim i) n := bind (readArg i) fun v => orBadArg i v _

theorem argF32 (i : Fin 10) : CannotOverflow n (Machine.argF32 i) n := bind (readArg i) fun v => orBadArg i v _

theorem sparseArgs : CannotOverflow n Machine.sparseArgs n :=
  bind (argAddr _) fun _ => bind (argAddr _) fun _ => bind (argDim _) fun _ => bind (argDim _) fun _ =>
    bind (argAddr _) fun _ => bind (argF32 _) fun _ => bind (argAddr _) fun _ => bind (argInt _) fun _ => pure _

theorem sparseBatchArgs : CannotOverflow n Machine.sparseBatchArgs n :=
  bind (argAddr _) fun _ => bind (argAddr _) fun _ => bind (argDim _) fun _ => bind (argDim _) fun _ =>
    bind (argAddr _) fun _ => bind (argAddr _) fun _ => bind (argDim _) fun _ => bind (argAddr _) fun _ =>
      bind (argInt _) fun _ => pure _

/-! #### Accesses and numbers -/

theorem check (k : Kind) (al : Bool) (a : Int) (m : Nat) : CannotOverflow n (Machine.check k al a m) n := fun s hs => by
  have hwrap : checkAccess s.wrapping.cfg k al a m = checkAccess s.cfg k al a m := checkAccess_wrap _ _ _ _ _
  cases hc : checkAccess s.cfg k al a m with
  | none =>
    rw [check_of_none hc, check_of_none (hwrap.trans hc)]
    exact ⟨rfl, hs⟩
  | some c =>
    rw [check_of_some hc, check_of_some (hwrap.trans hc)]
    exact ⟨rfl, checkAccess_ne_overflow hc⟩

theorem readByte (x : Nat) : CannotOverflow n (Machine.readByte x) n := by
  refine of_ok (fun s => ?_) fun s => ?_
  · have hwrap : s.wrapping.racing x = s.racing x := rfl
    unfold Machine.readByte
    rw [hwrap]
    split <;> rfl
  · unfold Machine.readByte
    split <;> exact ⟨_, _, rfl, rfl⟩

theorem readBytes : ∀ m a, CannotOverflow n (Machine.readBytes a m) n
  | 0, _ => pure []
  | m + 1, a => bind (readByte a) fun _ => bind (readBytes m (a + 1)) fun _ => pure _

theorem memRead (tag : Tag) (al : Bool) (a : Int) (m : Nat) : CannotOverflow n (Machine.memRead tag al a m) n :=
  bind (check _ _ _ _) fun _ => bind (updateWork fun _ => rfl) fun _ => readBytes _ _

theorem memWrite (al : Bool) (a : Int) (bytes : List Byte) : CannotOverflow n (Machine.memWrite al a bytes) n :=
  bind (check _ _ _ _) fun _ => bind (updateWork fun _ => rfl) fun _ => of_ok (fun _ => rfl) fun _ => ⟨_, _, rfl, rfl⟩

/-- A load is a read and a way to take the bytes. -/
theorem load {f : List Byte → α} (tag : Tag) (al : Bool) (a : Int) (m : Nat) :
    CannotOverflow n (Machine.memRead tag al a m >>= fun v => Pure.pure (f v)) n :=
  bind (memRead tag al a m) fun _ => pure _

theorem orNaN : ∀ v, CannotOverflow n (Machine.orNaN v) n
  | some f => pure f
  | none => of_ok (fun _ => rfl) fun _ => ⟨_, _, rfl, rfl⟩

theorem accumulate (e : Int) (c : Word32) : CannotOverflow n (Machine.accumulate e c) n :=
  bind (load _ _ _ _) fun _ => bind (orNaN _) fun _ => memWrite _ _ _

theorem aliasCheck : CannotOverflow n Machine.aliasCheck n := fun s hs => by
  have hwrap : s.wrapping.workNow = s.workNow := rfl
  unfold Machine.aliasCheck
  rw [hwrap]
  cases lowestAlias s.workNow.trace with
  | some x => exact ⟨rfl, nofun⟩
  | none => exact ⟨rfl, hs⟩

/-- A summand takes the running sum no further than its own magnitude. -/
theorem addDot {x : Int} (hx : x.natAbs ≤ n) (hfit : lo + n ≤ 2147483647) (site : Work → Site) :
    CannotOverflow lo (Machine.addDot x site) (lo + n) := fun s hs => by
  have hin : in32 (s.workNow.dot.toInt + x) = true := in32_of_natAbs_le (by omega)
  have hadd : ∀ t : State, t.workNow = s.workNow → Machine.addDot x site t =
      .ok () (t.withWork { s.workNow with dot := bits32 (s.workNow.dot.toInt + x) }) := fun t ht => by
    unfold Machine.addDot
    rw [Cmd.bind_ok (work_apply _), ht, Cmd.bind_ok (acc32_of_in32 hin _ _), updateWork_apply, ht]
  rw [hadd s rfl, hadd s.wrapping rfl]
  refine ⟨rfl, ?_⟩
  rw [EndsWithin, State.withWork_workNow]
  dsimp only
  rw [toInt_bits32_of_in32 hin]
  omega

/-- The lane primitive and the reducer give a block's sum, whose magnitude is at most `16·16384` (R102, R103). -/
theorem blockSum {f : Work → Cmd α}
    (hf : ∀ w, (reduce4 w.partials).toInt.natAbs ≤ 262144 → CannotOverflow lo (f w) hi) :
    CannotOverflow lo (dotBlock >>= fun _ => Machine.work >>= f) hi := fun s hs => by
  have hblock : ∀ t : State, t.workNow = s.workNow → t.cfg.dotMode = s.cfg.dotMode →
      (dotBlock >>= fun _ => Machine.work >>= f) t =
        f { s.workNow with partials := dot16Lanes s.cfg.dotMode s.workNow.latchA s.workNow.latchB }
          (t.withWork { s.workNow with partials := dot16Lanes s.cfg.dotMode s.workNow.latchA s.workNow.latchB }) :=
    fun t hw hmode => by
      rw [← hw, ← hmode]
      rfl
  rw [hblock s rfl rfl, hblock s.wrapping rfl rfl]
  refine hf _ ?_ (s.withWork _) hs
  dsimp only
  rw [toInt_reduce4_dot16Lanes]
  have := lanesDot_bounds s.cfg.dotMode s.workNow.latchA s.workNow.latchB
  omega

/-! #### The sparse kernels -/

theorem blockPrecond (cols : Nat) : CannotOverflow n (Machine.blockPrecond cols) n :=
  config (fun c => by
    split
    · exact pure ()
    · split <;> exact raise nofun) fun _ => rfl

theorem nextLedgerByte : CannotOverflow n Machine.nextLedgerByte n :=
  bind work fun _ => bind (load _ _ _ _) fun _ => bind (updateWork fun _ => rfl) fun _ => pure _

/-- An entry takes the running sum one block further. -/
theorem sparseEntry (hfit : n + 262144 ≤ 2147483647) (a : SparseArgs) (r i : Nat) :
    CannotOverflow n (Machine.sparseEntry a r i) (n + 262144) :=
  bind (updateWork fun _ => rfl) fun _ => bind nextLedgerByte fun bi => by
    dsimp only
    split
    · exact raise nofun
    · exact bind (load _ _ _ _) fun _ => bind (updateWork fun _ => rfl) fun _ => bind work fun _ =>
        bind (load _ _ _ _) fun _ => bind (updateWork fun _ => rfl) fun _ => blockSum fun w hw =>
          bind (addDot hw hfit _) fun _ => updateWork fun _ => rfl

/-- A row starts its sum anew and has at most 255 entries, so its sum stays within `255·262144` (R171, R177). -/
theorem sparseRow (a : SparseArgs) (r : Nat) : CannotOverflow 66846720 (Machine.sparseRow a r) 66846720 :=
  bind (updateWork fun _ => rfl) fun _ => bind nextLedgerByte fun count => bind clearDot fun _ =>
    have hcount : count.toNat < 256 := count.isLt
    have hentries := loop (start := 0) (n := count.toNat) (fun i => 262144 * i) fun i _ hi =>
      sparseEntry (n := 262144 * i) (by omega) a r i
    bind (hentries.mono (Nat.le_refl _) (by omega)) fun _ => bind work fun _ => bind (orNaN _) fun _ => accumulate _ _

theorem sparseBody (a : SparseArgs) : CannotOverflow 66846720 (Machine.sparseBody a) 66846720 :=
  bind (updateWork fun _ => rfl) fun _ => loop_same (fun r => sparseRow a r) _ _

theorem sparseBatch (a : SparseBatchArgs) (b : Nat) : CannotOverflow 66846720 (Machine.sparseBatch a b) 66846720 :=
  bind (updateWork fun _ => rfl) fun _ => bind (load _ _ _ _) fun _ => sparseBody _

/-- Neither sparse command overflows, and its running sum stays within 66846720 (R177). -/
theorem command {i : Instr} (h : i = .smma ∨ i = .smmaB) : CannotOverflow 66846720 (bodyOf i) 66846720 := by
  rcases h with rfl | rfl
  · exact bind sparseArgs fun a => bind (blockPrecond _) fun _ => bind (sparseBody a) fun _ => aliasCheck
  · exact bind sparseBatchArgs fun a => bind (blockPrecond _) fun _ =>
      bind (loop_same (fun b => sparseBatch a b) _ _) fun _ => aliasCheck

end CannotOverflow

/-! #### A whole command under either treatment -/

theorem scramble_wrapping : ∀ (n a : Nat) (s : State), s.wrapping.scramble a n = (s.scramble a n).wrapping
  | 0, _, _ => rfl
  | n + 1, a, s => scramble_wrapping n (a + 1) { s with mem := s.mem.write a s.nextByte, draws := s.draws + 1 }

theorem scrambleAll_wrapping :
    ∀ (rs : List (Nat × Nat)) (s : State), s.wrapping.scrambleAll rs = (s.scrambleAll rs).wrapping
  | [], _ => rfl
  | r :: rs, s => (congrArg (State.scrambleAll · rs) (scramble_wrapping r.2 r.1 s)).trans (scrambleAll_wrapping rs _)

theorem settleForeign_wrapping (s : State) : s.wrapping.settleForeign = s.settleForeign.wrapping :=
  congrArg (fun t : State => { t with foreign := [] }) (scrambleAll_wrapping
    (s.racedSoFar ++ racedByOthers s.workNow.trace s.foreign) { s with
      mem := landForeign s.mem s.foreign
      foreignReplies := _
      draws := _ })

/-- What other agents did meanwhile, and the end of the command, do not depend on the treatment of overflow. -/
theorem finish_wrapping (opc : BitVec 8) (r : EStateM.Result Cause State Unit) :
    finish opc (mapEnd State.wrapping r) = (finish opc r).wrapping := by
  cases r with
  | ok a s => exact congrArg State.endCommand (settleForeign_wrapping s)
  | error c s => exact congrArg (fun t => (State.recordFault t opc c).endCommand) (settleForeign_wrapping s)

section Command

variable {opc : BitVec 8} {body : Cmd Unit} {lo hi : Nat}

/-- A command that cannot overflow runs under `WRAP` as it runs under the launch's own treatment. -/
theorem CannotOverflow.runBody_wrapping (h : CannotOverflow lo body hi) (s : State) :
    runBody opc body s.wrapping = mapEnd State.wrapping (runBody opc body s) := by
  have hstart : ∀ (t : State) (foreseen : List (Nat × Nat)), body (t.wrapping.startCommand opc foreseen) =
      mapEnd State.wrapping (body (t.startCommand opc foreseen)) :=
    fun t foreseen => (h (t.startCommand opc foreseen) (Nat.zero_le _)).1
  have hraced : ∀ r : EStateM.Result Cause State Unit,
      (endState (mapEnd State.wrapping r)).racedSoFar = (endState r).racedSoFar := fun r => by cases r <;> rfl
  have hnext : ∀ foreseen, body ({ s.wrapping with draws := s.draws + 1 }.startCommand opc foreseen) =
      mapEnd State.wrapping (body ({ s with draws := s.draws + 1 }.startCommand opc foreseen)) :=
    hstart { s with draws := s.draws + 1 }
  have hdraws : s.wrapping.draws = s.draws := rfl
  have hforeign : s.wrapping.foreign.isEmpty = s.foreign.isEmpty := rfl
  simp only [runBody, hdraws, hforeign, hstart, hnext, hraced]
  split_ifs <;> rfl

/-- A command that cannot overflow raises no overflow, whatever other agents do. -/
theorem CannotOverflow.runBody_ne_overflow (h : CannotOverflow lo body hi) (s : State) (site : Site) (t : State) :
    runBody opc body s ≠ .error (.intOverflow site) t := by
  obtain ⟨n, foreseen, -, hrun, -⟩ := runBody_cases opc body s
  intro herr
  have hend := (h ({ s with draws := n }.startCommand opc foreseen) (Nat.zero_le _)).2
  rw [← hrun, herr] at hend
  exact hend site rfl

/-- Nor does it record one. -/
theorem CannotOverflow.finish_fault_ne (h : CannotOverflow lo body hi) (hbody : Cmd.Keeps Undisturbed body) {s : State}
    (hs : s.inst.fault = none) (o : BitVec 8) (site : Site) :
    (finish opc (runBody opc body s)).inst.fault ≠ some ⟨o, .intOverflow site⟩ := by
  obtain ⟨n, foreseen, -, hend⟩ := runBody_undisturbed hbody opc s
  have hnone := hend.fault.trans hs
  have hne := h.runBody_ne_overflow (opc := opc) s site
  generalize runBody opc body s = run at hnone hne ⊢
  cases run with
  | ok _ t =>
    rw [finish_fault opc _ hnone]
    nofun
  | error c t =>
    rw [finish_fault opc _ hnone]
    rintro ⟨⟩
    exact hne t rfl

end Command

/-- The sum of at most 255 blocks of at most `16·16384` each (R171, R177). -/
theorem natAbs_sparseSum_le (c : Config) (m : Memory) (a : SparseArgs) (r : Nat) {n : Nat} (hn : n ≤ 255) :
    (sumTo (fun i => sumTo (sparseTerm c m a r i) 16) n).natAbs ≤ 66846720 := by
  have hblock : ∀ i, (sumTo (sparseTerm c m a r i) 16).natAbs ≤ 262144 := fun i => by
    rw [sparseTerm_block]
    have := lanesDot_bounds c.dotMode (m.read128 (a.vector + 16 * blockIndex m a.ledger r i))
      (m.read128 (packedAt m a.matrix a.ledger r + 16 * i))
    omega
  have hsum := natAbs_sumTo_le hblock n
  omega

/-- Settles O56: no piece of either command overflows, so none sees the treatment of overflow, nor what follows it. -/
theorem sparseCannotOverflow : Obligations.SparseCannotOverflow := by
  refine ⟨fun i s t hi hexec => ?_,
    fun c m a r n hn => natAbs_sparseSum_le c m a r (hn.trans (blockCountOf_le m a.ledger r))⟩
  obtain ⟨ha, rfl⟩ := exec_next hexec
  have hcommand := CannotOverflow.command hi
  refine ⟨hcommand.finish_fault_ne (bodyOf_undisturbed i) ha.1, ?_⟩
  show exec i s.wrapping = .next (finish i.opc (runBody i.opc (bodyOf i) s)).wrapping
  rw [exec_eq_runCommand, runCommand_of_accepts (s := s.wrapping) ha, hcommand.runBody_wrapping, finish_wrapping]

end Sys2Proof.Machine
end

section
/-! PROOFS. The faults that are recorded (60_exceptions.md R202 to R212): which causes each piece of a command can raise, that
every record of a step is one of R212's table, and the end of a CMD write of an illegal word. -/

namespace Sys2Proof.Machine

/-! ### What a piece of a command raises -/

/-- The causes that the pieces of a command raise: the command's own, and for a sparse command an overflow, which no single
piece excludes, but the bound on a whole row's sum does (R177). -/
def MayRaise (i : Instr) (c : Cause) : Prop :=
  raises i c = true ∨ ((i = .smma ∨ i = .smmaB) ∧ ∃ site, c = .intOverflow site)

/-- Whatever the piece raises, it is a cause that the pieces of command `i` raise. -/
def RaisesOnly {α : Type} (i : Instr) (m : Cmd α) : Prop := ∀ s c t, m s = .error c t → MayRaise i c

namespace RaisesOnly

variable {α β : Type} {i : Instr}

/-! #### Sequences and loops -/

theorem of_ok {m : Cmd α} (h : ∀ s, ∃ a t, m s = .ok a t) : RaisesOnly i m := fun s c t he => by
  obtain ⟨a, u, hok⟩ := h s
  rw [hok] at he
  cases he

theorem pure (a : α) : RaisesOnly i (Pure.pure a : Cmd α) := of_ok fun s => ⟨a, s, rfl⟩

theorem raise {c : Cause} (h : raises i c = true) : RaisesOnly i (Machine.raise c : Cmd α) := fun _ _ _ he => by
  cases he
  exact .inl h

theorem config : RaisesOnly i Machine.config := of_ok fun s => ⟨s.cfg, s, rfl⟩

theorem work : RaisesOnly i Machine.work := of_ok fun s => ⟨s.workNow, s, rfl⟩

theorem updateWork (f : Work → Work) : RaisesOnly i (Machine.updateWork f) := of_ok fun _ => ⟨(), _, rfl⟩

theorem bind {m : Cmd α} {f : α → Cmd β} (hm : RaisesOnly i m) (hf : ∀ a, RaisesOnly i (f a)) :
    RaisesOnly i (m >>= f) := fun s c t he => by
  rcases Cmd.bind_eq_error he with he | ⟨a, u, -, he⟩
  · exact hm s c t he
  · exact hf a u c t he

theorem loop {body : Nat → Cmd Unit} (h : ∀ k, RaisesOnly i (body k)) : ∀ n lo, RaisesOnly i (Machine.loop lo n body)
  | 0, _ => pure ()
  | n + 1, lo => bind (h lo) fun _ => loop h n (lo + 1)

/-! #### Operands: the index is one of the command's registers (R203, R204) -/

theorem readArg {k : Fin 10} (hk : k < i.views.length) : RaisesOnly i (Machine.readArg k) := fun s c t he => by
  cases hx : s.inst.args[k] with
  | some v =>
    rw [readArg_of_some hx] at he
    cases he
  | none =>
    rw [readArg_of_none hx] at he
    cases he
    exact .inl (decide_eq_true hk)

theorem orBadArg {k : Fin 10} (hk : k < i.views.length) (v : Word64) :
    ∀ r : Option α, RaisesOnly i (Machine.orBadArg k v r)
  | some x => pure x
  | none => raise (decide_eq_true hk)

theorem argAddr {k : Fin 10} (hk : k < i.views.length) : RaisesOnly i (Machine.argAddr k) :=
  bind (readArg hk) fun v => bind config fun _ => orBadArg hk v _

theorem argInt {k : Fin 10} (hk : k < i.views.length) : RaisesOnly i (Machine.argInt k) :=
  bind (readArg hk) fun v => orBadArg hk v _

theorem argDim {k : Fin 10} (hk : k < i.views.length) : RaisesOnly i (Machine.argDim k) :=
  bind (readArg hk) fun v => orBadArg hk v _

theorem argF32 {k : Fin 10} (hk : k < i.views.length) : RaisesOnly i (Machine.argF32 k) :=
  bind (readArg hk) fun v => orBadArg hk v _

theorem denseArgs (h : 8 ≤ i.views.length) : RaisesOnly i Machine.denseArgs :=
  have hk : ∀ k : Fin 10, (k : Nat) < 8 → k < i.views.length := fun _ hk => Nat.lt_of_lt_of_le hk h
  bind (argAddr (hk 0 (by decide))) fun _ => bind (argDim (hk 1 (by decide))) fun _ =>
    bind (argDim (hk 2 (by decide))) fun _ => bind (argAddr (hk 3 (by decide))) fun _ =>
      bind (argAddr (hk 4 (by decide))) fun _ => bind (argDim (hk 5 (by decide))) fun _ =>
        bind (argAddr (hk 6 (by decide))) fun _ => bind (argInt (hk 7 (by decide))) fun _ => pure _

theorem sparseArgs : RaisesOnly .smma Machine.sparseArgs :=
  bind (argAddr (by decide)) fun _ => bind (argAddr (by decide)) fun _ => bind (argDim (by decide)) fun _ =>
    bind (argDim (by decide)) fun _ => bind (argAddr (by decide)) fun _ => bind (argF32 (by decide)) fun _ =>
      bind (argAddr (by decide)) fun _ => bind (argInt (by decide)) fun _ => pure _

theorem sparseBatchArgs : RaisesOnly .smmaB Machine.sparseBatchArgs :=
  bind (argAddr (by decide)) fun _ => bind (argAddr (by decide)) fun _ => bind (argDim (by decide)) fun _ =>
    bind (argDim (by decide)) fun _ => bind (argAddr (by decide)) fun _ => bind (argAddr (by decide)) fun _ =>
      bind (argDim (by decide)) fun _ => bind (argAddr (by decide)) fun _ => bind (argInt (by decide)) fun _ => pure _

/-! #### Accesses and numbers -/

/-- Every command raises the faults of a failed access (R208, R209). -/
theorem check (k : Kind) (al : Bool) (a : Int) (n : Nat) : RaisesOnly i (Machine.check k al a n) := fun s c t he => by
  cases hc : checkAccess s.cfg k al a n with
  | none =>
    rw [check_of_none hc] at he
    cases he
  | some cause =>
    rw [check_of_some hc] at he
    cases he
    unfold checkAccess at hc
    split_ifs at hc <;> cases hc <;> exact .inl rfl

theorem memRead (tag : Tag) (al : Bool) (a : Int) (n : Nat) : RaisesOnly i (Machine.memRead tag al a n) :=
  bind (check _ _ _ _) fun _ => bind (updateWork _) fun _ => of_ok fun s => by
    obtain ⟨bytes, draws, -, hread, -⟩ := readBytes_racing n a.toNat s
    exact ⟨bytes, _, hread⟩

theorem memWrite (al : Bool) (a : Int) (bytes : List Byte) : RaisesOnly i (Machine.memWrite al a bytes) :=
  bind (check _ _ _ _) fun _ => bind (updateWork _) fun _ => of_ok fun _ => ⟨(), _, rfl⟩

/-- A load is a read and a way to take the bytes. -/
theorem load {f : List Byte → α} (tag : Tag) (al : Bool) (a : Int) (n : Nat) :
    RaisesOnly i (Machine.memRead tag al a n >>= fun v => Pure.pure (f v)) :=
  bind (memRead tag al a n) fun _ => pure _

theorem orNaN (v : Option Word32) : RaisesOnly i (Machine.orNaN v) := of_ok fun s => by
  cases v <;> exact ⟨_, _, rfl⟩

/-- The overflow raised names the site (R210). -/
theorem acc32 {site : Work → Site} (h : ∀ w, MayRaise i (.intOverflow (site w))) (x : Int) :
    RaisesOnly i (Machine.acc32 x site) := fun s c t he => by
  unfold Machine.acc32 at he
  split at he
  · split at he <;> cases he
    exact h s.workNow
  · cases he

theorem dotBlock : RaisesOnly i Machine.dotBlock := bind config fun _ => updateWork _

theorem addDot {site : Work → Site} (h : ∀ w, MayRaise i (.intOverflow (site w))) (x : Int) :
    RaisesOnly i (Machine.addDot x site) :=
  bind work fun _ => bind (acc32 h _) fun _ => updateWork _

theorem addRowSum {site : Work → Site} (h : ∀ w, MayRaise i (.intOverflow (site w))) (x : Int) :
    RaisesOnly i (Machine.addRowSum x site) :=
  bind work fun _ => bind (acc32 h _) fun _ => updateWork _

theorem accumulate (e : Int) (c : Word32) : RaisesOnly i (Machine.accumulate e c) :=
  bind (load _ _ _ _) fun _ => bind (orNaN _) fun _ => memWrite _ _ _

theorem aliasCheck (h : ∀ x, raises i (.aliased x) = true) : RaisesOnly i Machine.aliasCheck := fun s c t he => by
  unfold Machine.aliasCheck at he
  split at he <;> cases he
  exact .inl (h _)

/-! #### The dense kernels: the steps of R135 are sites of both, those of R141 and R143 of DMMA.A -/

theorem denseBlock (hi : i = .dmmaS ∨ i = .dmmaA) (d : DenseArgs) (b r k : Nat) :
    RaisesOnly i (Machine.denseBlock d b r k) :=
  bind (updateWork _) fun _ => bind (load _ _ _ _) fun _ => bind (updateWork _) fun _ => bind (load _ _ _ _) fun _ =>
    bind (updateWork _) fun _ => bind dotBlock fun _ => bind work fun _ =>
      addDot (fun _ => .inl (by rcases hi with rfl | rfl <;> rfl)) _

theorem denseColumn (hi : i = .dmmaS ∨ i = .dmmaA) (d : DenseArgs) (b r c : Nat) :
    RaisesOnly i (Machine.denseColumn d b r c) :=
  bind (updateWork _) fun _ => bind (load _ _ _ _) fun _ => bind (load _ _ _ _) fun _ =>
    bind (addDot (fun _ => .inl (by rcases hi with rfl | rfl <;> rfl)) _) fun _ => pure _

theorem rowDot (d : DenseArgs) (b r : Nat) : RaisesOnly .dmmaS (Machine.rowDot d b r) :=
  bind (updateWork _) fun _ => bind (loop (fun k => denseBlock (.inl rfl) d b r k) _ _) fun _ =>
    loop (fun c => bind (denseColumn (.inl rfl) d b r c) fun _ => pure _) _ _

theorem denseBatch (d : DenseArgs) (b : Nat) : RaisesOnly .dmmaS (Machine.denseBatch d b) :=
  bind (updateWork _) fun _ => bind (load _ _ _ _) fun _ => loop (fun r =>
    bind (updateWork _) fun _ => bind (rowDot d b r) fun _ => bind work fun _ => bind (orNaN _) fun _ =>
      accumulate _ _) _ _

theorem rowDotSum (d : DenseArgs) (b r : Nat) : RaisesOnly .dmmaA (Machine.rowDotSum d b r) :=
  bind (updateWork _) fun _ =>
    bind (loop (fun k => bind (denseBlock (.inr rfl) d b r k) fun _ => bind work fun _ =>
      addRowSum (fun _ => .inl rfl) _) _ _) fun _ =>
        loop (fun c => bind (denseColumn (.inr rfl) d b r c) fun _ => addRowSum (fun _ => .inl rfl) _) _ _

theorem adjustedSum (dot rs off : Word32) : RaisesOnly .dmmaA (Machine.adjustedSum dot rs off) :=
  bind (acc32 (fun _ => .inl rfl) _) fun _ => acc32 (fun _ => .inl rfl) _

theorem scale3 (adj bs cs : Word32) : RaisesOnly i (Machine.scale3 adj bs cs) :=
  bind config fun c => by
    cases c.asymOrder with
    | leftToRight => exact bind (orNaN _) fun _ => orNaN _
    | scaleFirst => exact bind (orNaN _) fun _ => orNaN _

theorem asymRow (d : DenseArgs) (pcs b : Nat) (bs off : Word32) (r : Nat) :
    RaisesOnly .dmmaA (Machine.asymRow d pcs b bs off r) :=
  bind (updateWork _) fun _ => bind (rowDotSum d b r) fun _ => bind work fun _ => bind (adjustedSum _ _ _) fun _ =>
    bind (load _ _ _ _) fun _ => bind (scale3 _ _ _) fun _ => accumulate _ _

theorem asymBatch (d : DenseArgs) (pcs offsets b : Nat) : RaisesOnly .dmmaA (Machine.asymBatch d pcs offsets b) :=
  bind (updateWork _) fun _ => bind (load _ _ _ _) fun _ => bind (load _ _ _ _) fun _ =>
    loop (fun r => asymRow d pcs b _ _ r) _ _

/-! #### The sparse kernels -/

theorem blockPrecond (hi : i = .smma ∨ i = .smmaB) (cols : Nat) : RaisesOnly i (Machine.blockPrecond cols) :=
  bind config fun c => by
    split
    · exact pure ()
    · split <;> exact raise (by rcases hi with rfl | rfl <;> rfl)

theorem nextLedgerByte : RaisesOnly i Machine.nextLedgerByte :=
  bind work fun _ => bind (load _ _ _ _) fun _ => bind (updateWork _) fun _ => pure _

theorem sparseEntry (hi : i = .smma ∨ i = .smmaB) (a : SparseArgs) (r k : Nat) :
    RaisesOnly i (Machine.sparseEntry a r k) :=
  bind (updateWork _) fun _ => bind nextLedgerByte fun bi => by
    dsimp only
    split
    · exact raise (by rcases hi with rfl | rfl <;> rfl)
    · exact bind (load _ _ _ _) fun _ => bind (updateWork _) fun _ => bind work fun _ => bind (load _ _ _ _) fun _ =>
        bind (updateWork _) fun _ => bind dotBlock fun _ => bind work fun _ =>
          bind (addDot (fun _ => .inr ⟨hi, _, rfl⟩) _) fun _ => updateWork _

theorem sparseBody (hi : i = .smma ∨ i = .smmaB) (a : SparseArgs) : RaisesOnly i (Machine.sparseBody a) :=
  bind (updateWork _) fun _ => loop (fun r =>
    bind (updateWork _) fun _ => bind nextLedgerByte fun _ => bind (updateWork _) fun _ =>
      bind (loop (fun k => sparseEntry hi a r k) _ _) fun _ => bind work fun _ => bind (orNaN _) fun _ =>
        accumulate _ _) _ _

theorem sparseBatch (a : SparseBatchArgs) (b : Nat) : RaisesOnly .smmaB (Machine.sparseBatch a b) :=
  bind (updateWork _) fun _ => bind (load _ _ _ _) fun _ => sparseBody (.inr rfl) _

/-- What the pieces of each command raise (R212). -/
theorem command (i : Instr) : RaisesOnly i (bodyOf i) := by
  cases i with
  | dot16 =>
    exact bind (argAddr (by decide)) fun a => bind (argAddr (by decide)) fun b => bind (argAddr (by decide)) fun d =>
      bind (memRead _ _ _ _) fun _ => bind (updateWork _) fun _ => bind (memRead _ _ _ _) fun _ =>
        bind (updateWork _) fun _ => bind dotBlock fun _ => bind work fun _ => memWrite _ _ _
  | hred =>
    exact bind (argAddr (by decide)) fun a => bind (argAddr (by decide)) fun d => bind (memRead _ _ _ _) fun _ =>
      bind (updateWork _) fun _ => bind work fun _ => memWrite _ _ _
  | dmmaS =>
    exact bind (denseArgs (by decide)) fun d => bind (loop (fun b => denseBatch d b) _ _) fun _ =>
      aliasCheck fun _ => rfl
  | dmmaA =>
    exact bind (denseArgs (by decide)) fun d => bind (argAddr (by decide)) fun _ => bind (argAddr (by decide)) fun _ =>
      bind (loop (fun b => asymBatch d _ _ b) _ _) fun _ => aliasCheck fun _ => rfl
  | smma =>
    exact bind sparseArgs fun a => bind (blockPrecond (.inl rfl) _) fun _ => bind (sparseBody (.inl rfl) a) fun _ =>
      aliasCheck fun _ => rfl
  | smmaB =>
    exact bind sparseBatchArgs fun a => bind (blockPrecond (.inr rfl) _) fun _ =>
      bind (loop (fun b => sparseBatch a b) _ _) fun _ => aliasCheck fun _ => rfl

end RaisesOnly

/-! ### The record that a command leaves -/

/-- A command raises only its own faults, a sparse one no overflow (R177, R212). -/
theorem raises_of_runBody_error {i : Instr} {s t : State} {c : Cause} (h : runBody i.opc (bodyOf i) s = .error c t) :
    raises i c = true := by
  obtain ⟨n, foreseen, -, hrun, -⟩ := runBody_cases i.opc (bodyOf i) s
  rcases RaisesOnly.command i _ c t (hrun ▸ h) with hraises | ⟨hi, site, rfl⟩
  · exact hraises
  · exact absurd h ((CannotOverflow.command hi).runBody_ne_overflow s site t)

/-- The record at the end of a command that found none has the command's operation code and the cause that was raised
(R201). -/
theorem finish_record {body : Cmd Unit} (hbody : Cmd.Keeps Undisturbed body) {opc : BitVec 8} {s : State} {r : FaultRecord}
    (hs : s.inst.fault = none) (hr : (finish opc (runBody opc body s)).inst.fault = some r) :
    r.opc = opc ∧ ∃ t, runBody opc body s = .error r.cause t := by
  obtain ⟨n, foreseen, -, hend⟩ := runBody_undisturbed hbody opc s
  have hnone : (endState (runBody opc body s)).inst.fault = none := hend.fault.trans hs
  rcases finish_fault_cases opc hnone with hf | ⟨c, hf⟩
  · rw [hf] at hr
    cases hr
  · have herror := eq_error_of_finish_fault hnone hf
    rw [hf] at hr
    cases hr
    exact ⟨rfl, herror⟩

theorem command_record_allowed {i : Instr} {s : State} {r : FaultRecord} (hs : s.inst.fault = none)
    (hr : (finish i.opc (runBody i.opc (bodyOf i) s)).inst.fault = some r) : r.allowed := by
  obtain ⟨hopc, t, herror⟩ := finish_record (bodyOf_undisturbed i) hs hr
  exact .inl ⟨i, hopc, raises_of_runBody_error herror⟩

theorem illegal_record_allowed {w : Word32} {s : State} {r : FaultRecord} (hw : legalWord w = false)
    (hs : s.inst.fault = none)
    (hr : (finish 0x00 (runBody 0x00 (raise (.illegalCmd w)) s)).inst.fault = some r) : r.allowed := by
  obtain ⟨hopc, t, herror⟩ := finish_record (Cmd.Keeps.raise Undisturbed.neutral _) hs hr
  obtain ⟨n, foreseen, -, hrun, -⟩ := runBody_cases 0x00 (raise (.illegalCmd w)) s
  rw [hrun, raise_apply] at herror
  injection herror with hcause
  exact .inr ⟨hopc, .inl ⟨w, hcause.symm, hw⟩⟩

/-! ### The records after an interaction -/

/-- Where the other blocks and the earlier runs' records stay, only the addressed block can have a new record. -/
theorem mem_allFaults_of_others {s t : State} (hothers : t.others = s.others) (hpast : t.pastFaults = s.pastFaults)
    (hinst : ∀ r, t.inst.fault = some r → s.inst.fault = some r ∨ r.allowed) :
    ∀ r ∈ t.allFaults, r ∈ s.allFaults ∨ r.allowed := by
  intro r hr
  rw [mem_allFaults, hothers, hpast] at hr
  rcases hr with hr | hr
  · exact (hinst r hr).imp_left fun hr => mem_allFaults.2 (.inl hr)
  · exact .inl (mem_allFaults.2 (.inr hr))

/-- A caller's read of an unwritten register records `UnwrittenArg` with `opc = 0x00`, where nothing is on record (R203). -/
theorem callerReadArg_record {k : Fin 10} {s : State} {r : FaultRecord} (hr : (callerReadArg k s).inst.fault = some r) :
    s.inst.fault = some r ∨ r.allowed := by
  cases hx : s.inst.args[k] with
  | some v =>
    rw [callerReadArg_of_some hx] at hr
    exact .inl hr
  | none =>
    rw [callerReadArg_of_none hx, State.recordFault_fault, Option.some.injEq] at hr
    cases hfault : s.inst.fault with
    | some old =>
      rw [hfault] at hr
      exact .inl (congrArg some hr)
    | none =>
      rw [hfault] at hr
      exact .inr (hr ▸ .inr ⟨rfl, .inr ⟨k, rfl⟩⟩)

/-- A choice of another block brings no record (R221). -/
theorem mem_allFaults_of_select {s : State} {n : Nat} {b : Instance} (hb : s.others[n]? = some b) :
    ∀ r ∈ { s with inst := b, others := s.others.set n s.inst }.allFaults, r ∈ s.allFaults := by
  intro r hr
  rw [mem_allFaults] at hr ⊢
  rcases hr with hr | ⟨c, hc, hr⟩ | hr
  · exact .inr (.inl ⟨b, List.mem_of_getElem? hb, hr⟩)
  · rcases List.mem_or_eq_of_mem_set hc with hc | rfl
    · exact .inr (.inl ⟨c, hc, hr⟩)
    · exact .inl hr
  · exact .inr (.inr hr)

/-- A reset brings no record: those it reports were on record before (R240). -/
theorem mem_allFaults_of_reset {s : State} : ∀ r ∈ (platformReset s).allFaults, r ∈ s.allFaults := by
  intro r hr
  rcases mem_allFaults.1 hr with hr | ⟨b, hb, hr⟩ | hr
  · cases hr
  · obtain ⟨-, -, rfl⟩ := List.mem_map.1 hb
    cases hr
  · exact List.mem_append.2 (List.mem_append.1 hr).symm

/-- Every record after an interaction was one before, or is one that R212 allows. -/
theorem Performs.mem_allFaults_or_allowed {a : HostAct} {s t : State} (h : Performs a s t) :
    ∀ r ∈ t.allFaults, r ∈ s.allFaults ∨ r.allowed := by
  cases h with
  | argWrite k v => exact mem_allFaults_of_others rfl rfl fun _ hr => .inl hr
  | argRead k =>
    have hstay := callerReadArg_faultsStay k s
    exact mem_allFaults_of_others hstay.others hstay.pastFaults fun _ => callerReadArg_record
  | command w i _ ha _ =>
    have hstay := faultsStay_of_accepts (bodyOf_undisturbed i) i.opc ha
    exact mem_allFaults_of_others hstay.others hstay.pastFaults fun _ hr => .inr (command_record_allowed ha.1 hr)
  | illegal w _ ha hw =>
    have hstay := faultsStay_of_accepts (Cmd.Keeps.raise Undisturbed.neutral (.illegalCmd w)) 0x00 ha
    exact mem_allFaults_of_others hstay.others hstay.pastFaults fun _ hr => .inr (illegal_record_allowed hw ha.1 hr)
  | memWrite a data => exact mem_allFaults_of_others rfl rfl fun _ hr => .inl hr
  | memRead a n => exact mem_allFaults_of_others rfl rfl fun _ hr => .inl hr
  | during f => exact mem_allFaults_of_others rfl rfl fun _ hr => .inl hr
  | select n b _ hb => exact fun r hr => .inl (mem_allFaults_of_select hb r hr)
  | reset => exact fun r hr => .inl (mem_allFaults_of_reset r hr)

/-! ### The obligations -/

/-- Settles O8: a step is idle or one interaction, and an interaction's new record is one of the fault table. -/
theorem recordsStayAllowed : Obligations.RecordsStayAllowed := by
  intro s t hall h r hr
  rcases step_next h with ⟨-, rfl⟩ | ⟨a, rest, -, -, hp⟩
  · exact hall r hr
  · rcases hp.mem_allFaults_or_allowed r hr with hold | hallowed
    · exact hall r hold
    · exact hallowed

/-- Settles O3: the word is refused, and what runs in the command's place raises before it has done anything. -/
theorem illegalWordFaults : Obligations.IllegalWordFaults := by
  intro s w ha hidle hf hw
  refine ⟨?_, by rw [State.recordFault_fault, ha.1, Option.getD_none], rfl⟩
  have hwrite : writeCmd w s = illegalCommand w s := by rw [writeCmd, decode_of_not_legal hw]
  rw [hwrite, illegalCommand, runCommand_of_accepts ha, runBody_of_nil hf, State.startCommand_eq_at, raise_apply,
    finish_error_at hf ha.1, State.afterCommand_self hidle hf]

end Sys2Proof.Machine
end

section
/-! PROOFS. The platform's reset (70_reset_and_hazards.md R240) as a step of the machine: every block starts over, memory stays,
and the records of the run that ends pass to `pastFaults`. -/

namespace Sys2Proof.Machine

/-- After a reset no block has a fault recorded: every block is in its reset state (R45). -/
theorem platformReset_recorded (s : State) : (platformReset s).recorded = [] := by
  refine List.filterMap_eq_nil_iff.2 fun b hb => ?_
  rcases List.mem_cons.1 hb with rfl | hb
  · rfl
  · obtain ⟨-, -, rfl⟩ := List.mem_map.1 hb
    rfl

/-- With a reset as the next interaction and the addressed block not busy, the step is the reset (R240). -/
theorem step_of_reset {s : State} {rest : List HostAct} (hb : s.inst.busy = false) (hc : s.caller = .reset :: rest) :
    step s = .next (platformReset { s with caller := rest }) := by
  rw [step_of_caller hb hc, perform]

/-- Settles O13: the step is the platform's reset, which writes the blocks and the list of past faults and not memory. -/
theorem resetEvent : Obligations.ResetEvent := by
  intro s rest hb hc
  exact ⟨_, step_of_reset hb hc, rfl, rfl, rfl, rfl, platformReset_recorded _, rfl⟩

end Sys2Proof.Machine
end
